-- ==== Sys2Proof/Word.lean ====
section
/-! DEFINITION. The word types of the machine (00_scope.md R7, R12). -/

namespace Sys2Proof

/-- A machine word, 24 bits, bit 0 least significant (00_scope.md R10, R12). -/
abbrev Word := BitVec 24

/-- A word address, 22 bits: the wider addressing mode (10_state.md R23, R31). -/
abbrev Addr := BitVec 22

/-- An index-register number, 0 to 7 (10_state.md R20); `x + 1` is the second register of a pair,
with 7 wrapping to 0 (10_state.md R21). -/
abbrev RegIx := BitVec 3

/-- The modifier field M (30_encoding.md R91): 0 names none, 1 to 3 name `x[M]`. -/
abbrev ModIx := BitVec 2

/-- The 38-bit two's-complement mantissa of the floating accumulator (10_state.md R34). -/
abbrev Mantissa := BitVec 38

/-- The 9-bit exponent of the floating accumulator, excess 256 (10_state.md R34). -/
abbrev Exponent := BitVec 9

end Sys2Proof
end

