-- ==== Sys2Proof/Config.lean ====
section
/-! DEFINITION. The parameters of the model (00_scope.md R6, R8; 93_implementation_defined.md part A):
what an implementation fixes before a run, and the values nobody fixes. The parameters are a plain record
that a state carries and no step writes (log 1), so that a statement about every state holds for every value of
them. The open functions have no body: no proof can see what they are (log 3, log 4, log 5). -/

namespace Sys2Proof

/-- The function codes of the executive orders, open parameters (46_executive.md R370). -/
structure ExecCodes where
  rsr : BitVec 7
  wsr : BitVec 7
  exx : BitVec 7
  ldl : BitVec 7
  ldm : BitVec 7
  tdl : BitVec 7
  peri : BitVec 7
  xferIn : BitVec 7
  xferOut : BitVec 7
deriving DecidableEq, Repr

/-- The nine codes, in the order of the table of R370. -/
def ExecCodes.toList (k : ExecCodes) : List (BitVec 7) :=
  [k.rsr, k.wsr, k.exx, k.ldl, k.ldm, k.tdl, k.peri, k.xferIn, k.xferOut]

/-- The constraint of R370: the values are pairwise distinct and lie in 0140-0147 or 0166-0177. -/
abbrev ExecCodes.wf (k : ExecCodes) : Prop :=
  k.toList.Nodup ∧
    ∀ f ∈ k.toList, (0o140 ≤ f.toNat ∧ f.toNat ≤ 0o147) ∨ (0o166 ≤ f.toNat ∧ f.toNat ≤ 0o177)

/-- Which function a configuration field is (93_implementation_defined.md A.2): the reference instance the spec
writes out, or a function of the same arguments of which nothing is known. -/
inductive FieldChoice where
  | reference
  | unspecified
deriving DecidableEq, Repr

/-- The multiply and divide orders, as the argument `op` of `MD_EDGE` and `DIV_FAIL` (43_muldiv.md R269, R271). -/
inductive MdOp where
  | mpy | mpr | mpa | dvd | dvr | dvs
deriving DecidableEq, Repr

/-- What a floating operation answers (44_float.md R294): mantissa, exponent, and whether the exponent
overflowed. -/
structure FpResult where
  mantissa : Mantissa
  exponent : Exponent
  overflow : Bool
deriving DecidableEq, Repr, Inhabited

/-- What the conversion to fixed point answers (44_float.md R294, `FP_FIX`): the two words of a double-length
integer, and whether the value was out of range. -/
structure FixResult where
  hi : Word
  lo : Word
  overflow : Bool
deriving DecidableEq, Repr, Inhabited

/-- The parameters of the model, fixed before a run (00_scope.md R6, R8; 93_implementation_defined.md A.1, A.2). -/
structure Config where
  /-- `MEMSIZE`, words installed (00_scope.md R9). -/
  memSize : Nat
  /-- `HAS_FP`, floating-point unit present. -/
  hasFp : Bool
  /-- `HAS_MD`, multiply/divide unit present. -/
  hasMd : Bool
  /-- `HAS_AM22`, 22-bit addressing extension present. -/
  hasAm22 : Bool
  /-- `INITIAL_MODE`, the mode byte at reset (10_state.md R29). -/
  initialMode : BitVec 5
  /-- `BOOT_VECTOR` (70_reset_and_hazards.md R453). -/
  bootVector : Addr
  /-- `VEC_HW`, where hardware entry goes (60_exceptions.md R413). -/
  vecHw : Addr
  /-- `VEC_VOL`, where voluntary entry goes (60_exceptions.md R413). -/
  vecVol : Addr
  /-- `OFF_PC`, offset of the saved PC word (60_exceptions.md R412). -/
  offPc : Addr
  /-- `OFF_ST`, offset of the saved status word (60_exceptions.md R412). -/
  offSt : Addr
  /-- `OFF_FA`, offset of the first word of the saved floating accumulator (60_exceptions.md R412). -/
  offFa : Addr
  /-- `SR64_MEMVIOL`, a bit number (10_state.md R37). -/
  sr64MemViol : Fin 24
  /-- `SR64_OVFTRAP`, a bit number (10_state.md R37). -/
  sr64OvfTrap : Fin 24
  /-- `SR64_TIMER`, a bit number (10_state.md R37). -/
  sr64Timer : Fin 24
  /-- `SR65_ATTN`, the bits of SR65 that devices may set (10_state.md R38). -/
  sr65Attn : Word
  /-- The function codes of the executive orders (46_executive.md R370). -/
  codes : ExecCodes
  /-- `OVF_TRAP_ENABLED` (60_exceptions.md R416). -/
  ovfTrapEnabled : Bool
  /-- `SPACE_CHAR` (42_char_shift_misc.md R240). -/
  spaceChar : BitVec 6
  /-- `FP_ADD` (44_float.md R294). -/
  fpAdd : FieldChoice
  /-- `FP_SUB` (44_float.md R294). -/
  fpSub : FieldChoice
  /-- `FP_MUL` (44_float.md R294). -/
  fpMul : FieldChoice
  /-- `FP_DIV` (44_float.md R294). -/
  fpDiv : FieldChoice
  /-- `FP_FLOAT` (44_float.md R294). -/
  fpFloat : FieldChoice
  /-- `FP_FIX` (44_float.md R294). -/
  fpFix : FieldChoice
  /-- `MD_EDGE` (43_muldiv.md R271). -/
  mdEdge : FieldChoice
deriving DecidableEq, Repr

/-- The offsets of the twelve words of the save area (60_exceptions.md R412), in the order of its table. -/
def Config.saveOffsets (k : Config) : List Addr :=
  [0, 1, 2, 3, 4, 5, 6, 7, k.offPc, k.offSt, k.offFa, k.offFa + 1]

/-- The constraints on the parameters (93_implementation_defined.md A.1). -/
abbrev Config.wf (k : Config) : Prop :=
  (8 ≤ k.memSize ∧ k.memSize ≤ 2 ^ 22) ∧
  (8 ≤ k.bootVector.toNat ∧ k.bootVector.toNat < k.memSize ∧
    ((k.hasAm22 && k.initialMode.getLsbD 2) = false → k.bootVector.toNat < 2 ^ 15)) ∧
  (8 ≤ k.vecHw.toNat ∧ k.vecHw.toNat < 2 ^ 15 ∧ k.vecHw.toNat < k.memSize) ∧
  (8 ≤ k.vecVol.toNat ∧ k.vecVol.toNat < 2 ^ 15 ∧ k.vecVol.toNat < k.memSize) ∧
  k.vecHw ≠ k.vecVol ∧
  (8 ≤ k.offPc.toNat ∧ 8 ≤ k.offSt.toNat ∧ 8 ≤ k.offFa.toNat ∧ k.saveOffsets.Nodup) ∧
  (k.sr64MemViol ≠ k.sr64OvfTrap ∧ k.sr64MemViol ≠ k.sr64Timer ∧ k.sr64OvfTrap ≠ k.sr64Timer) ∧
  k.sr65Attn ≠ 0 ∧
  k.codes.wf ∧
  9 < k.spaceChar.toNat

/-- The fallback words of a failed divide (43_muldiv.md R269, `DIV_FAIL`): a total function of the order, the two old
registers and the divisor, of which nothing more is assumed (log 4). -/
opaque Config.divFail : MdOp → Word → Word → Word → Word × Word

/-- `MD_EDGE` where it is not the reference instance (43_muldiv.md R271; log 3). -/
opaque Config.mdEdgeOpen : MdOp → Word → Word → Word → Bool

/-- `FP_ADD` where it is not the reference instance (44_float.md R294; log 3). -/
opaque Config.fpAddOpen : Mantissa → Exponent → Mantissa → Exponent → FpResult

/-- `FP_SUB` where it is not the reference instance (44_float.md R294; log 3). -/
opaque Config.fpSubOpen : Mantissa → Exponent → Mantissa → Exponent → FpResult

/-- `FP_MUL` where it is not the reference instance (44_float.md R294; log 3). -/
opaque Config.fpMulOpen : Mantissa → Exponent → Mantissa → Exponent → FpResult

/-- `FP_DIV` where it is not the reference instance (44_float.md R294; log 3). -/
opaque Config.fpDivOpen : Mantissa → Exponent → Mantissa → Exponent → FpResult

/-- `FP_FLOAT` where it is not the reference instance (44_float.md R294; log 3). -/
opaque Config.fpFloatOpen : Word → Word → Mantissa × Exponent

/-- `FP_FIX` where it is not the reference instance (44_float.md R294; log 3). -/
opaque Config.fpFixOpen : Mantissa → Exponent → FixResult

/-- The answer of `sendCommand`, by the number of the draw (60_exceptions.md R431, R442; log 5). -/
opaque Config.sendCommand : Nat → Word

/-- The answer of `readSpecialRegister`, by the number of the draw (60_exceptions.md R431, R442; log 5). -/
opaque Config.readSpecialRegister : Nat → Word

end Sys2Proof
end

