-- ==== Sys2Proof/Syntax.lean ====
section
/-! DEFINITION. The instructions: one constructor per row of spec/opcode_table.json, with every field of the word
that the row does not fix (30_encoding.md R91, R92), the fields an order ignores among them, so that no bit of an
encoding is lost. -/

namespace Sys2Proof

/-- The instructions of the machine. Format A carries X, M and N; a shift carries the low ten bits of N, its submode being
the constructor (R102); format B carries X and N15, or N15 alone where X is the condition (R101); the search-list order
carries its function code, 0150 to 0165 (R382). -/
inductive Instr where
  /-- LDX, R164 of 41_fixed_point.md. -/
  | ldx (x : RegIx) (m : ModIx) (n : BitVec 12)
  /-- ADX, R165 of 41_fixed_point.md. -/
  | adx (x : RegIx) (m : ModIx) (n : BitVec 12)
  /-- NGX, R166 of 41_fixed_point.md. -/
  | ngx (x : RegIx) (m : ModIx) (n : BitVec 12)
  /-- SBX, R167 of 41_fixed_point.md. -/
  | sbx (x : RegIx) (m : ModIx) (n : BitVec 12)
  /-- LDXC, R168 of 41_fixed_point.md. -/
  | ldxc (x : RegIx) (m : ModIx) (n : BitVec 12)
  /-- ADXC, R169 of 41_fixed_point.md. -/
  | adxc (x : RegIx) (m : ModIx) (n : BitVec 12)
  /-- NGXC, R170 of 41_fixed_point.md. -/
  | ngxc (x : RegIx) (m : ModIx) (n : BitVec 12)
  /-- SBXC, R171 of 41_fixed_point.md. -/
  | sbxc (x : RegIx) (m : ModIx) (n : BitVec 12)
  /-- STO, R172 of 41_fixed_point.md. -/
  | sto (x : RegIx) (m : ModIx) (n : BitVec 12)
  /-- ADS, R173 of 41_fixed_point.md. -/
  | ads (x : RegIx) (m : ModIx) (n : BitVec 12)
  /-- NGS, R174 of 41_fixed_point.md. -/
  | ngs (x : RegIx) (m : ModIx) (n : BitVec 12)
  /-- SBS, R175 of 41_fixed_point.md. -/
  | sbs (x : RegIx) (m : ModIx) (n : BitVec 12)
  /-- STOC, R176 of 41_fixed_point.md. -/
  | stoc (x : RegIx) (m : ModIx) (n : BitVec 12)
  /-- ADSC, R177 of 41_fixed_point.md. -/
  | adsc (x : RegIx) (m : ModIx) (n : BitVec 12)
  /-- NGSC, R178 of 41_fixed_point.md. -/
  | ngsc (x : RegIx) (m : ModIx) (n : BitVec 12)
  /-- SBSC, R179 of 41_fixed_point.md. -/
  | sbsc (x : RegIx) (m : ModIx) (n : BitVec 12)
  /-- ANDX, R188 of 41_fixed_point.md. -/
  | andx (x : RegIx) (m : ModIx) (n : BitVec 12)
  /-- ORX, R189 of 41_fixed_point.md. -/
  | orx (x : RegIx) (m : ModIx) (n : BitVec 12)
  /-- ERX, R190 of 41_fixed_point.md. -/
  | erx (x : RegIx) (m : ModIx) (n : BitVec 12)
  /-- OBEY, R133 of 40_dispatch.md. -/
  | obey (x : RegIx) (m : ModIx) (n : BitVec 12)
  /-- LDCH, R212 of 42_char_shift_misc.md. -/
  | ldch (x : RegIx) (m : ModIx) (n : BitVec 12)
  /-- LDEX, R214 of 42_char_shift_misc.md. -/
  | ldex (x : RegIx) (m : ModIx) (n : BitVec 12)
  /-- TXU, R198 of 41_fixed_point.md. -/
  | txu (x : RegIx) (m : ModIx) (n : BitVec 12)
  /-- TXL, R199 of 41_fixed_point.md. -/
  | txl (x : RegIx) (m : ModIx) (n : BitVec 12)
  /-- ANDS, R191 of 41_fixed_point.md. -/
  | ands (x : RegIx) (m : ModIx) (n : BitVec 12)
  /-- ORS, R192 of 41_fixed_point.md. -/
  | ors (x : RegIx) (m : ModIx) (n : BitVec 12)
  /-- ERS, R193 of 41_fixed_point.md. -/
  | ers (x : RegIx) (m : ModIx) (n : BitVec 12)
  /-- STOZ, R197 of 41_fixed_point.md. -/
  | stoz (x : RegIx) (m : ModIx) (n : BitVec 12)
  /-- DCH, R213 of 42_char_shift_misc.md. -/
  | dch (x : RegIx) (m : ModIx) (n : BitVec 12)
  /-- DEX, R215 of 42_char_shift_misc.md. -/
  | dex (x : RegIx) (m : ModIx) (n : BitVec 12)
  /-- DSA, R216 of 42_char_shift_misc.md. -/
  | dsa (x : RegIx) (m : ModIx) (n : BitVec 12)
  /-- DLA, R217 of 42_char_shift_misc.md. -/
  | dla (x : RegIx) (m : ModIx) (n : BitVec 12)
  /-- MPY, R262 of 43_muldiv.md. -/
  | mpy (x : RegIx) (m : ModIx) (n : BitVec 12)
  /-- MPR, R263 of 43_muldiv.md. -/
  | mpr (x : RegIx) (m : ModIx) (n : BitVec 12)
  /-- MPA, R264 of 43_muldiv.md. -/
  | mpa (x : RegIx) (m : ModIx) (n : BitVec 12)
  /-- CDB, R239 of 42_char_shift_misc.md. -/
  | cdb (x : RegIx) (m : ModIx) (n : BitVec 12)
  /-- DVD, R266 of 43_muldiv.md. -/
  | dvd (x : RegIx) (m : ModIx) (n : BitVec 12)
  /-- DVR, R267 of 43_muldiv.md. -/
  | dvr (x : RegIx) (m : ModIx) (n : BitVec 12)
  /-- DVS, R268 of 43_muldiv.md. -/
  | dvs (x : RegIx) (m : ModIx) (n : BitVec 12)
  /-- CBD, R240 of 42_char_shift_misc.md. -/
  | cbd (x : RegIx) (m : ModIx) (n : BitVec 12)
  /-- BZE, R331 of 45_branch.md. -/
  | bze (x : RegIx) (n : BitVec 15)
  /-- BNZ, R332 of 45_branch.md. -/
  | bnz (x : RegIx) (n : BitVec 15)
  /-- BPZ, R333 of 45_branch.md. -/
  | bpz (x : RegIx) (n : BitVec 15)
  /-- BNG, R334 of 45_branch.md. -/
  | bng (x : RegIx) (n : BitVec 15)
  /-- BUX, R336 of 45_branch.md. -/
  | bux (x : RegIx) (n : BitVec 15)
  /-- BDX, R337 of 45_branch.md. -/
  | bdx (x : RegIx) (n : BitVec 15)
  /-- BCHX, R338 of 45_branch.md. -/
  | bchx (x : RegIx) (n : BitVec 15)
  /-- BCT, R339 of 45_branch.md. -/
  | bct (x : RegIx) (n : BitVec 15)
  /-- CALL, R340 of 45_branch.md. -/
  | call (x : RegIx) (n : BitVec 15)
  /-- EXIT, R341 of 45_branch.md. -/
  | exit (x : RegIx) (n : BitVec 15)
  /-- BRN, R343 of 45_branch.md. -/
  | brn (n : BitVec 15)
  /-- BVS, R344 of 45_branch.md. -/
  | bvs (n : BitVec 15)
  /-- BVSR, R345 of 45_branch.md. -/
  | bvsr (n : BitVec 15)
  /-- BVC, R346 of 45_branch.md. -/
  | bvc (n : BitVec 15)
  /-- BVCR, R347 of 45_branch.md. -/
  | bvcr (n : BitVec 15)
  /-- BCS, R348 of 45_branch.md. -/
  | bcs (n : BitVec 15)
  /-- BCC, R349 of 45_branch.md. -/
  | bcc (n : BitVec 15)
  /-- BVCI, R350 of 45_branch.md. -/
  | bvci (n : BitVec 15)
  /-- BFP0, R351 of 45_branch.md. -/
  | bfp0 (n : BitVec 15)
  /-- BFP1, R351 of 45_branch.md. -/
  | bfp1 (n : BitVec 15)
  /-- BFP2, R351 of 45_branch.md. -/
  | bfp2 (n : BitVec 15)
  /-- BFP3, R351 of 45_branch.md. -/
  | bfp3 (n : BitVec 15)
  /-- BFP4, R351 of 45_branch.md. -/
  | bfp4 (n : BitVec 15)
  /-- BFP5, R351 of 45_branch.md. -/
  | bfp5 (n : BitVec 15)
  /-- LDN, R180 of 41_fixed_point.md. -/
  | ldn (x : RegIx) (m : ModIx) (n : BitVec 12)
  /-- ADN, R181 of 41_fixed_point.md. -/
  | adn (x : RegIx) (m : ModIx) (n : BitVec 12)
  /-- NGN, R182 of 41_fixed_point.md. -/
  | ngn (x : RegIx) (m : ModIx) (n : BitVec 12)
  /-- SBN, R183 of 41_fixed_point.md. -/
  | sbn (x : RegIx) (m : ModIx) (n : BitVec 12)
  /-- LDNC, R184 of 41_fixed_point.md. -/
  | ldnc (x : RegIx) (m : ModIx) (n : BitVec 12)
  /-- ADNC, R185 of 41_fixed_point.md. -/
  | adnc (x : RegIx) (m : ModIx) (n : BitVec 12)
  /-- NGNC, R186 of 41_fixed_point.md. -/
  | ngnc (x : RegIx) (m : ModIx) (n : BitVec 12)
  /-- SBNC, R187 of 41_fixed_point.md. -/
  | sbnc (x : RegIx) (m : ModIx) (n : BitVec 12)
  /-- SLC, R225 of 42_char_shift_misc.md. -/
  | slc (x : RegIx) (m : ModIx) (n : BitVec 10)
  /-- SLL, R226 of 42_char_shift_misc.md. -/
  | sll (x : RegIx) (m : ModIx) (n : BitVec 10)
  /-- SLA, R227 of 42_char_shift_misc.md. -/
  | sla (x : RegIx) (m : ModIx) (n : BitVec 10)
  /-- SLCD, R231 of 42_char_shift_misc.md. -/
  | slcd (x : RegIx) (m : ModIx) (n : BitVec 10)
  /-- SLLD, R232 of 42_char_shift_misc.md. -/
  | slld (x : RegIx) (m : ModIx) (n : BitVec 10)
  /-- SLAD, R233 of 42_char_shift_misc.md. -/
  | slad (x : RegIx) (m : ModIx) (n : BitVec 10)
  /-- SRC, R228 of 42_char_shift_misc.md. -/
  | src (x : RegIx) (m : ModIx) (n : BitVec 10)
  /-- SRL, R229 of 42_char_shift_misc.md. -/
  | srl (x : RegIx) (m : ModIx) (n : BitVec 10)
  /-- SRA, R230 of 42_char_shift_misc.md. -/
  | sra (x : RegIx) (m : ModIx) (n : BitVec 10)
  /-- SRCD, R234 of 42_char_shift_misc.md. -/
  | srcd (x : RegIx) (m : ModIx) (n : BitVec 10)
  /-- SRLD, R235 of 42_char_shift_misc.md. -/
  | srld (x : RegIx) (m : ModIx) (n : BitVec 10)
  /-- SRAD, R236 of 42_char_shift_misc.md. -/
  | srad (x : RegIx) (m : ModIx) (n : BitVec 10)
  /-- NORM, R245 of 42_char_shift_misc.md. -/
  | norm (x : RegIx) (m : ModIx) (n : BitVec 12)
  /-- NORMD, R245 of 42_char_shift_misc.md. -/
  | normd (x : RegIx) (m : ModIx) (n : BitVec 12)
  /-- MVCH, R241 of 42_char_shift_misc.md. -/
  | mvch (x : RegIx) (m : ModIx) (n : BitVec 12)
  /-- SMO, R132 of 40_dispatch.md. -/
  | smo (x : RegIx) (m : ModIx) (n : BitVec 12)
  /-- ANDN, R194 of 41_fixed_point.md. -/
  | andn (x : RegIx) (m : ModIx) (n : BitVec 12)
  /-- ORN, R195 of 41_fixed_point.md. -/
  | orn (x : RegIx) (m : ModIx) (n : BitVec 12)
  /-- ERN, R196 of 41_fixed_point.md. -/
  | ern (x : RegIx) (m : ModIx) (n : BitVec 12)
  /-- NULL, R200 of 41_fixed_point.md. -/
  | null (x : RegIx) (m : ModIx) (n : BitVec 12)
  /-- LDCT, R244 of 42_char_shift_misc.md. -/
  | ldct (x : RegIx) (m : ModIx) (n : BitVec 12)
  /-- MODE, R237 of 42_char_shift_misc.md. -/
  | mode (x : RegIx) (m : ModIx) (n : BitVec 12)
  /-- MOVE, R242 of 42_char_shift_misc.md. -/
  | move (x : RegIx) (m : ModIx) (n : BitVec 12)
  /-- SUM, R243 of 42_char_shift_misc.md. -/
  | sum (x : RegIx) (m : ModIx) (n : BitVec 12)
  /-- FLOAT, R306 of 44_float.md. -/
  | float (x : RegIx) (m : ModIx) (n : BitVec 12)
  /-- FIX, R307 of 44_float.md. -/
  | fix (x : RegIx) (m : ModIx) (n : BitVec 12)
  /-- FAD, R296 of 44_float.md. -/
  | fad (x : RegIx) (m : ModIx) (n : BitVec 12)
  /-- FSB, R297 of 44_float.md. -/
  | fsb (x : RegIx) (m : ModIx) (n : BitVec 12)
  /-- FMPY, R299 of 44_float.md. -/
  | fmpy (x : RegIx) (m : ModIx) (n : BitVec 12)
  /-- FDVD, R301 of 44_float.md. -/
  | fdvd (x : RegIx) (m : ModIx) (n : BitVec 12)
  /-- LFP, R304 of 44_float.md. -/
  | lfp (x : RegIx) (m : ModIx) (n : BitVec 12)
  /-- SFP, R305 of 44_float.md. -/
  | sfp (x : RegIx) (m : ModIx) (n : BitVec 12)
  /-- RSR, R373 of 46_executive.md. -/
  | rsr (x : RegIx) (m : ModIx) (n : BitVec 12)
  /-- WSR, R374 of 46_executive.md. -/
  | wsr (x : RegIx) (m : ModIx) (n : BitVec 12)
  /-- EXX, R378 of 46_executive.md. -/
  | exx (x : RegIx) (m : ModIx) (n : BitVec 12)
  /-- LDL, R375 of 46_executive.md. -/
  | ldl (x : RegIx) (m : ModIx) (n : BitVec 12)
  /-- LDM, R376 of 46_executive.md. -/
  | ldm (x : RegIx) (m : ModIx) (n : BitVec 12)
  /-- TDL, R377 of 46_executive.md. -/
  | tdl (x : RegIx) (m : ModIx) (n : BitVec 12)
  /-- PERI, R379 of 46_executive.md. -/
  | peri (x : RegIx) (m : ModIx) (n : BitVec 12)
  /-- XFER_IN, R381 of 46_executive.md. -/
  | xferIn (x : RegIx) (m : ModIx) (n : BitVec 12)
  /-- XFER_OUT, R381 of 46_executive.md. -/
  | xferOut (x : RegIx) (m : ModIx) (n : BitVec 12)
  /-- SEARCH, R382 of 46_executive.md. -/
  | search (f : BitVec 7) (x : RegIx) (m : ModIx) (n : BitVec 12)
deriving DecidableEq, Repr

/-- The words that match no row of the table (30_encoding.md R104, R108): what the decoder answers for each, with the
fields the operand address is computed from. -/
inductive Reserved where
  /-- A shift with submode 3 (42_char_shift_misc.md R220). -/
  | shiftSubmode3 (f : BitVec 7) (x : RegIx) (m : ModIx) (n : BitVec 10)
  /-- BFP with X = 6 or 7 (45_branch.md R351). -/
  | floatCondition (x : RegIx) (n : BitVec 15)
  /-- A code of the executive group that no parameter names and that is not 0150 to 0165 (46_executive.md R383). -/
  | unassignedExec (f : BitVec 7) (x : RegIx) (m : ModIx) (n : BitVec 12)
deriving DecidableEq, Repr

end Sys2Proof
end

