-- ==== Sys2Proof/WellFormed.lean ====
section
/-! DEFINITION. Which instructions are well formed: those whose fields the encoding admits. The widths of the fields
are in their types; what is left is the range of the search-list codes (46_executive.md R382). -/

namespace Sys2Proof

/-- A search-list code lies in 0150-0165 (46_executive.md R382). -/
abbrev searchCode (f : BitVec 7) : Prop := 0o150 ≤ f.toNat ∧ f.toNat ≤ 0o165

/-- The instruction is one that a word can hold. -/
def Instr.wf (i : Instr) : Bool :=
  match i with
  | .ldx _ _ _ => true
  | .adx _ _ _ => true
  | .ngx _ _ _ => true
  | .sbx _ _ _ => true
  | .ldxc _ _ _ => true
  | .adxc _ _ _ => true
  | .ngxc _ _ _ => true
  | .sbxc _ _ _ => true
  | .sto _ _ _ => true
  | .ads _ _ _ => true
  | .ngs _ _ _ => true
  | .sbs _ _ _ => true
  | .stoc _ _ _ => true
  | .adsc _ _ _ => true
  | .ngsc _ _ _ => true
  | .sbsc _ _ _ => true
  | .andx _ _ _ => true
  | .orx _ _ _ => true
  | .erx _ _ _ => true
  | .obey _ _ _ => true
  | .ldch _ _ _ => true
  | .ldex _ _ _ => true
  | .txu _ _ _ => true
  | .txl _ _ _ => true
  | .ands _ _ _ => true
  | .ors _ _ _ => true
  | .ers _ _ _ => true
  | .stoz _ _ _ => true
  | .dch _ _ _ => true
  | .dex _ _ _ => true
  | .dsa _ _ _ => true
  | .dla _ _ _ => true
  | .mpy _ _ _ => true
  | .mpr _ _ _ => true
  | .mpa _ _ _ => true
  | .cdb _ _ _ => true
  | .dvd _ _ _ => true
  | .dvr _ _ _ => true
  | .dvs _ _ _ => true
  | .cbd _ _ _ => true
  | .bze _ _ => true
  | .bnz _ _ => true
  | .bpz _ _ => true
  | .bng _ _ => true
  | .bux _ _ => true
  | .bdx _ _ => true
  | .bchx _ _ => true
  | .bct _ _ => true
  | .call _ _ => true
  | .exit _ _ => true
  | .brn _ => true
  | .bvs _ => true
  | .bvsr _ => true
  | .bvc _ => true
  | .bvcr _ => true
  | .bcs _ => true
  | .bcc _ => true
  | .bvci _ => true
  | .bfp0 _ => true
  | .bfp1 _ => true
  | .bfp2 _ => true
  | .bfp3 _ => true
  | .bfp4 _ => true
  | .bfp5 _ => true
  | .ldn _ _ _ => true
  | .adn _ _ _ => true
  | .ngn _ _ _ => true
  | .sbn _ _ _ => true
  | .ldnc _ _ _ => true
  | .adnc _ _ _ => true
  | .ngnc _ _ _ => true
  | .sbnc _ _ _ => true
  | .slc _ _ _ => true
  | .sll _ _ _ => true
  | .sla _ _ _ => true
  | .slcd _ _ _ => true
  | .slld _ _ _ => true
  | .slad _ _ _ => true
  | .src _ _ _ => true
  | .srl _ _ _ => true
  | .sra _ _ _ => true
  | .srcd _ _ _ => true
  | .srld _ _ _ => true
  | .srad _ _ _ => true
  | .norm _ _ _ => true
  | .normd _ _ _ => true
  | .mvch _ _ _ => true
  | .smo _ _ _ => true
  | .andn _ _ _ => true
  | .orn _ _ _ => true
  | .ern _ _ _ => true
  | .null _ _ _ => true
  | .ldct _ _ _ => true
  | .mode _ _ _ => true
  | .move _ _ _ => true
  | .sum _ _ _ => true
  | .float _ _ _ => true
  | .fix _ _ _ => true
  | .fad _ _ _ => true
  | .fsb _ _ _ => true
  | .fmpy _ _ _ => true
  | .fdvd _ _ _ => true
  | .lfp _ _ _ => true
  | .sfp _ _ _ => true
  | .rsr _ _ _ => true
  | .wsr _ _ _ => true
  | .exx _ _ _ => true
  | .ldl _ _ _ => true
  | .ldm _ _ _ => true
  | .tdl _ _ _ => true
  | .peri _ _ _ => true
  | .xferIn _ _ _ => true
  | .xferOut _ _ _ => true
  | .search f _ _ _ => decide (searchCode f)

end Sys2Proof
end

