-- ==== Sys2Proof/Decode.lean ====
section
/-! DEFINITION. The instruction word, read and written (30_encoding.md): the decoder, total on every 24-bit word and
refusing by name the words that match no row of the opcode table, and after it the encoder, from the same tables. -/

namespace Sys2Proof

/-- Field X, bits 23:21 (30_encoding.md R91). -/
def fieldX (w : Word) : RegIx := w.extractLsb' 21 3

/-- Field F, bits 20:14 (30_encoding.md R91). -/
def fieldF (w : Word) : BitVec 7 := w.extractLsb' 14 7

/-- Field M, bits 13:12 (30_encoding.md R91). -/
def fieldM (w : Word) : ModIx := w.extractLsb' 12 2

/-- Field N, bits 11:0 (30_encoding.md R91). -/
def fieldN (w : Word) : BitVec 12 := w.extractLsb' 0 12

/-- Field F6, bits 20:15 of a format-B word (30_encoding.md R92). -/
def fieldF6 (w : Word) : BitVec 6 := w.extractLsb' 15 6

/-- Field N15, bits 14:0 of a format-B word (30_encoding.md R92). -/
def fieldN15 (w : Word) : BitVec 15 := w.extractLsb' 0 15

/-- What a format-A function code stands for: the instruction or the reserved encoding, from X, M and N. -/
abbrev EntryA := RegIx → ModIx → BitVec 12 → Except Reserved Instr

/-- What a format-B function stands for, from X and N15. -/
abbrev EntryB := RegIx → BitVec 15 → Except Reserved Instr

/-- A function code with one meaning. -/
def plain (i : RegIx → ModIx → BitVec 12 → Instr) : EntryA := fun x m n => .ok (i x m n)

/-- A shift function: bits 11:10 of N choose circular, logical or arithmetic, and submode 3 is reserved
(30_encoding.md R98, R102, R104). -/
def shiftBy (f : BitVec 7) (circular logical arithmetic : RegIx → ModIx → BitVec 10 → Instr) : EntryA :=
  fun x m n =>
    match (n.extractLsb' 10 2).toNat with
    | 0 => .ok (circular x m (n.extractLsb' 0 10))
    | 1 => .ok (logical x m (n.extractLsb' 0 10))
    | 2 => .ok (arithmetic x m (n.extractLsb' 0 10))
    | _ => .error (.shiftSubmode3 f x m (n.extractLsb' 0 10))

/-- The function codes 000-047 of the map of R100, in order. -/
def lowCodes : List EntryA :=
  [plain .ldx, plain .adx, plain .ngx, plain .sbx, plain .ldxc, plain .adxc, plain .ngxc, plain .sbxc] ++
  [plain .sto, plain .ads, plain .ngs, plain .sbs, plain .stoc, plain .adsc, plain .ngsc, plain .sbsc] ++
  [plain .andx, plain .orx, plain .erx, plain .obey, plain .ldch, plain .ldex, plain .txu, plain .txl] ++
  [plain .ands, plain .ors, plain .ers, plain .stoz, plain .dch, plain .dex, plain .dsa, plain .dla] ++
  [plain .mpy, plain .mpr, plain .mpa, plain .cdb, plain .dvd, plain .dvr, plain .dvs, plain .cbd]

/-- The function codes 0100-0137 of the map of R100, in order. -/
def highCodes : List EntryA :=
  [plain .ldn, plain .adn, plain .ngn, plain .sbn, plain .ldnc, plain .adnc, plain .ngnc, plain .sbnc] ++
  [shiftBy 0o110#7 .slc .sll .sla, shiftBy 0o111#7 .slcd .slld .slad, shiftBy 0o112#7 .src .srl .sra, shiftBy 0o113#7 .srcd .srld .srad, plain .norm, plain .normd, plain .mvch, plain .smo] ++
  [plain .andn, plain .orn, plain .ern, plain .null, plain .ldct, plain .mode, plain .move, plain .sum] ++
  [plain .float, plain .fix, plain .fad, plain .fsb, plain .fmpy, plain .fdvd, plain .lfp, plain .sfp]

/-- A branch function with one meaning. -/
def register (i : RegIx → BitVec 15 → Instr) : EntryB := fun x n => .ok (i x n)

/-- Function 074/075: X is the condition (45_branch.md R342). -/
def flagBranch : EntryB := fun x n =>
  match x.toNat with
  | 0 => .ok (.brn n)
  | 1 => .ok (.bvs n)
  | 2 => .ok (.bvsr n)
  | 3 => .ok (.bvc n)
  | 4 => .ok (.bvcr n)
  | 5 => .ok (.bcs n)
  | 6 => .ok (.bcc n)
  | _ => .ok (.bvci n)

/-- Function 076/077: X is the floating condition, and 6 and 7 are reserved (45_branch.md R351). -/
def floatBranch : EntryB := fun x n =>
  match x.toNat with
  | 0 => .ok (.bfp0 n)
  | 1 => .ok (.bfp1 n)
  | 2 => .ok (.bfp2 n)
  | 3 => .ok (.bfp3 n)
  | 4 => .ok (.bfp4 n)
  | 5 => .ok (.bfp5 n)
  | _ => .error (.floatCondition x n)

/-- The branch functions F6 = 024 to 037 of the map of R100, in order. -/
def branchCodes : List EntryB :=
  [register .bze, register .bnz, register .bpz, register .bng] ++
  [register .bux, register .bdx, register .bchx, register .bct] ++
  [register .call, register .exit, flagBranch, floatBranch]

/-- The executive group 0140-0177 (46_executive.md R372, R103 of 30_encoding.md): the search-list codes, the codes the
parameters name, and the unassigned ones. -/
def decodeExec (k : ExecCodes) (f : BitVec 7) (x : RegIx) (m : ModIx) (n : BitVec 12) : Except Reserved Instr :=
  if searchCode f then .ok (.search f x m n)
  else if f = k.rsr then .ok (.rsr x m n)
  else if f = k.wsr then .ok (.wsr x m n)
  else if f = k.ldl then .ok (.ldl x m n)
  else if f = k.ldm then .ok (.ldm x m n)
  else if f = k.tdl then .ok (.tdl x m n)
  else if f = k.exx then .ok (.exx x m n)
  else if f = k.peri then .ok (.peri x m n)
  else if f = k.xferIn then .ok (.xferIn x m n)
  else if f = k.xferOut then .ok (.xferOut x m n)
  else .error (.unassignedExec f x m n)

/-- The entry of a table of the opcode map: the word's function code is always inside it. -/
def entryA (codes : List EntryA) (i : Nat) (f : BitVec 7) : EntryA :=
  codes.getD i fun x m n => .error (.unassignedExec f x m n)

/-- The decoder (30_encoding.md R94): the class from the function code, then the row. It is total: every word is an
instruction of the table or one of the reserved encodings of R104. -/
def decode (k : ExecCodes) (w : Word) : Except Reserved Instr :=
  let f := (fieldF w).toNat
  if f < 0o50 then entryA lowCodes f (fieldF w) (fieldX w) (fieldM w) (fieldN w)
  else if f < 0o100 then
    branchCodes.getD ((fieldF6 w).toNat - 0o24) floatBranch (fieldX w) (fieldN15 w)
  else if f < 0o140 then entryA highCodes (f - 0o100) (fieldF w) (fieldX w) (fieldM w) (fieldN w)
  else decodeExec k (fieldF w) (fieldX w) (fieldM w) (fieldN w)

/-- A format-A word from its fields (30_encoding.md R93). -/
def formatA (x : RegIx) (f : BitVec 7) (m : ModIx) (n : BitVec 12) : Word := x ++ f ++ m ++ n

/-- A format-B word from its fields (30_encoding.md R93). -/
def formatB (x : RegIx) (f6 : BitVec 6) (n : BitVec 15) : Word := x ++ f6 ++ n

/-- The word of an instruction (30_encoding.md R93, R100 to R103). -/
def encode (k : ExecCodes) (i : Instr) : Word :=
  match i with
  | .ldx x m n => formatA x 0o000#7 m n
  | .adx x m n => formatA x 0o001#7 m n
  | .ngx x m n => formatA x 0o002#7 m n
  | .sbx x m n => formatA x 0o003#7 m n
  | .ldxc x m n => formatA x 0o004#7 m n
  | .adxc x m n => formatA x 0o005#7 m n
  | .ngxc x m n => formatA x 0o006#7 m n
  | .sbxc x m n => formatA x 0o007#7 m n
  | .sto x m n => formatA x 0o010#7 m n
  | .ads x m n => formatA x 0o011#7 m n
  | .ngs x m n => formatA x 0o012#7 m n
  | .sbs x m n => formatA x 0o013#7 m n
  | .stoc x m n => formatA x 0o014#7 m n
  | .adsc x m n => formatA x 0o015#7 m n
  | .ngsc x m n => formatA x 0o016#7 m n
  | .sbsc x m n => formatA x 0o017#7 m n
  | .andx x m n => formatA x 0o020#7 m n
  | .orx x m n => formatA x 0o021#7 m n
  | .erx x m n => formatA x 0o022#7 m n
  | .obey x m n => formatA x 0o023#7 m n
  | .ldch x m n => formatA x 0o024#7 m n
  | .ldex x m n => formatA x 0o025#7 m n
  | .txu x m n => formatA x 0o026#7 m n
  | .txl x m n => formatA x 0o027#7 m n
  | .ands x m n => formatA x 0o030#7 m n
  | .ors x m n => formatA x 0o031#7 m n
  | .ers x m n => formatA x 0o032#7 m n
  | .stoz x m n => formatA x 0o033#7 m n
  | .dch x m n => formatA x 0o034#7 m n
  | .dex x m n => formatA x 0o035#7 m n
  | .dsa x m n => formatA x 0o036#7 m n
  | .dla x m n => formatA x 0o037#7 m n
  | .mpy x m n => formatA x 0o040#7 m n
  | .mpr x m n => formatA x 0o041#7 m n
  | .mpa x m n => formatA x 0o042#7 m n
  | .cdb x m n => formatA x 0o043#7 m n
  | .dvd x m n => formatA x 0o044#7 m n
  | .dvr x m n => formatA x 0o045#7 m n
  | .dvs x m n => formatA x 0o046#7 m n
  | .cbd x m n => formatA x 0o047#7 m n
  | .bze x n => formatB x 0o024#6 n
  | .bnz x n => formatB x 0o025#6 n
  | .bpz x n => formatB x 0o026#6 n
  | .bng x n => formatB x 0o027#6 n
  | .bux x n => formatB x 0o030#6 n
  | .bdx x n => formatB x 0o031#6 n
  | .bchx x n => formatB x 0o032#6 n
  | .bct x n => formatB x 0o033#6 n
  | .call x n => formatB x 0o034#6 n
  | .exit x n => formatB x 0o035#6 n
  | .brn n => formatB 0#3 0o036#6 n
  | .bvs n => formatB 1#3 0o036#6 n
  | .bvsr n => formatB 2#3 0o036#6 n
  | .bvc n => formatB 3#3 0o036#6 n
  | .bvcr n => formatB 4#3 0o036#6 n
  | .bcs n => formatB 5#3 0o036#6 n
  | .bcc n => formatB 6#3 0o036#6 n
  | .bvci n => formatB 7#3 0o036#6 n
  | .bfp0 n => formatB 0#3 0o037#6 n
  | .bfp1 n => formatB 1#3 0o037#6 n
  | .bfp2 n => formatB 2#3 0o037#6 n
  | .bfp3 n => formatB 3#3 0o037#6 n
  | .bfp4 n => formatB 4#3 0o037#6 n
  | .bfp5 n => formatB 5#3 0o037#6 n
  | .ldn x m n => formatA x 0o100#7 m n
  | .adn x m n => formatA x 0o101#7 m n
  | .ngn x m n => formatA x 0o102#7 m n
  | .sbn x m n => formatA x 0o103#7 m n
  | .ldnc x m n => formatA x 0o104#7 m n
  | .adnc x m n => formatA x 0o105#7 m n
  | .ngnc x m n => formatA x 0o106#7 m n
  | .sbnc x m n => formatA x 0o107#7 m n
  | .slc x m n => formatA x 0o110#7 m (0#2 ++ n)
  | .sll x m n => formatA x 0o110#7 m (1#2 ++ n)
  | .sla x m n => formatA x 0o110#7 m (2#2 ++ n)
  | .slcd x m n => formatA x 0o111#7 m (0#2 ++ n)
  | .slld x m n => formatA x 0o111#7 m (1#2 ++ n)
  | .slad x m n => formatA x 0o111#7 m (2#2 ++ n)
  | .src x m n => formatA x 0o112#7 m (0#2 ++ n)
  | .srl x m n => formatA x 0o112#7 m (1#2 ++ n)
  | .sra x m n => formatA x 0o112#7 m (2#2 ++ n)
  | .srcd x m n => formatA x 0o113#7 m (0#2 ++ n)
  | .srld x m n => formatA x 0o113#7 m (1#2 ++ n)
  | .srad x m n => formatA x 0o113#7 m (2#2 ++ n)
  | .norm x m n => formatA x 0o114#7 m n
  | .normd x m n => formatA x 0o115#7 m n
  | .mvch x m n => formatA x 0o116#7 m n
  | .smo x m n => formatA x 0o117#7 m n
  | .andn x m n => formatA x 0o120#7 m n
  | .orn x m n => formatA x 0o121#7 m n
  | .ern x m n => formatA x 0o122#7 m n
  | .null x m n => formatA x 0o123#7 m n
  | .ldct x m n => formatA x 0o124#7 m n
  | .mode x m n => formatA x 0o125#7 m n
  | .move x m n => formatA x 0o126#7 m n
  | .sum x m n => formatA x 0o127#7 m n
  | .float x m n => formatA x 0o130#7 m n
  | .fix x m n => formatA x 0o131#7 m n
  | .fad x m n => formatA x 0o132#7 m n
  | .fsb x m n => formatA x 0o133#7 m n
  | .fmpy x m n => formatA x 0o134#7 m n
  | .fdvd x m n => formatA x 0o135#7 m n
  | .lfp x m n => formatA x 0o136#7 m n
  | .sfp x m n => formatA x 0o137#7 m n
  | .rsr x m n => formatA x k.rsr m n
  | .wsr x m n => formatA x k.wsr m n
  | .exx x m n => formatA x k.exx m n
  | .ldl x m n => formatA x k.ldl m n
  | .ldm x m n => formatA x k.ldm m n
  | .tdl x m n => formatA x k.tdl m n
  | .peri x m n => formatA x k.peri m n
  | .xferIn x m n => formatA x k.xferIn m n
  | .xferOut x m n => formatA x k.xferOut m n
  | .search f x m n => formatA x f m n

/-- The default function codes of the executive orders (46_executive.md R370), the spec's own choice (log 2). -/
def defaultCodes : ExecCodes where
  rsr := 0o140
  wsr := 0o141
  exx := 0o142
  ldl := 0o143
  ldm := 0o144
  tdl := 0o145
  peri := 0o146
  xferIn := 0o166
  xferOut := 0o167

/-- The instruction the decoder reads from the bits `w` of a row of spec/opcode_table.json, bits at and above `nbits`
being 0, with the default executive codes. An instruction is one word (30_encoding.md R90), stored and fetched whole. -/
def decodeTableWord (nbits w : Nat) : Option Instr :=
  match decode defaultCodes (BitVec.ofNat 24 (w % 2 ^ nbits)) with
  | .ok i => some i
  | .error _ => none

end Sys2Proof
end

