-- ==== Sys2Proof/Machine/Defaults.lean ====
section
/-! DEFINITION. The parameters a run from reset has (log 2, log 3): the spec's defaults where it gives one
(93_implementation_defined.md A.1), and where it gives none the values its test vectors are computed with
(95_test_vectors.md, Conventions). No statement rests on them but those that name them. -/

namespace Sys2Proof.Machine

/-- The default parameters (93_implementation_defined.md A.1; log 2). -/
def defaultConfig : Config where
  memSize := 0o100000
  hasFp := true
  hasMd := true
  hasAm22 := true
  initialMode := 0
  bootVector := 0o20
  vecHw := 0o20
  vecVol := 0o21
  offPc := 8
  offSt := 9
  offFa := 10
  sr64MemViol := 23
  sr64OvfTrap := 22
  sr64Timer := 21
  sr65Attn := 0o77777777
  codes := defaultCodes
  ovfTrapEnabled := false
  spaceChar := 0o20
  fpAdd := .reference
  fpSub := .reference
  fpMul := .reference
  fpDiv := .reference
  fpFloat := .reference
  fpFix := .reference
  mdEdge := .reference

/-- A mode byte as every write of MODE leaves it: without the 22-bit extension, AM22 and EJM are forced to 0
(10_state.md R29). -/
def forceMode (k : Config) (mode : BitVec 5) : BitVec 5 :=
  if k.hasAm22 then mode else mode &&& 0b11010#5

end Sys2Proof.Machine
end

