-- ==== Sys2Proof/Machine/State.lean ====
section
/-! DEFINITION. The state of the machine, the ways a step can end, and the machine after reset. Every piece of state
that 10_state.md names is a field; the fields the spec does not name are the model's own and say so (INVENTORY.md). -/

namespace Sys2Proof.Machine

/-- One word of main memory at a physical word address. The smallest addressable unit is the 24-bit word
(20_memory.md R60; log 6). -/
abbrev Cell := Nat × Word

/-- Main memory: the words that differ from what an unlisted word reads as, addresses strictly rising. -/
abbrev Memory := List Cell

/-- The environment's turns, which fall between two cycles of the processor (60_exceptions.md R433 to R435; log 7). -/
inductive Turn where
  /-- The processor takes its next cycle. -/
  | processor
  /-- A device writes memory words and sets bits of SR64 and SR65 (R433). -/
  | device (writes : List Cell) (sr64 : Word) (sr65 : Word)
  /-- The scheduler sets `SR64[SR64_TIMER]` (R434). -/
  | timerTick
  /-- The host asks for a stop (R435). -/
  | stopRequest
  /-- The host resets the machine: memory keeps its values (70_reset_and_hazards.md R450; log 17). -/
  | reset
deriving DecidableEq, Repr

/-- The state of the machine (10_state.md). -/
structure State where
  /-- The parameters of the run, which no step writes (10_state.md R43; the model's own field, log 1). -/
  cfg : Config
  /-- `x[0]` to `x[7]` (R20). -/
  regs : Vector Word 8
  /-- PC (R23). -/
  pc : Addr
  /-- IA, where the current instruction was fetched from (R23). -/
  ia : Addr
  /-- V, the overflow flag (R25). -/
  v : Bool
  /-- C, the carry flag (R26). -/
  c : Bool
  /-- EXEC, the executive-mode flag (R28). -/
  executive : Bool
  /-- MODE: EJM, DATUM, AM22, TRACE, ZS from bit 0 up (R29). -/
  mode : BitVec 5
  /-- RD, the datum pointer (R32). -/
  rd : Addr
  /-- RL, the limit register (R33). -/
  rl : Addr
  /-- AM, the mantissa of the floating accumulator (R34). -/
  am : Mantissa
  /-- AE, the exponent of the floating accumulator (R34). -/
  ae : Exponent
  /-- FOV, the sticky floating overflow (R36). -/
  fov : Bool
  /-- SR64 (R37). -/
  sr64 : Word
  /-- SR65 (R38). -/
  sr65 : Word
  /-- PIP, the pre-modification flag (R39). -/
  pip : Bool
  /-- PIPVAL, the pre-modification offset (R39). -/
  pipVal : Word
  /-- LOADING, the bootstrap sub-state (R40). -/
  loading : Bool
  /-- STOPPED, the host-stop sub-state (R40). -/
  stopped : Bool
  /-- Main memory (20_memory.md R60). -/
  mem : Memory
  /-- A host stop request that no fetch has seen yet (40_dispatch.md R121; the model's own field, log 18). -/
  stopRequested : Bool
  /-- The word an OBEY has put in place of the one being decoded (40_dispatch.md R133; the model's own field, log 8). -/
  obeyed : Option Word
  /-- The environment's turns still to come; when none is left the processor runs (the model's own field, log 7). -/
  turns : List Turn
  /-- How many answers the collaborator has given (60_exceptions.md R442; the model's own field, log 5). -/
  draws : Nat
deriving DecidableEq, Repr

/-- Why the machine has no next state though the instruction has a meaning. -/
inductive Fault where
  /-- An access of an executive-mode instruction (fetch, OBEY target, operand) violates, which the spec gives no
  continuation (60_exceptions.md R441). Raised by `abort`. Safe: the model stops where the hardware goes on. -/
  | execViolation
  /-- A word of the save area lies at or beyond MEMSIZE, at an entry or at EXX (R441). Raised by `enterTrap` and
  `restore`. Safe: the model stops. -/
  | saveArea
  /-- STOPPED = 1: the run has ended and the processor has no further step (40_dispatch.md R121; log 9). Raised by
  `cycleStart`. Safe: nothing is said of a state after it. -/
  | stopped
deriving DecidableEq, Repr

/-- Why the model gives an instruction no meaning in a situation (60_exceptions.md R440). -/
inductive Refusal where
  /-- The instruction has no meaning yet. Raised by `exec` alone. Safe. -/
  | notModelled (mnemonic : String)
  /-- An order of an absent option in executive mode (40_dispatch.md R134). Raised by `withOption`. Safe: a stop. -/
  | optionAbsent
  /-- A shift with submode 3 (42_char_shift_misc.md R220). Raised by `execReserved`. Safe: a stop. -/
  | shiftSubmode3
  /-- NORM or NORMD (42_char_shift_misc.md R245). Raised by their meanings. Safe: a stop. -/
  | notSpecified
  /-- A floating order with X not 0 (44_float.md R308). Raised by `floatOrder`. Safe: a stop. -/
  | floatVariant
  /-- BFP with X = 6 or 7 (45_branch.md R351). Raised by `execReserved`. Safe: a stop. -/
  | floatCondition
  /-- BUX, BDX, BCHX or BCT with MODE.AM22 = 1 (45_branch.md R335). Raised by `countAndBranch`. Safe: a stop. -/
  | counter22
  /-- A taken branch in user mode with MODE.TRACE = 1 (45_branch.md R353). Raised by `take`. Safe: a stop. -/
  | branchTrace
  /-- XFER_IN or XFER_OUT in executive mode (46_executive.md R381). Raised by their meanings. Safe: a stop. -/
  | transferUnspecified
  /-- An unassigned executive code in executive mode (46_executive.md R383). Raised by `execReserved`. Safe: a stop. -/
  | unassignedExec
deriving DecidableEq, Repr

/-- What a step of this machine answers. -/
abbrev Result := Host.Outcome State Fault Refusal

/-- The machine just after a reset with these parameters and this memory (10_state.md R44; 70_reset_and_hazards.md
R450, R451): every register at the value of the table of R44. -/
def State.resetWith (k : Config) (mem : Memory) : State where
  cfg := k
  regs := Vector.replicate 8 0
  pc := 0
  ia := 0
  v := false
  c := false
  executive := true
  mode := forceMode k k.initialMode
  rd := 0
  rl := 0
  am := 0
  ae := 0
  fov := false
  sr64 := 0
  sr65 := 0
  pip := false
  pipVal := 0
  loading := true
  stopped := false
  mem := mem
  stopRequested := false
  obeyed := none
  turns := []
  draws := 0

/-- The machine right after power-on reset: the default parameters (log 2) and no word of memory listed (log 6). -/
def State.reset : State := State.resetWith defaultConfig []

end Sys2Proof.Machine
end

