-- ==== Sys2Proof/Machine/Memory.lean ====
section
/-! DEFINITION. Main memory as data: reading a word, writing a word, and the one form a memory has (20_memory.md R60, R81). -/

namespace Sys2Proof.Machine

/-- What a word of memory reads as where no entry lists it: the spec leaves power-on contents open (20_memory.md R81),
and the model names 0 (DESIGN CHOICE, log 6). -/
def unlistedWord : Word := 0

/-- The word at a physical address. -/
def Memory.read : Memory → Nat → Word
  | [], _ => unlistedWord
  | (a, w) :: rest, p => if p = a then w else Memory.read rest p

/-- The memory with the word at a physical address replaced; the canonical form is kept. -/
def Memory.write : Memory → Nat → Word → Memory
  | [], p, v => if v = unlistedWord then [] else [(p, v)]
  | (a, w) :: rest, p, v =>
    if p < a then (if v = unlistedWord then (a, w) :: rest else (p, v) :: (a, w) :: rest)
    else if p = a then (if v = unlistedWord then rest else (p, v) :: rest)
    else (a, w) :: Memory.write rest p v

/-- The canonical form: addresses strictly rising, and no entry equal to what an unlisted word reads as. -/
abbrev Memory.wf (m : Memory) : Prop :=
  m.Pairwise (fun a b => a.1 < b.1) ∧ ∀ c ∈ m, c.2 ≠ unlistedWord

/-- Every listed address is one of an installed word (20_memory.md R60). -/
abbrev Memory.within (m : Memory) (size : Nat) : Prop := ∀ c ∈ m, c.1 < size

end Sys2Proof.Machine
end

