-- ==== Sys2Proof/Machine/Ops.lean ====
section
/-! DEFINITION. The named operations the meanings share: registers and mode bits, the Memory & Addressing Unit
(20_memory.md), the abort of an instruction (40_dispatch.md R136), entering and leaving executive mode
(60_exceptions.md R411 to R420), and the transfer of a taken branch (45_branch.md R330). -/

namespace Sys2Proof.Machine

/-! ### Registers and mode bits -/

/-- Reading `x[i]` (10_state.md R20). -/
def State.reg (s : State) (i : RegIx) : Word := s.regs[i.toNat]'(i.isLt)

/-- Writing `x[i]` (10_state.md R20). -/
def State.setReg (s : State) (i : RegIx) (v : Word) : State :=
  { s with regs := s.regs.set i.toNat v i.isLt }

/-- MODE.EJM, extended-jump mode (10_state.md R29). -/
def State.ejm (s : State) : Bool := s.mode.getLsbD 0

/-- MODE.DATUM, datum-relative executive operands (10_state.md R29). -/
def State.datum (s : State) : Bool := s.mode.getLsbD 1

/-- MODE.AM22, 22-bit addressing (10_state.md R29). -/
def State.am22 (s : State) : Bool := s.mode.getLsbD 2

/-- MODE.TRACE (10_state.md R29, R30). -/
def State.trace (s : State) : Bool := s.mode.getLsbD 3

/-- MODE.ZS, zero suppression (10_state.md R27). -/
def State.zs (s : State) : Bool := s.mode.getLsbD 4

/-- Writing ZS alone (10_state.md R27). -/
def State.setZs (s : State) (b : Bool) : State :=
  { s with mode := BitVec.ofBool b ++ s.mode.extractLsb' 0 4 }

/-- The active addressing width `w` (10_state.md R31). -/
def State.width (s : State) : Nat := if s.am22 then 22 else 15

/-- `AMASK = 2^w - 1` (00_scope.md R13). -/
def State.amask (s : State) : Addr := if s.am22 then 0o17777777 else 0o77777

/-- The low `w` bits of a value, as an address. -/
def State.maskAddr (s : State) (a : Word) : Addr := a.setWidth 22 &&& s.amask

/-- The address after `a`, within the active width (20_memory.md R70). -/
def State.nextAddr (s : State) (a : Addr) : Addr := (a + 1) &&& s.amask

/-- A word with one bit set, by its number. -/
def bitWord (n : Fin 24) : Word := BitVec.twoPow 24 n

/-! ### The Memory & Addressing Unit -/

/-- Where an access goes (20_memory.md R68). -/
inductive Target where
  | reg (i : RegIx)
  | mem (p : Nat)
  | violation
deriving DecidableEq, Repr

/-- Step (b): the address relocated by the datum pointer, not yet masked (20_memory.md R62). -/
def relocate (s : State) (addr : Addr) (isOperand : Bool) : Nat :=
  if !s.executive || (s.datum && isOperand) then s.rd.toNat + addr.toNat else addr.toNat

/-- Step (c): outside the limits, in user mode with a non-zero limit (20_memory.md R63). -/
def outsideLimits (s : State) (p : Nat) : Bool :=
  !s.executive && decide (s.rl ≠ 0) && (decide (p < s.rd.toNat) || decide (s.rl.toNat ≤ p))

/-- Steps (b) to (d): the physical address, or none for a violation (20_memory.md R62 to R64). -/
def physical (s : State) (addr : Addr) (isOperand : Bool) : Option Nat :=
  let p := relocate s addr isOperand
  if outsideLimits s p then none
  else if p % 2 ^ s.width < s.cfg.memSize then some (p % 2 ^ s.width)
  else none

/-- The index-register window: logical addresses 0 to 7, in user mode or for a fetch (20_memory.md R61). -/
def inWindow (s : State) (addr : Addr) (isOperand : Bool) : Bool :=
  decide (addr.toNat < 8) && (!s.executive || !isOperand)

/-- The unit's `access` (20_memory.md R68). -/
def access (s : State) (addr : Addr) (isOperand : Bool) : Target :=
  if inWindow s addr isOperand then .reg (addr.setWidth 3)
  else
    match physical s addr isOperand with
    | some p => .mem p
    | none => .violation

/-- The unit's `test`: steps (b) to (d), with no window and no effect (20_memory.md R66). No order calls it. -/
def memTest (s : State) (addr : Addr) : Bool := (physical s addr true).isSome

/-- The unit's `read`: the word, or none for a violation (20_memory.md R68). -/
def memRead (s : State) (addr : Addr) (isOperand : Bool) : Option Word :=
  match access s addr isOperand with
  | .reg i => some (s.reg i)
  | .mem p => some (s.mem.read p)
  | .violation => none

/-- A word of main memory replaced, at a physical address. -/
def State.writePhysical (s : State) (p : Nat) (v : Word) : State := { s with mem := s.mem.write p v }

/-- The unit's `write`: the state after it, or none for a violation, which writes nothing (20_memory.md R65, R68). -/
def memWrite (s : State) (addr : Addr) (v : Word) (isOperand : Bool) : Option State :=
  match access s addr isOperand with
  | .reg i => some (s.setReg i v)
  | .mem p => some (s.writePhysical p v)
  | .violation => none

/-- The bit a violation sets in SR64 (20_memory.md R65). -/
def State.flagViolation (s : State) : State :=
  { s with sr64 := s.sr64 ||| bitWord s.cfg.sr64MemViol }

/-- The abort of the current instruction after a violation (40_dispatch.md R136; 60_exceptions.md R410): the state keeps
what was written before the failing access, SR64 has the violation bit, and the next cycle's check does the rest; in
executive mode the model faults (R441). -/
def abort (s : State) : Result :=
  if s.executive then .fault .execViolation else .next s.flagViolation

/-! ### Pending conditions, entry and return -/

/-- A pending interrupt condition (60_exceptions.md R408). -/
def State.pending (s : State) : Bool := decide (s.sr64 ≠ 0) || decide (s.sr65 ≠ 0)

/-- The PC word of the save area: V, C and the PC (60_exceptions.md R412). -/
def State.pcWord (s : State) : Word := BitVec.ofBool s.v ++ BitVec.ofBool s.c ++ s.pc

/-- The status word of the save area: FOV and MODE (60_exceptions.md R412). -/
def State.statusWord (s : State) : Word := 0#18 ++ BitVec.ofBool s.fov ++ s.mode

/-- The first word of the image of a floating number (10_state.md R35). -/
def floatWord0 (m : Mantissa) : Word := m.extractLsb' 14 24

/-- The second word of the image of a floating number (10_state.md R35). -/
def floatWord1 (m : Mantissa) (e : Exponent) : Word := 0#1 ++ m.extractLsb' 0 14 ++ e

/-- The mantissa of a two-word image; bit 23 of the second word is ignored (10_state.md R35, 44_float.md R290). -/
def imageMantissa (w0 w1 : Word) : Mantissa := w0 ++ w1.extractLsb' 9 14

/-- The exponent of a two-word image (10_state.md R35, 44_float.md R290). -/
def imageExponent (w1 : Word) : Exponent := w1.extractLsb' 0 9

/-- The physical address of a word of the save area, from its offset (60_exceptions.md R412). -/
def State.saveAddr (s : State) (o : Addr) : Nat := (s.rd + o).toNat

/-- Every word of the save area is installed (60_exceptions.md R412, R420). -/
def State.saveAreaInstalled (s : State) : Bool :=
  s.cfg.saveOffsets.all fun o => decide (s.saveAddr o < s.cfg.memSize)

/-- What each word of the save area receives, by offset (the table of 60_exceptions.md R412). -/
def State.saveWords (s : State) : List (Addr × Word) :=
  [(0, s.reg 0), (1, s.reg 1), (2, s.reg 2), (3, s.reg 3), (4, s.reg 4), (5, s.reg 5), (6, s.reg 6), (7, s.reg 7),
    (s.cfg.offPc, s.pcWord), (s.cfg.offSt, s.statusWord),
    (s.cfg.offFa, floatWord0 s.am), (s.cfg.offFa + 1, floatWord1 s.am s.ae)]

/-- The context saved, at physical addresses and past the addressing unit (60_exceptions.md R412). -/
def State.save (s : State) : State :=
  { s with mem := s.saveWords.foldl (fun mem e => mem.write (s.saveAddr e.1) e.2) s.mem }

/-- The mode change at entry (60_exceptions.md R417, R418). -/
def State.enterMode (s : State) : State :=
  { s with
    v := false, c := false, fov := false, mode := 0, pip := false, pipVal := 0, sr64 := 0, sr65 := 0,
    executive := true }

/-- Entering executive mode at a vector: save the context, change the mode, set PC (60_exceptions.md R411, R414); a save
area that is not installed is a fault and nothing is written (R441). -/
def enterTrap (vector : Addr) (s : State) : Result :=
  if s.saveAreaInstalled then .next { s.save.enterMode with pc := vector } else .fault .saveArea

/-- Hardware entry (60_exceptions.md R411). -/
def hardwareEntry (s : State) : Result := enterTrap s.cfg.vecHw s

/-- Voluntary entry, after PC has advanced past the trapping instruction (60_exceptions.md R414). -/
def voluntaryEntry (s : State) : Result := enterTrap s.cfg.vecVol s

/-- A word of the save area read back (60_exceptions.md R420). -/
def State.savedWord (s : State) (o : Addr) : Word := s.mem.read (s.saveAddr o)

/-- The state that the executive return restores from the save area (60_exceptions.md R420). -/
def State.restored (s : State) : State :=
  let p := s.savedWord s.cfg.offPc
  let st := s.savedWord s.cfg.offSt
  let f0 := s.savedWord s.cfg.offFa
  let f1 := s.savedWord (s.cfg.offFa + 1)
  let t : State :=
    { s with
      regs := Vector.ofFn fun i : Fin 8 => s.savedWord (BitVec.ofNat 22 i)
      v := p.getLsbD 23
      c := p.getLsbD 22
      mode := forceMode s.cfg (st.extractLsb' 0 5)
      fov := st.getLsbD 5
      am := imageMantissa f0 f1
      ae := imageExponent f1
      executive := false }
  { t with pc := p.extractLsb' 0 22 &&& t.amask }

/-- The executive return (60_exceptions.md R420): the inverse of the save, or a fault where the save area is not
installed (R441). -/
def restore (s : State) : Result :=
  if s.saveAreaInstalled then .next s.restored else .fault .saveArea

/-! ### Guards and transfers -/

/-- An order of an option (40_dispatch.md R134): where the option is absent the order is not executed, and it is a voluntary
entry in user mode and refused in executive mode. -/
def withOption (present : Bool) (s : State) (k : Result) : Result :=
  if present then k else if s.executive then .refused .optionAbsent else voluntaryEntry s

/-- An order of the executive group (46_executive.md R371, R372): in user mode it is a voluntary entry. -/
def privileged (s : State) (k : Result) : Result := if s.executive then k else voluntaryEntry s

/-- A taken branch is one the model refuses: TRACE in user mode (45_branch.md R330, R353). -/
def State.branchTraced (s : State) : Bool := !s.executive && s.trace

/-- A taken branch (45_branch.md R330). -/
def take (target : Addr) (s : State) : Result :=
  if s.branchTraced then .refused .branchTrace else .next { s with pc := target }

/-- A conditional branch: taken, or PC stays at the next instruction (45_branch.md R330). -/
def takeIf (cond : Bool) (target : Addr) (s : State) : Result := if cond then take target s else .next s

end Sys2Proof.Machine
end

