-- ==== Sys2Proof/Machine/Flags.lean ====
section
/-! DEFINITION. Flags: overflow and its event (41_fixed_point.md R163; 60_exceptions.md R416), and the fixed-point adder
with its carry and overflow (41_fixed_point.md R161). -/

namespace Sys2Proof.Machine

/-- The overflow event (60_exceptions.md R416): with `OVF_TRAP_ENABLED`, in user mode, SR64 gets the overflow-trap bit. -/
def State.overflowEvent (s : State) : State :=
  if s.cfg.ovfTrapEnabled && !s.executive then { s with sr64 := s.sr64 ||| bitWord s.cfg.sr64OvfTrap } else s

/-- `set_V()` (41_fixed_point.md R163). -/
def State.setV (s : State) : State := State.overflowEvent { s with v := true }

/-- `set_V()` where a condition holds; V is sticky otherwise (10_state.md R25). -/
def State.setVIf (s : State) (b : Bool) : State := if b then s.setV else s

/-- Writing C. -/
def State.setC (s : State) (b : Bool) : State := { s with c := b }

/-- The two classes of the adder (41_fixed_point.md R161). -/
inductive AddKind where
  | add
  | sub
deriving DecidableEq, Repr

/-- Whether an order uses the old C (41_fixed_point.md R161). -/
inductive CarryUse where
  | useC
  | noC
deriving DecidableEq, Repr

/-- What the adder answers: the sum, the carry or borrow, and signed overflow (41_fixed_point.md R161). -/
structure Sum where
  value : Word
  carry : Bool
  overflow : Bool
deriving DecidableEq, Repr

/-- What the adder adds to its first operand: the second operand, or its complement (41_fixed_point.md R161). -/
def AddKind.addend (kind : AddKind) (b : Word) : Word :=
  match kind with
  | .add => b
  | .sub => ~~~b

/-- The carry that the adder adds in, `c` being the old C (41_fixed_point.md R161). -/
def AddKind.carryIn (kind : AddKind) (cuse : CarryUse) (c : Bool) : Bool :=
  match kind, cuse with
  | .add, .useC => c
  | .add, .noC => false
  | .sub, .useC => !c
  | .sub, .noC => true

/-- The new C from bit 24 of the sum: the carry of an addition, the borrow of a subtraction (41_fixed_point.md R161). -/
def AddKind.carryOut (kind : AddKind) (top : Bool) : Bool :=
  match kind with
  | .add => top
  | .sub => !top

/-- The exact sum of the adder, 25 bits (41_fixed_point.md R161). -/
def adderSum (a b : Word) (cin : Bool) : BitVec 25 :=
  a.setWidth 25 + b.setWidth 25 + (BitVec.ofBool cin).setWidth 25

/-- The adder of 41_fixed_point.md R161: `c` is the old C. -/
def adder (a b : Word) (kind : AddKind) (cuse : CarryUse) (c : Bool) : Sum :=
  let b2 := kind.addend b
  let sum := adderSum a b2 (kind.carryIn cuse c)
  let r : Word := sum.setWidth 24
  { value := r
    carry := kind.carryOut (sum.getLsbD 24)
    overflow := (a.getLsbD 23 == b2.getLsbD 23) && (r.getLsbD 23 != a.getLsbD 23) }

/-- The flags of an adder order (41_fixed_point.md R163): C is written, V is set on overflow. -/
def State.adderFlags (s : State) (r : Sum) : State := (s.setC r.carry).setVIf r.overflow

end Sys2Proof.Machine
end

