-- ==== Sys2Proof/Machine/Operands.lean ====
section
/-! DEFINITION. Operand forms (30_encoding.md R95 to R99; 40_dispatch.md R127 to R130): effective addresses and branch
targets, the memory word and the pair of words at an address, the literal, the character, the shift count, character
pointers and counts; and the advance past the instruction word. -/

namespace Sys2Proof.Machine

/-! ### Effective addresses -/

/-- The pre-modification offset of this instruction (40_dispatch.md R130). -/
def State.offset (s : State) : Word := if s.pip then s.pipVal else 0

/-- The modifier of format A: `x[M]`, or 0 where M = 0 (40_dispatch.md R128). -/
def State.modifier (s : State) (m : ModIx) : Word := if m = 0 then 0 else s.reg (m.setWidth 3)

/-- The operand address EA of format A (40_dispatch.md R128). -/
def State.operandAddress (s : State) (m : ModIx) (n : BitVec 12) : Addr :=
  s.maskAddr (n.setWidth 24 + s.modifier m + s.offset)

/-- The branch target T of format B, relative to the branch's own address in extended-jump mode (40_dispatch.md R129). -/
def State.branchTarget (s : State) (n : BitVec 15) : Addr :=
  s.maskAddr ((if s.ejm then s.ia.setWidth 24 + n.signExtend 24 else n.setWidth 24) + s.offset)

/-- The displacement T of EXIT, never relative (40_dispatch.md R129; 45_branch.md R341). -/
def State.linkDisplacement (s : State) (n : BitVec 15) : Addr := s.maskAddr (n.setWidth 24 + s.offset)

/-- The pre-modification flag consumed (40_dispatch.md R130). -/
def State.consumePip (s : State) : State := { s with pip := false }

/-- The state in which an instruction executes: its address has been computed, which consumes PIP, and PC has advanced
(40_dispatch.md R127, R130). -/
def State.advance (s : State) : State := { s.consumePip with pc := s.nextAddr s.ia }

/-- The literal operand `zext_24(EA)` (30_encoding.md R96). -/
def State.literal (s : State) (m : ModIx) (n : BitVec 12) : Word := (s.operandAddress m n).setWidth 24

/-- The count of a shift, `EA[9:0]`, whose submode bits are put back into N (42_char_shift_misc.md R220). -/
def State.shiftCount (s : State) (submode : BitVec 2) (m : ModIx) (n : BitVec 10) : Nat :=
  ((s.operandAddress m (submode ++ n)).extractLsb' 0 10).toNat

/-! ### Memory operands -/

/-- An operand word read, `OPD` of 00_scope.md R17. -/
def State.readOperand (s : State) (ea : Addr) : Option Word := memRead s ea true

/-- An operand word written, `STORE` of 00_scope.md R17. -/
def State.writeOperand (s : State) (ea : Addr) (v : Word) : Option State := memWrite s ea v true

/-- An order that reads the word at EA: the abort on violation, else what it does with the word, in the advanced state. -/
def withWord (m : ModIx) (n : BitVec 12) (s : State) (k : State → Word → Result) : Result :=
  match s.advance.readOperand (s.operandAddress m n) with
  | none => abort s.advance
  | some w => k s.advance w

/-- An order that takes the literal EA. -/
def withLiteral (m : ModIx) (n : BitVec 12) (s : State) (k : State → Word → Result) : Result :=
  k s.advance (s.literal m n)

/-- A word written at an address, then the rest of the order; the abort on violation. -/
def storeThen (ea : Addr) (v : Word) (s : State) (k : State → Result) : Result :=
  match s.writeOperand ea v with
  | none => abort s
  | some t => k t

/-- An order that writes the word at EA: the value, then the flags, in the advanced state. -/
def storeWord (m : ModIx) (n : BitVec 12) (s : State) (value : State → Word) (finish : State → State) : Result :=
  storeThen (s.operandAddress m n) (value s.advance) s.advance fun t => .next (finish t)

/-- An order that reads the word at EA and writes a word back there, then writes flags and registers: all reads come before
the write, and the write before them (70_reset_and_hazards.md R462). -/
def updateWord (m : ModIx) (n : BitVec 12) (s : State) (value : State → Word → Word)
    (finish : State → Word → State → State) : Result :=
  withWord m n s fun t w =>
    storeThen (s.operandAddress m n) (value t w) t fun u => .next (finish t w u)

/-- An order that reads the pair of words at EA and EA + 1, first word first (00_scope.md R17; 20_memory.md R70). -/
def withPair (m : ModIx) (n : BitVec 12) (s : State) (k : State → Word → Word → Result) : Result :=
  withWord m n s fun t w0 =>
    match t.readOperand (t.nextAddr (s.operandAddress m n)) with
    | none => abort t
    | some w1 => k t w0 w1

/-- An order that writes the pair of words at EA and EA + 1, first word first; where the second write violates, the first word
stays written (40_dispatch.md R136). -/
def storePair (m : ModIx) (n : BitVec 12) (s : State) (w0 w1 : Word) (finish : State → State) : Result :=
  storeThen (s.operandAddress m n) w0 s.advance fun t =>
    storeThen (t.nextAddr (s.operandAddress m n)) w1 t fun u => .next (finish u)

/-! ### Characters and pointers -/

/-- `char(m, k)`: character lane `k` of a word, lane 0 most significant (42_char_shift_misc.md R210). -/
def charOf (w : Word) (k : BitVec 2) : BitVec 6 := w.extractLsb' (18 - 6 * k.toNat) 6

/-- `setchar(m, k, c)`: a word with lane `k` replaced (42_char_shift_misc.md R210). -/
def setChar (w : Word) (k : BitVec 2) (ch : BitVec 6) : Word :=
  if k = 0 then ch ++ w.extractLsb' 0 18
  else if k = 1 then w.extractLsb' 18 6 ++ ch ++ w.extractLsb' 0 12
  else if k = 2 then w.extractLsb' 12 12 ++ ch ++ w.extractLsb' 0 6
  else w.extractLsb' 6 18 ++ ch

/-- The lane of a character operand, `x[M][23:22]`, or 0 where M = 0 (42_char_shift_misc.md R210). -/
def State.lane (s : State) (m : ModIx) : BitVec 2 := (s.modifier m).extractLsb' 22 2

/-- The lane a character pointer holds (42_char_shift_misc.md R211). -/
def pointerLane (p : Word) : BitVec 2 := p.extractLsb' 22 2

/-- `char_inc(p)` for a 15-bit or 22-bit address field (42_char_shift_misc.md R211). -/
def charInc (wide : Bool) (p : Word) : Word :=
  if (pointerLane p).toNat < 3 then (pointerLane p + 1) ++ p.extractLsb' 0 22
  else if wide then 0#2 ++ (p.extractLsb' 0 22 + 1)
  else 0#2 ++ p.extractLsb' 15 7 ++ (p.extractLsb' 0 15 + 1)

/-- The count of MVCH: `EA[7:0]`, with 0 meaning 256 (42_char_shift_misc.md R241). -/
def charCount (ea : Addr) : Nat := if (ea.extractLsb' 0 8).toNat = 0 then 256 else (ea.extractLsb' 0 8).toNat

/-- The count of MOVE and SUM: `EA[8:0]`, with 0 meaning 512 (42_char_shift_misc.md R242, R243). -/
def wordCount (ea : Addr) : Nat := if (ea.extractLsb' 0 9).toNat = 0 then 512 else (ea.extractLsb' 0 9).toNat

/-! ### Branches -/

/-- A branch-class order: what it does with its target, in the advanced state (45_branch.md R330). -/
def withTarget (n : BitVec 15) (s : State) (k : State → Addr → Result) : Result := k s.advance (s.branchTarget n)

end Sys2Proof.Machine
end

