-- ==== Sys2Proof/Machine/Block.lean ====
section
/-! DEFINITION. Block and counter orders (42_char_shift_misc.md R241 to R245). -/

namespace Sys2Proof.Machine

/-- The moves of MVCH (42_char_shift_misc.md R241): `n` characters from pointer `p` to pointer `q`, strictly ascending; at
the end the two registers receive the pointers. A violation aborts with what has been moved kept. -/
def moveChars (x : RegIx) : Nat → Word → Word → State → Result
  | 0, p, q, s => .next ((s.setReg x p).setReg (x + 1) q)
  | n + 1, p, q, s =>
    match s.readOperand (s.maskAddr p) with
    | none => abort s
    | some ws =>
      match s.readOperand (s.maskAddr q) with
      | none => abort s
      | some wd =>
        storeThen (s.maskAddr q) (setChar wd (pointerLane q) (charOf ws (pointerLane p))) s fun t =>
          moveChars x n (charInc s.am22 p) (charInc s.am22 q) t

/-- MVCH: move characters (42_char_shift_misc.md R241). -/
def execMvch (x : RegIx) (m : ModIx) (n : BitVec 12) (s : State) : Result :=
  moveChars x (charCount (s.operandAddress m n)) (s.advance.reg x) (s.advance.reg (x + 1)) s.advance

/-- The moves of MOVE (42_char_shift_misc.md R242): `n` words from the `i`th on, strictly ascending; the two registers are read
anew for each word, as the pseudocode does (log 12). -/
def moveWords (x : RegIx) : Nat → Nat → State → Result
  | 0, _, s => .next s
  | n + 1, i, s =>
    match s.readOperand (s.maskAddr (s.reg x + BitVec.ofNat 24 i)) with
    | none => abort s
    | some w =>
      storeThen (s.maskAddr (s.reg (x + 1) + BitVec.ofNat 24 i)) w s fun t => moveWords x n (i + 1) t

/-- MOVE: move words (42_char_shift_misc.md R242). -/
def execMove (x : RegIx) (m : ModIx) (n : BitVec 12) (s : State) : Result :=
  moveWords x (wordCount (s.operandAddress m n)) 0 s.advance

/-- The sum of SUM (42_char_shift_misc.md R243): `n` words from the `i`th after `base`, added to `acc` modulo 2^24; none for
a violation. -/
def sumWords (s : State) (base : Word) : Nat → Nat → Word → Option Word
  | 0, _, acc => some acc
  | n + 1, i, acc =>
    match s.readOperand (s.maskAddr (base + BitVec.ofNat 24 i)) with
    | none => none
    | some w => sumWords s base n (i + 1) (acc + w)

/-- SUM: sum words (42_char_shift_misc.md R243). -/
def execSum (x : RegIx) (m : ModIx) (n : BitVec 12) (s : State) : Result :=
  match sumWords s.advance (s.advance.reg (x + 1)) (wordCount (s.operandAddress m n)) 0 0 with
  | none => abort s.advance
  | some t => .next (s.advance.setReg x t)

/-- LDCT: X := EA[8:0] in the count field (42_char_shift_misc.md R244). -/
def execLdct (x : RegIx) (m : ModIx) (n : BitVec 12) (s : State) : Result :=
  .next (s.advance.setReg x ((s.operandAddress m n).extractLsb' 0 9 ++ 0#15))

/-- NORM: the spec gives it no meaning (42_char_shift_misc.md R245). -/
def execNorm (_x : RegIx) (_m : ModIx) (_n : BitVec 12) (_s : State) : Result := .refused .notSpecified

/-- NORMD: the spec gives it no meaning (42_char_shift_misc.md R245). -/
def execNormd (_x : RegIx) (_m : ModIx) (_n : BitVec 12) (_s : State) : Result := .refused .notSpecified

end Sys2Proof.Machine
end

