-- ==== Sys2Proof/Machine/Branch.lean ====
section
/-! DEFINITION. The Branch & Subroutine Controller (45_branch.md R330 to R353). -/

namespace Sys2Proof.Machine

/-- A branch that tests `x[X]` (45_branch.md R331 to R334). -/
def branchOnReg (x : RegIx) (n : BitVec 15) (s : State) (test : Word → Bool) : Result :=
  withTarget n s fun t target => takeIf (test (t.reg x)) target t

/-- BZE: branch if X is zero (45_branch.md R331). -/
def execBze (x : RegIx) (n : BitVec 15) (s : State) : Result := branchOnReg x n s fun w => decide (w = 0)

/-- BNZ: branch if X is non-zero (45_branch.md R332). -/
def execBnz (x : RegIx) (n : BitVec 15) (s : State) : Result := branchOnReg x n s fun w => decide (w ≠ 0)

/-- BPZ: branch if X is positive or zero (45_branch.md R333). -/
def execBpz (x : RegIx) (n : BitVec 15) (s : State) : Result := branchOnReg x n s fun w => !w.getLsbD 23

/-- BNG: branch if X is negative (45_branch.md R334). -/
def execBng (x : RegIx) (n : BitVec 15) (s : State) : Result := branchOnReg x n s fun w => w.getLsbD 23

/-! ### Index-and-branch orders -/

/-- An index-and-branch order (45_branch.md R335): in 22-bit mode refused; else the register is stepped and the branch is
taken while the count is not zero. -/
def countAndBranch (x : RegIx) (n : BitVec 15) (s : State) (step : Word → Word) (count : Word → Bool) : Result :=
  if s.am22 then .refused .counter22
  else
    withTarget n s fun t target =>
      let w := step (t.reg x)
      takeIf (count w) target (t.setReg x w)

/-- The count field of BUX, BDX and BCT, bits 23:15 (45_branch.md R335). -/
def countField (w : Word) : BitVec 9 := w.extractLsb' 15 9

/-- The count field of BCHX, bits 21:15 (45_branch.md R335). -/
def charCountField (w : Word) : BitVec 7 := w.extractLsb' 15 7

/-- The address field of a counting register, bits 14:0 (45_branch.md R335). -/
def addressField (w : Word) : BitVec 15 := w.extractLsb' 0 15

/-- BUX: branch on unit indexing (45_branch.md R336). -/
def execBux (x : RegIx) (n : BitVec 15) (s : State) : Result :=
  countAndBranch x n s (fun w => (countField w - 1) ++ (addressField w + 1)) fun w => decide (countField w ≠ 0)

/-- BDX: branch on double indexing (45_branch.md R337). -/
def execBdx (x : RegIx) (n : BitVec 15) (s : State) : Result :=
  countAndBranch x n s (fun w => (countField w - 1) ++ (addressField w + 2)) fun w => decide (countField w ≠ 0)

/-- BCHX: branch on character indexing (45_branch.md R338). -/
def execBchx (x : RegIx) (n : BitVec 15) (s : State) : Result :=
  countAndBranch x n s
    (fun w => pointerLane (charInc false w) ++ (charCountField w - 1) ++ addressField (charInc false w))
    fun w => decide (charCountField w ≠ 0)

/-- BCT: branch on count (45_branch.md R339). -/
def execBct (x : RegIx) (n : BitVec 15) (s : State) : Result :=
  countAndBranch x n s (fun w => (countField w - 1) ++ addressField w) fun w => decide (countField w ≠ 0)

/-! ### Subroutine call and exit -/

/-- The link word of CALL: V, ZS and the return address (45_branch.md R340). -/
def State.linkWord (s : State) : Word := BitVec.ofBool s.v ++ BitVec.ofBool s.zs ++ s.pc

/-- CALL: subroutine call (45_branch.md R340). -/
def execCall (x : RegIx) (n : BitVec 15) (s : State) : Result :=
  withTarget n s fun t target => take target { t.setReg x t.linkWord with v := false }

/-- EXIT: subroutine exit (45_branch.md R341). -/
def execExit (x : RegIx) (n : BitVec 15) (s : State) : Result :=
  let t := s.advance
  let link := t.reg x
  take (t.maskAddr (link + (s.linkDisplacement n).setWidth 24))
    (State.setZs { t with v := link.getLsbD 23 } (link.getLsbD 22))

/-! ### Flag branches -/

/-- A branch that tests a flag, with the flag's new value (45_branch.md R342). -/
def branchOnFlag (n : BitVec 15) (s : State) (test : State → Bool) (after : State → State) : Result :=
  withTarget n s fun t target => takeIf (test t) target (after t)

/-- BRN: unconditional branch (45_branch.md R343). -/
def execBrn (n : BitVec 15) (s : State) : Result := branchOnFlag n s (fun _ => true) fun t => t

/-- BVS: branch if overflow set (45_branch.md R344). -/
def execBvs (n : BitVec 15) (s : State) : Result := branchOnFlag n s (fun t => t.v) fun t => t

/-- BVSR: branch if overflow set, and reset it (45_branch.md R345). -/
def execBvsr (n : BitVec 15) (s : State) : Result :=
  branchOnFlag n s (fun t => t.v) fun t => { t with v := false }

/-- BVC: branch if overflow clear (45_branch.md R346). -/
def execBvc (n : BitVec 15) (s : State) : Result := branchOnFlag n s (fun t => !t.v) fun t => t

/-- BVCR: branch if overflow clear, and reset it (45_branch.md R347). -/
def execBvcr (n : BitVec 15) (s : State) : Result :=
  branchOnFlag n s (fun t => !t.v) fun t => { t with v := false }

/-- BCS: branch if carry set (45_branch.md R348). -/
def execBcs (n : BitVec 15) (s : State) : Result := branchOnFlag n s (fun t => t.c) fun t => t

/-- BCC: branch if carry clear (45_branch.md R349). -/
def execBcc (n : BitVec 15) (s : State) : Result := branchOnFlag n s (fun t => !t.c) fun t => t

/-- BVCI: branch if overflow clear, and invert it, with no overflow event (45_branch.md R350). -/
def execBvci (n : BitVec 15) (s : State) : Result :=
  branchOnFlag n s (fun t => !t.v) fun t => { t with v := !t.v }

/-! ### Floating branches -/

/-- A floating branch, an order of the floating-point option (45_branch.md R351; 40_dispatch.md R134). -/
def floatBranchOn (n : BitVec 15) (s : State) (test : State → Bool) (after : State → State) : Result :=
  withOption s.cfg.hasFp s.advance (branchOnFlag n s test after)

/-- BFP 0: branch if A is zero (45_branch.md R351). -/
def execBfp0 (n : BitVec 15) (s : State) : Result := floatBranchOn n s (fun t => decide (t.am = 0)) fun t => t

/-- BFP 1: branch if A is non-zero (45_branch.md R351). -/
def execBfp1 (n : BitVec 15) (s : State) : Result := floatBranchOn n s (fun t => decide (t.am ≠ 0)) fun t => t

/-- BFP 2: branch if A is positive or zero (45_branch.md R351). -/
def execBfp2 (n : BitVec 15) (s : State) : Result := floatBranchOn n s (fun t => !t.am.getLsbD 37) fun t => t

/-- BFP 3: branch if A is negative (45_branch.md R351). -/
def execBfp3 (n : BitVec 15) (s : State) : Result := floatBranchOn n s (fun t => t.am.getLsbD 37) fun t => t

/-- BFP 4: branch if floating overflow is set, and clear it (45_branch.md R351, R352). -/
def execBfp4 (n : BitVec 15) (s : State) : Result :=
  floatBranchOn n s (fun t => t.fov) fun t => { t with fov := false }

/-- BFP 5: branch if floating overflow is clear (45_branch.md R351). -/
def execBfp5 (n : BitVec 15) (s : State) : Result := floatBranchOn n s (fun t => !t.fov) fun t => t

end Sys2Proof.Machine
end

