-- ==== Sys2Proof/Machine/Chars.lean ====
section
/-! DEFINITION. Character and field transfers, zero suppression and decimal conversion (42_char_shift_misc.md R210 to
R217, R237 to R240). -/

namespace Sys2Proof.Machine

/-- LDCH: X := the character at (EA, k) (42_char_shift_misc.md R212). -/
def execLdch (x : RegIx) (m : ModIx) (n : BitVec 12) (s : State) : Result :=
  withWord m n s fun t w => .next (t.setReg x ((charOf w (s.lane m)).setWidth 24))

/-- DCH: the character at (EA, k) := X[5:0] (42_char_shift_misc.md R213). -/
def execDch (x : RegIx) (m : ModIx) (n : BitVec 12) (s : State) : Result :=
  updateWord m n s (fun t w => setChar w (s.lane m) ((t.reg x).extractLsb' 0 6)) fun _ _ u => u

/-- LDEX: X := N[8:0] (42_char_shift_misc.md R214). -/
def execLdex (x : RegIx) (m : ModIx) (n : BitVec 12) (s : State) : Result :=
  withWord m n s fun t w => .next (t.setReg x ((w.extractLsb' 0 9).setWidth 24))

/-- DEX: N[8:0] := X[8:0] (42_char_shift_misc.md R215). -/
def execDex (x : RegIx) (m : ModIx) (n : BitVec 12) (s : State) : Result :=
  updateWord m n s (fun t w => w.extractLsb' 9 15 ++ (t.reg x).extractLsb' 0 9) fun _ _ u => u

/-- DSA: N[11:0] := X[11:0] (42_char_shift_misc.md R216). -/
def execDsa (x : RegIx) (m : ModIx) (n : BitVec 12) (s : State) : Result :=
  updateWord m n s (fun t w => w.extractLsb' 12 12 ++ (t.reg x).extractLsb' 0 12) fun _ _ u => u

/-- DLA: N[14:0] := X[14:0] (42_char_shift_misc.md R217). -/
def execDla (x : RegIx) (m : ModIx) (n : BitVec 12) (s : State) : Result :=
  updateWord m n s (fun t w => w.extractLsb' 15 9 ++ (t.reg x).extractLsb' 0 15) fun _ _ u => u

/-- MODE: ZS := EA[0]; X is ignored (42_char_shift_misc.md R237). DESIGN CHOICE between two rules of the spec: a pending
pre-modification counts in EA, as R237 with D22, D23 and D60 has it, though 40_dispatch.md R132 says that an SMO before MODE
is to no effect (log 23). -/
def execMode (_x : RegIx) (m : ModIx) (n : BitVec 12) (s : State) : Result :=
  .next (s.advance.setZs ((s.operandAddress m n).getLsbD 0))

/-! ### Double-length integers and decimal conversion -/

/-- `DL(X)`: the double-length integer of a register pair (43_muldiv.md R260). -/
def State.doubleLength (s : State) (x : RegIx) : Int :=
  (s.reg x).toInt * 2 ^ 23 + ((s.reg (x + 1)).extractLsb' 0 23).toNat

/-- `write_DL(X, P)`: the low 47 bits of an integer in a register pair (43_muldiv.md R260). -/
def State.writeDoubleLength (s : State) (x : RegIx) (p : Int) : State :=
  let q := BitVec.ofInt 47 p
  (s.setReg x (q.extractLsb' 23 24)).setReg (x + 1) (0#1 ++ q.extractLsb' 0 23)

/-- An integer that 47 bits of two's complement do not hold (42_char_shift_misc.md R239; 43_muldiv.md R264). -/
def overflows47 (p : Int) : Bool := decide (2 ^ 46 ≤ p) || decide (p < -2 ^ 46)

/-- CDB: one decimal digit into the double-length integer of X, X+1 (42_char_shift_misc.md R239); a character that is no
digit sets C and changes nothing else. -/
def execCdb (x : RegIx) (m : ModIx) (n : BitVec 12) (s : State) : Result :=
  withWord m n s fun t w =>
    let ch := charOf w (s.lane m)
    if 9 < ch.toNat then .next (t.setC true)
    else
      let d := t.doubleLength x * 10 + ch.toNat
      .next (((t.setVIf (overflows47 d)).writeDoubleLength x d).setC false)

/-- Ten times the fraction of X, `x[X][22:0] * 10` (42_char_shift_misc.md R240). -/
def State.tenfold (s : State) (x : RegIx) : Nat := ((s.reg x).extractLsb' 0 23).toNat * 10

/-- The character CBD deposits for a digit: the space character for a zero digit under zero suppression
(42_char_shift_misc.md R240). -/
def State.digitChar (s : State) (d : Nat) : BitVec 6 :=
  if s.zs && decide (d = 0) then s.cfg.spaceChar else BitVec.ofNat 6 d

/-- CBD: one decimal digit out of the fraction of X (42_char_shift_misc.md R240). -/
def execCbd (x : RegIx) (m : ModIx) (n : BitVec 12) (s : State) : Result :=
  updateWord m n s (fun t w => setChar w (s.lane m) (t.digitChar (t.tenfold x / 2 ^ 23)))
    fun t _ u =>
      let v := u.setReg x (BitVec.ofNat 24 (t.tenfold x % 2 ^ 23))
      if t.tenfold x / 2 ^ 23 = 0 then v else v.setZs false

end Sys2Proof.Machine
end

