-- ==== Sys2Proof/Machine/Control.lean ====
section
/-! DEFINITION. OBEY and SMO (40_dispatch.md R132, R133). -/

namespace Sys2Proof.Machine

/-- OBEY: the word at EA takes the place of the instruction being decoded, and PC does not advance (40_dispatch.md R133); the
substitution is a step of its own, and the next step decodes the word (log 8). -/
def execObey (_x : RegIx) (m : ModIx) (n : BitVec 12) (s : State) : Result :=
  match s.consumePip.readOperand (s.operandAddress m n) with
  | none => abort s.consumePip
  | some w => .next { s.consumePip with obeyed := some w }

/-- SMO: the word at EA pre-modifies the next operand address (40_dispatch.md R132). -/
def execSmo (_x : RegIx) (m : ModIx) (n : BitVec 12) (s : State) : Result :=
  withWord m n s fun t w => .next { t with pip := true, pipVal := w }

end Sys2Proof.Machine
end

