-- ==== Sys2Proof/Machine/Executive.lean ====
section
/-! DEFINITION. The executive group (46_executive.md R370 to R384). Every order of it is a voluntary entry in user mode
(R371); its operand address is computed first, which consumes PIP. -/

namespace Sys2Proof.Machine

/-- RSR: X := special register number EA (46_executive.md R373): 64 and 65 are the core's, every other is the collaborator's
answer, a free value (log 5). -/
def execRsr (x : RegIx) (m : ModIx) (n : BitVec 12) (s : State) : Result :=
  let t := s.advance
  privileged t <|
    if (s.operandAddress m n).toNat = 64 then .next (t.setReg x t.sr64)
    else if (s.operandAddress m n).toNat = 65 then .next (t.setReg x t.sr65)
    else .next { t.setReg x (Config.readSpecialRegister t.draws) with draws := t.draws + 1 }

/-- WSR: special register number EA := X (46_executive.md R374): a write to a number of the collaborator's has no effect on
the core (60_exceptions.md R431). -/
def execWsr (x : RegIx) (m : ModIx) (n : BitVec 12) (s : State) : Result :=
  let t := s.advance
  privileged t <|
    if (s.operandAddress m n).toNat = 64 then .next { t with sr64 := t.reg x }
    else if (s.operandAddress m n).toNat = 65 then .next { t with sr65 := t.reg x }
    else .next t

/-- LDL: datum and limit reload (46_executive.md R375). -/
def execLdl (x : RegIx) (_m : ModIx) (_n : BitVec 12) (s : State) : Result :=
  let t := s.advance
  privileged t <| .next { t with rd := (t.reg x).setWidth 22, rl := (t.reg (x + 1)).setWidth 22 }

/-- LDM: mode reload (46_executive.md R376). -/
def execLdm (x : RegIx) (_m : ModIx) (_n : BitVec 12) (s : State) : Result :=
  let t := s.advance
  privileged t <| .next { t with mode := forceMode t.cfg ((t.reg x).extractLsb' 0 5) }

/-- TDL: datum and limit test (46_executive.md R377). -/
def execTdl (x : RegIx) (_m : ModIx) (_n : BitVec 12) (s : State) : Result :=
  let t := s.advance
  privileged t <|
    .next (t.setC (decide ((t.reg x).toNat < t.rd.toNat) || decide (t.rl.toNat ≤ (t.reg x).toNat)))

/-- EXX: exit executive (46_executive.md R378). -/
def execExx (_x : RegIx) (_m : ModIx) (_n : BitVec 12) (s : State) : Result :=
  privileged s.advance (restore s.advance)

/-- PERI: peripheral command (46_executive.md R379): the status nibble is the collaborator's answer, a free value (log 5). -/
def execPeri (x : RegIx) (_m : ModIx) (_n : BitVec 12) (s : State) : Result :=
  let t := s.advance
  privileged t <|
    .next { t.setReg x (Config.sendCommand t.draws &&& 0xF) with draws := t.draws + 1 }

/-- XFER_IN: multi-word input transfer, given no meaning in executive mode (46_executive.md R381). -/
def execXferIn (_x : RegIx) (_m : ModIx) (_n : BitVec 12) (s : State) : Result :=
  privileged s.advance (.refused .transferUnspecified)

/-- XFER_OUT: multi-word output transfer, given no meaning in executive mode (46_executive.md R381). -/
def execXferOut (_x : RegIx) (_m : ModIx) (_n : BitVec 12) (s : State) : Result :=
  privileged s.advance (.refused .transferUnspecified)

/-- SEARCH, codes 0150 to 0165: no operation in executive mode (46_executive.md R382). -/
def execSearch (_f : BitVec 7) (_x : RegIx) (_m : ModIx) (_n : BitVec 12) (s : State) : Result :=
  privileged s.advance (.next s.advance)

end Sys2Proof.Machine
end

