-- ==== Sys2Proof/Machine/FixedPoint.lean ====
section
/-! DEFINITION. The adder orders (41_fixed_point.md R160 to R187): 000-007 to a register from memory, 010-017 to memory
from a register, 0100-0107 to a register from the literal. The classes are those of the table of R162. -/

namespace Sys2Proof.Machine

/-- The result of an adder order in its register, and its flags (41_fixed_point.md R163, R165). -/
def State.adderToReg (s : State) (x : RegIx) (r : Sum) : State := (s.setReg x r.value).adderFlags r

/-- An adder order to a register, from the memory word at EA (41_fixed_point.md R160). -/
def adderFromWord (x : RegIx) (m : ModIx) (n : BitVec 12) (s : State) (f : State → Word → Sum) : Result :=
  withWord m n s fun t w => .next (t.adderToReg x (f t w))

/-- An adder order to a register, from the literal EA (41_fixed_point.md R160). -/
def adderFromLiteral (x : RegIx) (m : ModIx) (n : BitVec 12) (s : State) (f : State → Word → Sum) : Result :=
  withLiteral m n s fun t w => .next (t.adderToReg x (f t w))

/-- An adder order to the memory word at EA that reads it first (41_fixed_point.md R160, R173). -/
def adderUpdate (m : ModIx) (n : BitVec 12) (s : State) (f : State → Word → Sum) : Result :=
  updateWord m n s (fun t w => (f t w).value) fun t w u => u.adderFlags (f t w)

/-- An adder order to the memory word at EA that does not read it (41_fixed_point.md R160, R174). -/
def adderStore (m : ModIx) (n : BitVec 12) (s : State) (f : State → Sum) : Result :=
  storeWord m n s (fun t => (f t).value) fun u => u.adderFlags (f s.advance)

/-! ### To a register, from memory -/

/-- LDX: X := N, a plain transfer that writes no flag (41_fixed_point.md R164). -/
def execLdx (x : RegIx) (m : ModIx) (n : BitVec 12) (s : State) : Result :=
  withWord m n s fun t w => .next (t.setReg x w)

/-- ADX: X := X + N (41_fixed_point.md R165). -/
def execAdx (x : RegIx) (m : ModIx) (n : BitVec 12) (s : State) : Result :=
  adderFromWord x m n s fun t w => adder (t.reg x) w .add .noC t.c

/-- NGX: X := -N (41_fixed_point.md R166). -/
def execNgx (x : RegIx) (m : ModIx) (n : BitVec 12) (s : State) : Result :=
  adderFromWord x m n s fun t w => adder 0 w .sub .noC t.c

/-- SBX: X := X - N (41_fixed_point.md R167). -/
def execSbx (x : RegIx) (m : ModIx) (n : BitVec 12) (s : State) : Result :=
  adderFromWord x m n s fun t w => adder (t.reg x) w .sub .noC t.c

/-- LDXC: X := N + C (41_fixed_point.md R168). -/
def execLdxc (x : RegIx) (m : ModIx) (n : BitVec 12) (s : State) : Result :=
  adderFromWord x m n s fun t w => adder 0 w .add .useC t.c

/-- ADXC: X := X + N + C (41_fixed_point.md R169). -/
def execAdxc (x : RegIx) (m : ModIx) (n : BitVec 12) (s : State) : Result :=
  adderFromWord x m n s fun t w => adder (t.reg x) w .add .useC t.c

/-- NGXC: X := -N - C (41_fixed_point.md R170). -/
def execNgxc (x : RegIx) (m : ModIx) (n : BitVec 12) (s : State) : Result :=
  adderFromWord x m n s fun t w => adder 0 w .sub .useC t.c

/-- SBXC: X := X - N - C (41_fixed_point.md R171). -/
def execSbxc (x : RegIx) (m : ModIx) (n : BitVec 12) (s : State) : Result :=
  adderFromWord x m n s fun t w => adder (t.reg x) w .sub .useC t.c

/-! ### To memory, from a register -/

/-- STO: N := X, a plain transfer that writes no flag (41_fixed_point.md R172). -/
def execSto (x : RegIx) (m : ModIx) (n : BitVec 12) (s : State) : Result :=
  storeWord m n s (fun t => t.reg x) fun u => u

/-- ADS: N := N + X (41_fixed_point.md R173). -/
def execAds (x : RegIx) (m : ModIx) (n : BitVec 12) (s : State) : Result :=
  adderUpdate m n s fun t w => adder w (t.reg x) .add .noC t.c

/-- NGS: N := -X (41_fixed_point.md R174). -/
def execNgs (x : RegIx) (m : ModIx) (n : BitVec 12) (s : State) : Result :=
  adderStore m n s fun t => adder 0 (t.reg x) .sub .noC t.c

/-- SBS: N := N - X (41_fixed_point.md R175). -/
def execSbs (x : RegIx) (m : ModIx) (n : BitVec 12) (s : State) : Result :=
  adderUpdate m n s fun t w => adder w (t.reg x) .sub .noC t.c

/-- STOC: N := X + C (41_fixed_point.md R176). -/
def execStoc (x : RegIx) (m : ModIx) (n : BitVec 12) (s : State) : Result :=
  adderStore m n s fun t => adder 0 (t.reg x) .add .useC t.c

/-- ADSC: N := N + X + C (41_fixed_point.md R177). -/
def execAdsc (x : RegIx) (m : ModIx) (n : BitVec 12) (s : State) : Result :=
  adderUpdate m n s fun t w => adder w (t.reg x) .add .useC t.c

/-- NGSC: N := -X - C (41_fixed_point.md R178). -/
def execNgsc (x : RegIx) (m : ModIx) (n : BitVec 12) (s : State) : Result :=
  adderStore m n s fun t => adder 0 (t.reg x) .sub .useC t.c

/-- SBSC: N := N - X - C (41_fixed_point.md R179). -/
def execSbsc (x : RegIx) (m : ModIx) (n : BitVec 12) (s : State) : Result :=
  adderUpdate m n s fun t w => adder w (t.reg x) .sub .useC t.c

/-! ### To a register, from the literal -/

/-- LDN: X := n, a plain transfer that writes no flag (41_fixed_point.md R180). -/
def execLdn (x : RegIx) (m : ModIx) (n : BitVec 12) (s : State) : Result :=
  withLiteral m n s fun t w => .next (t.setReg x w)

/-- ADN: X := X + n (41_fixed_point.md R181). -/
def execAdn (x : RegIx) (m : ModIx) (n : BitVec 12) (s : State) : Result :=
  adderFromLiteral x m n s fun t w => adder (t.reg x) w .add .noC t.c

/-- NGN: X := -n (41_fixed_point.md R182). -/
def execNgn (x : RegIx) (m : ModIx) (n : BitVec 12) (s : State) : Result :=
  adderFromLiteral x m n s fun t w => adder 0 w .sub .noC t.c

/-- SBN: X := X - n (41_fixed_point.md R183). -/
def execSbn (x : RegIx) (m : ModIx) (n : BitVec 12) (s : State) : Result :=
  adderFromLiteral x m n s fun t w => adder (t.reg x) w .sub .noC t.c

/-- LDNC: X := n + C (41_fixed_point.md R184). -/
def execLdnc (x : RegIx) (m : ModIx) (n : BitVec 12) (s : State) : Result :=
  adderFromLiteral x m n s fun t w => adder 0 w .add .useC t.c

/-- ADNC: X := X + n + C (41_fixed_point.md R185). -/
def execAdnc (x : RegIx) (m : ModIx) (n : BitVec 12) (s : State) : Result :=
  adderFromLiteral x m n s fun t w => adder (t.reg x) w .add .useC t.c

/-- NGNC: X := -n - C (41_fixed_point.md R186). -/
def execNgnc (x : RegIx) (m : ModIx) (n : BitVec 12) (s : State) : Result :=
  adderFromLiteral x m n s fun t w => adder 0 w .sub .useC t.c

/-- SBNC: X := X - n - C (41_fixed_point.md R187). -/
def execSbnc (x : RegIx) (m : ModIx) (n : BitVec 12) (s : State) : Result :=
  adderFromLiteral x m n s fun t w => adder (t.reg x) w .sub .useC t.c

end Sys2Proof.Machine
end

