-- ==== Sys2Proof/Machine/FloatRef.lean ====
section
/-! DEFINITION. The floating results as configuration fields (44_float.md R294): the reference instances, which compute exact
values and round them in one shared tail (R291 to R300, R306, R307), and the choice between an instance and an open
function (log 3). -/

namespace Sys2Proof.Machine

/-- An exact rational number: numerator over a positive denominator. -/
structure Exact where
  num : Int
  den : Nat
deriving DecidableEq, Repr

/-- `fpval(M, E)` (44_float.md R290). -/
def fpval (m : Mantissa) (e : Exponent) : Exact :=
  if 293 ≤ e.toNat then ⟨m.toInt * 2 ^ (e.toNat - 293), 1⟩ else ⟨m.toInt, 2 ^ (293 - e.toNat)⟩

/-- The sum of two exact numbers. -/
def Exact.add (a b : Exact) : Exact := ⟨a.num * b.den + b.num * a.den, a.den * b.den⟩

/-- The negation of an exact number. -/
def Exact.neg (a : Exact) : Exact := ⟨-a.num, a.den⟩

/-- The product of two exact numbers. -/
def Exact.mul (a b : Exact) : Exact := ⟨a.num * b.num, a.den * b.den⟩

/-- The quotient of two exact numbers, the divisor not zero. -/
def Exact.div (a b : Exact) : Exact := ⟨a.num * b.num.sign * b.den, a.den * b.num.natAbs⟩

/-- The integer part toward minus infinity. -/
def Exact.floor (a : Exact) : Int := a.num / a.den

/-- An exact number times `2^k`. -/
def Exact.scale (a : Exact) (k : Int) : Exact := ⟨a.num * 2 ^ k.toNat, a.den * 2 ^ (-k).toNat⟩

/-- Whether a positive number is below 1, or a negative one at or above -1: where a mantissa has to lie (44_float.md R291). -/
def Exact.fractional (a : Exact) : Bool :=
  if a.num < 0 then decide (-(a.den : Int) ≤ a.num) else decide (a.num < a.den)

/-- The exponent `e` of a number that is not zero, not yet limited to its range (44_float.md R291): the least for which
`v / 2^(e - 256)` is a fraction. -/
def normalExponent (v : Exact) : Int :=
  let k : Int := (v.num.natAbs.log2 : Int) - (v.den.log2 : Int)
  if (v.scale (-k)).fractional then k + 256 else k + 257

/-- The two kinds of rounding of the tail (44_float.md R291). -/
inductive Rounding where
  | round
  | trunc
deriving DecidableEq, Repr

/-- The mantissa as an integer, `floor(f * 2^37 + 1/2)` or `floor(f * 2^37)` with `f = v / 2^(e - 256)` (44_float.md R291). -/
def roundedMantissa (v : Exact) (e : Int) (rnd : Rounding) : Int :=
  match rnd with
  | .round => ((v.scale (293 - e)).add ⟨1, 2⟩).floor
  | .trunc => (v.scale (293 - e)).floor

/-- The re-normalisation after rounding (44_float.md R291). -/
def renormalise (mi e : Int) : Int × Int :=
  if mi = 2 ^ 37 then (2 ^ 36, e + 1)
  else if mi = -2 ^ 36 then (-2 ^ 37, e - 1)
  else (mi, e)

/-- The shared normalise-and-round tail, `pack` (44_float.md R291 to R293). -/
def pack (v : Exact) (rnd : Rounding) : FpResult :=
  if v.num = 0 then ⟨0, 0, false⟩
  else
    let e := normalExponent v
    let r := renormalise (roundedMantissa v e rnd) e
    if r.2 < 0 then ⟨0, 0, false⟩
    else ⟨BitVec.ofInt 38 r.1, BitVec.ofInt 9 r.2, decide (511 < r.2)⟩

/-- Reference `FP_ADD` (44_float.md R295). -/
def fpAddRef (ma : Mantissa) (ea : Exponent) (mb : Mantissa) (eb : Exponent) : FpResult :=
  if mb = 0 then pack (fpval ma ea) .round
  else if ma = 0 then pack (fpval mb eb) .round
  else if eb.toNat + 38 < ea.toNat then ⟨ma, ea, false⟩
  else if ea.toNat + 38 < eb.toNat then ⟨mb, eb, false⟩
  else pack ((fpval ma ea).add (fpval mb eb)) .round

/-- Reference `FP_SUB` (44_float.md R297). -/
def fpSubRef (ma : Mantissa) (ea : Exponent) (mb : Mantissa) (eb : Exponent) : FpResult :=
  if mb = 0 then pack (fpval ma ea) .round
  else if ma = 0 then pack (fpval mb eb).neg .round
  else if eb.toNat + 38 < ea.toNat then ⟨ma, ea, false⟩
  else if ea.toNat + 38 < eb.toNat then pack (fpval mb eb).neg .round
  else pack ((fpval ma ea).add (fpval mb eb).neg) .round

/-- Reference `FP_MUL` (44_float.md R298). -/
def fpMulRef (ma : Mantissa) (ea : Exponent) (mb : Mantissa) (eb : Exponent) : FpResult :=
  pack ((fpval ma ea).mul (fpval mb eb)) .round

/-- Reference `FP_DIV` (44_float.md R300, R303). -/
def fpDivRef (ma : Mantissa) (ea : Exponent) (mb : Mantissa) (eb : Exponent) : FpResult :=
  if mb = 0 then ⟨0o1777777777777, 511, true⟩
  else pack ((fpval ma ea).div (fpval mb eb)) .round

/-- Reference `FP_FLOAT` (44_float.md R306). -/
def fpFloatRef (hi lo : Word) : Mantissa × Exponent :=
  let r := pack ⟨hi.toInt * 2 ^ 23 + (lo.extractLsb' 0 23).toNat, 1⟩ .round
  (r.mantissa, r.exponent)

/-- Reference `FP_FIX` (44_float.md R307). -/
def fpFixRef (m : Mantissa) (e : Exponent) : FixResult :=
  let i := (fpval m e).floor
  let q := BitVec.ofInt 47 i
  ⟨q.extractLsb' 23 24, 0#1 ++ q.extractLsb' 0 23, decide (2 ^ 46 ≤ i) || decide (i < -2 ^ 46)⟩

/-! ### The configuration fields -/

/-- `FP_ADD` (44_float.md R294). -/
def fpAdd (k : Config) (ma : Mantissa) (ea : Exponent) (mb : Mantissa) (eb : Exponent) : FpResult :=
  match k.fpAdd with
  | .reference => fpAddRef ma ea mb eb
  | .unspecified => Config.fpAddOpen ma ea mb eb

/-- `FP_SUB` (44_float.md R294). -/
def fpSub (k : Config) (ma : Mantissa) (ea : Exponent) (mb : Mantissa) (eb : Exponent) : FpResult :=
  match k.fpSub with
  | .reference => fpSubRef ma ea mb eb
  | .unspecified => Config.fpSubOpen ma ea mb eb

/-- `FP_MUL` (44_float.md R294). -/
def fpMul (k : Config) (ma : Mantissa) (ea : Exponent) (mb : Mantissa) (eb : Exponent) : FpResult :=
  match k.fpMul with
  | .reference => fpMulRef ma ea mb eb
  | .unspecified => Config.fpMulOpen ma ea mb eb

/-- `FP_DIV` (44_float.md R294). A divisor of mantissa 0 always sets the overflow output (R303). -/
def fpDiv (k : Config) (ma : Mantissa) (ea : Exponent) (mb : Mantissa) (eb : Exponent) : FpResult :=
  match k.fpDiv with
  | .reference => fpDivRef ma ea mb eb
  | .unspecified =>
    let r := Config.fpDivOpen ma ea mb eb
    { r with overflow := r.overflow || decide (mb = 0) }

/-- `FP_FLOAT` (44_float.md R294). -/
def fpFloat (k : Config) (hi lo : Word) : Mantissa × Exponent :=
  match k.fpFloat with
  | .reference => fpFloatRef hi lo
  | .unspecified => Config.fpFloatOpen hi lo

/-- `FP_FIX` (44_float.md R294). -/
def fpFix (k : Config) (m : Mantissa) (e : Exponent) : FixResult :=
  match k.fpFix with
  | .reference => fpFixRef m e
  | .unspecified => Config.fpFixOpen m e

end Sys2Proof.Machine
end

