-- ==== Sys2Proof/Machine/Float.lean ====
section
/-! DEFINITION. The Floating-Point Unit (44_float.md R290 to R308). -/

namespace Sys2Proof.Machine

/-- Writing the floating accumulator's mantissa and exponent (10_state.md R34). -/
def State.setAcc (s : State) (m : Mantissa) (e : Exponent) : State := { s with am := m, ae := e }

/-- FOV is set where a floating operation overflows, and unchanged otherwise (44_float.md R293). -/
def State.raiseFov (s : State) (b : Bool) : State := { s with fov := s.fov || b }

/-- A floating order: not executed where the unit is absent (40_dispatch.md R134), refused with X not 0 (44_float.md R308). -/
def floatOrder (x : RegIx) (s : State) (k : Result) : Result :=
  withOption s.cfg.hasFp s.advance (if x = 0 then k else .refused .floatVariant)

/-- A floating operation on A and the operand at EA, EA + 1 (44_float.md R296). -/
def floatArith (x : RegIx) (m : ModIx) (n : BitVec 12) (s : State)
    (f : Mantissa → Exponent → Mantissa → Exponent → FpResult) : Result :=
  floatOrder x s <|
    withPair m n s fun t w0 w1 =>
      let r := f t.am t.ae (imageMantissa w0 w1) (imageExponent w1)
      .next ((t.setAcc r.mantissa r.exponent).raiseFov r.overflow)

/-- FAD: A := A + operand (44_float.md R296). -/
def execFad (x : RegIx) (m : ModIx) (n : BitVec 12) (s : State) : Result := floatArith x m n s (fpAdd s.cfg)

/-- FSB: A := A - operand (44_float.md R297). -/
def execFsb (x : RegIx) (m : ModIx) (n : BitVec 12) (s : State) : Result := floatArith x m n s (fpSub s.cfg)

/-- FMPY: A := A * operand (44_float.md R299). -/
def execFmpy (x : RegIx) (m : ModIx) (n : BitVec 12) (s : State) : Result := floatArith x m n s (fpMul s.cfg)

/-- FDVD: A := A / operand (44_float.md R301). -/
def execFdvd (x : RegIx) (m : ModIx) (n : BitVec 12) (s : State) : Result := floatArith x m n s (fpDiv s.cfg)

/-- LFP: A := the floating operand (44_float.md R304). -/
def execLfp (x : RegIx) (m : ModIx) (n : BitVec 12) (s : State) : Result :=
  floatOrder x s <|
    withPair m n s fun t w0 w1 => .next (t.setAcc (imageMantissa w0 w1) (imageExponent w1))

/-- SFP: the two words at EA, EA + 1 := A (44_float.md R305). -/
def execSfp (x : RegIx) (m : ModIx) (n : BitVec 12) (s : State) : Result :=
  floatOrder x s <| storePair m n s (floatWord0 s.am) (floatWord1 s.am s.ae) fun u => u

/-- FLOAT: A := the double-length integer at EA, EA + 1 (44_float.md R306). -/
def execFloat (x : RegIx) (m : ModIx) (n : BitVec 12) (s : State) : Result :=
  floatOrder x s <|
    withPair m n s fun t hi lo => .next (t.setAcc (fpFloat t.cfg hi lo).1 (fpFloat t.cfg hi lo).2)

/-- FIX: the double-length integer at EA, EA + 1 := A (44_float.md R307). -/
def execFix (x : RegIx) (m : ModIx) (n : BitVec 12) (s : State) : Result :=
  floatOrder x s <|
    storePair m n s (fpFix s.cfg s.am s.ae).hi (fpFix s.cfg s.am s.ae).lo fun u =>
      u.setVIf (fpFix s.cfg s.am s.ae).overflow

end Sys2Proof.Machine
end

