-- ==== Sys2Proof/Machine/Logic.lean ====
section
/-! DEFINITION. Logical orders, store zero, the test orders and the no-operation (41_fixed_point.md R188 to R200). Every
logical order clears C and leaves V (R163). -/

namespace Sys2Proof.Machine

/-- A logical order to a register, from the memory word at EA (41_fixed_point.md R188). -/
def logicFromWord (x : RegIx) (m : ModIx) (n : BitVec 12) (s : State) (f : Word → Word → Word) : Result :=
  withWord m n s fun t w => .next ((t.setReg x (f (t.reg x) w)).setC false)

/-- A logical order to the memory word at EA, from a register (41_fixed_point.md R191). -/
def logicUpdate (x : RegIx) (m : ModIx) (n : BitVec 12) (s : State) (f : Word → Word → Word) : Result :=
  updateWord m n s (fun t w => f w (t.reg x)) fun _ _ u => u.setC false

/-- A logical order to a register, from the literal EA (41_fixed_point.md R194). -/
def logicFromLiteral (x : RegIx) (m : ModIx) (n : BitVec 12) (s : State) (f : Word → Word → Word) : Result :=
  withLiteral m n s fun t w => .next ((t.setReg x (f (t.reg x) w)).setC false)

/-- ANDX: X := X AND N (41_fixed_point.md R188). -/
def execAndx (x : RegIx) (m : ModIx) (n : BitVec 12) (s : State) : Result :=
  logicFromWord x m n s fun a b => a &&& b

/-- ORX: X := X OR N (41_fixed_point.md R189). -/
def execOrx (x : RegIx) (m : ModIx) (n : BitVec 12) (s : State) : Result :=
  logicFromWord x m n s fun a b => a ||| b

/-- ERX: X := X XOR N (41_fixed_point.md R190). -/
def execErx (x : RegIx) (m : ModIx) (n : BitVec 12) (s : State) : Result :=
  logicFromWord x m n s fun a b => a ^^^ b

/-- ANDS: N := N AND X (41_fixed_point.md R191). -/
def execAnds (x : RegIx) (m : ModIx) (n : BitVec 12) (s : State) : Result :=
  logicUpdate x m n s fun a b => a &&& b

/-- ORS: N := N OR X (41_fixed_point.md R192). -/
def execOrs (x : RegIx) (m : ModIx) (n : BitVec 12) (s : State) : Result :=
  logicUpdate x m n s fun a b => a ||| b

/-- ERS: N := N XOR X (41_fixed_point.md R193). -/
def execErs (x : RegIx) (m : ModIx) (n : BitVec 12) (s : State) : Result :=
  logicUpdate x m n s fun a b => a ^^^ b

/-- ANDN: X := X AND n (41_fixed_point.md R194). -/
def execAndn (x : RegIx) (m : ModIx) (n : BitVec 12) (s : State) : Result :=
  logicFromLiteral x m n s fun a b => a &&& b

/-- ORN: X := X OR n (41_fixed_point.md R195). -/
def execOrn (x : RegIx) (m : ModIx) (n : BitVec 12) (s : State) : Result :=
  logicFromLiteral x m n s fun a b => a ||| b

/-- ERN: X := X XOR n (41_fixed_point.md R196). -/
def execErn (x : RegIx) (m : ModIx) (n : BitVec 12) (s : State) : Result :=
  logicFromLiteral x m n s fun a b => a ^^^ b

/-- STOZ: N := 0; X is ignored and no flag is written (41_fixed_point.md R197). -/
def execStoz (_x : RegIx) (m : ModIx) (n : BitVec 12) (s : State) : Result :=
  storeWord m n s (fun _ => 0) fun u => u

/-- TXU: C says that X and N differ (41_fixed_point.md R198). -/
def execTxu (x : RegIx) (m : ModIx) (n : BitVec 12) (s : State) : Result :=
  withWord m n s fun t w => .next (t.setC (decide (t.reg x ≠ w)))

/-- TXL: C says that X is less than N + C, signed and exact (41_fixed_point.md R199). -/
def execTxl (x : RegIx) (m : ModIx) (n : BitVec 12) (s : State) : Result :=
  withWord m n s fun t w => .next (t.setC (decide ((t.reg x).toInt < w.toInt + t.c.toInt)))

/-- NULL: the address is computed, consuming PIP, and nothing else happens (41_fixed_point.md R200). -/
def execNull (_x : RegIx) (_m : ModIx) (_n : BitVec 12) (s : State) : Result := .next s.advance

end Sys2Proof.Machine
end

