-- ==== Sys2Proof/Machine/MulDiv.lean ====
section
/-! DEFINITION. The Multiply/Divide Unit (43_muldiv.md R260 to R271): results are exact integer functions of the
operands (R261); the edge-case table and the fallback words are the configuration's (R269, R271; log 3, log 4). -/

namespace Sys2Proof.Machine

/-- `MD_EDGE(op, x0, x1, m)` (43_muldiv.md R271): false everywhere in the reference instance. -/
def mdEdge (k : Config) (op : MdOp) (x0 x1 w : Word) : Bool :=
  match k.mdEdge with
  | .reference => false
  | .unspecified => Config.mdEdgeOpen op x0 x1 w

/-- An order of the multiply/divide unit that reads the word at EA; where the unit is absent the order is not executed, and
no access is made (40_dispatch.md R134). -/
def mulDivOrder (m : ModIx) (n : BitVec 12) (s : State) (k : State → Word → Result) : Result :=
  withOption s.cfg.hasMd s.advance (withWord m n s k)

/-- A multiply order (43_muldiv.md R262 to R264): the integer `p` as a double-length result, V where it does not fit or the
edge-case table says so, C cleared. -/
def multiplyOrder (op : MdOp) (x : RegIx) (m : ModIx) (n : BitVec 12) (s : State) (p : State → Word → Int) : Result :=
  mulDivOrder m n s fun t w =>
    let edge := mdEdge t.cfg op (t.reg x) (t.reg (x + 1)) w
    .next (((t.setVIf (overflows47 (p t w) || edge)).writeDoubleLength x (p t w)).setC false)

/-- MPY: multiply (43_muldiv.md R262). -/
def execMpy (x : RegIx) (m : ModIx) (n : BitVec 12) (s : State) : Result :=
  multiplyOrder .mpy x m n s fun t w => (t.reg x).toInt * w.toInt

/-- MPR: multiply and round (43_muldiv.md R263). -/
def execMpr (x : RegIx) (m : ModIx) (n : BitVec 12) (s : State) : Result :=
  multiplyOrder .mpr x m n s fun t w => (t.reg x).toInt * w.toInt + 2 ^ 22

/-- MPA: multiply and accumulate (43_muldiv.md R264). -/
def execMpa (x : RegIx) (m : ModIx) (n : BitVec 12) (s : State) : Result :=
  multiplyOrder .mpa x m n s fun t w => (t.reg x).toInt * w.toInt + (t.reg (x + 1)).toInt

/-- Rounded quotient: to the nearest integer, ties away from zero (43_muldiv.md R265). -/
def roundHalfAway (a d : Int) : Int :=
  let q : Int := ((2 * a.natAbs + d.natAbs) / (2 * d.natAbs) : Nat)
  if (decide (a < 0)) = (decide (d < 0)) then q else -q

/-- Divide failure (43_muldiv.md R269): the fallback words, V set, C cleared; no trap. -/
def divideFail (op : MdOp) (x : RegIx) (w : Word) (t : State) : State :=
  let r := Config.divFail op (t.reg x) (t.reg (x + 1)) w
  (((t.setReg x r.1).setReg (x + 1) r.2).setV).setC false

/-- A quotient that a word does not hold (43_muldiv.md R265). -/
def overflows24 (q : Int) : Bool := decide (2 ^ 23 ≤ q) || decide (q < -2 ^ 23)

/-- A divide order (43_muldiv.md R265): dividend `a` and quotient function as the order gives them; the remainder in X and
the quotient in X+1, C cleared, or the failure of R269. -/
def divideOrder (op : MdOp) (x : RegIx) (m : ModIx) (n : BitVec 12) (s : State) (dividend : State → Int)
    (quotient : Int → Int → Int) : Result :=
  mulDivOrder m n s fun t w =>
    let a := dividend t
    let d := w.toInt
    let q := quotient a d
    if decide (d = 0) || mdEdge t.cfg op (t.reg x) (t.reg (x + 1)) w || overflows24 q then
      .next (divideFail op x w t)
    else
      .next (((t.setReg x (BitVec.ofInt 24 (a - q * d))).setReg (x + 1) (BitVec.ofInt 24 q)).setC false)

/-- DVD: double-length divide, truncated (43_muldiv.md R266). -/
def execDvd (x : RegIx) (m : ModIx) (n : BitVec 12) (s : State) : Result :=
  divideOrder .dvd x m n s (fun t => t.doubleLength x) Int.tdiv

/-- DVR: double-length divide, rounded (43_muldiv.md R267). -/
def execDvr (x : RegIx) (m : ModIx) (n : BitVec 12) (s : State) : Result :=
  divideOrder .dvr x m n s (fun t => t.doubleLength x) roundHalfAway

/-- DVS: single-length divide, truncated (43_muldiv.md R268). -/
def execDvs (x : RegIx) (m : ModIx) (n : BitVec 12) (s : State) : Result :=
  divideOrder .dvs x m n s (fun t => (t.reg (x + 1)).toInt) Int.tdiv

end Sys2Proof.Machine
end

