-- ==== Sys2Proof/Machine/Shift.lean ====
section
/-! DEFINITION. Shifts (42_char_shift_misc.md R220 to R236): single length on `x[X]`, double length on the pair
`x[X] ++ x[X+1]`, one bit at a time as R221 says. -/

namespace Sys2Proof.Machine

/-- The submodes of a shift (42_char_shift_misc.md R220). -/
inductive ShiftMode where
  | circular
  | logical
  | arithmetic
deriving DecidableEq, Repr

/-- The directions of a shift. -/
inductive ShiftDir where
  | left
  | right
deriving DecidableEq, Repr

/-- The submode field of a shift word, bits 11:10 (30_encoding.md R102). -/
def ShiftMode.field (mode : ShiftMode) : BitVec 2 :=
  match mode with
  | .circular => 0
  | .logical => 1
  | .arithmetic => 2

/-- What one step of a left shift puts into bit 0 (42_char_shift_misc.md R221). -/
def leftFill (mode : ShiftMode) (sign : Bool) : Bool :=
  match mode with
  | .circular => sign
  | .logical => false
  | .arithmetic => false

/-- What one step of a right shift puts into the top bit (42_char_shift_misc.md R221). -/
def rightFill (mode : ShiftMode) (sign low : Bool) : Bool :=
  match mode with
  | .circular => low
  | .logical => false
  | .arithmetic => sign

/-- One step of the shift function of R221 on a `w`-bit value. -/
def shiftStep {w : Nat} (dir : ShiftDir) (mode : ShiftMode) (v : BitVec w) : BitVec w :=
  match dir with
  | .left => (v <<< 1) ||| (BitVec.ofBool (leftFill mode v.msb)).setWidth w
  | .right =>
    (v >>> 1) ||| (((BitVec.ofBool (rightFill mode v.msb (v.getLsbD 0))).setWidth w) <<< (w - 1))

/-- One step changes the sign of an arithmetic left shift (42_char_shift_misc.md R221). -/
def shiftStepOverflows {w : Nat} (dir : ShiftDir) (mode : ShiftMode) (v : BitVec w) : Bool :=
  match dir, mode with
  | .left, .arithmetic => (shiftStep dir mode v).msb != v.msb
  | .left, .circular => false
  | .left, .logical => false
  | .right, _ => false

/-- The shift function of 42_char_shift_misc.md R221: the value after `n` steps, and whether any step overflowed. -/
def shift {w : Nat} (dir : ShiftDir) (mode : ShiftMode) : Nat → BitVec w → BitVec w × Bool
  | 0, v => (v, false)
  | n + 1, v =>
    let (r, ovf) := shift dir mode n (shiftStep dir mode v)
    (r, shiftStepOverflows dir mode v || ovf)

/-- A single-length shift order (42_char_shift_misc.md R225 to R230). -/
def shiftSingle (dir : ShiftDir) (mode : ShiftMode) (x : RegIx) (m : ModIx) (n : BitVec 10) (s : State) : Result :=
  let r := shift dir mode (s.shiftCount mode.field m n) (s.advance.reg x)
  .next ((s.advance.setReg x r.1).setVIf r.2)

/-- The 48-bit value of a register pair (42_char_shift_misc.md R222). -/
def State.pair (s : State) (x : RegIx) : BitVec 48 := s.reg x ++ s.reg (x + 1)

/-- A 48-bit value written to a register pair (42_char_shift_misc.md R222). -/
def State.setPair (s : State) (x : RegIx) (d : BitVec 48) : State :=
  (s.setReg x (d.extractLsb' 24 24)).setReg (x + 1) (d.extractLsb' 0 24)

/-- A double-length shift order (42_char_shift_misc.md R231 to R236). -/
def shiftDouble (dir : ShiftDir) (mode : ShiftMode) (x : RegIx) (m : ModIx) (n : BitVec 10) (s : State) : Result :=
  let r := shift dir mode (s.shiftCount mode.field m n) (s.advance.pair x)
  .next ((s.advance.setPair x r.1).setVIf r.2)

/-- SLC: shift left circular, single (42_char_shift_misc.md R225). -/
def execSlc (x : RegIx) (m : ModIx) (n : BitVec 10) (s : State) : Result := shiftSingle .left .circular x m n s

/-- SLL: shift left logical, single (42_char_shift_misc.md R226). -/
def execSll (x : RegIx) (m : ModIx) (n : BitVec 10) (s : State) : Result := shiftSingle .left .logical x m n s

/-- SLA: shift left arithmetic, single (42_char_shift_misc.md R227). -/
def execSla (x : RegIx) (m : ModIx) (n : BitVec 10) (s : State) : Result := shiftSingle .left .arithmetic x m n s

/-- SRC: shift right circular, single (42_char_shift_misc.md R228). -/
def execSrc (x : RegIx) (m : ModIx) (n : BitVec 10) (s : State) : Result := shiftSingle .right .circular x m n s

/-- SRL: shift right logical, single (42_char_shift_misc.md R229). -/
def execSrl (x : RegIx) (m : ModIx) (n : BitVec 10) (s : State) : Result := shiftSingle .right .logical x m n s

/-- SRA: shift right arithmetic, single (42_char_shift_misc.md R230). -/
def execSra (x : RegIx) (m : ModIx) (n : BitVec 10) (s : State) : Result := shiftSingle .right .arithmetic x m n s

/-- SLCD: shift left circular, double (42_char_shift_misc.md R231). -/
def execSlcd (x : RegIx) (m : ModIx) (n : BitVec 10) (s : State) : Result := shiftDouble .left .circular x m n s

/-- SLLD: shift left logical, double (42_char_shift_misc.md R232). -/
def execSlld (x : RegIx) (m : ModIx) (n : BitVec 10) (s : State) : Result := shiftDouble .left .logical x m n s

/-- SLAD: shift left arithmetic, double (42_char_shift_misc.md R233). -/
def execSlad (x : RegIx) (m : ModIx) (n : BitVec 10) (s : State) : Result := shiftDouble .left .arithmetic x m n s

/-- SRCD: shift right circular, double (42_char_shift_misc.md R234). -/
def execSrcd (x : RegIx) (m : ModIx) (n : BitVec 10) (s : State) : Result := shiftDouble .right .circular x m n s

/-- SRLD: shift right logical, double (42_char_shift_misc.md R235). -/
def execSrld (x : RegIx) (m : ModIx) (n : BitVec 10) (s : State) : Result := shiftDouble .right .logical x m n s

/-- SRAD: shift right arithmetic, double (42_char_shift_misc.md R236). -/
def execSrad (x : RegIx) (m : ModIx) (n : BitVec 10) (s : State) : Result := shiftDouble .right .arithmetic x m n s

end Sys2Proof.Machine
end

