-- ==== Sys2Proof/Machine/Dispatch.lean ====
section
/-! DEFINITION. Which meaning each instruction has: one arm per constructor, in the order of spec/opcode_table.json. -/

namespace Sys2Proof.Machine

/-- The effect of an instruction on the state (40_dispatch.md R134). -/
def exec (i : Instr) (s : State) : Host.Outcome State Fault Refusal :=
  match i with
  | .ldx x m n => Sys2Proof.Machine.execLdx x m n s
  | .adx x m n => Sys2Proof.Machine.execAdx x m n s
  | .ngx x m n => Sys2Proof.Machine.execNgx x m n s
  | .sbx x m n => Sys2Proof.Machine.execSbx x m n s
  | .ldxc x m n => Sys2Proof.Machine.execLdxc x m n s
  | .adxc x m n => Sys2Proof.Machine.execAdxc x m n s
  | .ngxc x m n => Sys2Proof.Machine.execNgxc x m n s
  | .sbxc x m n => Sys2Proof.Machine.execSbxc x m n s
  | .sto x m n => Sys2Proof.Machine.execSto x m n s
  | .ads x m n => Sys2Proof.Machine.execAds x m n s
  | .ngs x m n => Sys2Proof.Machine.execNgs x m n s
  | .sbs x m n => Sys2Proof.Machine.execSbs x m n s
  | .stoc x m n => Sys2Proof.Machine.execStoc x m n s
  | .adsc x m n => Sys2Proof.Machine.execAdsc x m n s
  | .ngsc x m n => Sys2Proof.Machine.execNgsc x m n s
  | .sbsc x m n => Sys2Proof.Machine.execSbsc x m n s
  | .andx x m n => Sys2Proof.Machine.execAndx x m n s
  | .orx x m n => Sys2Proof.Machine.execOrx x m n s
  | .erx x m n => Sys2Proof.Machine.execErx x m n s
  | .obey x m n => Sys2Proof.Machine.execObey x m n s
  | .ldch x m n => Sys2Proof.Machine.execLdch x m n s
  | .ldex x m n => Sys2Proof.Machine.execLdex x m n s
  | .txu x m n => Sys2Proof.Machine.execTxu x m n s
  | .txl x m n => Sys2Proof.Machine.execTxl x m n s
  | .ands x m n => Sys2Proof.Machine.execAnds x m n s
  | .ors x m n => Sys2Proof.Machine.execOrs x m n s
  | .ers x m n => Sys2Proof.Machine.execErs x m n s
  | .stoz x m n => Sys2Proof.Machine.execStoz x m n s
  | .dch x m n => Sys2Proof.Machine.execDch x m n s
  | .dex x m n => Sys2Proof.Machine.execDex x m n s
  | .dsa x m n => Sys2Proof.Machine.execDsa x m n s
  | .dla x m n => Sys2Proof.Machine.execDla x m n s
  | .mpy x m n => Sys2Proof.Machine.execMpy x m n s
  | .mpr x m n => Sys2Proof.Machine.execMpr x m n s
  | .mpa x m n => Sys2Proof.Machine.execMpa x m n s
  | .cdb x m n => Sys2Proof.Machine.execCdb x m n s
  | .dvd x m n => Sys2Proof.Machine.execDvd x m n s
  | .dvr x m n => Sys2Proof.Machine.execDvr x m n s
  | .dvs x m n => Sys2Proof.Machine.execDvs x m n s
  | .cbd x m n => Sys2Proof.Machine.execCbd x m n s
  | .bze x n => Sys2Proof.Machine.execBze x n s
  | .bnz x n => Sys2Proof.Machine.execBnz x n s
  | .bpz x n => Sys2Proof.Machine.execBpz x n s
  | .bng x n => Sys2Proof.Machine.execBng x n s
  | .bux x n => Sys2Proof.Machine.execBux x n s
  | .bdx x n => Sys2Proof.Machine.execBdx x n s
  | .bchx x n => Sys2Proof.Machine.execBchx x n s
  | .bct x n => Sys2Proof.Machine.execBct x n s
  | .call x n => Sys2Proof.Machine.execCall x n s
  | .exit x n => Sys2Proof.Machine.execExit x n s
  | .brn n => Sys2Proof.Machine.execBrn n s
  | .bvs n => Sys2Proof.Machine.execBvs n s
  | .bvsr n => Sys2Proof.Machine.execBvsr n s
  | .bvc n => Sys2Proof.Machine.execBvc n s
  | .bvcr n => Sys2Proof.Machine.execBvcr n s
  | .bcs n => Sys2Proof.Machine.execBcs n s
  | .bcc n => Sys2Proof.Machine.execBcc n s
  | .bvci n => Sys2Proof.Machine.execBvci n s
  | .bfp0 n => Sys2Proof.Machine.execBfp0 n s
  | .bfp1 n => Sys2Proof.Machine.execBfp1 n s
  | .bfp2 n => Sys2Proof.Machine.execBfp2 n s
  | .bfp3 n => Sys2Proof.Machine.execBfp3 n s
  | .bfp4 n => Sys2Proof.Machine.execBfp4 n s
  | .bfp5 n => Sys2Proof.Machine.execBfp5 n s
  | .ldn x m n => Sys2Proof.Machine.execLdn x m n s
  | .adn x m n => Sys2Proof.Machine.execAdn x m n s
  | .ngn x m n => Sys2Proof.Machine.execNgn x m n s
  | .sbn x m n => Sys2Proof.Machine.execSbn x m n s
  | .ldnc x m n => Sys2Proof.Machine.execLdnc x m n s
  | .adnc x m n => Sys2Proof.Machine.execAdnc x m n s
  | .ngnc x m n => Sys2Proof.Machine.execNgnc x m n s
  | .sbnc x m n => Sys2Proof.Machine.execSbnc x m n s
  | .slc x m n => Sys2Proof.Machine.execSlc x m n s
  | .sll x m n => Sys2Proof.Machine.execSll x m n s
  | .sla x m n => Sys2Proof.Machine.execSla x m n s
  | .slcd x m n => Sys2Proof.Machine.execSlcd x m n s
  | .slld x m n => Sys2Proof.Machine.execSlld x m n s
  | .slad x m n => Sys2Proof.Machine.execSlad x m n s
  | .src x m n => Sys2Proof.Machine.execSrc x m n s
  | .srl x m n => Sys2Proof.Machine.execSrl x m n s
  | .sra x m n => Sys2Proof.Machine.execSra x m n s
  | .srcd x m n => Sys2Proof.Machine.execSrcd x m n s
  | .srld x m n => Sys2Proof.Machine.execSrld x m n s
  | .srad x m n => Sys2Proof.Machine.execSrad x m n s
  | .norm x m n => Sys2Proof.Machine.execNorm x m n s
  | .normd x m n => Sys2Proof.Machine.execNormd x m n s
  | .mvch x m n => Sys2Proof.Machine.execMvch x m n s
  | .smo x m n => Sys2Proof.Machine.execSmo x m n s
  | .andn x m n => Sys2Proof.Machine.execAndn x m n s
  | .orn x m n => Sys2Proof.Machine.execOrn x m n s
  | .ern x m n => Sys2Proof.Machine.execErn x m n s
  | .null x m n => Sys2Proof.Machine.execNull x m n s
  | .ldct x m n => Sys2Proof.Machine.execLdct x m n s
  | .mode x m n => Sys2Proof.Machine.execMode x m n s
  | .move x m n => Sys2Proof.Machine.execMove x m n s
  | .sum x m n => Sys2Proof.Machine.execSum x m n s
  | .float x m n => Sys2Proof.Machine.execFloat x m n s
  | .fix x m n => Sys2Proof.Machine.execFix x m n s
  | .fad x m n => Sys2Proof.Machine.execFad x m n s
  | .fsb x m n => Sys2Proof.Machine.execFsb x m n s
  | .fmpy x m n => Sys2Proof.Machine.execFmpy x m n s
  | .fdvd x m n => Sys2Proof.Machine.execFdvd x m n s
  | .lfp x m n => Sys2Proof.Machine.execLfp x m n s
  | .sfp x m n => Sys2Proof.Machine.execSfp x m n s
  | .rsr x m n => Sys2Proof.Machine.execRsr x m n s
  | .wsr x m n => Sys2Proof.Machine.execWsr x m n s
  | .exx x m n => Sys2Proof.Machine.execExx x m n s
  | .ldl x m n => Sys2Proof.Machine.execLdl x m n s
  | .ldm x m n => Sys2Proof.Machine.execLdm x m n s
  | .tdl x m n => Sys2Proof.Machine.execTdl x m n s
  | .peri x m n => Sys2Proof.Machine.execPeri x m n s
  | .xferIn x m n => Sys2Proof.Machine.execXferIn x m n s
  | .xferOut x m n => Sys2Proof.Machine.execXferOut x m n s
  | .search f x m n => Sys2Proof.Machine.execSearch f x m n s

end Sys2Proof.Machine
end

