-- ==== Sys2Proof/Machine/Fetch.lean ====
section
/-! DEFINITION. The start of a step (40_dispatch.md R120): a turn of the environment, an obeyed word, or the start of a
cycle, which is the host-stop test, the Loading test, the interrupt check and the fetch, in that order (60_exceptions.md
R422). Running the word it answers is Sys2Proof/Machine/Step.lean. -/

namespace Sys2Proof.Machine

/-- What the start of a step comes to: the whole step, or a word to decode and execute. -/
inductive CycleStart where
  | finished (r : Result)
  | execute (w : Word) (s : State)

/-- The words a device writes, each at its physical address; addresses past the installed memory name no word (60_exceptions.md
R433; log 7). -/
def State.deviceWrites (s : State) (writes : List Cell) : State :=
  { s with
    mem := writes.foldl (fun mem c => if c.1 < s.cfg.memSize then mem.write c.1 c.2 else mem) s.mem }

/-- A device's turn: DMA writes, and bits set, never cleared, in SR64 and SR65 (60_exceptions.md R433); of SR65 only the bits of
`SR65_ATTN` (10_state.md R38; log 16). -/
def State.deviceTurn (s : State) (writes : List Cell) (sr64 sr65 : Word) : State :=
  { s.deviceWrites writes with sr64 := s.sr64 ||| sr64, sr65 := s.sr65 ||| (sr65 &&& s.cfg.sr65Attn) }

/-- The timer tick (60_exceptions.md R434). -/
def State.timerTick (s : State) : State := { s with sr64 := s.sr64 ||| bitWord s.cfg.sr64Timer }

/-- A later reset (70_reset_and_hazards.md R450): every register at its reset value, memory kept; the turns still to come and
the count of draws are the environment's and go on (log 17). -/
def State.laterReset (s : State) : State :=
  { State.resetWith s.cfg s.mem with turns := s.turns, draws := s.draws }

/-- The end of the Loading spin (40_dispatch.md R122; 70_reset_and_hazards.md R452). -/
def State.endLoading (s : State) : State := { s with loading := false, pc := s.cfg.bootVector &&& s.amask }

/-- One cycle of Loading: a wait while nothing is pending (40_dispatch.md R122). -/
def loadingCycle (s : State) : Result := .next (if s.pending then s.endLoading else s)

/-- The fetch (40_dispatch.md R125). A fetch that violates aborts with PC unchanged, and a pending pre-modification
offset is lost (R131; log 20). -/
def fetch (s : State) : CycleStart :=
  let t : State := { s with ia := s.pc &&& s.amask }
  match memRead t t.ia false with
  | none => .finished (abort t.consumePip)
  | some w => .execute w t

/-- The start of a cycle (40_dispatch.md R120, R121 to R123, R125). -/
def cycleStart (s : State) : CycleStart :=
  if s.stopped then .finished (.fault .stopped)
  else if s.stopRequested then .finished (.next { s with stopped := true })
  else if s.loading then .finished (loadingCycle s)
  else if !s.executive && !s.pip && s.pending then .finished (hardwareEntry s)
  else fetch s

/-- The turn that comes next, where no obeyed word waits (60_exceptions.md R433 to R435; log 7). -/
def turnStart (s : State) : CycleStart :=
  match s.turns with
  | [] => cycleStart s
  | .processor :: rest => cycleStart { s with turns := rest }
  | .device writes sr64 sr65 :: rest =>
    .finished (.next (State.deviceTurn { s with turns := rest } writes sr64 sr65))
  | .timerTick :: rest => .finished (.next (State.timerTick { s with turns := rest }))
  | .stopRequest :: rest => .finished (.next { s with turns := rest, stopRequested := true })
  | .reset :: rest => .finished (.next (State.laterReset { s with turns := rest }))

/-- The start of a step: an obeyed word is decoded at once, with no turn of the environment and no check in between
(40_dispatch.md R123, R133; log 8). -/
def stepStart (s : State) : CycleStart :=
  match s.obeyed with
  | some w => .execute w { s with obeyed := none }
  | none => turnStart s

/-! ### Placing an instruction -/

/-- The state in which the next step of the processor is a cycle that fetches: no turn, no obeyed word, no stop, Loading
ended, and no entry about to be taken (log 10). -/
def State.readyToFetch (s : State) : State :=
  let t : State := { s with turns := [], obeyed := none, stopped := false, stopRequested := false }
  let u : State := if t.loading then t.endLoading else t
  if !u.executive && !u.pip then { u with sr64 := 0, sr65 := 0 } else u

/-- A word placed where the next fetch reads: in an index register where the window holds, else in main memory
(20_memory.md R61, R67). Where the fetch would violate there is no such place, and nothing changes. -/
def State.placeAtFetch (s : State) (w : Word) : State :=
  match memWrite s (s.pc &&& s.amask) w false with
  | some t => t
  | none => s

end Sys2Proof.Machine
end

