-- ==== Sys2Proof/Machine/Reserved.lean ====
section
/-! DEFINITION. What the words that match no row of the opcode table do (30_encoding.md R104). -/

namespace Sys2Proof.Machine

/-- A reserved encoding executed (30_encoding.md R104): a shift with submode 3 is refused; BFP 6 and 7 are orders of the
floating-point option and refused where it is present (45_branch.md R351); an unassigned executive code is a voluntary
entry in user mode and refused in executive mode (46_executive.md R371, R383). -/
def execReserved (r : Reserved) (s : State) : Result :=
  match r with
  | .shiftSubmode3 _ _ _ _ => .refused .shiftSubmode3
  | .floatCondition _ _ => withOption s.cfg.hasFp s.advance (.refused .floatCondition)
  | .unassignedExec _ _ _ _ => privileged s.advance (.refused .unassignedExec)

end Sys2Proof.Machine
end

