-- ==== Sys2Proof/Machine/Step.lean ====
section
/-! DEFINITION. The step function, and the placing of an instruction where the next step fetches it. -/

namespace Sys2Proof.Machine

/-- A word decoded and executed (40_dispatch.md R126, R134; 30_encoding.md R94, R104). -/
def runWord (w : Word) (s : State) : Result :=
  match decode s.cfg.codes w with
  | .ok i => exec i s
  | .error r => execReserved r s

/-- One step: a turn of the environment, a cycle of the processor, or the decoding of an obeyed word (40_dispatch.md R120). -/
def step (s : State) : Host.Outcome State Fault Refusal :=
  match stepStart s with
  | .finished r => r
  | .execute w t => runWord w t

/-- The state with the instruction whose bits are `w` stored where the next step fetches it (log 10). An instruction is one
word; the bits at and above `nbits` are 0. -/
def State.withFetchWord (s : State) (nbits w : Nat) : State :=
  s.readyToFetch.placeAtFetch (BitVec.ofNat 24 (w % 2 ^ nbits))

end Sys2Proof.Machine
end

