-- ==== Sys2Proof/Safety.lean ====
section
/-! DEFINITION. What counts as a safe state, and the terms in which the statements speak of an instruction's effect: what it
stores, what it says of overflow, what an entry to executive mode leaves, and the exact integers behind the adder. -/

namespace Sys2Proof

/-- The function code F of an instruction's word, bits 20:14 (30_encoding.md R91). -/
def Instr.functionCode (i : Instr) (k : ExecCodes) : Nat := (encode k i).toNat / 2 ^ 14 % 128

end Sys2Proof

namespace Sys2Proof.Machine

/-- The invariant of the machine: the parameters meet their constraints (93_implementation_defined.md A.1), memory is in its
canonical form and lists installed words only (20_memory.md R60), AM22 and EJM are 0 where the extension is absent
(10_state.md R29), the program counter of a user program lies within the active width (10_state.md R24), the Loading
spin is executive (R44), and no obeyed word waits in it or in a stopped processor. -/
structure State.Inv (s : State) : Prop where
  /-- The parameters meet their constraints. -/
  config : s.cfg.wf
  /-- Memory is in canonical form. -/
  memory : s.mem.wf
  /-- Memory lists installed words only. -/
  installed : s.mem.within s.cfg.memSize
  /-- Without the 22-bit extension, AM22 and EJM are 0. -/
  narrow : s.cfg.hasAm22 = false → s.am22 = false ∧ s.ejm = false
  /-- A user program's PC lies within the active width. -/
  userPc : s.executive = false → s.pc &&& s.amask = s.pc
  /-- The Loading spin runs in executive mode. -/
  spin : s.loading = true → s.executive = true
  /-- No obeyed word waits while the processor spins or is stopped. -/
  idle : s.loading = true ∨ s.stopped = true → s.obeyed = none

/-- A processor about to take a cycle: no obeyed word waits, the environment has no turn, no stop is asked for, and
Loading has ended. -/
structure State.Running (s : State) : Prop where
  /-- No obeyed word waits. -/
  obeyed : s.obeyed = none
  /-- The environment has no turn. -/
  turns : s.turns = []
  /-- The processor is not stopped. -/
  stopped : s.stopped = false
  /-- No stop is asked for. -/
  stopRequested : s.stopRequested = false
  /-- Loading has ended. -/
  loading : s.loading = false

/-- An instruction has moved on: PC is at the word after the one it was fetched from, and no pre-modification is pending
(40_dispatch.md R127, R130). -/
def MovesOn (s t : State) : Prop := t.pc = s.nextAddr s.ia ∧ t.pip = false

/-- One word `r` has been stored at the operand address `ea`, and every other word of memory and register is as before: an
address of the window is a register, any other a word of main memory (20_memory.md R68). -/
def Stores (s t : State) (ea : Addr) (r : Word) : Prop :=
  memRead t ea true = some r ∧
  (∀ i, access s ea true ≠ .reg i → t.reg i = s.reg i) ∧
  (∀ p, access s ea true ≠ .mem p → t.mem.read p = s.mem.read p)

/-- `set_V()` is called where `ovf` holds, and V and SR64 are as before where it does not (41_fixed_point.md R163;
60_exceptions.md R416). -/
def NotesOverflow (s t : State) (ovf : Bool) : Prop :=
  t.v = (s.v || ovf) ∧
  t.sr64 = if ovf && s.cfg.ovfTrapEnabled && !s.executive then s.sr64 ||| bitWord s.cfg.sr64OvfTrap else s.sr64

/-- The carry or borrow an adder order brings in, as an integer (41_fixed_point.md R161). -/
def carryIn (cuse : CarryUse) (c : Bool) : Int :=
  match cuse with
  | .useC => if c then 1 else 0
  | .noC => 0

/-- The exact sum or difference of an adder order (41_fixed_point.md R161). -/
def exactSum (kind : AddKind) (a b cin : Int) : Int :=
  match kind with
  | .add => a + b + cin
  | .sub => a - b - cin

/-- What an adder order writes (41_fixed_point.md R161, R163): the exact result modulo 2^24; C, whether the unsigned result lies
outside 0 to 2^24 - 1 (a carry, or a borrow); V, where the signed result lies outside -2^23 to 2^23 - 1. -/
def AdderWrites (s t : State) (r a b : Word) (kind : AddKind) (cuse : CarryUse) : Prop :=
  let unsigned := exactSum kind a.toNat b.toNat (carryIn cuse s.c)
  let signed := exactSum kind a.toInt b.toInt (carryIn cuse s.c)
  r = BitVec.ofInt 24 signed ∧
  t.c = decide (unsigned < 0 ∨ 2 ^ 24 ≤ unsigned) ∧
  NotesOverflow s t (decide (signed < -2 ^ 23 ∨ 2 ^ 23 ≤ signed))

/-- Character lane `k` of a word, as a number, lane 0 most significant (20_memory.md R69). -/
def laneValue (w : Word) (k : Nat) : Nat := w.toNat / 2 ^ (18 - 6 * k) % 64

/-- The lane of a character operand, as a number (42_char_shift_misc.md R210). -/
def State.laneNumber (s : State) (m : ModIx) : Nat := (s.modifier m).toNat / 2 ^ 22

/-- The count of a shift, before the address is masked: `EA[9:0]` (42_char_shift_misc.md R220). -/
def State.countOfShift (s : State) (m : ModIx) (n : BitVec 10) : Nat :=
  (n.toNat + (s.modifier m).toNat + s.offset.toNat) % 1024

/-- Whether the sign changes at some step of an arithmetic left shift by `c` (42_char_shift_misc.md R221, R224): some bit that
comes to the sign position differs from the sign. -/
def signChanges {w : Nat} (v : BitVec w) (c : Nat) : Bool := !(List.range (c + 1)).all fun j => v.getMsbD j == v.msb

/-- `r` is the remainder of the quotient of `a` by `d` truncated toward zero: smaller than the divisor, of the dividend's sign
(43_muldiv.md R265). -/
def TruncatedRemainder (a d r : Int) : Prop := r.natAbs < d.natAbs ∧ 0 ≤ a * r

/-- `r` is the remainder of the nearest quotient of `a` by `d`, away from zero at a tie (43_muldiv.md R265, R267). -/
def NearestRemainder (a d r : Int) : Prop :=
  d ≠ 0 ∧ 2 * r.natAbs ≤ d.natAbs ∧ (2 * r.natAbs = d.natAbs → a * r ≤ 0)

/-- The value of a floating number, a rational (44_float.md R290). -/
def floatValue (m : Mantissa) (e : Exponent) : ℚ := m.toInt * 2 ^ ((e.toNat : ℤ) - 293)

/-- A fraction whose sign bit and next bit differ (44_float.md R291): from 1/2 up to 1, or from -1 up to -1/2. -/
def NormalFraction (f : ℚ) : Prop := (1 / 2 ≤ f ∧ f < 1) ∨ (-1 ≤ f ∧ f < -(1 / 2))

/-- `r` is the exact number `v` normalised, rounded by a half-ULP and normalised again, flushed to zero below the exponent
range and marked as overflow above it (44_float.md R291 to R293). The normal fraction of `v` has exponent `e₀`; the
normalised mantissa `mi` and exponent `e` are those of the rounded number. -/
def Rounded (v : ℚ) (r : FpResult) : Prop :=
  (v = 0 ∧ r = ⟨0, 0, false⟩) ∨
  ∃ e₀ e mi : ℤ, NormalFraction (v / 2 ^ (e₀ - 256)) ∧ NormalFraction (mi / 2 ^ 37) ∧
    (mi : ℚ) * 2 ^ e = ⌊v / 2 ^ (e₀ - 293) + 1 / 2⌋ * 2 ^ e₀ ∧
    r = if e < 0 then ⟨0, 0, false⟩ else ⟨BitVec.ofInt 38 mi, BitVec.ofInt 9 e, decide (511 < e)⟩

/-- An entry to executive mode has been made from `s`, whose PC is the one saved (60_exceptions.md R412, R417, R418): the
flags, the mode byte, the pre-modification and the status words are cleared, the context stands in the save area, every
other word of memory and every other piece of state is as before. -/
structure Entered (s t : State) (vector : Addr) : Prop where
  /-- PC is at the vector. -/
  pc : t.pc = vector
  /-- The processor is executive, and its flags, mode byte, pre-modification and status words are 0. -/
  mode : t.executive = true ∧ t.v = false ∧ t.c = false ∧ t.fov = false ∧ t.mode = 0 ∧ t.pip = false ∧ t.pipVal = 0 ∧
    t.sr64 = 0 ∧ t.sr65 = 0
  /-- The eight index registers are saved from RD on. -/
  registers : ∀ i : RegIx, t.mem.read ((s.rd.toNat + i.toNat) % 2 ^ 22) = s.reg i
  /-- The PC word: V, C and the PC. -/
  pcWord : (t.mem.read ((s.rd.toNat + s.cfg.offPc.toNat) % 2 ^ 22)).toNat =
    s.v.toNat * 2 ^ 23 + s.c.toNat * 2 ^ 22 + s.pc.toNat
  /-- The status word: FOV and the mode byte. -/
  statusWord : (t.mem.read ((s.rd.toNat + s.cfg.offSt.toNat) % 2 ^ 22)).toNat = s.fov.toNat * 2 ^ 5 + s.mode.toNat
  /-- The first word of the accumulator's image: the high 24 bits of the mantissa. -/
  image0 : (t.mem.read ((s.rd.toNat + s.cfg.offFa.toNat) % 2 ^ 22)).toNat = s.am.toNat / 2 ^ 14
  /-- The second word of the accumulator's image: the low 14 bits of the mantissa, and the exponent. -/
  image1 : (t.mem.read ((s.rd.toNat + s.cfg.offFa.toNat + 1) % 2 ^ 22)).toNat =
    s.am.toNat % 2 ^ 14 * 2 ^ 9 + s.ae.toNat
  /-- Every other word of memory is as before. -/
  memory : ∀ p, (∀ o ∈ s.cfg.saveOffsets, p ≠ (s.rd.toNat + o.toNat) % 2 ^ 22) → t.mem.read p = s.mem.read p
  /-- Everything else is as before. -/
  rest : { t with
    pc := s.pc, executive := s.executive, v := s.v, c := s.c, fov := s.fov, mode := s.mode, pip := s.pip,
    pipVal := s.pipVal, sr64 := s.sr64, sr65 := s.sr65, mem := s.mem } = s

/-- The words of a save area based at RD are all installed (60_exceptions.md R412, R441). -/
def State.SaveAreaFits (s : State) : Prop :=
  ∀ o ∈ s.cfg.saveOffsets, (s.rd.toNat + o.toNat) % 2 ^ 22 < s.cfg.memSize

/-- Two states that agree on every register and piece of state, and on the words of memory from `lo` up to `hi`, `hi` not
included. -/
def AgreeWithin (lo hi : Nat) (s t : State) : Prop :=
  { t with mem := s.mem } = s ∧ ∀ p, lo ≤ p → p < hi → t.mem.read p = s.mem.read p

end Sys2Proof.Machine
end

