-- ==== Sys2Proof/Certificates/Slice0/Obligations.lean ====
section
/-! DEFINITION. The statements for the provers. Each docstring names the rules of spec/ that the statement formalises. -/

open Sys2Proof Sys2Proof.Machine

/-! ### Encoding -/

/-- A few words, written out from the spec's encodings, decode to the instructions they stand for (30_encoding.md R91 to
R93, R100 to R102). -/
def Obligations.SampleWordsDecode : Prop :=
  decode defaultCodes 0o10020100#24 = .ok (.ldx 1 2 0o100#12) ∧
  decode defaultCodes 0o14404001#24 = .ok (.sla 1 0 1#10) ∧
  decode defaultCodes 0o12400200#24 = .ok (.bze 1 0o200#15) ∧
  decode defaultCodes 0o3677776#24 = .ok (.brn 0o77776#15) ∧
  decode defaultCodes 0o43700200#24 = .ok (.bfp4 0o200#15) ∧
  decode defaultCodes 0o16240000#24 = .ok (.tdl 1 0 0#12) ∧
  decode defaultCodes 0o16400000#24 = .ok (.search 0o150#7 1 0 0#12) ∧
  decode defaultCodes 0o14406001#24 = .error (.shiftSubmode3 0o110#7 1 0 1#10)

/-- Decoding the word of an instruction gives the instruction back, for every well-formed instruction and every map of the
executive codes that meets the constraint of R370 (30_encoding.md R93, R94, R100 to R103). -/
def Obligations.DecodeOfEncode : Prop :=
  ∀ (k : ExecCodes) (i : Instr), k.wf → i.wf = true → decode k (encode k i) = .ok i

/-- A word that decodes to an instruction is the word of that instruction, and the instruction is well formed: no bit of a
word is dropped and no two words stand for one instruction (30_encoding.md R90, R94). -/
def Obligations.EncodeOfDecode : Prop :=
  ∀ (k : ExecCodes) (w : Word) (i : Instr), decode k w = .ok i → encode k i = w ∧ i.wf = true

/-- The words that match no row of the opcode table are exactly the encodings of R104 that R108 names: a shift with
submode 3, BFP with X = 6 or 7, and an executive-group code that no parameter or SEARCH names. -/
def Obligations.ReservedWords : Prop :=
  ∀ (k : ExecCodes) (w : Word),
    let x := w.toNat / 2 ^ 21
    let f := w.toNat / 2 ^ 14 % 128
    (∃ r, decode k w = .error r) ↔
      (0o110 ≤ f ∧ f ≤ 0o113 ∧ w.toNat / 2 ^ 10 % 4 = 3) ∨
      ((f = 0o76 ∨ f = 0o77) ∧ (x = 6 ∨ x = 7)) ∨
      (0o140 ≤ f ∧ ¬(0o150 ≤ f ∧ f ≤ 0o165) ∧ ∀ c ∈ k.toList, c.toNat ≠ f)

/-! ### The cycle -/

/-- A step runs the decoded instruction: with the processor about to take a cycle and no entry due, the word fetched at PC
decodes and the step is what the instruction does in the state that holds its address in IA; a turn given to the
processor by the environment changes nothing else; an obeyed word is decoded and executed at once, whatever is pending and
whatever turns wait (40_dispatch.md R120, R123, R125, R126, R133, R134; log 8). -/
def Obligations.StepRunsDecodedWord : Prop :=
  (∀ (s : State) (w : Word), s.Running → (s.executive = true ∨ s.pip = true ∨ s.pending = false) →
    memRead s (s.pc &&& s.amask) false = some w →
    (∀ i, decode s.cfg.codes w = .ok i → step s = exec i { s with ia := s.pc &&& s.amask }) ∧
    (∀ r, decode s.cfg.codes w = .error r → step s = execReserved r { s with ia := s.pc &&& s.amask }) ∧
    (∀ i rest, decode s.cfg.codes w = .ok i →
      step { s with turns := .processor :: rest } = exec i { s with turns := rest, ia := s.pc &&& s.amask })) ∧
  ∀ (s : State) (w : Word) (i : Instr), s.obeyed = some w → decode s.cfg.codes w = .ok i →
    step s = exec i { s with obeyed := none }

/-- An instruction placed by `withFetchWord` is the one the next step runs, for every well-formed instruction, from every
state whose fetch does not violate (the model's own operation, log 10). -/
def Obligations.PlacedInstructionRuns : Prop :=
  ∀ (s : State) (i : Instr), s.mem.wf → s.cfg.codes.wf → i.wf = true →
    access s.readyToFetch (s.readyToFetch.pc &&& s.readyToFetch.amask) false ≠ .violation →
    let t := s.withFetchWord 24 (encode s.cfg.codes i).toNat
    step t = exec i { t with ia := t.pc &&& t.amask }

/-- While LOADING is 1 a cycle changes no state until a condition is pending, and waits for ever where none comes; then it
clears LOADING and sets PC to the boot vector, and nothing else (40_dispatch.md R122; 70_reset_and_hazards.md R452). -/
def Obligations.LoadingSpins : Prop :=
  ∀ s : State, s.obeyed = none → s.turns = [] → s.stopped = false → s.stopRequested = false → s.loading = true →
    (s.pending = false → ∀ k, Host.Core.run Sys2Proof.core k s = .next s) ∧
    (s.pending = true → step s = .next { s with loading := false, pc := s.cfg.bootVector &&& s.amask })

/-- A host stop is seen before the fetch, before Loading and before the interrupt check; a stopped processor takes no further
step, which the model answers as the fault `stopped` (40_dispatch.md R121; 60_exceptions.md R422; log 9, log 18). -/
def Obligations.HostStopEndsTheRun : Prop :=
  ∀ s : State, s.obeyed = none → s.turns = [] → s.stopped = false →
    (s.stopRequested = true → step s = .next { s with stopped := true }) ∧
    step { s with turns := [.stopRequest] } = .next { s with stopRequested := true } ∧
    step { s with stopped := true } = .fault .stopped

/-- Between two cycles a device may write any words of memory, the last write to a word standing and a write past MEMSIZE naming
no word, and set bits of SR64 and SR65, never clear them, and the scheduler may set the timer bit; nothing else of the state
changes (60_exceptions.md R433, R434; log 7, log 16). -/
def Obligations.EnvironmentTurns : Prop :=
  ∀ (s : State) (writes : List Cell) (b64 b65 : Word) (rest : List Turn), s.mem.wf → s.obeyed = none →
    (∃ t, step { s with turns := .device writes b64 b65 :: rest } = .next t ∧
      (∀ p, t.mem.read p =
        if p < s.cfg.memSize then (writes.reverse.lookup p).getD (s.mem.read p) else s.mem.read p) ∧
      (∀ k, t.sr64.getLsbD k = (s.sr64.getLsbD k || b64.getLsbD k)) ∧
      (∀ k, t.sr65.getLsbD k = (s.sr65.getLsbD k || (b65.getLsbD k && s.cfg.sr65Attn.getLsbD k))) ∧
      { t with mem := s.mem, sr64 := s.sr64, sr65 := s.sr65, turns := s.turns } = s ∧ t.turns = rest ∧ t.mem.wf) ∧
    (∃ t, step { s with turns := .timerTick :: rest } = .next t ∧
      (∀ k, t.sr64.getLsbD k = (s.sr64.getLsbD k || decide (k = s.cfg.sr64Timer))) ∧
      { t with sr64 := s.sr64, turns := s.turns } = s ∧ t.turns = rest)

/-- What reset leaves: the table of reset values, at power-on and at a later reset, which keeps memory and the
configuration (10_state.md R44; 70_reset_and_hazards.md R450, R451). -/
def Obligations.ResetValues : Prop :=
  ∀ (s : State) (rest : List Turn), s.obeyed = none →
    ∃ t, step { s with turns := .reset :: rest } = .next t ∧ t.mem = s.mem ∧ t.cfg = s.cfg ∧
      ∀ u ∈ [t, State.reset],
        (∀ i, u.reg i = 0) ∧ u.pc = 0 ∧ u.ia = 0 ∧ u.v = false ∧ u.c = false ∧ u.executive = true ∧
        u.rd = 0 ∧ u.rl = 0 ∧ u.am = 0 ∧ u.ae = 0 ∧ u.fov = false ∧ u.sr64 = 0 ∧ u.sr65 = 0 ∧
        u.pip = false ∧ u.pipVal = 0 ∧ u.loading = true ∧ u.stopped = false ∧
        (u.cfg.hasAm22 = true → u.mode = u.cfg.initialMode)

/-! ### Addressing -/

/-- The effective address of format A, and the branch target of format B, as sums modulo `2^w` (30_encoding.md R95, R99;
40_dispatch.md R128, R129, R130). -/
def Obligations.EffectiveAddresses : Prop :=
  ∀ (s : State) (m : ModIx) (n : BitVec 12) (d : BitVec 15),
    let off := if s.pip then s.pipVal.toNat else 0
    let mod := if m = 0 then 0 else (s.reg (m.setWidth 3)).toNat
    let w := if s.am22 then 22 else 15
    (s.operandAddress m n).toNat = (n.toNat + mod + off) % 2 ^ w ∧
    (s.linkDisplacement d).toNat = (d.toNat + off) % 2 ^ w ∧
    ((s.branchTarget d).toNat : Int) =
      (if s.ejm then s.ia.toNat + d.toInt + off else (d.toNat : Int) + off) % 2 ^ w ∧
    (s.nextAddr s.ia).toNat = (s.ia.toNat + 1) % 2 ^ w

/-- The addressing unit, step by step: the window, relocation, the limit check, the width mask and the size check
(20_memory.md R61 to R64). -/
def Obligations.AddressingUnit : Prop :=
  ∀ (s : State) (a : Addr) (o : Bool) (v : Word),
    let relocated := s.executive = false ∨ (s.datum = true ∧ o = true)
    let p := if s.executive = false ∨ (s.datum = true ∧ o = true) then s.rd.toNat + a.toNat else a.toNat
    let w := if s.am22 then 22 else 15
    if a.toNat < 8 ∧ (s.executive = false ∨ o = false) then
      memRead s a o = some (s.reg (a.setWidth 3)) ∧ memWrite s a v o = some (s.setReg (a.setWidth 3) v)
    else if s.executive = false ∧ s.rl ≠ 0 ∧ (p < s.rd.toNat ∨ s.rl.toNat ≤ p) then
      relocated ∧ memRead s a o = none ∧ memWrite s a v o = none
    else if s.cfg.memSize ≤ p % 2 ^ w then memRead s a o = none ∧ memWrite s a v o = none
    else
      memRead s a o = some (s.mem.read (p % 2 ^ w)) ∧
      memWrite s a v o = some { s with mem := s.mem.write (p % 2 ^ w) v }

/-- A word written through the addressing unit is the word read back; every access that goes elsewhere reads as before, and
nothing else of the state changes; memory keeps its canonical form (20_memory.md R60, R76). -/
def Obligations.ReadAfterWrite : Prop :=
  ∀ (s t : State) (a : Addr) (o : Bool) (v : Word), s.mem.wf → memWrite s a v o = some t →
    memRead t a o = some v ∧
    (∀ b q, access s b q ≠ access s a o → memRead t b q = memRead s b q) ∧
    { t with regs := s.regs, mem := s.mem } = s ∧ t.mem.wf

/-! ### Transfers, arithmetic and logic -/

/-- The plain transfers and NULL: the word, the literal, the register or zero in its destination and nothing else, no flag
written (41_fixed_point.md R163, R164, R172, R180, R197, R200). -/
def Obligations.PlainTransfers : Prop :=
  ∀ (s : State) (x : RegIx) (m : ModIx) (n : BitVec 12),
    (∀ w, memRead s (s.operandAddress m n) true = some w →
      exec (.ldx x m n) s = .next { s.setReg x w with pc := s.nextAddr s.ia, pip := false }) ∧
    exec (.ldn x m n) s =
      .next { s.setReg x ((s.operandAddress m n).setWidth 24) with pc := s.nextAddr s.ia, pip := false } ∧
    exec (.null x m n) s = .next { s with pc := s.nextAddr s.ia, pip := false } ∧
    (s.mem.wf → (memRead s (s.operandAddress m n) true).isSome = true →
      ∀ e ∈ [(Instr.sto x m n, s.reg x), (Instr.stoz x m n, 0)],
        ∃ t, exec e.1 s = .next t ∧ Stores s t (s.operandAddress m n) e.2 ∧ MovesOn s t ∧
          { t with regs := s.regs, mem := s.mem, pc := s.pc, pip := s.pip } = s)

/-- The adder orders with a register destination, from memory and from the literal: the exact sum or difference of the class
table, its carry or borrow, and its signed overflow; every other register and all else unchanged (41_fixed_point.md R161,
R162, R163, R165 to R171, R181 to R187; 30_encoding.md R96). -/
def Obligations.AddersToRegister : Prop :=
  ∀ (s : State) (x : RegIx) (m : ModIx) (n : BitVec 12) (w : Word),
    ∀ e ∈ [(Instr.adx x m n, Instr.adn x m n, s.reg x, AddKind.add, CarryUse.noC),
        (Instr.ngx x m n, Instr.ngn x m n, 0, AddKind.sub, CarryUse.noC),
        (Instr.sbx x m n, Instr.sbn x m n, s.reg x, AddKind.sub, CarryUse.noC),
        (Instr.ldxc x m n, Instr.ldnc x m n, 0, AddKind.add, CarryUse.useC),
        (Instr.adxc x m n, Instr.adnc x m n, s.reg x, AddKind.add, CarryUse.useC),
        (Instr.ngxc x m n, Instr.ngnc x m n, 0, AddKind.sub, CarryUse.useC),
        (Instr.sbxc x m n, Instr.sbnc x m n, s.reg x, AddKind.sub, CarryUse.useC)],
      ∀ d ∈ [(e.1, w, memRead s (s.operandAddress m n) true = some w),
          (e.2.1, (s.operandAddress m n).setWidth 24, True)],
        d.2.2 → ∃ t, exec d.1 s = .next t ∧ AdderWrites s t (t.reg x) e.2.2.1 d.2.1 e.2.2.2.1 e.2.2.2.2 ∧
          (∀ i, i ≠ x → t.reg i = s.reg i) ∧ MovesOn s t ∧
          { t with regs := s.regs, c := s.c, v := s.v, sr64 := s.sr64, pc := s.pc, pip := s.pip } = s

/-- The adder orders with a memory destination: the result in the word at EA, which is the first operand where the order
reads it; the flags; every other register and word of memory and all else unchanged (41_fixed_point.md R161, R162, R163,
R173 to R179). -/
def Obligations.AddersToMemory : Prop :=
  ∀ (s : State) (x : RegIx) (m : ModIx) (n : BitVec 12) (w : Word), s.mem.wf →
    memRead s (s.operandAddress m n) true = some w →
    ∀ e ∈ [(Instr.ads x m n, w, AddKind.add, CarryUse.noC), (Instr.ngs x m n, 0, AddKind.sub, CarryUse.noC),
        (Instr.sbs x m n, w, AddKind.sub, CarryUse.noC), (Instr.stoc x m n, 0, AddKind.add, CarryUse.useC),
        (Instr.adsc x m n, w, AddKind.add, CarryUse.useC), (Instr.ngsc x m n, 0, AddKind.sub, CarryUse.useC),
        (Instr.sbsc x m n, w, AddKind.sub, CarryUse.useC)],
      ∃ t r, exec e.1 s = .next t ∧ AdderWrites s t r e.2.1 (s.reg x) e.2.2.1 e.2.2.2 ∧
        Stores s t (s.operandAddress m n) r ∧ MovesOn s t ∧
        { t with regs := s.regs, mem := s.mem, c := s.c, v := s.v, sr64 := s.sr64, pc := s.pc, pip := s.pip } = s

/-- The logical orders to a register, from memory and from the literal: bit by bit, with C cleared and V unchanged
(41_fixed_point.md R163, R188 to R190, R194 to R196). -/
def Obligations.LogicToRegister : Prop :=
  ∀ (s : State) (x : RegIx) (m : ModIx) (n : BitVec 12) (w : Word),
    ∀ e ∈ [(Instr.andx x m n, Instr.andn x m n, and), (Instr.orx x m n, Instr.orn x m n, or),
        (Instr.erx x m n, Instr.ern x m n, xor)],
      ∀ d ∈ [(e.1, w, memRead s (s.operandAddress m n) true = some w),
          (e.2.1, (s.operandAddress m n).setWidth 24, True)],
        d.2.2 → ∃ t, exec d.1 s = .next t ∧
          (∀ k, k < 24 → (t.reg x).getLsbD k = e.2.2 ((s.reg x).getLsbD k) (d.2.1.getLsbD k)) ∧
          t.c = false ∧ (∀ i, i ≠ x → t.reg i = s.reg i) ∧ MovesOn s t ∧
          { t with regs := s.regs, c := s.c, pc := s.pc, pip := s.pip } = s

/-- The logical orders to memory: bit by bit, with C cleared and V unchanged (41_fixed_point.md R163, R191 to R193). -/
def Obligations.LogicToMemory : Prop :=
  ∀ (s : State) (x : RegIx) (m : ModIx) (n : BitVec 12) (w : Word), s.mem.wf →
    memRead s (s.operandAddress m n) true = some w →
    ∀ e ∈ [(Instr.ands x m n, and), (Instr.ors x m n, or), (Instr.ers x m n, xor)],
      ∃ t r, exec e.1 s = .next t ∧ (∀ k, k < 24 → r.getLsbD k = e.2 (w.getLsbD k) ((s.reg x).getLsbD k)) ∧
        Stores s t (s.operandAddress m n) r ∧ t.c = false ∧ MovesOn s t ∧
        { t with regs := s.regs, mem := s.mem, c := s.c, pc := s.pc, pip := s.pip } = s

/-- TXU and TXL write C and nothing else: whether the words differ; whether X is less than N + C as exact signed integers
(41_fixed_point.md R198, R199). -/
def Obligations.TestOrders : Prop :=
  ∀ (s : State) (x : RegIx) (m : ModIx) (n : BitVec 12) (w : Word),
    memRead s (s.operandAddress m n) true = some w →
    exec (.txu x m n) s =
      .next { s with c := decide ((s.reg x).toNat ≠ w.toNat), pc := s.nextAddr s.ia, pip := false } ∧
    exec (.txl x m n) s =
      .next { s with
        c := decide ((s.reg x).toInt < w.toInt + if s.c then 1 else 0), pc := s.nextAddr s.ia, pip := false }

/-! ### Characters, fields, shifts, decimal conversion, blocks -/

/-- The character and field orders: LDCH and DCH move one six-bit lane of the word at EA, chosen by the modifier's top bits;
LDEX loads bits 8:0; DEX, DSA and DLA deposit the low 9, 12 and 15 bits of X; the rest of the word is unchanged
(42_char_shift_misc.md R210, R212 to R217; 20_memory.md R69). -/
def Obligations.CharacterAndFieldOrders : Prop :=
  ∀ (s : State) (x : RegIx) (m : ModIx) (n : BitVec 12) (w : Word), s.mem.wf →
    memRead s (s.operandAddress m n) true = some w →
    exec (.ldch x m n) s =
      .next { s.setReg x (BitVec.ofNat 24 (laneValue w (s.laneNumber m))) with pc := s.nextAddr s.ia, pip := false } ∧
    exec (.ldex x m n) s =
      .next { s.setReg x (BitVec.ofNat 24 (w.toNat % 2 ^ 9)) with pc := s.nextAddr s.ia, pip := false } ∧
    ∀ e ∈ [(Instr.dch x m n, fun r : Word => ∀ k, k < 4 →
          laneValue r k = if k = s.laneNumber m then (s.reg x).toNat % 64 else laneValue w k),
        (Instr.dex x m n, fun r => r.toNat = w.toNat / 2 ^ 9 * 2 ^ 9 + (s.reg x).toNat % 2 ^ 9),
        (Instr.dsa x m n, fun r => r.toNat = w.toNat / 2 ^ 12 * 2 ^ 12 + (s.reg x).toNat % 2 ^ 12),
        (Instr.dla x m n, fun r => r.toNat = w.toNat / 2 ^ 15 * 2 ^ 15 + (s.reg x).toNat % 2 ^ 15)],
      ∃ t r, exec e.1 s = .next t ∧ e.2 r ∧ Stores s t (s.operandAddress m n) r ∧ MovesOn s t ∧
        { t with regs := s.regs, mem := s.mem, pc := s.pc, pip := s.pip } = s

/-- The single-length shifts in closed form, for every count: rotations, zero-filled shifts, the sign-filled right shift, and
overflow exactly where some bit that comes to the sign position differs from the sign (42_char_shift_misc.md R220, R221,
R223, R224, R225 to R230). -/
def Obligations.SingleShifts : Prop :=
  ∀ (s : State) (x : RegIx) (m : ModIx) (n : BitVec 10),
    let v := s.reg x
    let c := s.countOfShift m n
    ∀ e ∈ [(Instr.slc x m n, v.rotateLeft c, false), (Instr.sll x m n, v <<< c, false),
        (Instr.sla x m n, v <<< c, signChanges v c), (Instr.src x m n, v.rotateRight c, false),
        (Instr.srl x m n, v >>> c, false), (Instr.sra x m n, v.sshiftRight c, false)],
      ∃ t, exec e.1 s = .next t ∧ t.reg x = e.2.1 ∧ NotesOverflow s t e.2.2 ∧
        (∀ i, i ≠ x → t.reg i = s.reg i) ∧ MovesOn s t ∧
        { t with regs := s.regs, v := s.v, sr64 := s.sr64, pc := s.pc, pip := s.pip } = s

/-- The double-length shifts in closed form on the 48 bits of the pair (42_char_shift_misc.md R220 to R224, R231 to R236). -/
def Obligations.DoubleShifts : Prop :=
  ∀ (s : State) (x : RegIx) (m : ModIx) (n : BitVec 10),
    let v : BitVec 48 := s.reg x ++ s.reg (x + 1)
    let c := s.countOfShift m n
    ∀ e ∈ [(Instr.slcd x m n, v.rotateLeft c, false), (Instr.slld x m n, v <<< c, false),
        (Instr.slad x m n, v <<< c, signChanges v c), (Instr.srcd x m n, v.rotateRight c, false),
        (Instr.srld x m n, v >>> c, false), (Instr.srad x m n, v.sshiftRight c, false)],
      ∃ t, exec e.1 s = .next t ∧ (t.reg x ++ t.reg (x + 1) : BitVec 48) = e.2.1 ∧ NotesOverflow s t e.2.2 ∧
        (∀ i, i ≠ x → i ≠ x + 1 → t.reg i = s.reg i) ∧ MovesOn s t ∧
        { t with regs := s.regs, v := s.v, sr64 := s.sr64, pc := s.pc, pip := s.pip } = s

/-- MODE sets ZS to EA[0] and no other mode bit; LDCT puts EA[8:0] in the count field and clears the rest
(42_char_shift_misc.md R237, R244). That EA[0] takes in a pending pre-modification under MODE is the model's choice
between two rules of the spec (log 23). -/
def Obligations.ModeAndLoadCount : Prop :=
  ∀ (s : State) (x : RegIx) (m : ModIx) (n : BitVec 12),
    (∃ t, exec (.mode x m n) s = .next t ∧ t.zs = decide ((s.operandAddress m n).toNat % 2 = 1) ∧
      t.ejm = s.ejm ∧ t.datum = s.datum ∧ t.am22 = s.am22 ∧ t.trace = s.trace ∧ MovesOn s t ∧
      { t with mode := s.mode, pc := s.pc, pip := s.pip } = s) ∧
    exec (.ldct x m n) s =
      .next { s.setReg x (BitVec.ofNat 24 ((s.operandAddress m n).toNat % 512 * 2 ^ 15)) with
        pc := s.nextAddr s.ia, pip := false }

/-- CDB: a digit is added to ten times the double-length integer, modulo 2^47, with V where the exact value does not fit; a
character that is no digit sets C and changes nothing else (42_char_shift_misc.md R239). -/
def Obligations.DecimalToBinary : Prop :=
  ∀ (s : State) (x : RegIx) (m : ModIx) (n : BitVec 12) (w : Word),
    memRead s (s.operandAddress m n) true = some w →
    let ch := laneValue w (s.laneNumber m)
    let d := s.doubleLength x * 10 + ch
    (9 < ch → exec (.cdb x m n) s = .next { s with c := true, pc := s.nextAddr s.ia, pip := false }) ∧
    (ch ≤ 9 → ∃ t, exec (.cdb x m n) s = .next t ∧
      t.doubleLength x = d.bmod (2 ^ 47) ∧ (t.reg (x + 1)).getLsbD 23 = false ∧ t.c = false ∧
      NotesOverflow s t (decide (2 ^ 46 ≤ d ∨ d < -2 ^ 46)) ∧
      (∀ i, i ≠ x → i ≠ x + 1 → t.reg i = s.reg i) ∧ MovesOn s t ∧
      { t with regs := s.regs, c := s.c, v := s.v, sr64 := s.sr64, pc := s.pc, pip := s.pip } = s)

/-- CBD: the integer part of ten times the fraction is deposited as a character, the space character for a zero digit under
zero suppression; X keeps the fraction part; a non-zero digit clears ZS (42_char_shift_misc.md R240). Where EA names
X itself in the window, the fraction is what stands there in the end. -/
def Obligations.BinaryToDecimal : Prop :=
  ∀ (s : State) (x : RegIx) (m : ModIx) (n : BitVec 12) (w : Word), s.mem.wf →
    memRead s (s.operandAddress m n) true = some w →
    let p := (s.reg x).toNat % 2 ^ 23 * 10
    let d := p / 2 ^ 23
    let ch := if s.zs = true ∧ d = 0 then s.cfg.spaceChar.toNat else d
    ∃ t r, exec (.cbd x m n) s = .next t ∧
      (∀ k, k < 4 → laneValue r k = if k = s.laneNumber m then ch else laneValue w k) ∧
      (access s (s.operandAddress m n) true ≠ .reg x → memRead t (s.operandAddress m n) true = some r) ∧
      (t.reg x).toNat = p % 2 ^ 23 ∧
      (∀ i, i ≠ x → access s (s.operandAddress m n) true ≠ .reg i → t.reg i = s.reg i) ∧
      (∀ q, access s (s.operandAddress m n) true ≠ .mem q → t.mem.read q = s.mem.read q) ∧
      t.zs = (s.zs && decide (d = 0)) ∧ t.mode.extractLsb' 0 4 = s.mode.extractLsb' 0 4 ∧ MovesOn s t ∧
      { t with regs := s.regs, mem := s.mem, mode := s.mode, pc := s.pc, pip := s.pip } = s

/-- MOVE is strictly ascending. With readable words, none of the destinations being a register of the pair that addresses
them, every destination word receives its source word where no destination is a source, and the first source word where
the destination is one word above the source, in either mode; no other word or register changes
(42_char_shift_misc.md R242). -/
def Obligations.MoveCopiesWords : Prop :=
  ∀ (s : State) (x : RegIx) (m : ModIx) (n : BitVec 12), s.mem.wf →
    let count := if (s.operandAddress m n).toNat % 512 = 0 then 512 else (s.operandAddress m n).toNat % 512
    let src := fun j : Nat => s.maskAddr (s.reg x + BitVec.ofNat 24 j)
    let dst := fun j : Nat => s.maskAddr (s.reg (x + 1) + BitVec.ofNat 24 j)
    (∀ j, j < count → (memRead s (src j) true).isSome = true ∧ (memRead s (dst j) true).isSome = true ∧
      access s (dst j) true ≠ .reg x ∧ access s (dst j) true ≠ .reg (x + 1)) →
    ∀ e ∈ [(∀ i j, i < count → j < count → access s (src i) true ≠ access s (dst j) true, src),
        (s.reg (x + 1) = s.reg x + 1, fun _ => src 0)],
      e.1 → ∃ t, exec (.move x m n) s = .next t ∧
        (∀ j, j < count → memRead t (dst j) true = memRead s (e.2 j) true) ∧
        (∀ i, (∀ j, j < count → access s (dst j) true ≠ .reg i) → t.reg i = s.reg i) ∧
        (∀ p, (∀ j, j < count → access s (dst j) true ≠ .mem p) → t.mem.read p = s.mem.read p) ∧
        MovesOn s t ∧ { t with regs := s.regs, mem := s.mem, pc := s.pc, pip := s.pip } = s

/-- MVCH with readable words, the words of the destination field being none of those of the source field: every destination
character receives its source character, in ascending order, the other characters of those words and every other word
and register are unchanged, and the two registers receive the advanced pointers (42_char_shift_misc.md R211, R241). A
pointer is the number of a character: four times its word address, plus its lane. -/
def Obligations.MoveCharactersCopies : Prop :=
  ∀ (s : State) (x : RegIx) (m : ModIx) (n : BitVec 12), s.mem.wf →
    let w := if s.am22 then 22 else 15
    let count := if (s.operandAddress m n).toNat % 256 = 0 then 256 else (s.operandAddress m n).toNat % 256
    let start := fun p : Word => 4 * (p.toNat % 2 ^ w) + p.toNat / 2 ^ 22
    let src := fun j : Nat => (start (s.reg x) + j) % 2 ^ (w + 2)
    let dst := fun j : Nat => (start (s.reg (x + 1)) + j) % 2 ^ (w + 2)
    let word := fun q : Nat => BitVec.ofNat 22 (q / 4)
    (∀ j, j < count → (memRead s (word (src j)) true).isSome = true ∧ (memRead s (word (dst j)) true).isSome = true) →
    (∀ i j, i < count → j < count → access s (word (src i)) true ≠ access s (word (dst j)) true) →
    ∃ t, exec (.mvch x m n) s = .next t ∧
      (∀ r ∈ [x, x + 1], start (t.reg r) = (start (s.reg r) + count) % 2 ^ (w + 2) ∧
        (t.reg r).toNat % 2 ^ 22 / 2 ^ w = (s.reg r).toNat % 2 ^ 22 / 2 ^ w) ∧
      (∀ q, access s (word q) true ≠ .reg x → access s (word q) true ≠ .reg (x + 1) → q < 2 ^ (w + 2) →
        ∀ old, memRead s (word q) true = some old → ∃ new, memRead t (word q) true = some new ∧
          ((∀ j, j < count → q ≠ dst j) → laneValue new (q % 4) = laneValue old (q % 4)) ∧
          (∀ j from_, j < count → q = dst j → memRead s (word (src j)) true = some from_ →
            laneValue new (q % 4) = laneValue from_ (src j % 4))) ∧
      (∀ i, i ≠ x → i ≠ x + 1 → (∀ j, j < count → access s (word (dst j)) true ≠ .reg i) → t.reg i = s.reg i) ∧
      (∀ p, (∀ j, j < count → access s (word (dst j)) true ≠ .mem p) → t.mem.read p = s.mem.read p) ∧
      MovesOn s t ∧ { t with regs := s.regs, mem := s.mem, pc := s.pc, pip := s.pip } = s

/-- SUM: the words added modulo 2^24, with no flag written (42_char_shift_misc.md R243). -/
def Obligations.SumOfWords : Prop :=
  ∀ (s : State) (x : RegIx) (m : ModIx) (n : BitVec 12) (f : Nat → Word),
    let count := if (s.operandAddress m n).toNat % 512 = 0 then 512 else (s.operandAddress m n).toNat % 512
    (∀ j, j < count → memRead s (s.maskAddr (s.reg (x + 1) + BitVec.ofNat 24 j)) true = some (f j)) →
    exec (.sum x m n) s =
      .next { s.setReg x (BitVec.ofNat 24 ((List.range count).map fun j => (f j).toNat).sum) with
        pc := s.nextAddr s.ia, pip := false }

/-! ### Multiply and divide -/

/-- The multiply orders: the exact integer as a double-length result, modulo 2^47; V where it does not fit or the edge-case table
says so; C cleared (43_muldiv.md R260, R262 to R264, R271). -/
def Obligations.MultiplyOrders : Prop :=
  ∀ (s : State) (x : RegIx) (m : ModIx) (n : BitVec 12) (w : Word), s.cfg.hasMd = true →
    memRead s (s.operandAddress m n) true = some w →
    ∀ e ∈ [(Instr.mpy x m n, MdOp.mpy, (s.reg x).toInt * w.toInt),
        (Instr.mpr x m n, MdOp.mpr, (s.reg x).toInt * w.toInt + 2 ^ 22),
        (Instr.mpa x m n, MdOp.mpa, (s.reg x).toInt * w.toInt + (s.reg (x + 1)).toInt)],
      ∃ t, exec e.1 s = .next t ∧
        t.doubleLength x = e.2.2.bmod (2 ^ 47) ∧ (t.reg (x + 1)).getLsbD 23 = false ∧ t.c = false ∧
        NotesOverflow s t (decide (2 ^ 46 ≤ e.2.2 ∨ e.2.2 < -2 ^ 46) ||
          mdEdge s.cfg e.2.1 (s.reg x) (s.reg (x + 1)) w) ∧
        (∀ i, i ≠ x → i ≠ x + 1 → t.reg i = s.reg i) ∧ MovesOn s t ∧
        { t with regs := s.regs, c := s.c, v := s.v, sr64 := s.sr64, pc := s.pc, pip := s.pip } = s

/-- The divide orders where they succeed: whenever the dividend is q times the divisor plus r, r being the remainder of the
truncated quotient (DVD, DVS) or of the nearest one (DVR), and a word holds q, then q goes to X+1 and r to X, C is
cleared and V is unchanged (43_muldiv.md R265 to R268). -/
def Obligations.DivideOrders : Prop :=
  ∀ (s : State) (x : RegIx) (m : ModIx) (n : BitVec 12) (w : Word) (q r : Int), s.cfg.hasMd = true →
    memRead s (s.operandAddress m n) true = some w → -2 ^ 23 ≤ q → q < 2 ^ 23 →
    ∀ e ∈ [(Instr.dvd x m n, MdOp.dvd, s.doubleLength x, TruncatedRemainder),
        (Instr.dvr x m n, MdOp.dvr, s.doubleLength x, NearestRemainder),
        (Instr.dvs x m n, MdOp.dvs, (s.reg (x + 1)).toInt, TruncatedRemainder)],
      e.2.2.1 = q * w.toInt + r → e.2.2.2 e.2.2.1 w.toInt r →
      mdEdge s.cfg e.2.1 (s.reg x) (s.reg (x + 1)) w = false →
      ∃ t, exec e.1 s = .next t ∧ (t.reg (x + 1)).toInt = q ∧ (t.reg x).toInt = r ∧ t.c = false ∧
        (∀ i, i ≠ x → i ≠ x + 1 → t.reg i = s.reg i) ∧ MovesOn s t ∧
        { t with regs := s.regs, c := s.c, pc := s.pc, pip := s.pip } = s

/-- The divide orders where they fail, on a zero divisor, on an edge case, or on a quotient that no word holds: the fallback
words of `DIV_FAIL` in the two registers, V set, C cleared, PC at the next word, no trap (43_muldiv.md R265, R269, R271). -/
def Obligations.DivideFailure : Prop :=
  ∀ (s : State) (x : RegIx) (m : ModIx) (n : BitVec 12) (w : Word), s.cfg.hasMd = true →
    memRead s (s.operandAddress m n) true = some w →
    ∀ e ∈ [(Instr.dvd x m n, MdOp.dvd, s.doubleLength x, TruncatedRemainder),
        (Instr.dvr x m n, MdOp.dvr, s.doubleLength x, NearestRemainder),
        (Instr.dvs x m n, MdOp.dvs, (s.reg (x + 1)).toInt, TruncatedRemainder)],
      (w.toInt = 0 ∨ mdEdge s.cfg e.2.1 (s.reg x) (s.reg (x + 1)) w = true ∨
        ∃ q r : Int, e.2.2.1 = q * w.toInt + r ∧ e.2.2.2 e.2.2.1 w.toInt r ∧ (2 ^ 23 ≤ q ∨ q < -2 ^ 23)) →
      ∃ t, exec e.1 s = .next t ∧
        (t.reg x, t.reg (x + 1)) = Config.divFail e.2.1 (s.reg x) (s.reg (x + 1)) w ∧ t.c = false ∧
        NotesOverflow s t true ∧ (∀ i, i ≠ x → i ≠ x + 1 → t.reg i = s.reg i) ∧ MovesOn s t ∧
        { t with regs := s.regs, c := s.c, v := s.v, sr64 := s.sr64, pc := s.pc, pip := s.pip } = s

/-- MPY by a word followed by DVD by the same word returns the multiplicand as quotient and 0 as remainder, under the
reference edge-case table, for every divisor but 0 and every pair but (-2^23, -2^23) (43_muldiv.md R270). -/
def Obligations.DivideInvertsMultiply : Prop :=
  ∀ (s t : State) (x : RegIx) (m m' : ModIx) (n n' : BitVec 12) (w : Word), s.cfg.hasMd = true →
    s.cfg.mdEdge = .reference → memRead s (s.operandAddress m n) true = some w → w.toInt ≠ 0 →
    ¬((s.reg x).toInt = -2 ^ 23 ∧ w.toInt = -2 ^ 23) → exec (.mpy x m n) s = .next t →
    memRead t (t.operandAddress m' n') true = some w →
    ∃ u, exec (.dvd x m' n') t = .next u ∧ u.reg (x + 1) = s.reg x ∧ u.reg x = 0 ∧ u.v = s.v ∧ u.c = false

/-! ### Floating point -/

/-- LFP and SFP move the two-word image of the accumulator, bit 23 of the second word being 0 when stored and ignored when
loaded; FLOAT and FIX move a double-length integer through the configured conversions (44_float.md R290, R304 to R307;
10_state.md R35). -/
def Obligations.FloatTransfers : Prop :=
  ∀ (s : State) (m : ModIx) (n : BitVec 12) (w0 w1 : Word), s.mem.wf → s.cfg.hasFp = true →
    let ea := s.operandAddress m n
    let ea2 := s.nextAddr ea
    memRead s ea true = some w0 → memRead s ea2 true = some w1 →
    (∃ t, exec (.lfp 0 m n) s = .next t ∧ t.am.toNat = w0.toNat * 2 ^ 14 + w1.toNat / 2 ^ 9 % 2 ^ 14 ∧
      t.ae.toNat = w1.toNat % 2 ^ 9 ∧ MovesOn s t ∧ { t with am := s.am, ae := s.ae, pc := s.pc, pip := s.pip } = s) ∧
    (∃ t, exec (.float 0 m n) s = .next t ∧ (t.am, t.ae) = fpFloat s.cfg w0 w1 ∧ MovesOn s t ∧
      { t with am := s.am, ae := s.ae, pc := s.pc, pip := s.pip } = s) ∧
    ∀ e ∈ [(Instr.sfp 0 m n, s.am.toNat / 2 ^ 14, s.am.toNat % 2 ^ 14 * 2 ^ 9 + s.ae.toNat, false),
        (Instr.fix 0 m n, (fpFix s.cfg s.am s.ae).hi.toNat, (fpFix s.cfg s.am s.ae).lo.toNat,
          (fpFix s.cfg s.am s.ae).overflow)],
      ∃ t, exec e.1 s = .next t ∧
        memRead t ea true = some (BitVec.ofNat 24 e.2.1) ∧ memRead t ea2 true = some (BitVec.ofNat 24 e.2.2.1) ∧
        (∀ i, access s ea true ≠ .reg i → access s ea2 true ≠ .reg i → t.reg i = s.reg i) ∧
        (∀ p, access s ea true ≠ .mem p → access s ea2 true ≠ .mem p → t.mem.read p = s.mem.read p) ∧
        NotesOverflow s t e.2.2.2 ∧ MovesOn s t ∧
        { t with regs := s.regs, mem := s.mem, v := s.v, sr64 := s.sr64, pc := s.pc, pip := s.pip } = s

/-- The floating arithmetic orders write A with the configured function of the bits of A and the operand, and set FOV where
it says overflow, never clearing it; V and C are unchanged. A divisor of mantissa 0 sets FOV whatever the configured
function is (44_float.md R293, R294, R296, R297, R299, R301, R303). -/
def Obligations.FloatArithmetic : Prop :=
  ∀ (s : State) (m : ModIx) (n : BitVec 12) (w0 w1 : Word), s.cfg.hasFp = true →
    memRead s (s.operandAddress m n) true = some w0 →
    memRead s (s.nextAddr (s.operandAddress m n)) true = some w1 →
    (∀ e ∈ [(Instr.fad 0 m n, fpAdd s.cfg), (Instr.fsb 0 m n, fpSub s.cfg), (Instr.fmpy 0 m n, fpMul s.cfg),
        (Instr.fdvd 0 m n, fpDiv s.cfg)],
      ∃ t mb eb, exec e.1 s = .next t ∧
        mb.toNat = w0.toNat * 2 ^ 14 + w1.toNat / 2 ^ 9 % 2 ^ 14 ∧ eb.toNat = w1.toNat % 2 ^ 9 ∧
        t.am = (e.2 s.am s.ae mb eb).mantissa ∧ t.ae = (e.2 s.am s.ae mb eb).exponent ∧
        t.fov = (s.fov || (e.2 s.am s.ae mb eb).overflow) ∧ MovesOn s t ∧
        { t with am := s.am, ae := s.ae, fov := s.fov, pc := s.pc, pip := s.pip } = s) ∧
    (w0.toNat = 0 → w1.toNat / 2 ^ 9 % 2 ^ 14 = 0 → ∃ t, exec (.fdvd 0 m n) s = .next t ∧ t.fov = true)

/-- The reference instances (log 3). The shared tail keeps a normalised number as it is, so that a zero operand of a sum or
difference returns the other operand unchanged, and subtracting a number from itself gives the canonical zero. Product
and quotient are the exact ones, rounded; a divisor of mantissa 0 gives the largest positive number and overflow. Sum and
difference are the exact ones, rounded, where an operand is zero or the exponents differ by at most 38; beyond that the
larger exponent's number stands, negated by the rounding tail where a difference needs it. FLOAT rounds the integer; FIX
takes the integer part toward minus infinity, modulo 2^47, and says where that does not fit (44_float.md R290, R291, R295,
R297, R298, R300, R303, R306, R307). -/
def Obligations.ReferenceTailKeepsNormalised : Prop :=
  (∀ (m : Mantissa) (e : Exponent), m.getLsbD 37 ≠ m.getLsbD 36 →
    pack (fpval m e) .round = ⟨m, e, false⟩ ∧
    (∀ e', fpAddRef m e 0 e' = ⟨m, e, false⟩ ∧ fpAddRef 0 e' m e = ⟨m, e, false⟩ ∧ fpSubRef m e 0 e' = ⟨m, e, false⟩) ∧
    fpSubRef m e m e = ⟨0, 0, false⟩) ∧
  (∀ (ma mb : Mantissa) (ea eb : Exponent),
    let a := floatValue ma ea
    let b := floatValue mb eb
    Rounded (a * b) (fpMulRef ma ea mb eb) ∧
    fpDivRef ma ea 0 eb = ⟨BitVec.ofNat 38 (2 ^ 37 - 1), 511, true⟩ ∧
    (mb ≠ 0 → Rounded (a / b) (fpDivRef ma ea mb eb)) ∧
    (ma = 0 ∨ mb = 0 ∨ (ea.toNat ≤ eb.toNat + 38 ∧ eb.toNat ≤ ea.toNat + 38) →
      Rounded (a + b) (fpAddRef ma ea mb eb) ∧ Rounded (a - b) (fpSubRef ma ea mb eb)) ∧
    (ma ≠ 0 → mb ≠ 0 → eb.toNat + 38 < ea.toNat →
      fpAddRef ma ea mb eb = ⟨ma, ea, false⟩ ∧ fpSubRef ma ea mb eb = ⟨ma, ea, false⟩) ∧
    (ma ≠ 0 → mb ≠ 0 → ea.toNat + 38 < eb.toNat →
      fpAddRef ma ea mb eb = ⟨mb, eb, false⟩ ∧ Rounded (-b) (fpSubRef ma ea mb eb))) ∧
  (∀ hi lo : Word,
    Rounded (hi.toInt * 2 ^ 23 + (lo.toNat % 2 ^ 23 : ℕ)) ⟨(fpFloatRef hi lo).1, (fpFloatRef hi lo).2, false⟩) ∧
  ∀ (m : Mantissa) (e : Exponent),
    let r := fpFixRef m e
    let i := ⌊floatValue m e⌋
    r.hi.toInt * 2 ^ 23 + r.lo.toNat = i.bmod (2 ^ 47) ∧ r.lo.getLsbD 23 = false ∧
      r.overflow = decide (2 ^ 46 ≤ i ∨ i < -2 ^ 46)

/-- Under the reference instances, fixing the floated form of a double-length integer of magnitude at most 2^37 gives its
words back, with no overflow; and floating the fixed form of a value that is an integer below 2^46 in magnitude gives the
value back in its normalised form, a normalised value's own bits (44_float.md R306, R307, R309). -/
def Obligations.FixAndFloatAreInverse : Prop :=
  (∀ hi lo : Word, lo.getLsbD 23 = false →
    (hi.toInt * 2 ^ 23 + lo.toNat).natAbs ≤ 2 ^ 37 →
    fpFixRef (fpFloatRef hi lo).1 (fpFloatRef hi lo).2 = ⟨hi, lo, false⟩) ∧
  (∀ (m : Mantissa) (e : Exponent) (i : Int), i.natAbs < 2 ^ 46 → (fpval m e).num = i * (fpval m e).den →
    let r := fpFloatRef (fpFixRef m e).hi (fpFixRef m e).lo
    (fpval r.1 r.2).num = i * (fpval r.1 r.2).den ∧
    (r.1.getLsbD 37 ≠ r.1.getLsbD 36 ∨ (r.1 = 0 ∧ r.2 = 0)) ∧
    (m.getLsbD 37 ≠ m.getLsbD 36 → r = (m, e)))

/-! ### Branches -/

/-- The index-and-branch orders in 15-bit mode: count and address step within their fields, the branch is taken while the count
is not 0, the register is written either way, and no flag is (45_branch.md R335 to R339); in 22-bit mode they are refused.
BCHX steps the lane too. -/
def Obligations.CountingBranches : Prop :=
  ∀ (s : State) (x : RegIx) (n : BitVec 15),
    let a := (s.reg x).toNat % 2 ^ 15
    let count := ((s.reg x).toNat / 2 ^ 15 + 511) % 512
    let lane := (s.reg x).toNat / 2 ^ 22
    let chars := ((s.reg x).toNat / 2 ^ 15 % 128 + 127) % 128
    ∀ e ∈ [(Instr.bux x n, count * 2 ^ 15 + (a + 1) % 2 ^ 15, count),
        (Instr.bdx x n, count * 2 ^ 15 + (a + 2) % 2 ^ 15, count),
        (Instr.bct x n, count * 2 ^ 15 + a, count),
        (Instr.bchx x n, (lane + 1) % 4 * 2 ^ 22 + chars * 2 ^ 15 + (if lane = 3 then (a + 1) % 2 ^ 15 else a), chars)],
      (s.am22 = true → exec e.1 s = .refused .counter22) ∧
      (s.am22 = false → e.2.2 ≠ 0 → s.executive = false → s.trace = true → exec e.1 s = .refused .branchTrace) ∧
      (s.am22 = false → e.2.2 = 0 ∨ s.executive = true ∨ s.trace = false →
        exec e.1 s = .next { s.setReg x (BitVec.ofNat 24 e.2.1) with
          pc := if e.2.2 = 0 then s.nextAddr s.ia else s.branchTarget n, pip := false })

/-- CALL packs V, ZS and the return address into X, clears V and branches; EXIT restores V and ZS from X and goes to the
address it holds plus the displacement (45_branch.md R340, R341). Under TRACE in user mode both are refused. -/
def Obligations.CallAndExit : Prop :=
  ∀ (s : State) (x : RegIx) (n : BitVec 15),
    (s.executive = false ∧ s.trace = true →
      exec (.call x n) s = .refused .branchTrace ∧ exec (.exit x n) s = .refused .branchTrace) ∧
    (s.executive = true ∨ s.trace = false →
      (∃ t, exec (.call x n) s = .next t ∧ t.pc = s.branchTarget n ∧ t.pip = false ∧ t.v = false ∧
        (t.reg x).toNat = s.v.toNat * 2 ^ 23 + s.zs.toNat * 2 ^ 22 + (s.nextAddr s.ia).toNat ∧
        (∀ i, i ≠ x → t.reg i = s.reg i) ∧
        { t with regs := s.regs, v := s.v, pc := s.pc, pip := s.pip } = s) ∧
      (∃ t, exec (.exit x n) s = .next t ∧
        t.pc.toNat = ((s.reg x).toNat + (s.linkDisplacement n).toNat) % 2 ^ (if s.am22 then 22 else 15) ∧
        t.v = decide (2 ^ 23 ≤ (s.reg x).toNat) ∧ t.zs = decide (2 ^ 22 ≤ (s.reg x).toNat % 2 ^ 23) ∧
        t.mode.extractLsb' 0 4 = s.mode.extractLsb' 0 4 ∧ t.pip = false ∧
        { t with v := s.v, mode := s.mode, pc := s.pc, pip := s.pip } = s))

/-- The call and exit round trip, in either width: CALL X T followed, after any steps that leave the link, the width and EJM,
PIP and TRACE as they are, by EXIT X 0 returns to the word after the CALL with V and ZS as before it (45_branch.md R354). -/
def Obligations.CallExitRoundTrip : Prop :=
  ∀ (s t u : State) (x : RegIx) (n : BitVec 15), s.executive = true ∨ s.trace = false →
    exec (.call x n) s = .next t →
    u.reg x = t.reg x → u.am22 = s.am22 → u.pip = false → u.executive = true ∨ u.trace = false →
    ∃ w, exec (.exit x 0) u = .next w ∧ w.pc = s.nextAddr s.ia ∧ w.v = s.v ∧ w.zs = s.zs

/-- The branches that test a register or a flag: taken on zero, non-zero, not negative, negative; on each row of the table of
R342, whose flag is written whether or not the branch is taken, the toggle calling no overflow event. PC is the target or
the next word, and nothing else changes; a taken branch under TRACE in user mode is refused (45_branch.md R330 to R334,
R342 to R350, R353). -/
def Obligations.TestingBranches : Prop :=
  ∀ (s : State) (x : RegIx) (n : BitVec 15),
    ∀ e ∈ [(Instr.bze x n, decide ((s.reg x).toNat = 0), s.v), (Instr.bnz x n, decide ((s.reg x).toNat ≠ 0), s.v),
        (Instr.bpz x n, decide (0 ≤ (s.reg x).toInt), s.v), (Instr.bng x n, decide ((s.reg x).toInt < 0), s.v),
        (Instr.brn n, true, s.v), (Instr.bvs n, s.v, s.v), (Instr.bvsr n, s.v, false), (Instr.bvc n, !s.v, s.v),
        (Instr.bvcr n, !s.v, false), (Instr.bcs n, s.c, s.v), (Instr.bcc n, !s.c, s.v), (Instr.bvci n, !s.v, !s.v)],
      (e.2.1 = true → s.executive = false → s.trace = true → exec e.1 s = .refused .branchTrace) ∧
      (e.2.1 = false ∨ s.executive = true ∨ s.trace = false →
        exec e.1 s = .next { s with
          v := e.2.2, pc := if e.2.1 then s.branchTarget n else s.nextAddr s.ia, pip := false })

/-- The floating branches: on the mantissa's zero and sign, whatever the exponent, and on FOV, which condition 4 also clears
(45_branch.md R351, R352). -/
def Obligations.FloatBranches : Prop :=
  ∀ (s : State) (n : BitVec 15), s.cfg.hasFp = true →
    ∀ e ∈ [(Instr.bfp0 n, decide (s.am.toInt = 0), s.fov), (Instr.bfp1 n, decide (s.am.toInt ≠ 0), s.fov),
        (Instr.bfp2 n, decide (0 ≤ s.am.toInt), s.fov), (Instr.bfp3 n, decide (s.am.toInt < 0), s.fov),
        (Instr.bfp4 n, s.fov, false), (Instr.bfp5 n, !s.fov, s.fov)],
      (e.2.1 = true → s.executive = false → s.trace = true → exec e.1 s = .refused .branchTrace) ∧
      (e.2.1 = false ∨ s.executive = true ∨ s.trace = false →
        exec e.1 s = .next { s with
          fov := e.2.2, pc := if e.2.1 then s.branchTarget n else s.nextAddr s.ia, pip := false })

/-! ### OBEY and SMO -/

/-- SMO sets the pre-modification from the word at EA; OBEY puts the word at EA in place of the instruction, PC and IA
unchanged; both consume a pending pre-modification (40_dispatch.md R130, R132, R133). -/
def Obligations.ObeyAndSupplementaryModifier : Prop :=
  ∀ (s : State) (x : RegIx) (m : ModIx) (n : BitVec 12) (w : Word),
    memRead s (s.operandAddress m n) true = some w →
    exec (.smo x m n) s = .next { s with pip := true, pipVal := w, pc := s.nextAddr s.ia } ∧
    exec (.obey x m n) s = .next { s with obeyed := some w, pip := false }

/-! ### The executive group -/

/-- The executive orders on special registers, datum, limit and mode, the peripheral command and the search-list codes, in
executive mode (46_executive.md R373 to R377, R379, R382). A special register that is not the core's reads as the
collaborator's answer, whatever it is (log 5), and writing it changes nothing. -/
def Obligations.ExecutiveOrders : Prop :=
  ∀ (s : State) (x : RegIx) (m : ModIx) (n : BitVec 12) (f : BitVec 7), s.executive = true →
    let id := (s.operandAddress m n).toNat
    let next : State → Result := fun t => .next { t with pc := s.nextAddr s.ia, pip := false }
    exec (.rsr x m n) s =
      (if id = 64 then next (s.setReg x s.sr64)
      else if id = 65 then next (s.setReg x s.sr65)
      else next { s.setReg x (Config.readSpecialRegister s.draws) with draws := s.draws + 1 }) ∧
    exec (.wsr x m n) s =
      (if id = 64 then next { s with sr64 := s.reg x }
      else if id = 65 then next { s with sr65 := s.reg x }
      else next s) ∧
    (∃ t, exec (.ldl x m n) s = next t ∧ t.rd.toNat = (s.reg x).toNat % 2 ^ 22 ∧
      t.rl.toNat = (s.reg (x + 1)).toNat % 2 ^ 22 ∧ { t with rd := s.rd, rl := s.rl } = s) ∧
    (∃ t, exec (.ldm x m n) s = next t ∧
      (s.cfg.hasAm22 = true → t.mode.toNat = (s.reg x).toNat % 32) ∧
      (s.cfg.hasAm22 = false → t.ejm = false ∧ t.am22 = false ∧ t.datum = (s.reg x).getLsbD 1 ∧
        t.trace = (s.reg x).getLsbD 3 ∧ t.zs = (s.reg x).getLsbD 4) ∧ { t with mode := s.mode } = s) ∧
    exec (.tdl x m n) s =
      next { s with c := decide ((s.reg x).toNat < s.rd.toNat ∨ s.rl.toNat ≤ (s.reg x).toNat) } ∧
    exec (.peri x m n) s =
      next { s.setReg x (BitVec.ofNat 24 ((Config.sendCommand s.draws).toNat % 16)) with draws := s.draws + 1 } ∧
    exec (.search f x m n) s = next s

/-- EXX in executive mode restores the context from the save area and leaves executive mode; nothing else changes, and a save
area that is not installed is a fault (46_executive.md R378; 60_exceptions.md R420, R441). -/
def Obligations.ExitExecutive : Prop :=
  ∀ (s : State) (x : RegIx) (m : ModIx) (n : BitVec 12), s.executive = true →
    let word := fun o : Addr => s.mem.read ((s.rd.toNat + o.toNat) % 2 ^ 22)
    (¬s.SaveAreaFits → exec (.exx x m n) s = .fault .saveArea) ∧
    (s.SaveAreaFits → ∃ t, exec (.exx x m n) s = .next t ∧ t.executive = false ∧
      (∀ i : RegIx, t.reg i = s.mem.read ((s.rd.toNat + i.toNat) % 2 ^ 22)) ∧
      t.v = (word s.cfg.offPc).getLsbD 23 ∧ t.c = (word s.cfg.offPc).getLsbD 22 ∧
      t.pc.toNat = (word s.cfg.offPc).toNat % 2 ^ (if t.am22 then 22 else 15) ∧
      t.fov = (word s.cfg.offSt).getLsbD 5 ∧ t.datum = (word s.cfg.offSt).getLsbD 1 ∧
      t.trace = (word s.cfg.offSt).getLsbD 3 ∧ t.zs = (word s.cfg.offSt).getLsbD 4 ∧
      t.ejm = (s.cfg.hasAm22 && (word s.cfg.offSt).getLsbD 0) ∧
      t.am22 = (s.cfg.hasAm22 && (word s.cfg.offSt).getLsbD 2) ∧
      t.am.toNat = (word s.cfg.offFa).toNat * 2 ^ 14 + (word (s.cfg.offFa + 1)).toNat / 2 ^ 9 % 2 ^ 14 ∧
      t.ae.toNat = (word (s.cfg.offFa + 1)).toNat % 2 ^ 9 ∧ t.pip = false ∧
      { t with
        regs := s.regs, v := s.v, c := s.c, mode := s.mode, fov := s.fov, am := s.am, ae := s.ae,
        executive := s.executive, pc := s.pc, pip := s.pip } = s)

/-- In user mode every order of the executive group, assigned or not, is a voluntary entry: PC has advanced, the context is
saved, and the instruction changes nothing else; where the save area is not installed it is a fault (46_executive.md
R371; 60_exceptions.md R412, R414, R417, R418, R441). -/
def Obligations.PrivilegedOrdersEnter : Prop :=
  ∀ (s : State) (x : RegIx) (m : ModIx) (n : BitVec 12) (f : BitVec 7),
    s.mem.wf → s.cfg.wf → s.executive = false →
    let u := { s with pc := s.nextAddr s.ia, pip := false }
    let orders := [Instr.rsr x m n, .wsr x m n, .exx x m n, .ldl x m n, .ldm x m n, .tdl x m n, .peri x m n, .xferIn x m n,
      .xferOut x m n, .search f x m n]
    (s.SaveAreaFits →
      (∀ i ∈ orders, ∃ t, exec i s = .next t ∧ Entered u t s.cfg.vecVol) ∧
      ∃ t, execReserved (.unassignedExec f x m n) s = .next t ∧ Entered u t s.cfg.vecVol) ∧
    (¬s.SaveAreaFits →
      (∀ i ∈ orders, exec i s = .fault .saveArea) ∧
      execReserved (.unassignedExec f x m n) s = .fault .saveArea)

/-- An order of an absent option is not executed: in user mode it is a voluntary entry, or a fault where the save area is not
installed, in executive mode a refusal. The floating branch conditions that are no row of the table are orders of the
floating-point option too (40_dispatch.md R134; 45_branch.md R351; 60_exceptions.md R414, R440, R441). -/
def Obligations.AbsentOptions : Prop :=
  ∀ (s : State) (x : RegIx) (m : ModIx) (n : BitVec 12) (d : BitVec 15), s.mem.wf → s.cfg.wf →
    let u := { s with pc := s.nextAddr s.ia, pip := false }
    ∀ e ∈ [(s.cfg.hasMd,
          [Instr.mpy x m n, .mpr x m n, .mpa x m n, .dvd x m n, .dvr x m n, .dvs x m n].map fun i => exec i s),
        (s.cfg.hasFp,
          execReserved (.floatCondition x d) s ::
            [Instr.float x m n, .fix x m n, .fad x m n, .fsb x m n, .fmpy x m n, .fdvd x m n, .lfp x m n, .sfp x m n,
              .bfp0 d, .bfp1 d, .bfp2 d, .bfp3 d, .bfp4 d, .bfp5 d].map fun i => exec i s)],
      e.1 = false → ∀ r ∈ e.2,
        (s.executive = true → r = .refused .optionAbsent) ∧
        (s.executive = false → s.SaveAreaFits → ∃ t, r = .next t ∧ Entered u t s.cfg.vecVol) ∧
        (s.executive = false → ¬s.SaveAreaFits → r = .fault .saveArea)

/-! ### Exceptions -/

/-- Hardware entry: in user mode with a condition pending and no pre-modification, the whole cycle is the entry, which saves
PC as it is (40_dispatch.md R123; 60_exceptions.md R408, R409, R411, R412, R417, R418). -/
def Obligations.HardwareEntry : Prop :=
  ∀ s : State, s.Running → s.mem.wf → s.cfg.wf → s.executive = false → s.pip = false →
    s.sr64 ≠ 0 ∨ s.sr65 ≠ 0 →
    (s.SaveAreaFits → ∃ t, step s = .next t ∧ Entered s t s.cfg.vecHw) ∧
    (¬s.SaveAreaFits → step s = .fault .saveArea)

/-- An entry followed at once by the executive return restores the registers, the accumulator, the flags and the mode byte
exactly, and PC masked to the active width, wherever the extension is present or the mode byte has AM22 = EJM = 0
(60_exceptions.md R425). -/
def Obligations.EntryThenReturnRestores : Prop :=
  ∀ (s t : State) (vector : Addr) (x : RegIx) (m : ModIx) (n : BitVec 12), s.mem.wf → s.cfg.wf →
    s.executive = false → s.SaveAreaFits →
    (s.cfg.hasAm22 = true ∨ (s.am22 = false ∧ s.ejm = false)) → enterTrap vector s = .next t →
    ∃ u, exec (.exx x m n) t = .next u ∧
      { u with mem := s.mem, sr64 := s.sr64, sr65 := s.sr65, pip := s.pip, pipVal := s.pipVal } =
        { s with pc := s.pc &&& s.amask }

/-- An access that violates aborts the order: in user mode no destination register, flag or further word is written, SR64 gets
the violation bit and PC is at the next word, or unmoved for an OBEY; in executive mode the model faults.
First the orders of one operand word, and SUM. Then MOVE and MVCH: a violation at word or character k leaves what the
same order with a count of k leaves, but MVCH does not write its two pointers. Last the orders of a word pair: where the
second word violates and the first does not, a loading order leaves A as it was, and a storing order keeps the first word.
That a word already stored stays stored where it is a register of the window is the model's choice (log 11), and so is
that MOVE reads its two registers anew for each word (log 12) (20_memory.md R65; 40_dispatch.md R136;
42_char_shift_misc.md R241 to R243; 44_float.md R296, R305, R307; 60_exceptions.md R410, R441). -/
def Obligations.OperandViolationAborts : Prop :=
  ∀ (s : State) (x : RegIx) (m : ModIx) (n : BitVec 12),
    let ea := s.operandAddress m n
    let flagged := fun u : State => { u with sr64 := u.sr64 ||| bitWord s.cfg.sr64MemViol, pip := false }
    let aborted := fun u : State =>
      if s.executive then (.fault .execViolation : Result) else .next { flagged u with pc := s.nextAddr s.ia }
    let orders := [Instr.ldx x m n, .adx x m n, .ngx x m n, .sbx x m n, .ldxc x m n, .adxc x m n, .ngxc x m n,
      .sbxc x m n, .sto x m n, .ads x m n, .ngs x m n, .sbs x m n, .stoc x m n, .adsc x m n, .ngsc x m n, .sbsc x m n,
      .andx x m n, .orx x m n, .erx x m n, .ands x m n, .ors x m n, .ers x m n, .stoz x m n, .txu x m n, .txl x m n,
      .ldch x m n, .dch x m n, .ldex x m n, .dex x m n, .dsa x m n, .dla x m n, .cdb x m n, .cbd x m n, .smo x m n]
    let multiply := [Instr.mpy x m n, .mpr x m n, .mpa x m n, .dvd x m n, .dvr x m n, .dvs x m n]
    let float := [Instr.float 0 m n, .fix 0 m n, .fad 0 m n, .fsb 0 m n, .fmpy 0 m n, .fdvd 0 m n, .lfp 0 m n,
      .sfp 0 m n]
    let loading := [Instr.float 0 m n, .fad 0 m n, .fsb 0 m n, .fmpy 0 m n, .fdvd 0 m n, .lfp 0 m n]
    let countOf := fun (q : Nat) => if ea.toNat % q = 0 then q else ea.toNat % q
    let wordAt := fun (u : State) (r : RegIx) (k : Nat) => u.maskAddr (u.reg r + BitVec.ofNat 24 k)
    let moveViolates := fun (u : State) (k : Nat) =>
      memRead u (wordAt u x k) true = none ∨ memRead u (wordAt u (x + 1) k) true = none
    let w := if s.am22 then 22 else 15
    let charAt := fun (r : RegIx) (k : Nat) =>
      BitVec.ofNat 22 ((4 * ((s.reg r).toNat % 2 ^ w) + (s.reg r).toNat / 2 ^ 22 + k) % 2 ^ (w + 2) / 4)
    let charViolates := fun k : Nat =>
      memRead s (charAt x k) true = none ∨ memRead s (charAt (x + 1) k) true = none
    (memRead s ea true = none →
      (∀ i ∈ orders ++ (if s.cfg.hasMd then multiply else []) ++ (if s.cfg.hasFp then float else []),
        exec i s = aborted s) ∧
      exec (.obey x m n) s = if s.executive then .fault .execViolation else .next (flagged s)) ∧
    (∀ k, k < countOf 512 → memRead s (wordAt s (x + 1) k) true = none → exec (.sum x m n) s = aborted s) ∧
    (moveViolates s 0 → exec (.move x m n) s = aborted s) ∧
    (charViolates 0 → exec (.mvch x m n) s = aborted s) ∧
    (∀ (n' : BitVec 12) (u : State),
      let k := (s.operandAddress m n').toNat % 512
      0 < k → k < countOf 512 → exec (.move x m n') s = .next u → moveViolates u k →
      exec (.move x m n) s = aborted u) ∧
    (∀ (n' : BitVec 12) (u : State),
      let k := (s.operandAddress m n').toNat % 256
      0 < k → k < countOf 256 → exec (.mvch x m n') s = .next u → charViolates k →
      (s.executive = true → exec (.mvch x m n) s = .fault .execViolation) ∧
      (s.executive = false → ∃ t, exec (.mvch x m n) s = .next t ∧ { t with regs := u.regs } = flagged u ∧
        (∀ i, i ≠ x → i ≠ x + 1 → t.reg i = u.reg i) ∧
        ∀ r ∈ [x, x + 1], (∀ j, j < k → access s (charAt (x + 1) j) true ≠ .reg r) → t.reg r = s.reg r)) ∧
    (s.mem.wf → s.cfg.hasFp = true → (memRead s ea true).isSome = true → memRead s (s.nextAddr ea) true = none →
      (s.executive = true → ∀ i ∈ float, exec i s = .fault .execViolation) ∧
      (s.executive = false →
        (∀ i ∈ loading, exec i s = aborted s) ∧
        ∀ e ∈ [(Instr.sfp 0 m n, s.am.toNat / 2 ^ 14), (Instr.fix 0 m n, (fpFix s.cfg s.am s.ae).hi.toNat)],
          ∃ t, exec e.1 s = .next t ∧ Stores s t ea (BitVec.ofNat 24 e.2) ∧ MovesOn s t ∧
            t.sr64 = (flagged s).sr64 ∧
            { t with regs := s.regs, mem := s.mem, sr64 := s.sr64, pc := s.pc, pip := s.pip } = s))

/-- A fetch that violates in user mode is routed through the interrupt check: the aborted cycle leaves PC and changes nothing but
IA, the violation bit of SR64 and PIP, and the next cycle takes the hardware entry that saves that PC, or faults where the
save area is not installed; in executive mode the model faults. That the aborted fetch clears a pending
pre-modification, so that the entry follows, is the model's choice (log 20) (20_memory.md R65; 40_dispatch.md R125, R136;
60_exceptions.md R403, R410, R411, R441). -/
def Obligations.FetchViolationEnters : Prop :=
  ∀ s : State, s.Running → s.mem.wf → s.cfg.wf → memRead s (s.pc &&& s.amask) false = none →
    let t := { s with ia := s.pc &&& s.amask, sr64 := s.sr64 ||| bitWord s.cfg.sr64MemViol, pip := false }
    (s.executive = true → step s = .fault .execViolation) ∧
    (s.executive = false → s.pip = true ∨ s.pending = false →
      step s = .next t ∧
      (s.SaveAreaFits → ∃ u, step t = .next u ∧ Entered t u s.cfg.vecHw) ∧
      (¬s.SaveAreaFits → step t = .fault .saveArea))

/-- The instructions the spec gives no meaning stop under the spec's own reasons: NORM and NORMD always, a floating order with X
not 0 where the option is present, a transfer in executive mode, a shift with submode 3, BFP with X = 6 or 7, and an
unassigned code in executive mode (60_exceptions.md R440; 42_char_shift_misc.md R220, R245; 44_float.md R308; 45_branch.md
R351; 46_executive.md R381, R383). -/
def Obligations.RefusedInstructions : Prop :=
  ∀ (s : State) (x : RegIx) (m : ModIx) (n : BitVec 12) (f : BitVec 7) (c : BitVec 10) (d : BitVec 15),
    exec (.norm x m n) s = .refused .notSpecified ∧ exec (.normd x m n) s = .refused .notSpecified ∧
    (s.cfg.hasFp = true → x ≠ 0 →
      ∀ i ∈ [Instr.float x m n, .fix x m n, .fad x m n, .fsb x m n, .fmpy x m n, .fdvd x m n, .lfp x m n, .sfp x m n],
        exec i s = .refused .floatVariant) ∧
    (s.executive = true →
      exec (.xferIn x m n) s = .refused .transferUnspecified ∧
      exec (.xferOut x m n) s = .refused .transferUnspecified ∧
      execReserved (.unassignedExec f x m n) s = .refused .unassignedExec) ∧
    execReserved (.shiftSubmode3 f x m c) s = .refused .shiftSubmode3 ∧
    (s.cfg.hasFp = true → execReserved (.floatCondition x d) s = .refused .floatCondition)

/-! ### The whole machine -/

/-- The invariant holds after reset: with the default parameters, which are the model's choice (log 2), and with any parameters
that meet their constraints, whatever installed memory holds. -/
def Obligations.ResetMeetsInvariant : Prop :=
  State.reset.Inv ∧ ∀ (k : Config) (mem : Memory), k.wf → mem.wf → mem.within k.memSize → (State.resetWith k mem).Inv

/-- Every step keeps the invariant: memory stays canonical and installed, AM22 and EJM stay 0 without the extension, a user
program's PC stays within the active width, Loading stays executive (10_state.md R24, R29, R31; 20_memory.md R60). -/
def Obligations.StepKeepsInvariant : Prop :=
  ∀ s t : State, s.Inv → step s = .next t → t.Inv

/-- No step writes the configuration (10_state.md R43; 00_scope.md R6). -/
def Obligations.ConfigurationIsImmutable : Prop :=
  ∀ s t : State, step s = .next t → t.cfg = s.cfg

/-- Leaving executive mode: only EXX does, whatever instruction an executive program runs (10_state.md R28; 46_executive.md
R384). Entering it: in user mode an instruction that leaves the machine executive is of the executive group or of an
absent option, and has made an entry at the voluntary vector (60_exceptions.md R414, R415). -/
def Obligations.ModeTransitions : Prop :=
  ∀ (i : Instr) (s t : State), i.wf = true → s.cfg.codes.wf → exec i s = .next t →
    let f := i.functionCode s.cfg.codes
    (s.executive = true → t.executive = false → ∃ x m n, i = .exx x m n) ∧
    (s.executive = false → t.executive = true →
      t.pc = s.cfg.vecVol ∧ t.mode = 0 ∧ t.sr64 = 0 ∧ t.sr65 = 0 ∧
      (0o140 ≤ f ∨ (s.cfg.hasMd = false ∧ 0o40 ≤ f ∧ f ≤ 0o46 ∧ f ≠ 0o43) ∨
        (s.cfg.hasFp = false ∧ (f = 0o76 ∨ f = 0o77 ∨ (0o130 ≤ f ∧ f ≤ 0o137)))))

/-- What a user program cannot do: a step from user mode, with no turn of the environment, leaves RD and RL, and where it
stays in user mode every bit of the mode byte but ZS and every bit of SR65, and clears no bit of SR64
(46_executive.md R384; 60_exceptions.md R423). -/
def Obligations.UserCannotTouchPrivilegedState : Prop :=
  ∀ s t : State, s.executive = false → s.turns = [] → step s = .next t →
    t.rd = s.rd ∧ t.rl = s.rl ∧
    (t.executive = false →
      t.mode.extractLsb' 0 4 = s.mode.extractLsb' 0 4 ∧ t.sr65 = s.sr65 ∧
      ∀ k, s.sr64.getLsbD k = true → t.sr64.getLsbD k = true)

/-- A user program is confined to its window: with a limit within the active width, a step from user mode changes no word of
memory outside RD to RL - 1 but those of the save area, and those only by an entry (20_memory.md R63, R75; 60_exceptions.md
R412, R423). -/
def Obligations.UserStoresWithinLimits : Prop :=
  ∀ s t : State, s.mem.wf → s.executive = false → s.turns = [] → s.rl ≠ 0 →
    s.rl.toNat ≤ 2 ^ (if s.am22 then 22 else 15) → step s = .next t →
    ∀ p, (p < s.rd.toNat ∨ s.rl.toNat ≤ p) →
      (t.executive = true → ∀ o ∈ s.cfg.saveOffsets, p ≠ (s.rd.toNat + o.toNat) % 2 ^ 22) →
      t.mem.read p = s.mem.read p

/-- A user program learns nothing of memory outside its window: two states that agree on everything but the words outside RD to
RL - 1 take steps that end alike and still agree (20_memory.md R63, R75; 60_exceptions.md R423). -/
def Obligations.UserSeesOnlyItsWindow : Prop :=
  ∀ s₁ s₂ : State, s₁.mem.wf → s₂.mem.wf → s₁.executive = false → s₁.turns = [] → s₁.rl ≠ 0 →
    s₁.rl.toNat ≤ 2 ^ (if s₁.am22 then 22 else 15) → AgreeWithin s₁.rd.toNat s₁.rl.toNat s₁ s₂ →
    match step s₁, step s₂ with
    | .next t₁, .next t₂ => AgreeWithin s₁.rd.toNat s₁.rl.toNat t₁ t₂
    | .fault a, .fault b => a = b
    | .refused a, .refused b => a = b
    | _, _ => False

/-- Which instructions write which flag, outside an entry and the executive return, by function code: V is cleared, and V is
set, and C and FOV change, only by the orders that the summary of flag writers names; ZS changes only by those and by LDM,
which writes the whole mode byte (46_executive.md R376); only SMO leaves a pre-modification pending (10_state.md R25, R26,
R27, R29, R36, R39, R45). -/
def Obligations.FlagWriters : Prop :=
  ∀ (i : Instr) (s t : State), exec i s = .next t → t.executive = s.executive →
    let f := i.functionCode s.cfg.codes
    let adders := f % 8 ≠ 0 ∧ (f < 0o20 ∨ (0o100 ≤ f ∧ f < 0o110))
    (s.v = true → t.v = false →
      (∃ n, i = .bvsr n ∨ i = .bvcr n ∨ i = .bvci n) ∨ (∃ x n, i = .call x n ∨ i = .exit x n)) ∧
    (s.v = false → t.v = true →
      (∃ n, i = .bvci n) ∨ (∃ x n, i = .exit x n) ∨ adders ∨ (0o40 ≤ f ∧ f ≤ 0o46) ∨ f = 0o131 ∨
        (∃ x m c, i = .sla x m c ∨ i = .slad x m c)) ∧
    (t.c ≠ s.c →
      adders ∨ (0o20 ≤ f ∧ f ≤ 0o22) ∨ (0o26 ≤ f ∧ f ≤ 0o32) ∨ (0o40 ≤ f ∧ f ≤ 0o46) ∨ (0o120 ≤ f ∧ f ≤ 0o122) ∨
        (∃ x m n, i = .tdl x m n)) ∧
    (t.zs ≠ s.zs → (∃ x n, i = .exit x n) ∨ ∃ x m n, i = .mode x m n ∨ i = .cbd x m n ∨ i = .ldm x m n) ∧
    (t.fov ≠ s.fov → (∃ n, i = .bfp4 n) ∨ (0o132 ≤ f ∧ f ≤ 0o135)) ∧
    (t.pip = true → ∃ x m n, i = .smo x m n)

/-- Which instructions store: outside an entry, a word of memory changes only under the store orders 010 to 017 and 030 to 037,
CBD, MVCH, MOVE, FIX and SFP (41_fixed_point.md R160, R197; 42_char_shift_misc.md R213, R215 to R217, R240 to R242;
44_float.md R305, R307). -/
def Obligations.OnlyStoringOrdersStore : Prop :=
  ∀ (i : Instr) (s t : State), exec i s = .next t → t.executive = s.executive → t.mem ≠ s.mem →
    let f := i.functionCode s.cfg.codes
    (0o10 ≤ f ∧ f ≤ 0o17) ∨ (0o30 ≤ f ∧ f ≤ 0o37) ∨ f = 0o47 ∨ f = 0o116 ∨ f = 0o126 ∨ f = 0o131 ∨ f = 0o137
end

