-- ==== Sys2Proof/Laws/Memory.lean ====
section
/-! SUPPORT. The laws of memory as data: read after write, and every write keeps the canonical form. -/

namespace Sys2Proof.Machine

/-- A memory whose listed addresses all exceed an address reads there as an unlisted word. -/
theorem Memory.read_of_lt : ∀ (m : Memory) (p : Nat), (∀ c ∈ m, p < c.1) → Memory.read m p = unlistedWord
  | [], _, _ => rfl
  | (a, w) :: rest, p, h => by
    have ha : p < a := h (a, w) (by simp)
    have : p ≠ a := by omega
    simp only [Memory.read, this, if_false]
    exact Memory.read_of_lt rest p fun c hc => h c (by simp [hc])

/-- The entries of a written memory: entries of the old one, or the new entry. -/
theorem Memory.mem_write : ∀ (m : Memory) (p : Nat) (v : Word) (c : Cell),
    c ∈ m.write p v → c ∈ m ∨ (c = (p, v) ∧ v ≠ unlistedWord)
  | [], p, v, c, h => by
    simp only [Memory.write] at h
    split at h <;> simp_all
  | (a, w) :: rest, p, v, c, h => by
    simp only [Memory.write] at h
    split at h
    · split at h
      · exact Or.inl h
      · rcases List.mem_cons.mp h with rfl | h
        · exact Or.inr ⟨rfl, by assumption⟩
        · exact Or.inl h
    · split at h
      · split at h
        · exact Or.inl (List.mem_cons_of_mem _ h)
        · rcases List.mem_cons.mp h with rfl | h
          · exact Or.inr ⟨rfl, by assumption⟩
          · exact Or.inl (List.mem_cons_of_mem _ h)
      · rcases List.mem_cons.mp h with rfl | h
        · exact Or.inl (by simp)
        · rcases Memory.mem_write rest p v c h with h | h
          · exact Or.inl (List.mem_cons_of_mem _ h)
          · exact Or.inr h

/-- A canonical memory with its first entry dropped is canonical. -/
theorem Memory.wf_tail {c : Cell} {m : Memory} (h : Memory.wf (c :: m)) : Memory.wf m :=
  ⟨(List.pairwise_cons.mp h.1).2, fun d hd => h.2 d (List.mem_cons_of_mem _ hd)⟩

/-- Writing keeps the canonical form. -/
theorem Memory.wf_write : ∀ (m : Memory) (p : Nat) (v : Word), Memory.wf m → Memory.wf (m.write p v)
  | [], p, v, _ => by
    simp only [Memory.write]
    split
    · exact ⟨List.Pairwise.nil, by simp⟩
    · exact ⟨List.pairwise_singleton _ _, by simpa⟩
  | (a, w) :: rest, p, v, h => by
    have hr : ∀ c ∈ rest, a < c.1 := fun c hc => (List.pairwise_cons.mp h.1).1 c hc
    have ht := Memory.wf_tail h
    simp only [Memory.write]
    split
    · rename_i hlt
      split
      · exact h
      · rename_i hv
        refine ⟨List.pairwise_cons.mpr ⟨fun c hc => ?_, h.1⟩, fun c hc => ?_⟩
        · rcases List.mem_cons.mp hc with rfl | hc
          · exact hlt
          · have := hr c hc; simp only; omega
        · rcases List.mem_cons.mp hc with rfl | hc
          · exact hv
          · exact h.2 c hc
    · split
      · rename_i heq
        subst heq
        split
        · exact ht
        · rename_i hv
          refine ⟨List.pairwise_cons.mpr ⟨hr, ht.1⟩, fun c hc => ?_⟩
          rcases List.mem_cons.mp hc with rfl | hc
          · exact hv
          · exact ht.2 c hc
      · have hw := Memory.wf_write rest p v ht
        refine ⟨List.pairwise_cons.mpr ⟨fun c hc => ?_, hw.1⟩, fun c hc => ?_⟩
        · rcases Memory.mem_write rest p v c hc with hc | ⟨rfl, _⟩
          · exact hr c hc
          · simp only; omega
        · rcases List.mem_cons.mp hc with rfl | hc
          · exact h.2 (a, w) (by simp)
          · exact hw.2 c hc

/-- Writing an installed word lists installed words only. -/
theorem Memory.within_write {m : Memory} {p : Nat} {v : Word} {size : Nat} (h : m.within size) (hp : p < size) :
    (m.write p v).within size := fun c hc => by
  rcases Memory.mem_write m p v c hc with hc | ⟨rfl, _⟩
  · exact h c hc
  · exact hp

/-- Reading after writing in a canonical memory: the word written at its address, every other word as before. -/
theorem Memory.read_write : ∀ (m : Memory) (p q : Nat) (v : Word), Memory.wf m →
    (m.write p v).read q = if q = p then v else m.read q
  | [], p, q, v, _ => by
    simp only [Memory.write]
    split
    · rename_i hv; simp [Memory.read, hv]
    · simp [Memory.read]
  | (a, w) :: rest, p, q, v, h => by
    have hr : ∀ c ∈ rest, a < c.1 := fun c hc => (List.pairwise_cons.mp h.1).1 c hc
    have ht := Memory.wf_tail h
    simp only [Memory.write]
    split
    · rename_i hlt
      split
      · rename_i hv
        by_cases hq : q = p
        · subst hq
          have : Memory.read ((a, w) :: rest) q = unlistedWord := by
            apply Memory.read_of_lt
            intro c hc
            rcases List.mem_cons.mp hc with rfl | hc
            · exact hlt
            · have := hr c hc; omega
          simp [this, hv]
        · simp [hq]
      · simp [Memory.read]
    · split
      · rename_i heq
        subst heq
        split
        · rename_i hv
          by_cases hq : q = p
          · subst hq
            simp [Memory.read_of_lt rest q hr, hv]
          · simp [Memory.read, hq]
        · by_cases hq : q = p <;> simp [Memory.read, hq]
      · rename_i h1 h2
        by_cases hq : q = a
        · subst hq
          simp [Memory.read, Ne.symm h2]
        · simp [Memory.read, hq, Memory.read_write rest p q v ht]

/-- The word written is the word read. -/
theorem Memory.read_write_same {m : Memory} (h : m.wf) (p : Nat) (v : Word) : (m.write p v).read p = v := by
  simp [Memory.read_write m p p v h]

/-- Every other word is as before. -/
theorem Memory.read_write_other {m : Memory} (h : m.wf) {p q : Nat} (hq : q ≠ p) (v : Word) :
    (m.write p v).read q = m.read q := by
  simp [Memory.read_write m p q v h, hq]

/-- A word at or past the installed size reads as an unlisted word. -/
theorem Memory.read_of_within : ∀ (m : Memory) (size p : Nat), m.within size → size ≤ p → m.read p = unlistedWord
  | [], _, _, _, _ => rfl
  | (a, w) :: rest, size, p, h, hp => by
    have ha : a < size := h (a, w) (by simp)
    have : p ≠ a := by omega
    simp only [Memory.read, this, if_false]
    exact Memory.read_of_within rest size p (fun c hc => h c (by simp [hc])) hp

end Sys2Proof.Machine
end

