-- ==== Sys2Proof/Laws/State.lean ====
section
/-! SUPPORT. What each update of the state leaves alone: one lemma per field and per reading, for each update, so that no later
proof unfolds a record update. -/

namespace Sys2Proof.Machine

variable (s : State)

/-! ### `State.setReg` -/

@[simp] theorem State.setReg_cfg (i : RegIx) (w : Word) : (s.setReg i w).cfg = s.cfg := rfl
@[simp] theorem State.setReg_pc (i : RegIx) (w : Word) : (s.setReg i w).pc = s.pc := rfl
@[simp] theorem State.setReg_ia (i : RegIx) (w : Word) : (s.setReg i w).ia = s.ia := rfl
@[simp] theorem State.setReg_v (i : RegIx) (w : Word) : (s.setReg i w).v = s.v := rfl
@[simp] theorem State.setReg_c (i : RegIx) (w : Word) : (s.setReg i w).c = s.c := rfl
@[simp] theorem State.setReg_executive (i : RegIx) (w : Word) : (s.setReg i w).executive = s.executive := rfl
@[simp] theorem State.setReg_mode (i : RegIx) (w : Word) : (s.setReg i w).mode = s.mode := rfl
@[simp] theorem State.setReg_rd (i : RegIx) (w : Word) : (s.setReg i w).rd = s.rd := rfl
@[simp] theorem State.setReg_rl (i : RegIx) (w : Word) : (s.setReg i w).rl = s.rl := rfl
@[simp] theorem State.setReg_am (i : RegIx) (w : Word) : (s.setReg i w).am = s.am := rfl
@[simp] theorem State.setReg_ae (i : RegIx) (w : Word) : (s.setReg i w).ae = s.ae := rfl
@[simp] theorem State.setReg_fov (i : RegIx) (w : Word) : (s.setReg i w).fov = s.fov := rfl
@[simp] theorem State.setReg_sr64 (i : RegIx) (w : Word) : (s.setReg i w).sr64 = s.sr64 := rfl
@[simp] theorem State.setReg_sr65 (i : RegIx) (w : Word) : (s.setReg i w).sr65 = s.sr65 := rfl
@[simp] theorem State.setReg_pip (i : RegIx) (w : Word) : (s.setReg i w).pip = s.pip := rfl
@[simp] theorem State.setReg_pipVal (i : RegIx) (w : Word) : (s.setReg i w).pipVal = s.pipVal := rfl
@[simp] theorem State.setReg_loading (i : RegIx) (w : Word) : (s.setReg i w).loading = s.loading := rfl
@[simp] theorem State.setReg_stopped (i : RegIx) (w : Word) : (s.setReg i w).stopped = s.stopped := rfl
@[simp] theorem State.setReg_mem (i : RegIx) (w : Word) : (s.setReg i w).mem = s.mem := rfl
@[simp] theorem State.setReg_stopRequested (i : RegIx) (w : Word) : (s.setReg i w).stopRequested = s.stopRequested := rfl
@[simp] theorem State.setReg_obeyed (i : RegIx) (w : Word) : (s.setReg i w).obeyed = s.obeyed := rfl
@[simp] theorem State.setReg_turns (i : RegIx) (w : Word) : (s.setReg i w).turns = s.turns := rfl
@[simp] theorem State.setReg_draws (i : RegIx) (w : Word) : (s.setReg i w).draws = s.draws := rfl
@[simp] theorem State.setReg_ejm (i : RegIx) (w : Word) : (s.setReg i w).ejm = s.ejm := rfl
@[simp] theorem State.setReg_datum (i : RegIx) (w : Word) : (s.setReg i w).datum = s.datum := rfl
@[simp] theorem State.setReg_am22 (i : RegIx) (w : Word) : (s.setReg i w).am22 = s.am22 := rfl
@[simp] theorem State.setReg_trace (i : RegIx) (w : Word) : (s.setReg i w).trace = s.trace := rfl
@[simp] theorem State.setReg_zs (i : RegIx) (w : Word) : (s.setReg i w).zs = s.zs := rfl
@[simp] theorem State.setReg_amask (i : RegIx) (w : Word) : (s.setReg i w).amask = s.amask := rfl
@[simp] theorem State.setReg_maskAddr (i : RegIx) (w : Word) (a : Word) : (s.setReg i w).maskAddr a = s.maskAddr a := rfl
@[simp] theorem State.setReg_nextAddr (i : RegIx) (w : Word) (a : Addr) : (s.setReg i w).nextAddr a = s.nextAddr a := rfl
@[simp] theorem State.setReg_access (i : RegIx) (w : Word) (a : Addr) (o : Bool) : access (s.setReg i w) a o = access s a o := rfl
@[simp] theorem State.setReg_pending (i : RegIx) (w : Word) : (s.setReg i w).pending = s.pending := rfl
@[simp] theorem State.setReg_saveAreaInstalled (i : RegIx) (w : Word) : (s.setReg i w).saveAreaInstalled = s.saveAreaInstalled := rfl
@[simp] theorem State.setReg_branchTraced (i : RegIx) (w : Word) : (s.setReg i w).branchTraced = s.branchTraced := rfl

/-! ### `State.setZs` -/

@[simp] theorem State.setZs_cfg (b : Bool) : (s.setZs b).cfg = s.cfg := rfl
@[simp] theorem State.setZs_regs (b : Bool) : (s.setZs b).regs = s.regs := rfl
@[simp] theorem State.setZs_pc (b : Bool) : (s.setZs b).pc = s.pc := rfl
@[simp] theorem State.setZs_ia (b : Bool) : (s.setZs b).ia = s.ia := rfl
@[simp] theorem State.setZs_v (b : Bool) : (s.setZs b).v = s.v := rfl
@[simp] theorem State.setZs_c (b : Bool) : (s.setZs b).c = s.c := rfl
@[simp] theorem State.setZs_executive (b : Bool) : (s.setZs b).executive = s.executive := rfl
@[simp] theorem State.setZs_rd (b : Bool) : (s.setZs b).rd = s.rd := rfl
@[simp] theorem State.setZs_rl (b : Bool) : (s.setZs b).rl = s.rl := rfl
@[simp] theorem State.setZs_am (b : Bool) : (s.setZs b).am = s.am := rfl
@[simp] theorem State.setZs_ae (b : Bool) : (s.setZs b).ae = s.ae := rfl
@[simp] theorem State.setZs_fov (b : Bool) : (s.setZs b).fov = s.fov := rfl
@[simp] theorem State.setZs_sr64 (b : Bool) : (s.setZs b).sr64 = s.sr64 := rfl
@[simp] theorem State.setZs_sr65 (b : Bool) : (s.setZs b).sr65 = s.sr65 := rfl
@[simp] theorem State.setZs_pip (b : Bool) : (s.setZs b).pip = s.pip := rfl
@[simp] theorem State.setZs_pipVal (b : Bool) : (s.setZs b).pipVal = s.pipVal := rfl
@[simp] theorem State.setZs_loading (b : Bool) : (s.setZs b).loading = s.loading := rfl
@[simp] theorem State.setZs_stopped (b : Bool) : (s.setZs b).stopped = s.stopped := rfl
@[simp] theorem State.setZs_mem (b : Bool) : (s.setZs b).mem = s.mem := rfl
@[simp] theorem State.setZs_stopRequested (b : Bool) : (s.setZs b).stopRequested = s.stopRequested := rfl
@[simp] theorem State.setZs_obeyed (b : Bool) : (s.setZs b).obeyed = s.obeyed := rfl
@[simp] theorem State.setZs_turns (b : Bool) : (s.setZs b).turns = s.turns := rfl
@[simp] theorem State.setZs_draws (b : Bool) : (s.setZs b).draws = s.draws := rfl
@[simp] theorem State.setZs_reg (b : Bool) (i : RegIx) : (s.setZs b).reg i = s.reg i := rfl
@[simp] theorem State.setZs_pending (b : Bool) : (s.setZs b).pending = s.pending := rfl
@[simp] theorem State.setZs_saveAreaInstalled (b : Bool) : (s.setZs b).saveAreaInstalled = s.saveAreaInstalled := rfl
@[simp] theorem State.setZs_doubleLength (b : Bool) (k : RegIx) : (s.setZs b).doubleLength k = s.doubleLength k := rfl
@[simp] theorem State.setZs_pair (b : Bool) (k : RegIx) : (s.setZs b).pair k = s.pair k := rfl

/-! ### `State.setC` -/

@[simp] theorem State.setC_cfg (b : Bool) : (s.setC b).cfg = s.cfg := rfl
@[simp] theorem State.setC_regs (b : Bool) : (s.setC b).regs = s.regs := rfl
@[simp] theorem State.setC_pc (b : Bool) : (s.setC b).pc = s.pc := rfl
@[simp] theorem State.setC_ia (b : Bool) : (s.setC b).ia = s.ia := rfl
@[simp] theorem State.setC_v (b : Bool) : (s.setC b).v = s.v := rfl
@[simp] theorem State.setC_executive (b : Bool) : (s.setC b).executive = s.executive := rfl
@[simp] theorem State.setC_mode (b : Bool) : (s.setC b).mode = s.mode := rfl
@[simp] theorem State.setC_rd (b : Bool) : (s.setC b).rd = s.rd := rfl
@[simp] theorem State.setC_rl (b : Bool) : (s.setC b).rl = s.rl := rfl
@[simp] theorem State.setC_am (b : Bool) : (s.setC b).am = s.am := rfl
@[simp] theorem State.setC_ae (b : Bool) : (s.setC b).ae = s.ae := rfl
@[simp] theorem State.setC_fov (b : Bool) : (s.setC b).fov = s.fov := rfl
@[simp] theorem State.setC_sr64 (b : Bool) : (s.setC b).sr64 = s.sr64 := rfl
@[simp] theorem State.setC_sr65 (b : Bool) : (s.setC b).sr65 = s.sr65 := rfl
@[simp] theorem State.setC_pip (b : Bool) : (s.setC b).pip = s.pip := rfl
@[simp] theorem State.setC_pipVal (b : Bool) : (s.setC b).pipVal = s.pipVal := rfl
@[simp] theorem State.setC_loading (b : Bool) : (s.setC b).loading = s.loading := rfl
@[simp] theorem State.setC_stopped (b : Bool) : (s.setC b).stopped = s.stopped := rfl
@[simp] theorem State.setC_mem (b : Bool) : (s.setC b).mem = s.mem := rfl
@[simp] theorem State.setC_stopRequested (b : Bool) : (s.setC b).stopRequested = s.stopRequested := rfl
@[simp] theorem State.setC_obeyed (b : Bool) : (s.setC b).obeyed = s.obeyed := rfl
@[simp] theorem State.setC_turns (b : Bool) : (s.setC b).turns = s.turns := rfl
@[simp] theorem State.setC_draws (b : Bool) : (s.setC b).draws = s.draws := rfl
@[simp] theorem State.setC_reg (b : Bool) (i : RegIx) : (s.setC b).reg i = s.reg i := rfl
@[simp] theorem State.setC_ejm (b : Bool) : (s.setC b).ejm = s.ejm := rfl
@[simp] theorem State.setC_datum (b : Bool) : (s.setC b).datum = s.datum := rfl
@[simp] theorem State.setC_am22 (b : Bool) : (s.setC b).am22 = s.am22 := rfl
@[simp] theorem State.setC_trace (b : Bool) : (s.setC b).trace = s.trace := rfl
@[simp] theorem State.setC_zs (b : Bool) : (s.setC b).zs = s.zs := rfl
@[simp] theorem State.setC_amask (b : Bool) : (s.setC b).amask = s.amask := rfl
@[simp] theorem State.setC_maskAddr (b : Bool) (a : Word) : (s.setC b).maskAddr a = s.maskAddr a := rfl
@[simp] theorem State.setC_nextAddr (b : Bool) (a : Addr) : (s.setC b).nextAddr a = s.nextAddr a := rfl
@[simp] theorem State.setC_access (b : Bool) (a : Addr) (o : Bool) : access (s.setC b) a o = access s a o := rfl
@[simp] theorem State.setC_memRead (b : Bool) (a : Addr) (o : Bool) : memRead (s.setC b) a o = memRead s a o := rfl
@[simp] theorem State.setC_pending (b : Bool) : (s.setC b).pending = s.pending := rfl
@[simp] theorem State.setC_saveAreaInstalled (b : Bool) : (s.setC b).saveAreaInstalled = s.saveAreaInstalled := rfl
@[simp] theorem State.setC_branchTraced (b : Bool) : (s.setC b).branchTraced = s.branchTraced := rfl
@[simp] theorem State.setC_doubleLength (b : Bool) (k : RegIx) : (s.setC b).doubleLength k = s.doubleLength k := rfl
@[simp] theorem State.setC_pair (b : Bool) (k : RegIx) : (s.setC b).pair k = s.pair k := rfl

/-! ### `State.writePhysical` -/

@[simp] theorem State.writePhysical_cfg (p : Nat) (w : Word) : (s.writePhysical p w).cfg = s.cfg := rfl
@[simp] theorem State.writePhysical_regs (p : Nat) (w : Word) : (s.writePhysical p w).regs = s.regs := rfl
@[simp] theorem State.writePhysical_pc (p : Nat) (w : Word) : (s.writePhysical p w).pc = s.pc := rfl
@[simp] theorem State.writePhysical_ia (p : Nat) (w : Word) : (s.writePhysical p w).ia = s.ia := rfl
@[simp] theorem State.writePhysical_v (p : Nat) (w : Word) : (s.writePhysical p w).v = s.v := rfl
@[simp] theorem State.writePhysical_c (p : Nat) (w : Word) : (s.writePhysical p w).c = s.c := rfl
@[simp] theorem State.writePhysical_executive (p : Nat) (w : Word) : (s.writePhysical p w).executive = s.executive := rfl
@[simp] theorem State.writePhysical_mode (p : Nat) (w : Word) : (s.writePhysical p w).mode = s.mode := rfl
@[simp] theorem State.writePhysical_rd (p : Nat) (w : Word) : (s.writePhysical p w).rd = s.rd := rfl
@[simp] theorem State.writePhysical_rl (p : Nat) (w : Word) : (s.writePhysical p w).rl = s.rl := rfl
@[simp] theorem State.writePhysical_am (p : Nat) (w : Word) : (s.writePhysical p w).am = s.am := rfl
@[simp] theorem State.writePhysical_ae (p : Nat) (w : Word) : (s.writePhysical p w).ae = s.ae := rfl
@[simp] theorem State.writePhysical_fov (p : Nat) (w : Word) : (s.writePhysical p w).fov = s.fov := rfl
@[simp] theorem State.writePhysical_sr64 (p : Nat) (w : Word) : (s.writePhysical p w).sr64 = s.sr64 := rfl
@[simp] theorem State.writePhysical_sr65 (p : Nat) (w : Word) : (s.writePhysical p w).sr65 = s.sr65 := rfl
@[simp] theorem State.writePhysical_pip (p : Nat) (w : Word) : (s.writePhysical p w).pip = s.pip := rfl
@[simp] theorem State.writePhysical_pipVal (p : Nat) (w : Word) : (s.writePhysical p w).pipVal = s.pipVal := rfl
@[simp] theorem State.writePhysical_loading (p : Nat) (w : Word) : (s.writePhysical p w).loading = s.loading := rfl
@[simp] theorem State.writePhysical_stopped (p : Nat) (w : Word) : (s.writePhysical p w).stopped = s.stopped := rfl
@[simp] theorem State.writePhysical_stopRequested (p : Nat) (w : Word) : (s.writePhysical p w).stopRequested = s.stopRequested := rfl
@[simp] theorem State.writePhysical_obeyed (p : Nat) (w : Word) : (s.writePhysical p w).obeyed = s.obeyed := rfl
@[simp] theorem State.writePhysical_turns (p : Nat) (w : Word) : (s.writePhysical p w).turns = s.turns := rfl
@[simp] theorem State.writePhysical_draws (p : Nat) (w : Word) : (s.writePhysical p w).draws = s.draws := rfl
@[simp] theorem State.writePhysical_reg (p : Nat) (w : Word) (i : RegIx) : (s.writePhysical p w).reg i = s.reg i := rfl
@[simp] theorem State.writePhysical_ejm (p : Nat) (w : Word) : (s.writePhysical p w).ejm = s.ejm := rfl
@[simp] theorem State.writePhysical_datum (p : Nat) (w : Word) : (s.writePhysical p w).datum = s.datum := rfl
@[simp] theorem State.writePhysical_am22 (p : Nat) (w : Word) : (s.writePhysical p w).am22 = s.am22 := rfl
@[simp] theorem State.writePhysical_trace (p : Nat) (w : Word) : (s.writePhysical p w).trace = s.trace := rfl
@[simp] theorem State.writePhysical_zs (p : Nat) (w : Word) : (s.writePhysical p w).zs = s.zs := rfl
@[simp] theorem State.writePhysical_amask (p : Nat) (w : Word) : (s.writePhysical p w).amask = s.amask := rfl
@[simp] theorem State.writePhysical_maskAddr (p : Nat) (w : Word) (a : Word) : (s.writePhysical p w).maskAddr a = s.maskAddr a := rfl
@[simp] theorem State.writePhysical_nextAddr (p : Nat) (w : Word) (a : Addr) : (s.writePhysical p w).nextAddr a = s.nextAddr a := rfl
@[simp] theorem State.writePhysical_access (p : Nat) (w : Word) (a : Addr) (o : Bool) : access (s.writePhysical p w) a o = access s a o := rfl
@[simp] theorem State.writePhysical_pending (p : Nat) (w : Word) : (s.writePhysical p w).pending = s.pending := rfl
@[simp] theorem State.writePhysical_saveAreaInstalled (p : Nat) (w : Word) : (s.writePhysical p w).saveAreaInstalled = s.saveAreaInstalled := rfl
@[simp] theorem State.writePhysical_branchTraced (p : Nat) (w : Word) : (s.writePhysical p w).branchTraced = s.branchTraced := rfl
@[simp] theorem State.writePhysical_doubleLength (p : Nat) (w : Word) (k : RegIx) : (s.writePhysical p w).doubleLength k = s.doubleLength k := rfl
@[simp] theorem State.writePhysical_pair (p : Nat) (w : Word) (k : RegIx) : (s.writePhysical p w).pair k = s.pair k := rfl

/-! ### `State.flagViolation` -/

@[simp] theorem State.flagViolation_cfg : (s.flagViolation).cfg = s.cfg := rfl
@[simp] theorem State.flagViolation_regs : (s.flagViolation).regs = s.regs := rfl
@[simp] theorem State.flagViolation_pc : (s.flagViolation).pc = s.pc := rfl
@[simp] theorem State.flagViolation_ia : (s.flagViolation).ia = s.ia := rfl
@[simp] theorem State.flagViolation_v : (s.flagViolation).v = s.v := rfl
@[simp] theorem State.flagViolation_c : (s.flagViolation).c = s.c := rfl
@[simp] theorem State.flagViolation_executive : (s.flagViolation).executive = s.executive := rfl
@[simp] theorem State.flagViolation_mode : (s.flagViolation).mode = s.mode := rfl
@[simp] theorem State.flagViolation_rd : (s.flagViolation).rd = s.rd := rfl
@[simp] theorem State.flagViolation_rl : (s.flagViolation).rl = s.rl := rfl
@[simp] theorem State.flagViolation_am : (s.flagViolation).am = s.am := rfl
@[simp] theorem State.flagViolation_ae : (s.flagViolation).ae = s.ae := rfl
@[simp] theorem State.flagViolation_fov : (s.flagViolation).fov = s.fov := rfl
@[simp] theorem State.flagViolation_sr65 : (s.flagViolation).sr65 = s.sr65 := rfl
@[simp] theorem State.flagViolation_pip : (s.flagViolation).pip = s.pip := rfl
@[simp] theorem State.flagViolation_pipVal : (s.flagViolation).pipVal = s.pipVal := rfl
@[simp] theorem State.flagViolation_loading : (s.flagViolation).loading = s.loading := rfl
@[simp] theorem State.flagViolation_stopped : (s.flagViolation).stopped = s.stopped := rfl
@[simp] theorem State.flagViolation_mem : (s.flagViolation).mem = s.mem := rfl
@[simp] theorem State.flagViolation_stopRequested : (s.flagViolation).stopRequested = s.stopRequested := rfl
@[simp] theorem State.flagViolation_obeyed : (s.flagViolation).obeyed = s.obeyed := rfl
@[simp] theorem State.flagViolation_turns : (s.flagViolation).turns = s.turns := rfl
@[simp] theorem State.flagViolation_draws : (s.flagViolation).draws = s.draws := rfl
@[simp] theorem State.flagViolation_reg (i : RegIx) : (s.flagViolation).reg i = s.reg i := rfl
@[simp] theorem State.flagViolation_ejm : (s.flagViolation).ejm = s.ejm := rfl
@[simp] theorem State.flagViolation_datum : (s.flagViolation).datum = s.datum := rfl
@[simp] theorem State.flagViolation_am22 : (s.flagViolation).am22 = s.am22 := rfl
@[simp] theorem State.flagViolation_trace : (s.flagViolation).trace = s.trace := rfl
@[simp] theorem State.flagViolation_zs : (s.flagViolation).zs = s.zs := rfl
@[simp] theorem State.flagViolation_amask : (s.flagViolation).amask = s.amask := rfl
@[simp] theorem State.flagViolation_maskAddr (a : Word) : (s.flagViolation).maskAddr a = s.maskAddr a := rfl
@[simp] theorem State.flagViolation_nextAddr (a : Addr) : (s.flagViolation).nextAddr a = s.nextAddr a := rfl
@[simp] theorem State.flagViolation_access (a : Addr) (o : Bool) : access (s.flagViolation) a o = access s a o := rfl
@[simp] theorem State.flagViolation_memRead (a : Addr) (o : Bool) : memRead (s.flagViolation) a o = memRead s a o := rfl
@[simp] theorem State.flagViolation_saveAreaInstalled : (s.flagViolation).saveAreaInstalled = s.saveAreaInstalled := rfl
@[simp] theorem State.flagViolation_branchTraced : (s.flagViolation).branchTraced = s.branchTraced := rfl
@[simp] theorem State.flagViolation_doubleLength (k : RegIx) : (s.flagViolation).doubleLength k = s.doubleLength k := rfl
@[simp] theorem State.flagViolation_pair (k : RegIx) : (s.flagViolation).pair k = s.pair k := rfl

/-! ### `State.consumePip` -/

@[simp] theorem State.consumePip_cfg : (s.consumePip).cfg = s.cfg := rfl
@[simp] theorem State.consumePip_regs : (s.consumePip).regs = s.regs := rfl
@[simp] theorem State.consumePip_pc : (s.consumePip).pc = s.pc := rfl
@[simp] theorem State.consumePip_ia : (s.consumePip).ia = s.ia := rfl
@[simp] theorem State.consumePip_v : (s.consumePip).v = s.v := rfl
@[simp] theorem State.consumePip_c : (s.consumePip).c = s.c := rfl
@[simp] theorem State.consumePip_executive : (s.consumePip).executive = s.executive := rfl
@[simp] theorem State.consumePip_mode : (s.consumePip).mode = s.mode := rfl
@[simp] theorem State.consumePip_rd : (s.consumePip).rd = s.rd := rfl
@[simp] theorem State.consumePip_rl : (s.consumePip).rl = s.rl := rfl
@[simp] theorem State.consumePip_am : (s.consumePip).am = s.am := rfl
@[simp] theorem State.consumePip_ae : (s.consumePip).ae = s.ae := rfl
@[simp] theorem State.consumePip_fov : (s.consumePip).fov = s.fov := rfl
@[simp] theorem State.consumePip_sr64 : (s.consumePip).sr64 = s.sr64 := rfl
@[simp] theorem State.consumePip_sr65 : (s.consumePip).sr65 = s.sr65 := rfl
@[simp] theorem State.consumePip_pipVal : (s.consumePip).pipVal = s.pipVal := rfl
@[simp] theorem State.consumePip_loading : (s.consumePip).loading = s.loading := rfl
@[simp] theorem State.consumePip_stopped : (s.consumePip).stopped = s.stopped := rfl
@[simp] theorem State.consumePip_mem : (s.consumePip).mem = s.mem := rfl
@[simp] theorem State.consumePip_stopRequested : (s.consumePip).stopRequested = s.stopRequested := rfl
@[simp] theorem State.consumePip_obeyed : (s.consumePip).obeyed = s.obeyed := rfl
@[simp] theorem State.consumePip_turns : (s.consumePip).turns = s.turns := rfl
@[simp] theorem State.consumePip_draws : (s.consumePip).draws = s.draws := rfl
@[simp] theorem State.consumePip_reg (i : RegIx) : (s.consumePip).reg i = s.reg i := rfl
@[simp] theorem State.consumePip_ejm : (s.consumePip).ejm = s.ejm := rfl
@[simp] theorem State.consumePip_datum : (s.consumePip).datum = s.datum := rfl
@[simp] theorem State.consumePip_am22 : (s.consumePip).am22 = s.am22 := rfl
@[simp] theorem State.consumePip_trace : (s.consumePip).trace = s.trace := rfl
@[simp] theorem State.consumePip_zs : (s.consumePip).zs = s.zs := rfl
@[simp] theorem State.consumePip_amask : (s.consumePip).amask = s.amask := rfl
@[simp] theorem State.consumePip_maskAddr (a : Word) : (s.consumePip).maskAddr a = s.maskAddr a := rfl
@[simp] theorem State.consumePip_nextAddr (a : Addr) : (s.consumePip).nextAddr a = s.nextAddr a := rfl
@[simp] theorem State.consumePip_access (a : Addr) (o : Bool) : access (s.consumePip) a o = access s a o := rfl
@[simp] theorem State.consumePip_memRead (a : Addr) (o : Bool) : memRead (s.consumePip) a o = memRead s a o := rfl
@[simp] theorem State.consumePip_pending : (s.consumePip).pending = s.pending := rfl
@[simp] theorem State.consumePip_saveAreaInstalled : (s.consumePip).saveAreaInstalled = s.saveAreaInstalled := rfl
@[simp] theorem State.consumePip_branchTraced : (s.consumePip).branchTraced = s.branchTraced := rfl
@[simp] theorem State.consumePip_doubleLength (k : RegIx) : (s.consumePip).doubleLength k = s.doubleLength k := rfl
@[simp] theorem State.consumePip_pair (k : RegIx) : (s.consumePip).pair k = s.pair k := rfl

/-! ### `State.advance` -/

@[simp] theorem State.advance_cfg : (s.advance).cfg = s.cfg := rfl
@[simp] theorem State.advance_regs : (s.advance).regs = s.regs := rfl
@[simp] theorem State.advance_ia : (s.advance).ia = s.ia := rfl
@[simp] theorem State.advance_v : (s.advance).v = s.v := rfl
@[simp] theorem State.advance_c : (s.advance).c = s.c := rfl
@[simp] theorem State.advance_executive : (s.advance).executive = s.executive := rfl
@[simp] theorem State.advance_mode : (s.advance).mode = s.mode := rfl
@[simp] theorem State.advance_rd : (s.advance).rd = s.rd := rfl
@[simp] theorem State.advance_rl : (s.advance).rl = s.rl := rfl
@[simp] theorem State.advance_am : (s.advance).am = s.am := rfl
@[simp] theorem State.advance_ae : (s.advance).ae = s.ae := rfl
@[simp] theorem State.advance_fov : (s.advance).fov = s.fov := rfl
@[simp] theorem State.advance_sr64 : (s.advance).sr64 = s.sr64 := rfl
@[simp] theorem State.advance_sr65 : (s.advance).sr65 = s.sr65 := rfl
@[simp] theorem State.advance_pipVal : (s.advance).pipVal = s.pipVal := rfl
@[simp] theorem State.advance_loading : (s.advance).loading = s.loading := rfl
@[simp] theorem State.advance_stopped : (s.advance).stopped = s.stopped := rfl
@[simp] theorem State.advance_mem : (s.advance).mem = s.mem := rfl
@[simp] theorem State.advance_stopRequested : (s.advance).stopRequested = s.stopRequested := rfl
@[simp] theorem State.advance_obeyed : (s.advance).obeyed = s.obeyed := rfl
@[simp] theorem State.advance_turns : (s.advance).turns = s.turns := rfl
@[simp] theorem State.advance_draws : (s.advance).draws = s.draws := rfl
@[simp] theorem State.advance_reg (i : RegIx) : (s.advance).reg i = s.reg i := rfl
@[simp] theorem State.advance_ejm : (s.advance).ejm = s.ejm := rfl
@[simp] theorem State.advance_datum : (s.advance).datum = s.datum := rfl
@[simp] theorem State.advance_am22 : (s.advance).am22 = s.am22 := rfl
@[simp] theorem State.advance_trace : (s.advance).trace = s.trace := rfl
@[simp] theorem State.advance_zs : (s.advance).zs = s.zs := rfl
@[simp] theorem State.advance_amask : (s.advance).amask = s.amask := rfl
@[simp] theorem State.advance_maskAddr (a : Word) : (s.advance).maskAddr a = s.maskAddr a := rfl
@[simp] theorem State.advance_nextAddr (a : Addr) : (s.advance).nextAddr a = s.nextAddr a := rfl
@[simp] theorem State.advance_access (a : Addr) (o : Bool) : access (s.advance) a o = access s a o := rfl
@[simp] theorem State.advance_memRead (a : Addr) (o : Bool) : memRead (s.advance) a o = memRead s a o := rfl
@[simp] theorem State.advance_pending : (s.advance).pending = s.pending := rfl
@[simp] theorem State.advance_saveAreaInstalled : (s.advance).saveAreaInstalled = s.saveAreaInstalled := rfl
@[simp] theorem State.advance_branchTraced : (s.advance).branchTraced = s.branchTraced := rfl
@[simp] theorem State.advance_doubleLength (k : RegIx) : (s.advance).doubleLength k = s.doubleLength k := rfl
@[simp] theorem State.advance_pair (k : RegIx) : (s.advance).pair k = s.pair k := rfl

/-! ### `State.setAcc` -/

@[simp] theorem State.setAcc_cfg (m : Mantissa) (e : Exponent) : (s.setAcc m e).cfg = s.cfg := rfl
@[simp] theorem State.setAcc_regs (m : Mantissa) (e : Exponent) : (s.setAcc m e).regs = s.regs := rfl
@[simp] theorem State.setAcc_pc (m : Mantissa) (e : Exponent) : (s.setAcc m e).pc = s.pc := rfl
@[simp] theorem State.setAcc_ia (m : Mantissa) (e : Exponent) : (s.setAcc m e).ia = s.ia := rfl
@[simp] theorem State.setAcc_v (m : Mantissa) (e : Exponent) : (s.setAcc m e).v = s.v := rfl
@[simp] theorem State.setAcc_c (m : Mantissa) (e : Exponent) : (s.setAcc m e).c = s.c := rfl
@[simp] theorem State.setAcc_executive (m : Mantissa) (e : Exponent) : (s.setAcc m e).executive = s.executive := rfl
@[simp] theorem State.setAcc_mode (m : Mantissa) (e : Exponent) : (s.setAcc m e).mode = s.mode := rfl
@[simp] theorem State.setAcc_rd (m : Mantissa) (e : Exponent) : (s.setAcc m e).rd = s.rd := rfl
@[simp] theorem State.setAcc_rl (m : Mantissa) (e : Exponent) : (s.setAcc m e).rl = s.rl := rfl
@[simp] theorem State.setAcc_fov (m : Mantissa) (e : Exponent) : (s.setAcc m e).fov = s.fov := rfl
@[simp] theorem State.setAcc_sr64 (m : Mantissa) (e : Exponent) : (s.setAcc m e).sr64 = s.sr64 := rfl
@[simp] theorem State.setAcc_sr65 (m : Mantissa) (e : Exponent) : (s.setAcc m e).sr65 = s.sr65 := rfl
@[simp] theorem State.setAcc_pip (m : Mantissa) (e : Exponent) : (s.setAcc m e).pip = s.pip := rfl
@[simp] theorem State.setAcc_pipVal (m : Mantissa) (e : Exponent) : (s.setAcc m e).pipVal = s.pipVal := rfl
@[simp] theorem State.setAcc_loading (m : Mantissa) (e : Exponent) : (s.setAcc m e).loading = s.loading := rfl
@[simp] theorem State.setAcc_stopped (m : Mantissa) (e : Exponent) : (s.setAcc m e).stopped = s.stopped := rfl
@[simp] theorem State.setAcc_mem (m : Mantissa) (e : Exponent) : (s.setAcc m e).mem = s.mem := rfl
@[simp] theorem State.setAcc_stopRequested (m : Mantissa) (e : Exponent) : (s.setAcc m e).stopRequested = s.stopRequested := rfl
@[simp] theorem State.setAcc_obeyed (m : Mantissa) (e : Exponent) : (s.setAcc m e).obeyed = s.obeyed := rfl
@[simp] theorem State.setAcc_turns (m : Mantissa) (e : Exponent) : (s.setAcc m e).turns = s.turns := rfl
@[simp] theorem State.setAcc_draws (m : Mantissa) (e : Exponent) : (s.setAcc m e).draws = s.draws := rfl
@[simp] theorem State.setAcc_reg (m : Mantissa) (e : Exponent) (i : RegIx) : (s.setAcc m e).reg i = s.reg i := rfl
@[simp] theorem State.setAcc_ejm (m : Mantissa) (e : Exponent) : (s.setAcc m e).ejm = s.ejm := rfl
@[simp] theorem State.setAcc_datum (m : Mantissa) (e : Exponent) : (s.setAcc m e).datum = s.datum := rfl
@[simp] theorem State.setAcc_am22 (m : Mantissa) (e : Exponent) : (s.setAcc m e).am22 = s.am22 := rfl
@[simp] theorem State.setAcc_trace (m : Mantissa) (e : Exponent) : (s.setAcc m e).trace = s.trace := rfl
@[simp] theorem State.setAcc_zs (m : Mantissa) (e : Exponent) : (s.setAcc m e).zs = s.zs := rfl
@[simp] theorem State.setAcc_amask (m : Mantissa) (e : Exponent) : (s.setAcc m e).amask = s.amask := rfl
@[simp] theorem State.setAcc_maskAddr (m : Mantissa) (e : Exponent) (a : Word) : (s.setAcc m e).maskAddr a = s.maskAddr a := rfl
@[simp] theorem State.setAcc_nextAddr (m : Mantissa) (e : Exponent) (a : Addr) : (s.setAcc m e).nextAddr a = s.nextAddr a := rfl
@[simp] theorem State.setAcc_access (m : Mantissa) (e : Exponent) (a : Addr) (o : Bool) : access (s.setAcc m e) a o = access s a o := rfl
@[simp] theorem State.setAcc_memRead (m : Mantissa) (e : Exponent) (a : Addr) (o : Bool) : memRead (s.setAcc m e) a o = memRead s a o := rfl
@[simp] theorem State.setAcc_pending (m : Mantissa) (e : Exponent) : (s.setAcc m e).pending = s.pending := rfl
@[simp] theorem State.setAcc_saveAreaInstalled (m : Mantissa) (e : Exponent) : (s.setAcc m e).saveAreaInstalled = s.saveAreaInstalled := rfl
@[simp] theorem State.setAcc_branchTraced (m : Mantissa) (e : Exponent) : (s.setAcc m e).branchTraced = s.branchTraced := rfl
@[simp] theorem State.setAcc_doubleLength (m : Mantissa) (e : Exponent) (k : RegIx) : (s.setAcc m e).doubleLength k = s.doubleLength k := rfl
@[simp] theorem State.setAcc_pair (m : Mantissa) (e : Exponent) (k : RegIx) : (s.setAcc m e).pair k = s.pair k := rfl

/-! ### `State.raiseFov` -/

@[simp] theorem State.raiseFov_cfg (b : Bool) : (s.raiseFov b).cfg = s.cfg := rfl
@[simp] theorem State.raiseFov_regs (b : Bool) : (s.raiseFov b).regs = s.regs := rfl
@[simp] theorem State.raiseFov_pc (b : Bool) : (s.raiseFov b).pc = s.pc := rfl
@[simp] theorem State.raiseFov_ia (b : Bool) : (s.raiseFov b).ia = s.ia := rfl
@[simp] theorem State.raiseFov_v (b : Bool) : (s.raiseFov b).v = s.v := rfl
@[simp] theorem State.raiseFov_c (b : Bool) : (s.raiseFov b).c = s.c := rfl
@[simp] theorem State.raiseFov_executive (b : Bool) : (s.raiseFov b).executive = s.executive := rfl
@[simp] theorem State.raiseFov_mode (b : Bool) : (s.raiseFov b).mode = s.mode := rfl
@[simp] theorem State.raiseFov_rd (b : Bool) : (s.raiseFov b).rd = s.rd := rfl
@[simp] theorem State.raiseFov_rl (b : Bool) : (s.raiseFov b).rl = s.rl := rfl
@[simp] theorem State.raiseFov_am (b : Bool) : (s.raiseFov b).am = s.am := rfl
@[simp] theorem State.raiseFov_ae (b : Bool) : (s.raiseFov b).ae = s.ae := rfl
@[simp] theorem State.raiseFov_sr64 (b : Bool) : (s.raiseFov b).sr64 = s.sr64 := rfl
@[simp] theorem State.raiseFov_sr65 (b : Bool) : (s.raiseFov b).sr65 = s.sr65 := rfl
@[simp] theorem State.raiseFov_pip (b : Bool) : (s.raiseFov b).pip = s.pip := rfl
@[simp] theorem State.raiseFov_pipVal (b : Bool) : (s.raiseFov b).pipVal = s.pipVal := rfl
@[simp] theorem State.raiseFov_loading (b : Bool) : (s.raiseFov b).loading = s.loading := rfl
@[simp] theorem State.raiseFov_stopped (b : Bool) : (s.raiseFov b).stopped = s.stopped := rfl
@[simp] theorem State.raiseFov_mem (b : Bool) : (s.raiseFov b).mem = s.mem := rfl
@[simp] theorem State.raiseFov_stopRequested (b : Bool) : (s.raiseFov b).stopRequested = s.stopRequested := rfl
@[simp] theorem State.raiseFov_obeyed (b : Bool) : (s.raiseFov b).obeyed = s.obeyed := rfl
@[simp] theorem State.raiseFov_turns (b : Bool) : (s.raiseFov b).turns = s.turns := rfl
@[simp] theorem State.raiseFov_draws (b : Bool) : (s.raiseFov b).draws = s.draws := rfl
@[simp] theorem State.raiseFov_reg (b : Bool) (i : RegIx) : (s.raiseFov b).reg i = s.reg i := rfl
@[simp] theorem State.raiseFov_ejm (b : Bool) : (s.raiseFov b).ejm = s.ejm := rfl
@[simp] theorem State.raiseFov_datum (b : Bool) : (s.raiseFov b).datum = s.datum := rfl
@[simp] theorem State.raiseFov_am22 (b : Bool) : (s.raiseFov b).am22 = s.am22 := rfl
@[simp] theorem State.raiseFov_trace (b : Bool) : (s.raiseFov b).trace = s.trace := rfl
@[simp] theorem State.raiseFov_zs (b : Bool) : (s.raiseFov b).zs = s.zs := rfl
@[simp] theorem State.raiseFov_amask (b : Bool) : (s.raiseFov b).amask = s.amask := rfl
@[simp] theorem State.raiseFov_maskAddr (b : Bool) (a : Word) : (s.raiseFov b).maskAddr a = s.maskAddr a := rfl
@[simp] theorem State.raiseFov_nextAddr (b : Bool) (a : Addr) : (s.raiseFov b).nextAddr a = s.nextAddr a := rfl
@[simp] theorem State.raiseFov_access (b : Bool) (a : Addr) (o : Bool) : access (s.raiseFov b) a o = access s a o := rfl
@[simp] theorem State.raiseFov_memRead (b : Bool) (a : Addr) (o : Bool) : memRead (s.raiseFov b) a o = memRead s a o := rfl
@[simp] theorem State.raiseFov_pending (b : Bool) : (s.raiseFov b).pending = s.pending := rfl
@[simp] theorem State.raiseFov_saveAreaInstalled (b : Bool) : (s.raiseFov b).saveAreaInstalled = s.saveAreaInstalled := rfl
@[simp] theorem State.raiseFov_branchTraced (b : Bool) : (s.raiseFov b).branchTraced = s.branchTraced := rfl
@[simp] theorem State.raiseFov_doubleLength (b : Bool) (k : RegIx) : (s.raiseFov b).doubleLength k = s.doubleLength k := rfl
@[simp] theorem State.raiseFov_pair (b : Bool) (k : RegIx) : (s.raiseFov b).pair k = s.pair k := rfl

/-! ### `State.setPair` -/

@[simp] theorem State.setPair_cfg (x : RegIx) (d : BitVec 48) : (s.setPair x d).cfg = s.cfg := rfl
@[simp] theorem State.setPair_pc (x : RegIx) (d : BitVec 48) : (s.setPair x d).pc = s.pc := rfl
@[simp] theorem State.setPair_ia (x : RegIx) (d : BitVec 48) : (s.setPair x d).ia = s.ia := rfl
@[simp] theorem State.setPair_v (x : RegIx) (d : BitVec 48) : (s.setPair x d).v = s.v := rfl
@[simp] theorem State.setPair_c (x : RegIx) (d : BitVec 48) : (s.setPair x d).c = s.c := rfl
@[simp] theorem State.setPair_executive (x : RegIx) (d : BitVec 48) : (s.setPair x d).executive = s.executive := rfl
@[simp] theorem State.setPair_mode (x : RegIx) (d : BitVec 48) : (s.setPair x d).mode = s.mode := rfl
@[simp] theorem State.setPair_rd (x : RegIx) (d : BitVec 48) : (s.setPair x d).rd = s.rd := rfl
@[simp] theorem State.setPair_rl (x : RegIx) (d : BitVec 48) : (s.setPair x d).rl = s.rl := rfl
@[simp] theorem State.setPair_am (x : RegIx) (d : BitVec 48) : (s.setPair x d).am = s.am := rfl
@[simp] theorem State.setPair_ae (x : RegIx) (d : BitVec 48) : (s.setPair x d).ae = s.ae := rfl
@[simp] theorem State.setPair_fov (x : RegIx) (d : BitVec 48) : (s.setPair x d).fov = s.fov := rfl
@[simp] theorem State.setPair_sr64 (x : RegIx) (d : BitVec 48) : (s.setPair x d).sr64 = s.sr64 := rfl
@[simp] theorem State.setPair_sr65 (x : RegIx) (d : BitVec 48) : (s.setPair x d).sr65 = s.sr65 := rfl
@[simp] theorem State.setPair_pip (x : RegIx) (d : BitVec 48) : (s.setPair x d).pip = s.pip := rfl
@[simp] theorem State.setPair_pipVal (x : RegIx) (d : BitVec 48) : (s.setPair x d).pipVal = s.pipVal := rfl
@[simp] theorem State.setPair_loading (x : RegIx) (d : BitVec 48) : (s.setPair x d).loading = s.loading := rfl
@[simp] theorem State.setPair_stopped (x : RegIx) (d : BitVec 48) : (s.setPair x d).stopped = s.stopped := rfl
@[simp] theorem State.setPair_mem (x : RegIx) (d : BitVec 48) : (s.setPair x d).mem = s.mem := rfl
@[simp] theorem State.setPair_stopRequested (x : RegIx) (d : BitVec 48) : (s.setPair x d).stopRequested = s.stopRequested := rfl
@[simp] theorem State.setPair_obeyed (x : RegIx) (d : BitVec 48) : (s.setPair x d).obeyed = s.obeyed := rfl
@[simp] theorem State.setPair_turns (x : RegIx) (d : BitVec 48) : (s.setPair x d).turns = s.turns := rfl
@[simp] theorem State.setPair_draws (x : RegIx) (d : BitVec 48) : (s.setPair x d).draws = s.draws := rfl
@[simp] theorem State.setPair_ejm (x : RegIx) (d : BitVec 48) : (s.setPair x d).ejm = s.ejm := rfl
@[simp] theorem State.setPair_datum (x : RegIx) (d : BitVec 48) : (s.setPair x d).datum = s.datum := rfl
@[simp] theorem State.setPair_am22 (x : RegIx) (d : BitVec 48) : (s.setPair x d).am22 = s.am22 := rfl
@[simp] theorem State.setPair_trace (x : RegIx) (d : BitVec 48) : (s.setPair x d).trace = s.trace := rfl
@[simp] theorem State.setPair_zs (x : RegIx) (d : BitVec 48) : (s.setPair x d).zs = s.zs := rfl
@[simp] theorem State.setPair_amask (x : RegIx) (d : BitVec 48) : (s.setPair x d).amask = s.amask := rfl
@[simp] theorem State.setPair_maskAddr (x : RegIx) (d : BitVec 48) (a : Word) : (s.setPair x d).maskAddr a = s.maskAddr a := rfl
@[simp] theorem State.setPair_nextAddr (x : RegIx) (d : BitVec 48) (a : Addr) : (s.setPair x d).nextAddr a = s.nextAddr a := rfl
@[simp] theorem State.setPair_access (x : RegIx) (d : BitVec 48) (a : Addr) (o : Bool) : access (s.setPair x d) a o = access s a o := rfl
@[simp] theorem State.setPair_pending (x : RegIx) (d : BitVec 48) : (s.setPair x d).pending = s.pending := rfl
@[simp] theorem State.setPair_saveAreaInstalled (x : RegIx) (d : BitVec 48) : (s.setPair x d).saveAreaInstalled = s.saveAreaInstalled := rfl
@[simp] theorem State.setPair_branchTraced (x : RegIx) (d : BitVec 48) : (s.setPair x d).branchTraced = s.branchTraced := rfl

/-! ### `State.writeDoubleLength` -/

@[simp] theorem State.writeDoubleLength_cfg (x : RegIx) (p : Int) : (s.writeDoubleLength x p).cfg = s.cfg := rfl
@[simp] theorem State.writeDoubleLength_pc (x : RegIx) (p : Int) : (s.writeDoubleLength x p).pc = s.pc := rfl
@[simp] theorem State.writeDoubleLength_ia (x : RegIx) (p : Int) : (s.writeDoubleLength x p).ia = s.ia := rfl
@[simp] theorem State.writeDoubleLength_v (x : RegIx) (p : Int) : (s.writeDoubleLength x p).v = s.v := rfl
@[simp] theorem State.writeDoubleLength_c (x : RegIx) (p : Int) : (s.writeDoubleLength x p).c = s.c := rfl
@[simp] theorem State.writeDoubleLength_executive (x : RegIx) (p : Int) : (s.writeDoubleLength x p).executive = s.executive := rfl
@[simp] theorem State.writeDoubleLength_mode (x : RegIx) (p : Int) : (s.writeDoubleLength x p).mode = s.mode := rfl
@[simp] theorem State.writeDoubleLength_rd (x : RegIx) (p : Int) : (s.writeDoubleLength x p).rd = s.rd := rfl
@[simp] theorem State.writeDoubleLength_rl (x : RegIx) (p : Int) : (s.writeDoubleLength x p).rl = s.rl := rfl
@[simp] theorem State.writeDoubleLength_am (x : RegIx) (p : Int) : (s.writeDoubleLength x p).am = s.am := rfl
@[simp] theorem State.writeDoubleLength_ae (x : RegIx) (p : Int) : (s.writeDoubleLength x p).ae = s.ae := rfl
@[simp] theorem State.writeDoubleLength_fov (x : RegIx) (p : Int) : (s.writeDoubleLength x p).fov = s.fov := rfl
@[simp] theorem State.writeDoubleLength_sr64 (x : RegIx) (p : Int) : (s.writeDoubleLength x p).sr64 = s.sr64 := rfl
@[simp] theorem State.writeDoubleLength_sr65 (x : RegIx) (p : Int) : (s.writeDoubleLength x p).sr65 = s.sr65 := rfl
@[simp] theorem State.writeDoubleLength_pip (x : RegIx) (p : Int) : (s.writeDoubleLength x p).pip = s.pip := rfl
@[simp] theorem State.writeDoubleLength_pipVal (x : RegIx) (p : Int) : (s.writeDoubleLength x p).pipVal = s.pipVal := rfl
@[simp] theorem State.writeDoubleLength_loading (x : RegIx) (p : Int) : (s.writeDoubleLength x p).loading = s.loading := rfl
@[simp] theorem State.writeDoubleLength_stopped (x : RegIx) (p : Int) : (s.writeDoubleLength x p).stopped = s.stopped := rfl
@[simp] theorem State.writeDoubleLength_mem (x : RegIx) (p : Int) : (s.writeDoubleLength x p).mem = s.mem := rfl
@[simp] theorem State.writeDoubleLength_stopRequested (x : RegIx) (p : Int) : (s.writeDoubleLength x p).stopRequested = s.stopRequested := rfl
@[simp] theorem State.writeDoubleLength_obeyed (x : RegIx) (p : Int) : (s.writeDoubleLength x p).obeyed = s.obeyed := rfl
@[simp] theorem State.writeDoubleLength_turns (x : RegIx) (p : Int) : (s.writeDoubleLength x p).turns = s.turns := rfl
@[simp] theorem State.writeDoubleLength_draws (x : RegIx) (p : Int) : (s.writeDoubleLength x p).draws = s.draws := rfl
@[simp] theorem State.writeDoubleLength_ejm (x : RegIx) (p : Int) : (s.writeDoubleLength x p).ejm = s.ejm := rfl
@[simp] theorem State.writeDoubleLength_datum (x : RegIx) (p : Int) : (s.writeDoubleLength x p).datum = s.datum := rfl
@[simp] theorem State.writeDoubleLength_am22 (x : RegIx) (p : Int) : (s.writeDoubleLength x p).am22 = s.am22 := rfl
@[simp] theorem State.writeDoubleLength_trace (x : RegIx) (p : Int) : (s.writeDoubleLength x p).trace = s.trace := rfl
@[simp] theorem State.writeDoubleLength_zs (x : RegIx) (p : Int) : (s.writeDoubleLength x p).zs = s.zs := rfl
@[simp] theorem State.writeDoubleLength_amask (x : RegIx) (p : Int) : (s.writeDoubleLength x p).amask = s.amask := rfl
@[simp] theorem State.writeDoubleLength_maskAddr (x : RegIx) (p : Int) (a : Word) : (s.writeDoubleLength x p).maskAddr a = s.maskAddr a := rfl
@[simp] theorem State.writeDoubleLength_nextAddr (x : RegIx) (p : Int) (a : Addr) : (s.writeDoubleLength x p).nextAddr a = s.nextAddr a := rfl
@[simp] theorem State.writeDoubleLength_access (x : RegIx) (p : Int) (a : Addr) (o : Bool) : access (s.writeDoubleLength x p) a o = access s a o := rfl
@[simp] theorem State.writeDoubleLength_pending (x : RegIx) (p : Int) : (s.writeDoubleLength x p).pending = s.pending := rfl
@[simp] theorem State.writeDoubleLength_saveAreaInstalled (x : RegIx) (p : Int) : (s.writeDoubleLength x p).saveAreaInstalled = s.saveAreaInstalled := rfl
@[simp] theorem State.writeDoubleLength_branchTraced (x : RegIx) (p : Int) : (s.writeDoubleLength x p).branchTraced = s.branchTraced := rfl

/-! ### `State.save` -/

@[simp] theorem State.save_cfg : (s.save).cfg = s.cfg := rfl
@[simp] theorem State.save_regs : (s.save).regs = s.regs := rfl
@[simp] theorem State.save_pc : (s.save).pc = s.pc := rfl
@[simp] theorem State.save_ia : (s.save).ia = s.ia := rfl
@[simp] theorem State.save_v : (s.save).v = s.v := rfl
@[simp] theorem State.save_c : (s.save).c = s.c := rfl
@[simp] theorem State.save_executive : (s.save).executive = s.executive := rfl
@[simp] theorem State.save_mode : (s.save).mode = s.mode := rfl
@[simp] theorem State.save_rd : (s.save).rd = s.rd := rfl
@[simp] theorem State.save_rl : (s.save).rl = s.rl := rfl
@[simp] theorem State.save_am : (s.save).am = s.am := rfl
@[simp] theorem State.save_ae : (s.save).ae = s.ae := rfl
@[simp] theorem State.save_fov : (s.save).fov = s.fov := rfl
@[simp] theorem State.save_sr64 : (s.save).sr64 = s.sr64 := rfl
@[simp] theorem State.save_sr65 : (s.save).sr65 = s.sr65 := rfl
@[simp] theorem State.save_pip : (s.save).pip = s.pip := rfl
@[simp] theorem State.save_pipVal : (s.save).pipVal = s.pipVal := rfl
@[simp] theorem State.save_loading : (s.save).loading = s.loading := rfl
@[simp] theorem State.save_stopped : (s.save).stopped = s.stopped := rfl
@[simp] theorem State.save_stopRequested : (s.save).stopRequested = s.stopRequested := rfl
@[simp] theorem State.save_obeyed : (s.save).obeyed = s.obeyed := rfl
@[simp] theorem State.save_turns : (s.save).turns = s.turns := rfl
@[simp] theorem State.save_draws : (s.save).draws = s.draws := rfl
@[simp] theorem State.save_reg (i : RegIx) : (s.save).reg i = s.reg i := rfl
@[simp] theorem State.save_ejm : (s.save).ejm = s.ejm := rfl
@[simp] theorem State.save_datum : (s.save).datum = s.datum := rfl
@[simp] theorem State.save_am22 : (s.save).am22 = s.am22 := rfl
@[simp] theorem State.save_trace : (s.save).trace = s.trace := rfl
@[simp] theorem State.save_zs : (s.save).zs = s.zs := rfl
@[simp] theorem State.save_amask : (s.save).amask = s.amask := rfl
@[simp] theorem State.save_maskAddr (a : Word) : (s.save).maskAddr a = s.maskAddr a := rfl
@[simp] theorem State.save_nextAddr (a : Addr) : (s.save).nextAddr a = s.nextAddr a := rfl
@[simp] theorem State.save_access (a : Addr) (o : Bool) : access (s.save) a o = access s a o := rfl
@[simp] theorem State.save_pending : (s.save).pending = s.pending := rfl
@[simp] theorem State.save_saveAreaInstalled : (s.save).saveAreaInstalled = s.saveAreaInstalled := rfl
@[simp] theorem State.save_branchTraced : (s.save).branchTraced = s.branchTraced := rfl
@[simp] theorem State.save_doubleLength (k : RegIx) : (s.save).doubleLength k = s.doubleLength k := rfl
@[simp] theorem State.save_pair (k : RegIx) : (s.save).pair k = s.pair k := rfl

/-! ### `State.enterMode` -/

@[simp] theorem State.enterMode_cfg : (s.enterMode).cfg = s.cfg := rfl
@[simp] theorem State.enterMode_regs : (s.enterMode).regs = s.regs := rfl
@[simp] theorem State.enterMode_pc : (s.enterMode).pc = s.pc := rfl
@[simp] theorem State.enterMode_ia : (s.enterMode).ia = s.ia := rfl
@[simp] theorem State.enterMode_rd : (s.enterMode).rd = s.rd := rfl
@[simp] theorem State.enterMode_rl : (s.enterMode).rl = s.rl := rfl
@[simp] theorem State.enterMode_am : (s.enterMode).am = s.am := rfl
@[simp] theorem State.enterMode_ae : (s.enterMode).ae = s.ae := rfl
@[simp] theorem State.enterMode_loading : (s.enterMode).loading = s.loading := rfl
@[simp] theorem State.enterMode_stopped : (s.enterMode).stopped = s.stopped := rfl
@[simp] theorem State.enterMode_mem : (s.enterMode).mem = s.mem := rfl
@[simp] theorem State.enterMode_stopRequested : (s.enterMode).stopRequested = s.stopRequested := rfl
@[simp] theorem State.enterMode_obeyed : (s.enterMode).obeyed = s.obeyed := rfl
@[simp] theorem State.enterMode_turns : (s.enterMode).turns = s.turns := rfl
@[simp] theorem State.enterMode_draws : (s.enterMode).draws = s.draws := rfl
@[simp] theorem State.enterMode_reg (i : RegIx) : (s.enterMode).reg i = s.reg i := rfl
@[simp] theorem State.enterMode_saveAreaInstalled : (s.enterMode).saveAreaInstalled = s.saveAreaInstalled := rfl
@[simp] theorem State.enterMode_doubleLength (k : RegIx) : (s.enterMode).doubleLength k = s.doubleLength k := rfl
@[simp] theorem State.enterMode_pair (k : RegIx) : (s.enterMode).pair k = s.pair k := rfl

/-! ### `State.overflowEvent` -/

@[simp] theorem State.overflowEvent_cfg : (s.overflowEvent).cfg = s.cfg := by unfold State.overflowEvent; split <;> rfl
@[simp] theorem State.overflowEvent_regs : (s.overflowEvent).regs = s.regs := by unfold State.overflowEvent; split <;> rfl
@[simp] theorem State.overflowEvent_pc : (s.overflowEvent).pc = s.pc := by unfold State.overflowEvent; split <;> rfl
@[simp] theorem State.overflowEvent_ia : (s.overflowEvent).ia = s.ia := by unfold State.overflowEvent; split <;> rfl
@[simp] theorem State.overflowEvent_v : (s.overflowEvent).v = s.v := by unfold State.overflowEvent; split <;> rfl
@[simp] theorem State.overflowEvent_c : (s.overflowEvent).c = s.c := by unfold State.overflowEvent; split <;> rfl
@[simp] theorem State.overflowEvent_executive : (s.overflowEvent).executive = s.executive := by unfold State.overflowEvent; split <;> rfl
@[simp] theorem State.overflowEvent_mode : (s.overflowEvent).mode = s.mode := by unfold State.overflowEvent; split <;> rfl
@[simp] theorem State.overflowEvent_rd : (s.overflowEvent).rd = s.rd := by unfold State.overflowEvent; split <;> rfl
@[simp] theorem State.overflowEvent_rl : (s.overflowEvent).rl = s.rl := by unfold State.overflowEvent; split <;> rfl
@[simp] theorem State.overflowEvent_am : (s.overflowEvent).am = s.am := by unfold State.overflowEvent; split <;> rfl
@[simp] theorem State.overflowEvent_ae : (s.overflowEvent).ae = s.ae := by unfold State.overflowEvent; split <;> rfl
@[simp] theorem State.overflowEvent_fov : (s.overflowEvent).fov = s.fov := by unfold State.overflowEvent; split <;> rfl
@[simp] theorem State.overflowEvent_sr65 : (s.overflowEvent).sr65 = s.sr65 := by unfold State.overflowEvent; split <;> rfl
@[simp] theorem State.overflowEvent_pip : (s.overflowEvent).pip = s.pip := by unfold State.overflowEvent; split <;> rfl
@[simp] theorem State.overflowEvent_pipVal : (s.overflowEvent).pipVal = s.pipVal := by unfold State.overflowEvent; split <;> rfl
@[simp] theorem State.overflowEvent_loading : (s.overflowEvent).loading = s.loading := by unfold State.overflowEvent; split <;> rfl
@[simp] theorem State.overflowEvent_stopped : (s.overflowEvent).stopped = s.stopped := by unfold State.overflowEvent; split <;> rfl
@[simp] theorem State.overflowEvent_mem : (s.overflowEvent).mem = s.mem := by unfold State.overflowEvent; split <;> rfl
@[simp] theorem State.overflowEvent_stopRequested : (s.overflowEvent).stopRequested = s.stopRequested := by unfold State.overflowEvent; split <;> rfl
@[simp] theorem State.overflowEvent_obeyed : (s.overflowEvent).obeyed = s.obeyed := by unfold State.overflowEvent; split <;> rfl
@[simp] theorem State.overflowEvent_turns : (s.overflowEvent).turns = s.turns := by unfold State.overflowEvent; split <;> rfl
@[simp] theorem State.overflowEvent_draws : (s.overflowEvent).draws = s.draws := by unfold State.overflowEvent; split <;> rfl
@[simp] theorem State.overflowEvent_reg (i : RegIx) : (s.overflowEvent).reg i = s.reg i := by unfold State.overflowEvent; split <;> rfl
@[simp] theorem State.overflowEvent_ejm : (s.overflowEvent).ejm = s.ejm := by unfold State.overflowEvent; split <;> rfl
@[simp] theorem State.overflowEvent_datum : (s.overflowEvent).datum = s.datum := by unfold State.overflowEvent; split <;> rfl
@[simp] theorem State.overflowEvent_am22 : (s.overflowEvent).am22 = s.am22 := by unfold State.overflowEvent; split <;> rfl
@[simp] theorem State.overflowEvent_trace : (s.overflowEvent).trace = s.trace := by unfold State.overflowEvent; split <;> rfl
@[simp] theorem State.overflowEvent_zs : (s.overflowEvent).zs = s.zs := by unfold State.overflowEvent; split <;> rfl
@[simp] theorem State.overflowEvent_amask : (s.overflowEvent).amask = s.amask := by unfold State.overflowEvent; split <;> rfl
@[simp] theorem State.overflowEvent_maskAddr (a : Word) : (s.overflowEvent).maskAddr a = s.maskAddr a := by unfold State.overflowEvent; split <;> rfl
@[simp] theorem State.overflowEvent_nextAddr (a : Addr) : (s.overflowEvent).nextAddr a = s.nextAddr a := by unfold State.overflowEvent; split <;> rfl
@[simp] theorem State.overflowEvent_access (a : Addr) (o : Bool) : access (s.overflowEvent) a o = access s a o := by unfold State.overflowEvent; split <;> rfl
@[simp] theorem State.overflowEvent_memRead (a : Addr) (o : Bool) : memRead (s.overflowEvent) a o = memRead s a o := by unfold State.overflowEvent; split <;> rfl
@[simp] theorem State.overflowEvent_saveAreaInstalled : (s.overflowEvent).saveAreaInstalled = s.saveAreaInstalled := by unfold State.overflowEvent; split <;> rfl
@[simp] theorem State.overflowEvent_branchTraced : (s.overflowEvent).branchTraced = s.branchTraced := by unfold State.overflowEvent; split <;> rfl
@[simp] theorem State.overflowEvent_doubleLength (k : RegIx) : (s.overflowEvent).doubleLength k = s.doubleLength k := by unfold State.overflowEvent; split <;> rfl
@[simp] theorem State.overflowEvent_pair (k : RegIx) : (s.overflowEvent).pair k = s.pair k := by unfold State.overflowEvent; split <;> rfl

/-! ### `State.setV` -/

@[simp] theorem State.setV_cfg : (s.setV).cfg = s.cfg := by unfold State.setV State.overflowEvent; split <;> rfl
@[simp] theorem State.setV_regs : (s.setV).regs = s.regs := by unfold State.setV State.overflowEvent; split <;> rfl
@[simp] theorem State.setV_pc : (s.setV).pc = s.pc := by unfold State.setV State.overflowEvent; split <;> rfl
@[simp] theorem State.setV_ia : (s.setV).ia = s.ia := by unfold State.setV State.overflowEvent; split <;> rfl
@[simp] theorem State.setV_c : (s.setV).c = s.c := by unfold State.setV State.overflowEvent; split <;> rfl
@[simp] theorem State.setV_executive : (s.setV).executive = s.executive := by unfold State.setV State.overflowEvent; split <;> rfl
@[simp] theorem State.setV_mode : (s.setV).mode = s.mode := by unfold State.setV State.overflowEvent; split <;> rfl
@[simp] theorem State.setV_rd : (s.setV).rd = s.rd := by unfold State.setV State.overflowEvent; split <;> rfl
@[simp] theorem State.setV_rl : (s.setV).rl = s.rl := by unfold State.setV State.overflowEvent; split <;> rfl
@[simp] theorem State.setV_am : (s.setV).am = s.am := by unfold State.setV State.overflowEvent; split <;> rfl
@[simp] theorem State.setV_ae : (s.setV).ae = s.ae := by unfold State.setV State.overflowEvent; split <;> rfl
@[simp] theorem State.setV_fov : (s.setV).fov = s.fov := by unfold State.setV State.overflowEvent; split <;> rfl
@[simp] theorem State.setV_sr65 : (s.setV).sr65 = s.sr65 := by unfold State.setV State.overflowEvent; split <;> rfl
@[simp] theorem State.setV_pip : (s.setV).pip = s.pip := by unfold State.setV State.overflowEvent; split <;> rfl
@[simp] theorem State.setV_pipVal : (s.setV).pipVal = s.pipVal := by unfold State.setV State.overflowEvent; split <;> rfl
@[simp] theorem State.setV_loading : (s.setV).loading = s.loading := by unfold State.setV State.overflowEvent; split <;> rfl
@[simp] theorem State.setV_stopped : (s.setV).stopped = s.stopped := by unfold State.setV State.overflowEvent; split <;> rfl
@[simp] theorem State.setV_mem : (s.setV).mem = s.mem := by unfold State.setV State.overflowEvent; split <;> rfl
@[simp] theorem State.setV_stopRequested : (s.setV).stopRequested = s.stopRequested := by unfold State.setV State.overflowEvent; split <;> rfl
@[simp] theorem State.setV_obeyed : (s.setV).obeyed = s.obeyed := by unfold State.setV State.overflowEvent; split <;> rfl
@[simp] theorem State.setV_turns : (s.setV).turns = s.turns := by unfold State.setV State.overflowEvent; split <;> rfl
@[simp] theorem State.setV_draws : (s.setV).draws = s.draws := by unfold State.setV State.overflowEvent; split <;> rfl
@[simp] theorem State.setV_reg (i : RegIx) : (s.setV).reg i = s.reg i := by unfold State.setV State.overflowEvent; split <;> rfl
@[simp] theorem State.setV_ejm : (s.setV).ejm = s.ejm := by unfold State.setV State.overflowEvent; split <;> rfl
@[simp] theorem State.setV_datum : (s.setV).datum = s.datum := by unfold State.setV State.overflowEvent; split <;> rfl
@[simp] theorem State.setV_am22 : (s.setV).am22 = s.am22 := by unfold State.setV State.overflowEvent; split <;> rfl
@[simp] theorem State.setV_trace : (s.setV).trace = s.trace := by unfold State.setV State.overflowEvent; split <;> rfl
@[simp] theorem State.setV_zs : (s.setV).zs = s.zs := by unfold State.setV State.overflowEvent; split <;> rfl
@[simp] theorem State.setV_amask : (s.setV).amask = s.amask := by unfold State.setV State.overflowEvent; split <;> rfl
@[simp] theorem State.setV_maskAddr (a : Word) : (s.setV).maskAddr a = s.maskAddr a := by unfold State.setV State.overflowEvent; split <;> rfl
@[simp] theorem State.setV_nextAddr (a : Addr) : (s.setV).nextAddr a = s.nextAddr a := by unfold State.setV State.overflowEvent; split <;> rfl
@[simp] theorem State.setV_access (a : Addr) (o : Bool) : access (s.setV) a o = access s a o := by unfold State.setV State.overflowEvent; split <;> rfl
@[simp] theorem State.setV_memRead (a : Addr) (o : Bool) : memRead (s.setV) a o = memRead s a o := by unfold State.setV State.overflowEvent; split <;> rfl
@[simp] theorem State.setV_saveAreaInstalled : (s.setV).saveAreaInstalled = s.saveAreaInstalled := by unfold State.setV State.overflowEvent; split <;> rfl
@[simp] theorem State.setV_branchTraced : (s.setV).branchTraced = s.branchTraced := by unfold State.setV State.overflowEvent; split <;> rfl
@[simp] theorem State.setV_doubleLength (k : RegIx) : (s.setV).doubleLength k = s.doubleLength k := by unfold State.setV State.overflowEvent; split <;> rfl
@[simp] theorem State.setV_pair (k : RegIx) : (s.setV).pair k = s.pair k := by unfold State.setV State.overflowEvent; split <;> rfl

/-! ### `State.setVIf` -/

@[simp] theorem State.setVIf_cfg (b : Bool) : (s.setVIf b).cfg = s.cfg := by unfold State.setVIf; split <;> simp
@[simp] theorem State.setVIf_regs (b : Bool) : (s.setVIf b).regs = s.regs := by unfold State.setVIf; split <;> simp
@[simp] theorem State.setVIf_pc (b : Bool) : (s.setVIf b).pc = s.pc := by unfold State.setVIf; split <;> simp
@[simp] theorem State.setVIf_ia (b : Bool) : (s.setVIf b).ia = s.ia := by unfold State.setVIf; split <;> simp
@[simp] theorem State.setVIf_c (b : Bool) : (s.setVIf b).c = s.c := by unfold State.setVIf; split <;> simp
@[simp] theorem State.setVIf_executive (b : Bool) : (s.setVIf b).executive = s.executive := by unfold State.setVIf; split <;> simp
@[simp] theorem State.setVIf_mode (b : Bool) : (s.setVIf b).mode = s.mode := by unfold State.setVIf; split <;> simp
@[simp] theorem State.setVIf_rd (b : Bool) : (s.setVIf b).rd = s.rd := by unfold State.setVIf; split <;> simp
@[simp] theorem State.setVIf_rl (b : Bool) : (s.setVIf b).rl = s.rl := by unfold State.setVIf; split <;> simp
@[simp] theorem State.setVIf_am (b : Bool) : (s.setVIf b).am = s.am := by unfold State.setVIf; split <;> simp
@[simp] theorem State.setVIf_ae (b : Bool) : (s.setVIf b).ae = s.ae := by unfold State.setVIf; split <;> simp
@[simp] theorem State.setVIf_fov (b : Bool) : (s.setVIf b).fov = s.fov := by unfold State.setVIf; split <;> simp
@[simp] theorem State.setVIf_sr65 (b : Bool) : (s.setVIf b).sr65 = s.sr65 := by unfold State.setVIf; split <;> simp
@[simp] theorem State.setVIf_pip (b : Bool) : (s.setVIf b).pip = s.pip := by unfold State.setVIf; split <;> simp
@[simp] theorem State.setVIf_pipVal (b : Bool) : (s.setVIf b).pipVal = s.pipVal := by unfold State.setVIf; split <;> simp
@[simp] theorem State.setVIf_loading (b : Bool) : (s.setVIf b).loading = s.loading := by unfold State.setVIf; split <;> simp
@[simp] theorem State.setVIf_stopped (b : Bool) : (s.setVIf b).stopped = s.stopped := by unfold State.setVIf; split <;> simp
@[simp] theorem State.setVIf_mem (b : Bool) : (s.setVIf b).mem = s.mem := by unfold State.setVIf; split <;> simp
@[simp] theorem State.setVIf_stopRequested (b : Bool) : (s.setVIf b).stopRequested = s.stopRequested := by unfold State.setVIf; split <;> simp
@[simp] theorem State.setVIf_obeyed (b : Bool) : (s.setVIf b).obeyed = s.obeyed := by unfold State.setVIf; split <;> simp
@[simp] theorem State.setVIf_turns (b : Bool) : (s.setVIf b).turns = s.turns := by unfold State.setVIf; split <;> simp
@[simp] theorem State.setVIf_draws (b : Bool) : (s.setVIf b).draws = s.draws := by unfold State.setVIf; split <;> simp
@[simp] theorem State.setVIf_reg (b : Bool) (i : RegIx) : (s.setVIf b).reg i = s.reg i := by unfold State.setVIf; split <;> simp
@[simp] theorem State.setVIf_ejm (b : Bool) : (s.setVIf b).ejm = s.ejm := by unfold State.setVIf; split <;> simp
@[simp] theorem State.setVIf_datum (b : Bool) : (s.setVIf b).datum = s.datum := by unfold State.setVIf; split <;> simp
@[simp] theorem State.setVIf_am22 (b : Bool) : (s.setVIf b).am22 = s.am22 := by unfold State.setVIf; split <;> simp
@[simp] theorem State.setVIf_trace (b : Bool) : (s.setVIf b).trace = s.trace := by unfold State.setVIf; split <;> simp
@[simp] theorem State.setVIf_zs (b : Bool) : (s.setVIf b).zs = s.zs := by unfold State.setVIf; split <;> simp
@[simp] theorem State.setVIf_amask (b : Bool) : (s.setVIf b).amask = s.amask := by unfold State.setVIf; split <;> simp
@[simp] theorem State.setVIf_maskAddr (b : Bool) (a : Word) : (s.setVIf b).maskAddr a = s.maskAddr a := by unfold State.setVIf; split <;> simp
@[simp] theorem State.setVIf_nextAddr (b : Bool) (a : Addr) : (s.setVIf b).nextAddr a = s.nextAddr a := by unfold State.setVIf; split <;> simp
@[simp] theorem State.setVIf_access (b : Bool) (a : Addr) (o : Bool) : access (s.setVIf b) a o = access s a o := by unfold State.setVIf; split <;> simp
@[simp] theorem State.setVIf_memRead (b : Bool) (a : Addr) (o : Bool) : memRead (s.setVIf b) a o = memRead s a o := by unfold State.setVIf; split <;> simp
@[simp] theorem State.setVIf_saveAreaInstalled (b : Bool) : (s.setVIf b).saveAreaInstalled = s.saveAreaInstalled := by unfold State.setVIf; split <;> simp
@[simp] theorem State.setVIf_branchTraced (b : Bool) : (s.setVIf b).branchTraced = s.branchTraced := by unfold State.setVIf; split <;> simp
@[simp] theorem State.setVIf_doubleLength (b : Bool) (k : RegIx) : (s.setVIf b).doubleLength k = s.doubleLength k := by unfold State.setVIf; split <;> simp
@[simp] theorem State.setVIf_pair (b : Bool) (k : RegIx) : (s.setVIf b).pair k = s.pair k := by unfold State.setVIf; split <;> simp

/-! ### `State.adderFlags` -/

@[simp] theorem State.adderFlags_cfg (r : Sum) : (s.adderFlags r).cfg = s.cfg := by unfold State.adderFlags; simp
@[simp] theorem State.adderFlags_regs (r : Sum) : (s.adderFlags r).regs = s.regs := by unfold State.adderFlags; simp
@[simp] theorem State.adderFlags_pc (r : Sum) : (s.adderFlags r).pc = s.pc := by unfold State.adderFlags; simp
@[simp] theorem State.adderFlags_ia (r : Sum) : (s.adderFlags r).ia = s.ia := by unfold State.adderFlags; simp
@[simp] theorem State.adderFlags_executive (r : Sum) : (s.adderFlags r).executive = s.executive := by unfold State.adderFlags; simp
@[simp] theorem State.adderFlags_mode (r : Sum) : (s.adderFlags r).mode = s.mode := by unfold State.adderFlags; simp
@[simp] theorem State.adderFlags_rd (r : Sum) : (s.adderFlags r).rd = s.rd := by unfold State.adderFlags; simp
@[simp] theorem State.adderFlags_rl (r : Sum) : (s.adderFlags r).rl = s.rl := by unfold State.adderFlags; simp
@[simp] theorem State.adderFlags_am (r : Sum) : (s.adderFlags r).am = s.am := by unfold State.adderFlags; simp
@[simp] theorem State.adderFlags_ae (r : Sum) : (s.adderFlags r).ae = s.ae := by unfold State.adderFlags; simp
@[simp] theorem State.adderFlags_fov (r : Sum) : (s.adderFlags r).fov = s.fov := by unfold State.adderFlags; simp
@[simp] theorem State.adderFlags_sr65 (r : Sum) : (s.adderFlags r).sr65 = s.sr65 := by unfold State.adderFlags; simp
@[simp] theorem State.adderFlags_pip (r : Sum) : (s.adderFlags r).pip = s.pip := by unfold State.adderFlags; simp
@[simp] theorem State.adderFlags_pipVal (r : Sum) : (s.adderFlags r).pipVal = s.pipVal := by unfold State.adderFlags; simp
@[simp] theorem State.adderFlags_loading (r : Sum) : (s.adderFlags r).loading = s.loading := by unfold State.adderFlags; simp
@[simp] theorem State.adderFlags_stopped (r : Sum) : (s.adderFlags r).stopped = s.stopped := by unfold State.adderFlags; simp
@[simp] theorem State.adderFlags_mem (r : Sum) : (s.adderFlags r).mem = s.mem := by unfold State.adderFlags; simp
@[simp] theorem State.adderFlags_stopRequested (r : Sum) : (s.adderFlags r).stopRequested = s.stopRequested := by unfold State.adderFlags; simp
@[simp] theorem State.adderFlags_obeyed (r : Sum) : (s.adderFlags r).obeyed = s.obeyed := by unfold State.adderFlags; simp
@[simp] theorem State.adderFlags_turns (r : Sum) : (s.adderFlags r).turns = s.turns := by unfold State.adderFlags; simp
@[simp] theorem State.adderFlags_draws (r : Sum) : (s.adderFlags r).draws = s.draws := by unfold State.adderFlags; simp
@[simp] theorem State.adderFlags_reg (r : Sum) (i : RegIx) : (s.adderFlags r).reg i = s.reg i := by unfold State.adderFlags; simp
@[simp] theorem State.adderFlags_ejm (r : Sum) : (s.adderFlags r).ejm = s.ejm := by unfold State.adderFlags; simp
@[simp] theorem State.adderFlags_datum (r : Sum) : (s.adderFlags r).datum = s.datum := by unfold State.adderFlags; simp
@[simp] theorem State.adderFlags_am22 (r : Sum) : (s.adderFlags r).am22 = s.am22 := by unfold State.adderFlags; simp
@[simp] theorem State.adderFlags_trace (r : Sum) : (s.adderFlags r).trace = s.trace := by unfold State.adderFlags; simp
@[simp] theorem State.adderFlags_zs (r : Sum) : (s.adderFlags r).zs = s.zs := by unfold State.adderFlags; simp
@[simp] theorem State.adderFlags_amask (r : Sum) : (s.adderFlags r).amask = s.amask := by unfold State.adderFlags; simp
@[simp] theorem State.adderFlags_maskAddr (r : Sum) (a : Word) : (s.adderFlags r).maskAddr a = s.maskAddr a := by unfold State.adderFlags; simp
@[simp] theorem State.adderFlags_nextAddr (r : Sum) (a : Addr) : (s.adderFlags r).nextAddr a = s.nextAddr a := by unfold State.adderFlags; simp
@[simp] theorem State.adderFlags_access (r : Sum) (a : Addr) (o : Bool) : access (s.adderFlags r) a o = access s a o := by unfold State.adderFlags; simp
@[simp] theorem State.adderFlags_memRead (r : Sum) (a : Addr) (o : Bool) : memRead (s.adderFlags r) a o = memRead s a o := by unfold State.adderFlags; simp
@[simp] theorem State.adderFlags_saveAreaInstalled (r : Sum) : (s.adderFlags r).saveAreaInstalled = s.saveAreaInstalled := by unfold State.adderFlags; simp
@[simp] theorem State.adderFlags_branchTraced (r : Sum) : (s.adderFlags r).branchTraced = s.branchTraced := by unfold State.adderFlags; simp
@[simp] theorem State.adderFlags_doubleLength (r : Sum) (k : RegIx) : (s.adderFlags r).doubleLength k = s.doubleLength k := by unfold State.adderFlags; simp
@[simp] theorem State.adderFlags_pair (r : Sum) (k : RegIx) : (s.adderFlags r).pair k = s.pair k := by unfold State.adderFlags; simp

/-! ### `State.adderToReg` -/

@[simp] theorem State.adderToReg_cfg (x : RegIx) (r : Sum) : (s.adderToReg x r).cfg = s.cfg := by unfold State.adderToReg; simp
@[simp] theorem State.adderToReg_pc (x : RegIx) (r : Sum) : (s.adderToReg x r).pc = s.pc := by unfold State.adderToReg; simp
@[simp] theorem State.adderToReg_ia (x : RegIx) (r : Sum) : (s.adderToReg x r).ia = s.ia := by unfold State.adderToReg; simp
@[simp] theorem State.adderToReg_executive (x : RegIx) (r : Sum) : (s.adderToReg x r).executive = s.executive := by unfold State.adderToReg; simp
@[simp] theorem State.adderToReg_mode (x : RegIx) (r : Sum) : (s.adderToReg x r).mode = s.mode := by unfold State.adderToReg; simp
@[simp] theorem State.adderToReg_rd (x : RegIx) (r : Sum) : (s.adderToReg x r).rd = s.rd := by unfold State.adderToReg; simp
@[simp] theorem State.adderToReg_rl (x : RegIx) (r : Sum) : (s.adderToReg x r).rl = s.rl := by unfold State.adderToReg; simp
@[simp] theorem State.adderToReg_am (x : RegIx) (r : Sum) : (s.adderToReg x r).am = s.am := by unfold State.adderToReg; simp
@[simp] theorem State.adderToReg_ae (x : RegIx) (r : Sum) : (s.adderToReg x r).ae = s.ae := by unfold State.adderToReg; simp
@[simp] theorem State.adderToReg_fov (x : RegIx) (r : Sum) : (s.adderToReg x r).fov = s.fov := by unfold State.adderToReg; simp
@[simp] theorem State.adderToReg_sr65 (x : RegIx) (r : Sum) : (s.adderToReg x r).sr65 = s.sr65 := by unfold State.adderToReg; simp
@[simp] theorem State.adderToReg_pip (x : RegIx) (r : Sum) : (s.adderToReg x r).pip = s.pip := by unfold State.adderToReg; simp
@[simp] theorem State.adderToReg_pipVal (x : RegIx) (r : Sum) : (s.adderToReg x r).pipVal = s.pipVal := by unfold State.adderToReg; simp
@[simp] theorem State.adderToReg_loading (x : RegIx) (r : Sum) : (s.adderToReg x r).loading = s.loading := by unfold State.adderToReg; simp
@[simp] theorem State.adderToReg_stopped (x : RegIx) (r : Sum) : (s.adderToReg x r).stopped = s.stopped := by unfold State.adderToReg; simp
@[simp] theorem State.adderToReg_mem (x : RegIx) (r : Sum) : (s.adderToReg x r).mem = s.mem := by unfold State.adderToReg; simp
@[simp] theorem State.adderToReg_stopRequested (x : RegIx) (r : Sum) : (s.adderToReg x r).stopRequested = s.stopRequested := by unfold State.adderToReg; simp
@[simp] theorem State.adderToReg_obeyed (x : RegIx) (r : Sum) : (s.adderToReg x r).obeyed = s.obeyed := by unfold State.adderToReg; simp
@[simp] theorem State.adderToReg_turns (x : RegIx) (r : Sum) : (s.adderToReg x r).turns = s.turns := by unfold State.adderToReg; simp
@[simp] theorem State.adderToReg_draws (x : RegIx) (r : Sum) : (s.adderToReg x r).draws = s.draws := by unfold State.adderToReg; simp
@[simp] theorem State.adderToReg_ejm (x : RegIx) (r : Sum) : (s.adderToReg x r).ejm = s.ejm := by unfold State.adderToReg; simp
@[simp] theorem State.adderToReg_datum (x : RegIx) (r : Sum) : (s.adderToReg x r).datum = s.datum := by unfold State.adderToReg; simp
@[simp] theorem State.adderToReg_am22 (x : RegIx) (r : Sum) : (s.adderToReg x r).am22 = s.am22 := by unfold State.adderToReg; simp
@[simp] theorem State.adderToReg_trace (x : RegIx) (r : Sum) : (s.adderToReg x r).trace = s.trace := by unfold State.adderToReg; simp
@[simp] theorem State.adderToReg_zs (x : RegIx) (r : Sum) : (s.adderToReg x r).zs = s.zs := by unfold State.adderToReg; simp
@[simp] theorem State.adderToReg_amask (x : RegIx) (r : Sum) : (s.adderToReg x r).amask = s.amask := by unfold State.adderToReg; simp
@[simp] theorem State.adderToReg_maskAddr (x : RegIx) (r : Sum) (a : Word) : (s.adderToReg x r).maskAddr a = s.maskAddr a := by unfold State.adderToReg; simp
@[simp] theorem State.adderToReg_nextAddr (x : RegIx) (r : Sum) (a : Addr) : (s.adderToReg x r).nextAddr a = s.nextAddr a := by unfold State.adderToReg; simp
@[simp] theorem State.adderToReg_access (x : RegIx) (r : Sum) (a : Addr) (o : Bool) : access (s.adderToReg x r) a o = access s a o := by unfold State.adderToReg; simp
@[simp] theorem State.adderToReg_saveAreaInstalled (x : RegIx) (r : Sum) : (s.adderToReg x r).saveAreaInstalled = s.saveAreaInstalled := by unfold State.adderToReg; simp
@[simp] theorem State.adderToReg_branchTraced (x : RegIx) (r : Sum) : (s.adderToReg x r).branchTraced = s.branchTraced := by unfold State.adderToReg; simp

/-! ### What the updates write -/

@[simp] theorem State.setC_c (b : Bool) : (s.setC b).c = b := rfl
@[simp] theorem State.consumePip_pip : s.consumePip.pip = false := rfl
@[simp] theorem State.advance_pip : s.advance.pip = false := rfl
@[simp] theorem State.advance_pc : s.advance.pc = s.nextAddr s.ia := rfl
@[simp] theorem State.setAcc_am (m : Mantissa) (e : Exponent) : (s.setAcc m e).am = m := rfl
@[simp] theorem State.setAcc_ae (m : Mantissa) (e : Exponent) : (s.setAcc m e).ae = e := rfl
@[simp] theorem State.raiseFov_fov (b : Bool) : (s.raiseFov b).fov = (s.fov || b) := rfl
@[simp] theorem State.flagViolation_sr64 : s.flagViolation.sr64 = s.sr64 ||| bitWord s.cfg.sr64MemViol := rfl
@[simp] theorem State.writePhysical_mem (p : Nat) (w : Word) : (s.writePhysical p w).mem = s.mem.write p w := rfl
@[simp] theorem State.enterMode_v : s.enterMode.v = false := rfl
@[simp] theorem State.enterMode_c : s.enterMode.c = false := rfl
@[simp] theorem State.enterMode_fov : s.enterMode.fov = false := rfl
@[simp] theorem State.enterMode_mode : s.enterMode.mode = 0 := rfl
@[simp] theorem State.enterMode_pip : s.enterMode.pip = false := rfl
@[simp] theorem State.enterMode_pipVal : s.enterMode.pipVal = 0 := rfl
@[simp] theorem State.enterMode_sr64 : s.enterMode.sr64 = 0 := rfl
@[simp] theorem State.enterMode_sr65 : s.enterMode.sr65 = 0 := rfl
@[simp] theorem State.enterMode_executive : s.enterMode.executive = true := rfl
@[simp] theorem State.overflowEvent_sr64 : s.overflowEvent.sr64 =
    if s.cfg.ovfTrapEnabled && !s.executive then s.sr64 ||| bitWord s.cfg.sr64OvfTrap else s.sr64 := by
  unfold State.overflowEvent; split <;> rfl
@[simp] theorem State.setV_v : s.setV.v = true := by unfold State.setV; simp
@[simp] theorem State.setVIf_v (b : Bool) : (s.setVIf b).v = (s.v || b) := by
  unfold State.setVIf; cases b <;> simp
@[simp] theorem State.setV_sr64 : s.setV.sr64 =
    if s.cfg.ovfTrapEnabled && !s.executive then s.sr64 ||| bitWord s.cfg.sr64OvfTrap else s.sr64 := by
  unfold State.setV; simp
@[simp] theorem State.setVIf_sr64 (b : Bool) : (s.setVIf b).sr64 =
    if b && (s.cfg.ovfTrapEnabled && !s.executive) then s.sr64 ||| bitWord s.cfg.sr64OvfTrap else s.sr64 := by
  unfold State.setVIf; cases b <;> simp
@[simp] theorem State.adderFlags_c (r : Sum) : (s.adderFlags r).c = r.carry := by unfold State.adderFlags; simp
@[simp] theorem State.adderFlags_v (r : Sum) : (s.adderFlags r).v = (s.v || r.overflow) := by
  unfold State.adderFlags; simp
@[simp] theorem State.adderToReg_c (x : RegIx) (r : Sum) : (s.adderToReg x r).c = r.carry := by
  unfold State.adderToReg; simp
@[simp] theorem State.adderToReg_v (x : RegIx) (r : Sum) : (s.adderToReg x r).v = (s.v || r.overflow) := by
  unfold State.adderToReg; simp

/-! ### Registers -/

/-- Reading a register after writing one (10_state.md R20). -/
theorem State.reg_setReg (i j : RegIx) (w : Word) : (s.setReg i w).reg j = if j = i then w else s.reg j := by
  unfold State.reg State.setReg
  simp only [Vector.getElem_set]
  by_cases h : j = i
  · simp [h]
  · have : i.toNat ≠ j.toNat := fun e => h (BitVec.eq_of_toNat_eq e.symm)
    simp [h, this]

@[simp] theorem State.reg_setReg_same (i : RegIx) (w : Word) : (s.setReg i w).reg i = w := by
  simp [State.reg_setReg]

/-- Two states with the same registers read the same. -/
theorem State.regs_ext {u v : Vector Word 8} (h : ∀ i : RegIx, u[i.toNat]'(i.isLt) = v[i.toNat]'(i.isLt)) : u = v := by
  apply Vector.ext
  intro k hk
  have := h (BitVec.ofNat 3 k)
  simpa [Nat.mod_eq_of_lt hk] using this

/-! ### ZS alone -/

@[simp] theorem State.setZs_zs (b : Bool) : (s.setZs b).zs = b := by
  unfold State.setZs State.zs; rw [BitVec.getLsbD_append]; simp
@[simp] theorem State.setZs_ejm (b : Bool) : (s.setZs b).ejm = s.ejm := by
  unfold State.setZs State.ejm; rw [BitVec.getLsbD_append]; simp
@[simp] theorem State.setZs_datum (b : Bool) : (s.setZs b).datum = s.datum := by
  unfold State.setZs State.datum; rw [BitVec.getLsbD_append]; simp
@[simp] theorem State.setZs_am22 (b : Bool) : (s.setZs b).am22 = s.am22 := by
  unfold State.setZs State.am22; rw [BitVec.getLsbD_append]; simp
@[simp] theorem State.setZs_trace (b : Bool) : (s.setZs b).trace = s.trace := by
  unfold State.setZs State.trace; rw [BitVec.getLsbD_append]; simp
@[simp] theorem State.setZs_amask (b : Bool) : (s.setZs b).amask = s.amask := by
  unfold State.amask; simp

end Sys2Proof.Machine
end

