-- ==== Sys2Proof/Laws/Operations.lean ====
section
/-! SUPPORT. What each shared operation can do, said once: the access an instruction makes, the operand forms, the guards
and the transfers. -/

namespace Sys2Proof.Machine

variable {s t : State} {m : ModIx} {n : BitVec 12} {x : RegIx}

/-! ### Accesses -/

/-- A write goes where the access goes, or violates. -/
theorem memWrite_eq (s : State) (a : Addr) (v : Word) (o : Bool) : memWrite s a v o =
    match access s a o with
    | .reg i => some (s.setReg i v)
    | .mem p => some (s.writePhysical p v)
    | .violation => none := rfl

/-- A read answers the register or the word where the access goes, or violates. -/
theorem memRead_eq (s : State) (a : Addr) (o : Bool) : memRead s a o =
    match access s a o with
    | .reg i => some (s.reg i)
    | .mem p => some (s.mem.read p)
    | .violation => none := rfl

/-- A read violates where the access does. -/
theorem memRead_eq_none {a : Addr} {o : Bool} : memRead s a o = none ↔ access s a o = .violation := by
  rw [memRead_eq]; cases access s a o <;> simp

/-- A write violates where a read does. -/
theorem memWrite_eq_none {a : Addr} {v : Word} {o : Bool} : memWrite s a v o = none ↔ memRead s a o = none := by
  rw [memRead_eq_none, memWrite_eq]; cases access s a o <;> simp

/-- A read answers where the access does not violate. -/
theorem memRead_isSome {a : Addr} {o : Bool} : (memRead s a o).isSome = true ↔ access s a o ≠ .violation := by
  rw [memRead_eq]; cases access s a o <;> simp

/-- What a write can do: one register, or one word of memory. -/
theorem memWrite_cases {a : Addr} {v : Word} {o : Bool} (h : memWrite s a v o = some t) :
    (∃ i, access s a o = .reg i ∧ t = s.setReg i v) ∨ (∃ p, access s a o = .mem p ∧ t = s.writePhysical p v) := by
  rw [memWrite_eq] at h
  cases hx : access s a o with
  | reg i => rw [hx] at h; exact .inl ⟨i, rfl, by simpa using h.symm⟩
  | mem p => rw [hx] at h; exact .inr ⟨p, rfl, by simpa using h.symm⟩
  | violation => rw [hx] at h; simp at h

/-- A write of memory reaches an installed word. -/
theorem access_mem_lt {a : Addr} {o : Bool} {p : Nat} (h : access s a o = .mem p) : p < s.cfg.memSize := by
  unfold access at h
  split at h
  · simp at h
  · split at h
    · rename_i q hq
      simp only [Target.mem.injEq] at h
      subst h
      unfold physical at hq
      simp only at hq
      split at hq
      · simp at hq
      · split at hq
        · simp only [Option.some.injEq] at hq; subst hq; assumption
        · simp at hq
    · simp at h

/-- An access depends on the mode, the datum and limit and the configuration alone. -/
theorem access_congr {s t : State} (hc : t.cfg = s.cfg) (he : t.executive = s.executive) (hd : t.datum = s.datum)
    (hw : t.am22 = s.am22) (hr : t.rd = s.rd) (hl : t.rl = s.rl) (a : Addr) (o : Bool) : access t a o = access s a o := by
  unfold access inWindow physical outsideLimits relocate State.width
  rw [hc, he, hd, hw, hr, hl]

/-- A write through the unit, where the word can be read: it succeeds, stores the word and leaves every other register, word
and piece of state. -/
theorem memWrite_stores {ea : Addr} (hwf : s.mem.wf) (hr : (memRead s ea true).isSome = true) (v : Word) :
    ∃ t, memWrite s ea v true = some t ∧ Stores s t ea v ∧ { t with regs := s.regs, mem := s.mem } = s ∧ t.mem.wf := by
  rw [memRead_isSome] at hr
  rw [memWrite_eq]
  cases hx : access s ea true with
  | reg i =>
    refine ⟨_, rfl, ⟨?_, ?_, ?_⟩, rfl, hwf⟩
    · rw [memRead_eq, State.setReg_access, hx]; simp
    · intro j hj
      have : j ≠ i := fun e => hj (by rw [hx, e])
      simp [State.reg_setReg, this]
    · intro p _; rfl
  | mem p =>
    refine ⟨_, rfl, ⟨?_, ?_, ?_⟩, rfl, Memory.wf_write _ _ _ hwf⟩
    · rw [memRead_eq, State.writePhysical_access, hx]
      simp [Memory.read_write_same hwf]
    · intro j _; rfl
    · intro q hq
      have : q ≠ p := fun e => hq (by rw [hx, e])
      exact Memory.read_write_other hwf this v
  | violation => exact absurd hx hr

/-! ### Operand forms -/

/-- Reading the operand in the advanced state is reading it. -/
theorem withWord_eq (k : State → Word → Result) : withWord m n s k =
    match memRead s (s.operandAddress m n) true with
    | none => abort s.advance
    | some w => k s.advance w := rfl

/-- An order that reads a readable word. -/
theorem withWord_some {w : Word} (h : memRead s (s.operandAddress m n) true = some w) (k : State → Word → Result) :
    withWord m n s k = k s.advance w := by rw [withWord_eq, h]

/-- An order whose read violates. -/
theorem withWord_none (h : memRead s (s.operandAddress m n) true = none) (k : State → Word → Result) :
    withWord m n s k = abort s.advance := by rw [withWord_eq, h]

/-- What an order that reads a word can come to. -/
theorem withWord_next {k : State → Word → Result} (h : withWord m n s k = .next t) :
    (∃ w, memRead s (s.operandAddress m n) true = some w ∧ k s.advance w = .next t) ∨
    (memRead s (s.operandAddress m n) true = none ∧ abort s.advance = .next t) := by
  rw [withWord_eq] at h
  cases hr : memRead s (s.operandAddress m n) true with
  | none => rw [hr] at h; exact .inr ⟨rfl, h⟩
  | some w => rw [hr] at h; exact .inl ⟨w, rfl, h⟩

/-- What an abort can come to: in user mode, the violation bit. -/
theorem abort_next (h : abort s = .next t) : s.executive = false ∧ t = s.flagViolation := by
  unfold abort at h
  cases he : s.executive <;> simp [he] at h
  exact ⟨rfl, h.symm⟩

/-- What storing and going on can come to. -/
theorem storeThen_next {ea : Addr} {v : Word} {k : State → Result} (h : storeThen ea v s k = .next t) :
    (∃ u, memWrite s ea v true = some u ∧ k u = .next t) ∨ (memWrite s ea v true = none ∧ abort s = .next t) := by
  unfold storeThen State.writeOperand at h
  cases hw : memWrite s ea v true with
  | none => rw [hw] at h; exact .inr ⟨rfl, h⟩
  | some u => rw [hw] at h; exact .inl ⟨u, rfl, h⟩

/-- A word stored where it can be. -/
theorem storeThen_some {ea : Addr} {v : Word} {u : State} (h : memWrite s ea v true = some u) (k : State → Result) :
    storeThen ea v s k = k u := by unfold storeThen State.writeOperand; rw [h]

/-- A store that violates. -/
theorem storeThen_none {ea : Addr} {v : Word} (h : memRead s ea true = none) (k : State → Result) :
    storeThen ea v s k = abort s := by
  unfold storeThen State.writeOperand; rw [memWrite_eq_none.mpr h]

/-- A storing order, where its word can be read: it completes, having stored the value. -/
theorem storeWord_stores (hwf : s.mem.wf) (hr : (memRead s (s.operandAddress m n) true).isSome = true)
    (value : State → Word) (finish : State → State) :
    ∃ u, storeWord m n s value finish = .next (finish u) ∧ Stores s u (s.operandAddress m n) (value s.advance) ∧
      { u with regs := s.regs, mem := s.mem } = s.advance ∧ u.mem.wf := by
  obtain ⟨u, hu, hs, hf, hm⟩ := memWrite_stores (s := s.advance) (ea := s.operandAddress m n) hwf hr (value s.advance)
  exact ⟨u, storeThen_some hu _, hs, hf, hm⟩

/-- A read-and-store order, where its word can be read: it completes, having stored the value. -/
theorem updateWord_stores (hwf : s.mem.wf) {w : Word} (hr : memRead s (s.operandAddress m n) true = some w)
    (value : State → Word → Word) (finish : State → Word → State → State) :
    ∃ u, updateWord m n s value finish = .next (finish s.advance w u) ∧
      Stores s u (s.operandAddress m n) (value s.advance w) ∧
      { u with regs := s.regs, mem := s.mem } = s.advance ∧ u.mem.wf := by
  obtain ⟨u, hu, hs, hf, hm⟩ := memWrite_stores (s := s.advance) (ea := s.operandAddress m n) hwf
    (by rw [State.advance_memRead, hr]; rfl) (value s.advance w)
  refine ⟨u, ?_, hs, hf, hm⟩
  unfold updateWord
  rw [withWord_some hr, storeThen_some hu]

/-- An order that reads a readable pair of words. -/
theorem withPair_some {w0 w1 : Word} (h0 : memRead s (s.operandAddress m n) true = some w0)
    (h1 : memRead s (s.nextAddr (s.operandAddress m n)) true = some w1) (k : State → Word → Word → Result) :
    withPair m n s k = k s.advance w0 w1 := by
  unfold withPair
  rw [withWord_some h0]
  simp only [State.readOperand, State.advance_memRead, State.advance_nextAddr, h1]

/-- What an order that reads a pair of words can come to. -/
theorem withPair_next {k : State → Word → Word → Result} (h : withPair m n s k = .next t) :
    (∃ w0 w1, memRead s (s.operandAddress m n) true = some w0 ∧
      memRead s (s.nextAddr (s.operandAddress m n)) true = some w1 ∧ k s.advance w0 w1 = .next t) ∨
    abort s.advance = .next t := by
  unfold withPair at h
  rcases withWord_next h with ⟨w0, h0, h⟩ | ⟨_, h⟩
  · simp only [State.readOperand, State.advance_memRead, State.advance_nextAddr] at h
    cases h1 : memRead s (s.nextAddr (s.operandAddress m n)) true with
    | none => rw [h1] at h; exact .inr h
    | some w1 => rw [h1] at h; exact .inl ⟨w0, w1, h0, rfl, h⟩
  · exact .inr h

/-! ### Guards and transfers -/

/-- An order of a present option. -/
theorem withOption_present {p : Bool} (hp : p = true) (k : Result) : withOption p s k = k := by simp [withOption, hp]

/-- What an order of an option can come to. -/
theorem withOption_next {p : Bool} {k : Result} (h : withOption p s k = .next t) :
    (p = true ∧ k = .next t) ∨ (p = false ∧ s.executive = false ∧ voluntaryEntry s = .next t) := by
  unfold withOption at h
  cases p
  · cases he : s.executive <;> simp [he] at h
    exact .inr ⟨rfl, rfl, h⟩
  · exact .inl ⟨rfl, by simpa using h⟩

/-- What an executive order can come to. -/
theorem privileged_next {k : Result} (h : privileged s k = .next t) :
    (s.executive = true ∧ k = .next t) ∨ (s.executive = false ∧ voluntaryEntry s = .next t) := by
  unfold privileged at h
  cases he : s.executive <;> simp [he] at h
  · exact .inr ⟨rfl, h⟩
  · exact .inl ⟨rfl, h⟩

/-- What a taken branch can come to. -/
theorem take_next {a : Addr} (h : take a s = .next t) : s.branchTraced = false ∧ t = { s with pc := a } := by
  unfold take at h
  cases hb : s.branchTraced <;> simp [hb] at h
  exact ⟨rfl, h.symm⟩

/-- A conditional branch the trace does not refuse. -/
theorem takeIf_eq {c : Bool} {a : Addr} (h : c = false ∨ s.branchTraced = false) :
    takeIf c a s = .next { s with pc := if c then a else s.pc } := by
  unfold takeIf take
  cases c
  · simp
  · rcases h with h | h
    · simp at h
    · simp [h]

/-- A taken branch the trace refuses. -/
theorem takeIf_refused {c : Bool} {a : Addr} (hc : c = true) (h : s.branchTraced = true) :
    takeIf c a s = .refused .branchTrace := by
  unfold takeIf take; simp [hc, h]

/-- What a conditional branch can come to. -/
theorem takeIf_next {c : Bool} {a : Addr} (h : takeIf c a s = .next t) :
    t = { s with pc := if c then a else s.pc } := by
  unfold takeIf at h
  cases c
  · simpa using h.symm
  · simpa using (take_next (by simpa using h)).2

/-- A save area fits exactly where the entry finds every word of it installed. -/
theorem saveAreaFits_iff : s.SaveAreaFits ↔ s.saveAreaInstalled = true := by
  unfold State.SaveAreaFits State.saveAreaInstalled State.saveAddr
  simp [List.all_eq_true, BitVec.toNat_add]

/-- What an entry can come to. -/
theorem enterTrap_next {a : Addr} (h : enterTrap a s = .next t) :
    s.saveAreaInstalled = true ∧ t = { s.save.enterMode with pc := a } := by
  unfold enterTrap at h
  by_cases hs : s.saveAreaInstalled = true
  · rw [if_pos hs] at h
    exact ⟨hs, (Host.Outcome.next.inj h).symm⟩
  · rw [if_neg hs] at h
    cases h

/-- What the executive return can come to. -/
theorem restore_next (h : restore s = .next t) : s.saveAreaInstalled = true ∧ t = s.restored := by
  unfold restore at h
  by_cases hs : s.saveAreaInstalled = true
  · rw [if_pos hs] at h
    exact ⟨hs, (Host.Outcome.next.inj h).symm⟩
  · rw [if_neg hs] at h
    cases h

end Sys2Proof.Machine
end

