-- ==== Sys2Proof/Laws/Addressing.lean ====
section
/-! SUPPORT. Addresses as numbers within the active width, and stores to a pair of words. -/

namespace Sys2Proof.Machine

/-- An address cut to the active width, as a number. -/
theorem and_amask_toNat (s : State) (a : Addr) : (a &&& s.amask).toNat = a.toNat % 2 ^ (if s.am22 then 22 else 15) := by
  unfold State.amask
  split
  · rw [BitVec.toNat_and]
    exact Nat.and_two_pow_sub_one_eq_mod a.toNat 22
  · rw [BitVec.toNat_and]
    exact Nat.and_two_pow_sub_one_eq_mod a.toNat 15

/-- The low bits of a word as an address, as a number. -/
theorem maskAddr_toNat (s : State) (a : Word) : (s.maskAddr a).toNat = a.toNat % 2 ^ (if s.am22 then 22 else 15) := by
  unfold State.maskAddr
  rw [and_amask_toNat, BitVec.toNat_setWidth]
  split <;> omega

/-- The next address, as a number. -/
theorem nextAddr_toNat (s : State) (a : Addr) :
    (s.nextAddr a).toNat = (a.toNat + 1) % 2 ^ (if s.am22 then 22 else 15) := by
  unfold State.nextAddr
  rw [and_amask_toNat, BitVec.toNat_add]
  split <;> simp

/-- An address is not the one after it. -/
theorem nextAddr_ne (s : State) (a : Addr) : a ≠ s.nextAddr a := by
  intro he
  have h1 := congrArg BitVec.toNat he
  rw [nextAddr_toNat] at h1
  by_cases hw : s.am22 = true
  · rw [if_pos hw] at h1; omega
  · rw [if_neg hw] at h1; omega

/-- An operand address lies within the active width. -/
theorem operandAddress_lt (s : State) (m : ModIx) (n : BitVec 12) :
    (s.operandAddress m n).toNat < 2 ^ (if s.am22 then 22 else 15) := by
  unfold State.operandAddress
  rw [maskAddr_toNat]
  exact Nat.mod_lt _ (by positivity)

/-- Where an access goes, in numbers: the address of main memory it reaches. -/
theorem access_mem {s : State} {a : Addr} {o : Bool} {p : Nat} (h : access s a o = .mem p) :
    inWindow s a o = false ∧ p = relocate s a o % 2 ^ s.width := by
  unfold access at h
  split at h
  · simp at h
  · rename_i hw
    refine ⟨by simpa using hw, ?_⟩
    unfold physical at h
    simp only at h
    split at h
    · rename_i hp
      split at hp
      · simp at hp
      · split at hp
        · simp at hp h; omega
        · simp at hp
    · simp at h

/-- Two different addresses within the active width never name one place. -/
theorem access_ne {s : State} {a b : Addr} (ha : a.toNat < 2 ^ (if s.am22 then 22 else 15))
    (hb : b.toNat < 2 ^ (if s.am22 then 22 else 15)) (hne : a ≠ b) (hv : access s a true ≠ .violation) :
    access s a true ≠ access s b true := by
  intro h
  have hn : a.toNat ≠ b.toNat := fun e => hne (BitVec.eq_of_toNat_eq e)
  cases hx : access s a true with
  | violation => exact hv hx
  | reg i =>
    have key : ∀ c : Addr, access s c true = .reg i → c.toNat < 8 ∧ c.setWidth 3 = i := by
      intro c hc
      unfold access at hc
      split at hc
      · rename_i hw
        unfold inWindow at hw
        simp at hw hc
        exact ⟨hw.1, hc⟩
      · split at hc <;> simp at hc
    obtain ⟨h1, h2⟩ := key a hx
    obtain ⟨h3, h4⟩ := key b (h ▸ hx)
    have h5 := congrArg BitVec.toNat (h2.trans h4.symm)
    simp only [BitVec.toNat_setWidth] at h5
    omega
  | mem p =>
    obtain ⟨_, h2⟩ := access_mem hx
    obtain ⟨_, h4⟩ := access_mem (h ▸ hx)
    have h5 := h2.symm.trans h4
    unfold relocate State.width at h5
    split at h5 <;> split at h5 <;> simp_all <;> omega

/-- Accesses are the same in a state that differs in registers, memory, PC and the pre-modification only. -/
theorem access_frame {s u : State} (h : { u with regs := s.regs, mem := s.mem, pc := s.pc, pip := s.pip } = s) (a : Addr)
    (o : Bool) : access u a o = access s a o := by
  have hc := congrArg State.cfg h
  have he := congrArg State.executive h
  have hm := congrArg State.mode h
  have hd := congrArg State.rd h
  have hl := congrArg State.rl h
  simp only at hc he hm hd hl
  apply access_congr <;> first | assumption | (unfold State.datum; rw [hm]) | (unfold State.am22; rw [hm])

/-- A pair of words stored, where both can be read: both read back, every other word and register is as before. -/
theorem storePair_stores {s : State} {m : ModIx} {n : BitVec 12} (hm : s.mem.wf)
    (h0 : (memRead s (s.operandAddress m n) true).isSome = true)
    (h1 : (memRead s (s.nextAddr (s.operandAddress m n)) true).isSome = true) (v0 v1 : Word) (finish : State → State) :
    let ea := s.operandAddress m n
    let ea2 := s.nextAddr ea
    ∃ t, storePair m n s v0 v1 finish = .next (finish t) ∧ memRead t ea true = some v0 ∧ memRead t ea2 true = some v1 ∧
      (∀ i, access s ea true ≠ .reg i → access s ea2 true ≠ .reg i → t.reg i = s.reg i) ∧
      (∀ p, access s ea true ≠ .mem p → access s ea2 true ≠ .mem p → t.mem.read p = s.mem.read p) ∧
      { t with regs := s.regs, mem := s.mem } = s.advance ∧ t.mem.wf := by
  intro ea ea2
  obtain ⟨u, hu, hs, hf, hmu⟩ := memWrite_stores (s := s.advance) (ea := ea) hm h0 v0
  have hacc := access_frame (s := s) (u := u) (congrArg (fun y : State => { y with pc := s.pc, pip := s.pip }) hf)
  have hea2 : u.nextAddr ea = ea2 := by
    have hmode := congrArg State.mode hf
    simp only at hmode
    unfold State.nextAddr State.amask State.am22
    rw [hmode]
    rfl
  have hr2 : (memRead u ea2 true).isSome = true := by
    rw [memRead_isSome, hacc]
    exact memRead_isSome.mp h1
  obtain ⟨z, hz, hs2, hf2, hmz⟩ := memWrite_stores (s := u) (ea := ea2) hmu hr2 v1
  have hne : access s ea true ≠ access s ea2 true := by
    refine access_ne (operandAddress_lt s m n) ?_ (nextAddr_ne s _) (memRead_isSome.mp h0)
    rw [nextAddr_toNat]
    exact Nat.mod_lt _ (by positivity)
  have hread : memRead z ea true = some v0 := by
    have hz' : access z ea true = access u ea true :=
      access_frame (congrArg (fun y : State => { y with pc := u.pc, pip := u.pip }) hf2) ea true
    have h := hs.1
    rw [memRead_eq] at h ⊢
    rw [hz', hacc]
    rw [show access u ea true = access s ea true from hacc ea true] at h
    cases hx : access s ea true with
    | violation => rw [hx] at h; simp at h
    | reg i =>
      rw [hx] at h
      simp only at h ⊢
      rw [hs2.2.1 i (by rw [hacc]; rw [hx] at hne; exact fun e => hne e.symm)]
      exact h
    | mem p =>
      rw [hx] at h
      simp only at h ⊢
      rw [hs2.2.2 p (by rw [hacc]; rw [hx] at hne; exact fun e => hne e.symm)]
      exact h
  refine ⟨z, ?_, hread, hs2.1, ?_, ?_, ?_, hmz⟩
  · unfold storePair
    rw [storeThen_some hu]
    show storeThen (u.nextAddr ea) v1 u _ = _
    rw [hea2, storeThen_some hz]
  · intro i hi1 hi2
    rw [hs2.2.1 i (by rw [hacc]; exact hi2)]
    exact hs.2.1 i hi1
  · intro p hp1 hp2
    rw [hs2.2.2 p (by rw [hacc]; exact hp2)]
    exact hs.2.2 p hp1
  · exact (congrArg (fun y : State => { y with regs := s.regs, mem := s.mem }) hf2).trans hf

end Sys2Proof.Machine
end

