-- ==== Sys2Proof/Laws/Arithmetic.lean ====
section
/-! SUPPORT. The adder in integers: its sum, carry and overflow are those of the exact sum or difference. -/

namespace Sys2Proof.Machine

/-- The sign bit of a word, as a comparison. -/
theorem getLsbD_23 (a : Word) : a.getLsbD 23 = decide (2 ^ 23 ≤ a.toNat) := by
  have h : a.getLsbD 23 = a.msb := by rw [BitVec.msb_eq_getLsbD_last]
  rw [h, BitVec.msb_eq_decide]

/-- The signed value of a word, from its unsigned value. -/
theorem word_toInt (a : Word) :
    a.toInt = if 2 ^ 23 ≤ a.toNat then (a.toNat : Int) - (2 : Int) ^ 24 else (a.toNat : Int) := by
  rw [BitVec.toInt_eq_toNat_cond]; have := a.isLt; split <;> split <;> omega

/-- The adder's exact sum, unsigned. -/
theorem adderSum_toNat (a b : Word) (ci : Bool) : (adderSum a b ci).toNat = a.toNat + b.toNat + ci.toNat := by
  have := a.isLt
  have := b.isLt
  have hc : ci.toNat < 2 := by cases ci <;> simp
  simp [adderSum, BitVec.toNat_add, BitVec.toNat_setWidth, BitVec.toNat_ofBool]
  omega

/-- Bit 24 of the adder's sum, as a comparison. -/
theorem adderSum_top (v : BitVec 25) : v.getLsbD 24 = decide (2 ^ 24 ≤ v.toNat) := by
  have h : v.getLsbD 24 = v.msb := by rw [BitVec.msb_eq_getLsbD_last]
  rw [h, BitVec.msb_eq_decide]

/-- A word is the residue of an integer modulo 2^24. -/
theorem word_eq_ofInt {v : Word} {i : Int} (h : (v.toNat : Int) = i % 2 ^ 24) : v = BitVec.ofInt 24 i := by
  apply BitVec.eq_of_toNat_eq
  rw [BitVec.toNat_ofInt]
  omega

/-- A boolean is the decision of a proposition exactly where they agree. -/
theorem eq_decide {b : Bool} {p : Prop} [Decidable p] (h : b = true ↔ p) : b = decide p := by
  rw [Bool.eq_iff_iff, decide_eq_true_iff]; exact h

/-- The adder's value is the exact sum or difference modulo 2^24, its carry says that the unsigned one lies outside the word, and
its overflow that the signed one does (41_fixed_point.md R161). -/
theorem adder_exact (a b : Word) (kind : AddKind) (cuse : CarryUse) (c : Bool) :
    let r := adder a b kind cuse c
    let unsigned := exactSum kind a.toNat b.toNat (carryIn cuse c)
    let signed := exactSum kind a.toInt b.toInt (carryIn cuse c)
    r.value = BitVec.ofInt 24 signed ∧
      r.carry = decide (unsigned < 0 ∨ 2 ^ 24 ≤ unsigned) ∧
      r.overflow = decide (signed < -2 ^ 23 ∨ 2 ^ 23 ≤ signed) := by
  have ha := a.isLt
  have hb := b.isLt
  rw [word_toInt a, word_toInt b]
  simp only [adder, getLsbD_23, adderSum_top, BitVec.toNat_setWidth, adderSum_toNat]
  refine ⟨word_eq_ofInt ?_, eq_decide ?_, eq_decide ?_⟩
  · rw [BitVec.toNat_setWidth, adderSum_toNat]
    cases kind <;> cases cuse <;> cases c <;>
      simp only [AddKind.addend, AddKind.carryIn, exactSum, carryIn, BitVec.toNat_not, Bool.toNat_true,
        Bool.toNat_false, Bool.not_true, Bool.not_false, if_true, if_false, Bool.false_eq_true] <;>
      split <;> split <;> omega
  · cases kind <;>
      simp only [AddKind.carryOut, Bool.not_eq_true', decide_eq_true_eq, decide_eq_false_iff_not] <;>
      cases cuse <;> cases c <;>
      simp only [AddKind.addend, AddKind.carryIn, exactSum, carryIn, BitVec.toNat_not, Bool.toNat_true,
        Bool.toNat_false, Bool.not_true, Bool.not_false, if_true, if_false, Bool.false_eq_true] <;>
      omega
  · simp only [Bool.and_eq_true, beq_iff_eq, bne_iff_ne, decide_eq_decide, ne_eq, not_iff]
    cases kind <;> cases cuse <;> cases c <;>
      simp only [AddKind.addend, AddKind.carryIn, exactSum, carryIn, BitVec.toNat_not, Bool.toNat_true,
        Bool.toNat_false, Bool.not_true, Bool.not_false, if_true, if_false, Bool.false_eq_true] <;>
      split <;> split <;> omega

end Sys2Proof.Machine
end

