-- ==== Sys2Proof/Laws/Block.lean ====
section
/-! SUPPORT. The block orders cut in two: what the first `k` words or characters come to, and the rest after them. -/

namespace Sys2Proof.Machine

/-- A store changes registers and memory alone. -/
theorem memWrite_frame {s t : State} {a : Addr} {v : Word} {o : Bool} (h : memWrite s a v o = some t) :
    { t with regs := s.regs, mem := s.mem } = s := by
  rcases memWrite_cases h with ⟨_, _, rfl⟩ | ⟨_, _, rfl⟩ <;> rfl

/-- The first `k` words of a MOVE end in a state `mid` from which the rest goes on, or in an abort, whatever the rest. -/
theorem moveWords_add (x : RegIx) : ∀ (k i : Nat) (s : State), ∃ mid : State,
    { mid with regs := s.regs, mem := s.mem } = s ∧
    ((moveWords x k i s = .next mid ∧ ∀ r, moveWords x (k + r) i s = moveWords x r (i + k) mid) ∨
      ∀ r, moveWords x (k + r) i s = abort mid ∧ 0 < k)
  | 0, i, s => ⟨s, rfl, .inl ⟨rfl, fun r => by rw [Nat.zero_add, Nat.add_zero]⟩⟩
  | k + 1, i, s => by
    have hk : ∀ r, k + 1 + r = (k + r) + 1 := fun r => by omega
    simp only [hk, moveWords]
    cases s.readOperand (s.maskAddr (s.reg x + BitVec.ofNat 24 i)) with
    | none => exact ⟨s, rfl, .inr fun r => ⟨rfl, Nat.succ_pos k⟩⟩
    | some w =>
      unfold storeThen State.writeOperand
      cases hw : memWrite s (s.maskAddr (s.reg (x + 1) + BitVec.ofNat 24 i)) w true with
      | none => simp only [hw]; exact ⟨s, rfl, .inr fun r => ⟨rfl, Nat.succ_pos k⟩⟩
      | some t =>
        simp only [hw]
        have hf := memWrite_frame hw
        obtain ⟨mid, hm, h⟩ := moveWords_add x k (i + 1) t
        refine ⟨mid, (congrArg (fun u : State => { u with regs := s.regs, mem := s.mem }) hm).trans hf, ?_⟩
        rcases h with ⟨h1, h2⟩ | h
        · exact .inl ⟨h1, fun r => by rw [show i + (k + 1) = i + 1 + k by omega]; exact h2 r⟩
        · exact .inr fun r => ⟨(h r).1, Nat.succ_pos k⟩

/-- The first `k` characters of an MVCH end in a state `mid` from which the rest goes on, the two pointers stepped and not yet
written to their registers, or in an abort, whatever the rest. -/
theorem moveChars_add (x : RegIx) : ∀ (k : Nat) (p q : Word) (s : State), ∃ mid : State,
    { mid with regs := s.regs, mem := s.mem } = s ∧
    ((moveChars x k p q s = .next ((mid.setReg x ((charInc s.am22)^[k] p)).setReg (x + 1) ((charInc s.am22)^[k] q)) ∧
        ∀ r, moveChars x (k + r) p q s = moveChars x r ((charInc s.am22)^[k] p) ((charInc s.am22)^[k] q) mid) ∨
      ∀ r, moveChars x (k + r) p q s = abort mid ∧ 0 < k)
  | 0, p, q, s => ⟨s, rfl, .inl ⟨rfl, fun r => by rw [Nat.zero_add]; rfl⟩⟩
  | k + 1, p, q, s => by
    have hk : ∀ r, k + 1 + r = (k + r) + 1 := fun r => by omega
    simp only [hk, moveChars, Function.iterate_succ_apply]
    cases s.readOperand (s.maskAddr p) with
    | none => exact ⟨s, rfl, .inr fun r => ⟨rfl, Nat.succ_pos k⟩⟩
    | some ws =>
      cases s.readOperand (s.maskAddr q) with
      | none => exact ⟨s, rfl, .inr fun r => ⟨rfl, Nat.succ_pos k⟩⟩
      | some wd =>
        unfold storeThen State.writeOperand
        cases hw : memWrite s (s.maskAddr q) (setChar wd (pointerLane q) (charOf ws (pointerLane p))) true with
        | none => simp only [hw]; exact ⟨s, rfl, .inr fun r => ⟨rfl, Nat.succ_pos k⟩⟩
        | some t =>
          simp only [hw]
          have hf := memWrite_frame hw
          have hw' : t.am22 = s.am22 := by
            have := congrArg State.mode hf
            simp only at this
            unfold State.am22
            rw [this]
          obtain ⟨mid, hm, h⟩ := moveChars_add x k (charInc s.am22 p) (charInc s.am22 q) t
          rw [hw'] at h
          refine ⟨mid, (congrArg (fun u : State => { u with regs := s.regs, mem := s.mem }) hm).trans hf, ?_⟩
          rcases h with ⟨h1, h2⟩ | h
          · exact .inl ⟨h1, h2⟩
          · exact .inr fun r => ⟨(h r).1, Nat.succ_pos k⟩

/-- A SUM violates exactly where one of its words does. -/
theorem sumWords_eq_none (s : State) (base : Word) : ∀ (n i : Nat) (acc : Word),
    sumWords s base n i acc = none ↔ ∃ j, j < n ∧ memRead s (s.maskAddr (base + BitVec.ofNat 24 (i + j))) true = none
  | 0, i, acc => by simp [sumWords]
  | n + 1, i, acc => by
    unfold sumWords State.readOperand
    cases hr : memRead s (s.maskAddr (base + BitVec.ofNat 24 i)) true with
    | none => exact iff_of_true rfl ⟨0, Nat.succ_pos n, by simpa using hr⟩
    | some w =>
      simp only
      rw [sumWords_eq_none s base n (i + 1)]
      constructor
      · rintro ⟨j, hj, h⟩
        exact ⟨j + 1, by omega, by rw [show i + (j + 1) = i + 1 + j by omega]; exact h⟩
      · rintro ⟨j, hj, h⟩
        cases j with
        | zero => rw [Nat.add_zero, hr] at h; cases h
        | succ j => exact ⟨j, by omega, by rw [show i + 1 + j = i + (j + 1) by omega]; exact h⟩

end Sys2Proof.Machine
end

