-- ==== Sys2Proof/Laws/Encoding.lean ====
section
/-! SUPPORT. The fields of a word as numbers, and which table the decoder reads for each format. -/

namespace Sys2Proof

/-- Two bit strings one after the other, as a number. -/
theorem toNat_append {a b : Nat} (x : BitVec a) (y : BitVec b) : (x ++ y).toNat = x.toNat * 2 ^ b + y.toNat := by
  rw [BitVec.toNat_append, ← Nat.shiftLeft_add_eq_or_of_lt y.isLt, Nat.shiftLeft_eq]

/-- A field of a bit string, as a number. -/
theorem toNat_field {w : Nat} (a n : Nat) (v : BitVec w) : (v.extractLsb' a n).toNat = v.toNat / 2 ^ a % 2 ^ n := by
  rw [BitVec.extractLsb'_toNat, Nat.shiftRight_eq_div_pow]

theorem formatA_toNat (x : RegIx) (f : BitVec 7) (m : ModIx) (n : BitVec 12) :
    (formatA x f m n).toNat = x.toNat * 2 ^ 21 + f.toNat * 2 ^ 14 + m.toNat * 2 ^ 12 + n.toNat := by
  unfold formatA
  exact (toNat_append _ _).trans (by rw [toNat_append, toNat_append]; omega)

theorem formatB_toNat (x : RegIx) (f : BitVec 6) (n : BitVec 15) :
    (formatB x f n).toNat = x.toNat * 2 ^ 21 + f.toNat * 2 ^ 15 + n.toNat := by
  unfold formatB
  exact (toNat_append _ _).trans (by rw [toNat_append]; omega)

theorem fieldX_toNat (w : Word) : (fieldX w).toNat = w.toNat / 2 ^ 21 := by
  have := w.isLt
  simp [fieldX, Nat.shiftRight_eq_div_pow]
  omega

theorem fieldF_toNat (w : Word) : (fieldF w).toNat = w.toNat / 2 ^ 14 % 128 := by
  simp [fieldF, Nat.shiftRight_eq_div_pow]

theorem fieldM_toNat (w : Word) : (fieldM w).toNat = w.toNat / 2 ^ 12 % 4 := by
  simp [fieldM, Nat.shiftRight_eq_div_pow]

theorem fieldN_toNat (w : Word) : (fieldN w).toNat = w.toNat % 2 ^ 12 := by simp [fieldN]

theorem fieldF6_toNat (w : Word) : (fieldF6 w).toNat = w.toNat / 2 ^ 15 % 64 := by
  simp [fieldF6, Nat.shiftRight_eq_div_pow]

theorem fieldN15_toNat (w : Word) : (fieldN15 w).toNat = w.toNat % 2 ^ 15 := by simp [fieldN15]

section
variable (x : RegIx) (f : BitVec 7) (m : ModIx) (n : BitVec 12) (g : BitVec 6) (d : BitVec 15)

/-- The four fields of a format A word. -/
theorem fields_formatA : fieldX (formatA x f m n) = x ∧ fieldF (formatA x f m n) = f ∧ fieldM (formatA x f m n) = m ∧
    fieldN (formatA x f m n) = n := by
  have := x.isLt
  have := f.isLt
  have := m.isLt
  have := n.isLt
  refine ⟨?_, ?_, ?_, ?_⟩ <;> apply BitVec.eq_of_toNat_eq
  · rw [fieldX_toNat, formatA_toNat]; omega
  · rw [fieldF_toNat, formatA_toNat]; omega
  · rw [fieldM_toNat, formatA_toNat]; omega
  · rw [fieldN_toNat, formatA_toNat]; omega

/-- The fields of a format B word, and its bits 20:14 as a function code. -/
theorem fields_formatB : fieldX (formatB x g d) = x ∧ fieldF6 (formatB x g d) = g ∧ fieldN15 (formatB x g d) = d ∧
    (fieldF (formatB x g d)).toNat = g.toNat * 2 + d.toNat / 2 ^ 14 := by
  have := x.isLt
  have := g.isLt
  have := d.isLt
  refine ⟨?_, ?_, ?_, ?_⟩
  · apply BitVec.eq_of_toNat_eq; rw [fieldX_toNat, formatB_toNat]; omega
  · apply BitVec.eq_of_toNat_eq; rw [fieldF6_toNat, formatB_toNat]; omega
  · apply BitVec.eq_of_toNat_eq; rw [fieldN15_toNat, formatB_toNat]; omega
  · rw [fieldF_toNat, formatB_toNat]; omega

end

/-- A format A word with a code below 050 is read from the low table. -/
theorem decode_formatA_low (k : ExecCodes) (x : RegIx) (f : BitVec 7) (m : ModIx) (n : BitVec 12) (h : f.toNat < 0o50) :
    decode k (formatA x f m n) = entryA lowCodes f.toNat f x m n := by
  obtain ⟨h1, h2, h3, h4⟩ := fields_formatA x f m n
  unfold decode
  simp only [h1, h2, h3, h4, if_pos h]

/-- A format A word with a code from 0100 to 0137 is read from the high table. -/
theorem decode_formatA_high (k : ExecCodes) (x : RegIx) (f : BitVec 7) (m : ModIx) (n : BitVec 12)
    (h : 0o100 ≤ f.toNat ∧ f.toNat < 0o140) :
    decode k (formatA x f m n) = entryA highCodes (f.toNat - 0o100) f x m n := by
  obtain ⟨h1, h2, h3, h4⟩ := fields_formatA x f m n
  unfold decode
  simp only [h1, h2, h3, h4, if_pos h.2, if_neg (show ¬f.toNat < 0o50 by omega),
    if_neg (show ¬f.toNat < 0o100 by omega)]

/-- A format A word with a code from 0140 on is of the executive group. -/
theorem decode_formatA_exec (k : ExecCodes) (x : RegIx) (f : BitVec 7) (m : ModIx) (n : BitVec 12)
    (h : 0o140 ≤ f.toNat) : decode k (formatA x f m n) = decodeExec k f x m n := by
  obtain ⟨h1, h2, h3, h4⟩ := fields_formatA x f m n
  unfold decode
  simp only [h1, h2, h3, h4, if_neg (show ¬f.toNat < 0o50 by omega), if_neg (show ¬f.toNat < 0o100 by omega),
    if_neg (show ¬f.toNat < 0o140 by omega)]

/-- A format B word is read from the branch table. -/
theorem decode_formatB (k : ExecCodes) (x : RegIx) (g : BitVec 6) (d : BitVec 15) (h : 0o24 ≤ g.toNat ∧ g.toNat < 0o40) :
    decode k (formatB x g d) = branchCodes.getD (g.toNat - 0o24) floatBranch x d := by
  have := d.isLt
  obtain ⟨h1, h2, h3, h4⟩ := fields_formatB x g d
  unfold decode
  simp only [h1, h2, h3, h4]
  rw [if_neg (by omega), if_pos (by omega)]

/-- A shift's N field is its submode and its count. -/
theorem shiftBy_field (f : BitVec 7) (a b c : RegIx → ModIx → BitVec 10 → Instr) (x : RegIx) (m : ModIx) (q : BitVec 2)
    (n : BitVec 10) :
    shiftBy f a b c x m (q ++ n) = match q.toNat with
      | 0 => .ok (a x m n)
      | 1 => .ok (b x m n)
      | 2 => .ok (c x m n)
      | _ => .error (.shiftSubmode3 f x m n) := by
  have e : (q ++ n : BitVec 12).toNat = q.toNat * 2 ^ 10 + n.toNat := toNat_append q n
  have := q.isLt
  have := n.isLt
  have h1 : (q ++ n : BitVec 12).extractLsb' 10 2 = q := by
    apply BitVec.eq_of_toNat_eq; rw [toNat_field, e]; omega
  have h2 : (q ++ n : BitVec 12).extractLsb' 0 10 = n := by
    apply BitVec.eq_of_toNat_eq; rw [toNat_field, e]; omega
  unfold shiftBy
  rw [h1, h2]
  first | done | rfl

end Sys2Proof
end

