-- ==== Sys2Proof/Laws/Chars.lean ====
section
/-! SUPPORT. Character lanes and double-length integers as numbers, and what noting an overflow changes. -/

namespace Sys2Proof.Machine

/-- The second register of a pair is not the first. -/
theorem ne_add_one (x : RegIx) : x ≠ x + 1 := by revert x; decide

/-- Noting an overflow changes V and SR64 alone. -/
theorem setVIf_frame (s : State) (b : Bool) : { s.setVIf b with v := s.v, sr64 := s.sr64 } = s := by
  unfold State.setVIf State.setV State.overflowEvent
  cases b
  · rfl
  · simp only [if_true]; split <;> rfl

/-- Noting an overflow, in a state that has the flags, the parameters and the mode of `s`. -/
theorem setVIf_notes {s t : State} (b : Bool) (hv : t.v = s.v) (h6 : t.sr64 = s.sr64) (hc : t.cfg = s.cfg)
    (he : t.executive = s.executive) : NotesOverflow s (t.setVIf b) b :=
  ⟨by simp [hv], by simp [h6, hc, he, Bool.and_assoc]⟩

/-- The lane of a character operand, as a number. -/
theorem lane_toNat (s : State) (m : ModIx) : (s.lane m).toNat = s.laneNumber m := by
  unfold State.lane State.laneNumber
  rw [toNat_field]
  have := (s.modifier m).isLt
  omega

/-- A character of a word, as a number. -/
theorem charOf_toNat (w : Word) (k : BitVec 2) : (charOf w k).toNat = laneValue w k.toNat := by
  exact toNat_field (18 - 6 * k.toNat) 6 w

/-- The four base-64 digits of a number. -/
theorem lane_digits (v a b c d : Nat) (ha : a < 64) (hb : b < 64) (hc : c < 64) (hd : d < 64)
    (h : v = ((a * 64 + b) * 64 + c) * 64 + d) :
    v / 2 ^ 18 % 64 = a ∧ v / 2 ^ 12 % 64 = b ∧ v / 2 ^ 6 % 64 = c ∧ v / 2 ^ 0 % 64 = d := by omega

/-- A character deposited is the lane's value; the other lanes are as before. -/
theorem setChar_lane (w : Word) (k : BitVec 2) (ch : BitVec 6) (j : Nat) (hj : j < 4) :
    laneValue (setChar w k ch) j = if j = k.toNat then ch.toNat else laneValue w j := by
  have hw := w.isLt
  have hq := ch.isLt
  have e0 : (ch ++ w.extractLsb' 0 18 : BitVec 24).toNat = ch.toNat * 2 ^ 18 + w.toNat % 2 ^ 18 :=
    (toNat_append _ _).trans (by rw [toNat_field]; omega)
  have e1 : (w.extractLsb' 18 6 ++ ch ++ w.extractLsb' 0 12 : BitVec 24).toNat =
      (w.toNat / 2 ^ 18 * 2 ^ 6 + ch.toNat) * 2 ^ 12 + w.toNat % 2 ^ 12 :=
    (toNat_append _ _).trans (by rw [toNat_append, toNat_field, toNat_field]; omega)
  have e2 : (w.extractLsb' 12 12 ++ ch ++ w.extractLsb' 0 6 : BitVec 24).toNat =
      (w.toNat / 2 ^ 12 * 2 ^ 6 + ch.toNat) * 2 ^ 6 + w.toNat % 2 ^ 6 :=
    (toNat_append _ _).trans (by rw [toNat_append, toNat_field, toNat_field]; omega)
  have e3 : (w.extractLsb' 6 18 ++ ch : BitVec 24).toNat = w.toNat / 2 ^ 6 * 2 ^ 6 + ch.toNat :=
    (toNat_append _ _).trans (by rw [toNat_field]; omega)
  obtain ⟨a, b, c, d, ha, hb, hc, hd, hv⟩ : ∃ a b c d, a < 64 ∧ b < 64 ∧ c < 64 ∧ d < 64 ∧
      w.toNat = ((a * 64 + b) * 64 + c) * 64 + d := by
    clear e0 e1 e2 e3
    generalize w.toNat = v at *
    exact ⟨v / 2 ^ 18, v / 2 ^ 12 % 64, v / 2 ^ 6 % 64, v % 64, by omega, by omega, by omega, by omega, by omega⟩
  obtain ⟨w1, w2, w3, w4⟩ := lane_digits _ a b c d ha hb hc hd hv
  have hk : k = 0 ∨ k = 1 ∨ k = 2 ∨ k = 3 := by clear e0 e1 e2 e3; revert k; decide
  unfold setChar laneValue
  generalize ch.toNat = q at *
  rcases hk with rfl | rfl | rfl | rfl
  · obtain ⟨x1, x2, x3, x4⟩ := lane_digits _ q b c d hq hb hc hd (e0.trans (by clear e0 e1 e2 e3; omega))
    rw [if_pos rfl]
    interval_cases j <;> (simp_all; try omega)
  · obtain ⟨x1, x2, x3, x4⟩ := lane_digits _ a q c d ha hq hc hd (e1.trans (by clear e0 e1 e2 e3; omega))
    rw [if_neg (by decide), if_pos rfl]
    interval_cases j <;> (simp_all; try omega)
  · obtain ⟨x1, x2, x3, x4⟩ := lane_digits _ a b q d ha hb hq hd (e2.trans (by clear e0 e1 e2 e3; omega))
    rw [if_neg (by decide), if_neg (by decide), if_pos rfl]
    interval_cases j <;> simp_all
  · obtain ⟨x1, x2, x3, x4⟩ := lane_digits _ a b c q ha hb hc hq (e3.trans (by clear e0 e1 e2 e3; omega))
    rw [if_neg (by decide), if_neg (by decide), if_neg (by decide)]
    interval_cases j <;> simp_all

/-- A double-length integer written and read back: the value modulo 2^47, bit 23 of the second word 0, and every other
register as before. -/
theorem writeDoubleLength_spec (s : State) (x : RegIx) (p : Int) :
    (s.writeDoubleLength x p).doubleLength x = p.bmod (2 ^ 47) ∧
    ((s.writeDoubleLength x p).reg (x + 1)).getLsbD 23 = false ∧
    (∀ i, i ≠ x → i ≠ x + 1 → (s.writeDoubleLength x p).reg i = s.reg i) ∧
    { s.writeDoubleLength x p with regs := s.regs } = s := by
  have r2 : (s.writeDoubleLength x p).reg (x + 1) = 0#1 ++ (BitVec.ofInt 47 p).extractLsb' 0 23 := by
    unfold State.writeDoubleLength; simp
  have r1 : (s.writeDoubleLength x p).reg x = (BitVec.ofInt 47 p).extractLsb' 23 24 := by
    unfold State.writeDoubleLength
    simp only
    rw [State.reg_setReg, if_neg (ne_add_one x)]
    simp
  have n2 : ((s.writeDoubleLength x p).reg (x + 1)).toNat = (BitVec.ofInt 47 p).toNat % 2 ^ 23 := by
    rw [r2]
    refine (toNat_append _ _).trans ?_
    rw [toNat_field]
    simp
  refine ⟨?_, ?_, fun i h1 h2 => ?_, rfl⟩
  · unfold State.doubleLength
    rw [toNat_field, n2, r1, word_toInt, toNat_field]
    have hb : (BitVec.ofInt 47 p).toInt = p.bmod (2 ^ 47) := by rw [BitVec.toInt_ofInt]
    rw [← hb, BitVec.toInt_eq_toNat_cond]
    have := (BitVec.ofInt 47 p).isLt
    generalize (BitVec.ofInt 47 p).toNat = q at *
    split <;> split <;> push_cast <;> omega
  · rw [getLsbD_23, n2]
    simp
    omega
  · unfold State.writeDoubleLength
    simp only
    rw [State.reg_setReg, if_neg h2, State.reg_setReg, if_neg h1]

end Sys2Proof.Machine
end

