-- ==== Sys2Proof/Laws/Division.lean ====
section
/-! SUPPORT. The quotient of a division from its remainder: truncated toward zero, and nearest with ties away from zero. -/

namespace Sys2Proof.Machine

/-- A truncated quotient by a positive divisor is determined by its remainder. -/
theorem tdiv_of_pos {a d q r : Int} (h : a = q * d + r) (h1 : r.natAbs < d.natAbs) (h2 : 0 ≤ a * r) (hd : 0 < d) :
    a.tdiv d = q := by
  rcases le_or_gt 0 a with ha | ha
  · rw [Int.tdiv_eq_ediv_of_nonneg ha]
    have hr : 0 ≤ r := by
      by_contra hr
      have h3 : a = 0 := by nlinarith
      have h4 : q * d = -r := by omega
      have h5 : 0 < q := by by_contra; nlinarith
      have : d ≤ q * d := by nlinarith
      omega
    rw [h, Int.add_comm, Int.add_mul_ediv_right _ _ (by omega), Int.ediv_eq_zero_of_lt hr (by omega)]
    omega
  · have hr : r ≤ 0 := by by_contra; nlinarith
    rw [show a = -(-a) by omega, Int.neg_tdiv, Int.tdiv_eq_ediv_of_nonneg (by omega), h,
      show -(q * d + r) = -r + (-q) * d by ring, Int.add_mul_ediv_right _ _ (by omega),
      Int.ediv_eq_zero_of_lt (by omega) (by omega)]
    omega

/-- A truncated quotient is determined by its remainder. -/
theorem tdiv_of_truncatedRemainder {a d q r : Int} (h : a = q * d + r) (hr : TruncatedRemainder a d r) : a.tdiv d = q := by
  have hd : d ≠ 0 := by rintro rfl; exact absurd hr.1 (by simp)
  rcases lt_or_gt_of_ne hd with hd | hd
  · have := tdiv_of_pos (a := a) (d := -d) (q := -q) (r := r) (by rw [h]; ring) (by simpa using hr.1) hr.2 (by omega)
    rw [Int.tdiv_neg] at this
    omega
  · exact tdiv_of_pos h hr.1 hr.2 hd

/-- A nearest quotient by a positive divisor is determined by its remainder. -/
theorem roundHalfAway_of_pos {a d q r : Int} (h : a = q * d + r) (hr : NearestRemainder a d r) (hd : 0 < d) :
    roundHalfAway a d = q := by
  obtain ⟨h0, h1, h2⟩ := hr
  have e : ∀ A : Int, 0 ≤ A → (((2 * A.natAbs + d.natAbs) / (2 * d.natAbs) : Nat) : Int) = (2 * A + d) / (2 * d) := by
    intro A hA
    push_cast
    rw [abs_of_nonneg hA, abs_of_pos hd]
  unfold roundHalfAway
  rcases le_or_gt 0 a with ha | ha
  · have : decide (a < 0) = decide (d < 0) := by rw [decide_eq_decide]; omega
    simp only [this, if_true]
    rw [e a ha]
    have hr2 : 2 * r < d := by
      by_contra hc
      have h4 := h2 (by omega)
      have h5 : a = 0 := by nlinarith
      have h6 : (-q) * d = r := by nlinarith
      have h7 : 0 < -q := by by_contra; nlinarith
      have h8 : d ≤ -q * d := by nlinarith
      omega
    rw [show 2 * a + d = (d + 2 * r) + q * (2 * d) by rw [h]; ring, Int.add_mul_ediv_right _ _ (by omega),
      Int.ediv_eq_zero_of_lt (by omega) (by omega)]
    omega
  · have : ¬decide (a < 0) = decide (d < 0) := by rw [decide_eq_decide]; omega
    simp only [this, if_false]
    have e' := e (-a) (by omega)
    rw [Int.natAbs_neg] at e'
    rw [e']
    have hr2 : -(2 * r) < d := by
      by_contra hc
      have h4 := h2 (by omega)
      nlinarith
    rw [show 2 * -a + d = (d - 2 * r) + (-q) * (2 * d) by rw [h]; ring, Int.add_mul_ediv_right _ _ (by omega),
      Int.ediv_eq_zero_of_lt (by omega) (by omega)]
    omega

/-- Negating the divisor negates the nearest quotient. -/
theorem roundHalfAway_neg (a d : Int) (hd : d ≠ 0) : roundHalfAway a (-d) = -roundHalfAway a d := by
  unfold roundHalfAway
  simp only [Int.natAbs_neg]
  by_cases ha : a < 0
  · rcases lt_or_gt_of_ne hd with h | h
    · simp [ha, h, show ¬(0 < d) by omega]
    · simp [ha, h, show ¬(d < 0) by omega]
  · rcases lt_or_gt_of_ne hd with h | h
    · simp [ha, h, show ¬(0 < d) by omega]
    · simp [ha, h, show ¬(d < 0) by omega]

/-- A nearest quotient is determined by its remainder. -/
theorem roundHalfAway_of_nearestRemainder {a d q r : Int} (h : a = q * d + r) (hr : NearestRemainder a d r) :
    roundHalfAway a d = q := by
  rcases lt_or_gt_of_ne hr.1 with hd | hd
  · have := roundHalfAway_of_pos (a := a) (d := -d) (q := -q) (r := r) (by rw [h]; ring)
      ⟨by omega, by simpa using hr.2.1, by simpa using hr.2.2⟩ (by omega)
    rw [roundHalfAway_neg a d hr.1] at this
    omega
  · exact roundHalfAway_of_pos h hr hd

end Sys2Proof.Machine
end

