-- ==== Sys2Proof/Laws/Entry.lean ====
section
/-! SUPPORT. What stands in the save area after an entry, said once: an entry that completes is an `Entered`. -/

namespace Sys2Proof.Machine

/-- Words written one after the other keep the canonical form, and the words at other addresses. -/
theorem foldl_write_other : ∀ (l : List Cell) (m : Memory), m.wf →
    (l.foldl (fun mem c => mem.write c.1 c.2) m).wf ∧
    ∀ p, (∀ c ∈ l, p ≠ c.1) → (l.foldl (fun mem c => mem.write c.1 c.2) m).read p = m.read p
  | [], m, h => ⟨h, fun _ _ => rfl⟩
  | c :: l, m, h => by
    obtain ⟨h1, h2⟩ := foldl_write_other l (m.write c.1 c.2) (Memory.wf_write m c.1 c.2 h)
    refine ⟨h1, fun p hp => ?_⟩
    rw [List.foldl_cons, h2 p fun d hd => hp d (List.mem_cons_of_mem _ hd)]
    exact Memory.read_write_other h (hp c List.mem_cons_self) c.2

/-- Words written at different addresses all read back. -/
theorem foldl_write_read : ∀ (l : List Cell) (m : Memory), m.wf → (l.map Prod.fst).Nodup →
    ∀ c ∈ l, (l.foldl (fun mem c => mem.write c.1 c.2) m).read c.1 = c.2
  | [], _, _, _, c, hc => by simp at hc
  | d :: l, m, h, hn, c, hc => by
    rw [List.map_cons, List.nodup_cons] at hn
    have hw := Memory.wf_write m d.1 d.2 h
    rw [List.foldl_cons]
    rcases List.mem_cons.mp hc with rfl | hc
    · rw [(foldl_write_other l _ hw).2 c.1 fun e he hx => hn.1 (hx ▸ List.mem_map_of_mem he)]
      exact Memory.read_write_same h c.1 c.2
    · exact foldl_write_read l _ hw hn.2 c hc

/-- A word of the save area's address, as a number. -/
theorem saveAddr_eq (s : State) (o : Addr) : s.saveAddr o = (s.rd.toNat + o.toNat) % 2 ^ 22 := by
  unfold State.saveAddr
  rw [BitVec.toNat_add]

/-- Different offsets name different words of the save area. -/
theorem saveAddr_injective (s : State) {a b : Addr} (h : s.saveAddr a = s.saveAddr b) : a = b := by
  rw [saveAddr_eq, saveAddr_eq] at h
  have := a.isLt
  have := b.isLt
  exact BitVec.eq_of_toNat_eq (by omega)

/-- The save writes each word of its table, and nothing else of memory. -/
theorem save_mem (s : State) (hm : s.mem.wf) (hn : s.cfg.saveOffsets.Nodup) :
    (∀ e ∈ s.saveWords, s.save.mem.read (s.saveAddr e.1) = e.2) ∧
    (∀ p, (∀ o ∈ s.cfg.saveOffsets, p ≠ s.saveAddr o) → s.save.mem.read p = s.mem.read p) ∧ s.save.mem.wf := by
  have hl : s.save.mem = (s.saveWords.map fun e => (s.saveAddr e.1, e.2)).foldl (fun mem c => mem.write c.1 c.2) s.mem := by
    rw [List.foldl_map]; rfl
  have ho : (s.saveWords.map fun e => (s.saveAddr e.1, e.2)).map Prod.fst = s.cfg.saveOffsets.map s.saveAddr := rfl
  obtain ⟨h1, h2⟩ := foldl_write_other (s.saveWords.map fun e => (s.saveAddr e.1, e.2)) s.mem hm
  rw [hl]
  refine ⟨fun e he => ?_, fun p hp => h2 p fun c hc => ?_, h1⟩
  · have hd : ((s.saveWords.map fun e => (s.saveAddr e.1, e.2)).map Prod.fst).Nodup := by
      rw [ho]
      exact hn.map fun _ _ => saveAddr_injective s
    exact foldl_write_read _ _ hm hd (s.saveAddr e.1, e.2) (List.mem_map.mpr ⟨e, he, rfl⟩)
  · have hc' := List.mem_map_of_mem (f := Prod.fst) hc
    rw [ho] at hc'
    obtain ⟨o, hx, hy⟩ := List.mem_map.mp hc'
    exact hy ▸ hp o hx

/-- The words of the save area after the save, as numbers (60_exceptions.md R412). -/
theorem save_words (s : State) (hm : s.mem.wf) (hn : s.cfg.saveOffsets.Nodup) :
    (∀ i : RegIx, s.save.mem.read ((s.rd.toNat + i.toNat) % 2 ^ 22) = s.reg i) ∧
    (s.save.mem.read ((s.rd.toNat + s.cfg.offPc.toNat) % 2 ^ 22)).toNat =
      s.v.toNat * 2 ^ 23 + s.c.toNat * 2 ^ 22 + s.pc.toNat ∧
    (s.save.mem.read ((s.rd.toNat + s.cfg.offSt.toNat) % 2 ^ 22)).toNat = s.fov.toNat * 2 ^ 5 + s.mode.toNat ∧
    (s.save.mem.read ((s.rd.toNat + s.cfg.offFa.toNat) % 2 ^ 22)).toNat = s.am.toNat / 2 ^ 14 ∧
    (s.save.mem.read ((s.rd.toNat + s.cfg.offFa.toNat + 1) % 2 ^ 22)).toNat =
      s.am.toNat % 2 ^ 14 * 2 ^ 9 + s.ae.toNat := by
  obtain ⟨h1, _, _⟩ := save_mem s hm hn
  simp only [saveAddr_eq] at h1
  generalize s.save.mem = mem at h1 ⊢
  simp only [State.saveWords, List.mem_cons, List.not_mem_nil, or_false, forall_eq_or_imp, forall_eq] at h1
  obtain ⟨r0, r1, r2, r3, r4, r5, r6, r7, rp, rs, rf0, rf1⟩ := h1
  refine ⟨fun i => ?_, ?_, ?_, ?_, ?_⟩
  · have hi : ∀ i : RegIx, i = 0 ∨ i = 1 ∨ i = 2 ∨ i = 3 ∨ i = 4 ∨ i = 5 ∨ i = 6 ∨ i = 7 := by decide
    rcases hi i with rfl | rfl | rfl | rfl | rfl | rfl | rfl | rfl
    · simpa using r0
    · simpa using r1
    · simpa using r2
    · simpa using r3
    · simpa using r4
    · simpa using r5
    · simpa using r6
    · simpa using r7
  · rw [rp, State.pcWord]
    refine (toNat_append _ _).trans ?_
    rw [toNat_append, BitVec.toNat_ofBool, BitVec.toNat_ofBool]
    omega
  · rw [rs, State.statusWord]
    refine (toNat_append _ _).trans ?_
    rw [toNat_append, BitVec.toNat_ofBool]
    simp
  · rw [rf0, floatWord0, toNat_field]
    have := s.am.isLt
    omega
  · have ho : (s.rd.toNat + s.cfg.offFa.toNat + 1) % 2 ^ 22 = (s.rd.toNat + (s.cfg.offFa + 1).toNat) % 2 ^ 22 := by
      rw [BitVec.toNat_add]
      simp
      omega
    rw [ho, rf1, floatWord1]
    refine (toNat_append _ _).trans ?_
    rw [toNat_append, toNat_field]
    simp

/-- The state after an entry, with its memory as given. -/
theorem enterTrap_eq {s : State} (vector : Addr) (hf : s.SaveAreaFits) :
    enterTrap vector s = .next { State.enterMode { s with mem := s.save.mem } with pc := vector } := by
  unfold enterTrap
  rw [if_pos (saveAreaFits_iff.mp hf)]
  rfl

/-- An entry at any vector, where the save area is installed: it completes, and what it leaves. -/
theorem enterTrap_entered (s : State) (vector : Addr) (hm : s.mem.wf) (hc : s.cfg.wf) (hf : s.SaveAreaFits) :
    ∃ t, enterTrap vector s = .next t ∧ Entered s t vector ∧ t.mem.wf := by
  obtain ⟨_, h2, h3⟩ := save_mem s hm hc.2.2.2.2.2.1.2.2.2
  obtain ⟨w1, w2, w3, w4, w5⟩ := save_words s hm hc.2.2.2.2.2.1.2.2.2
  rw [enterTrap_eq vector hf]
  generalize s.save.mem = mem at *
  refine ⟨_, rfl, ?_, h3⟩
  exact
    { pc := rfl
      mode := ⟨rfl, rfl, rfl, rfl, rfl, rfl, rfl, rfl, rfl⟩
      registers := w1
      pcWord := w2
      statusWord := w3
      image0 := w4
      image1 := w5
      memory := fun p hp => h2 p fun o ho => by rw [saveAddr_eq]; exact hp o ho
      rest := rfl }

end Sys2Proof.Machine
end

