-- ==== Sys2Proof/Laws/Float.lean ====
section
/-! SUPPORT. The exact numbers of the reference floating instances as rationals, and the shared tail: what `pack` answers is
the number rounded. -/

namespace Sys2Proof.Machine

/-- An exact number as a rational. -/
def Exact.toRat (a : Exact) : ℚ := a.num / a.den

theorem fpval_den_pos (m : Mantissa) (e : Exponent) : 0 < (fpval m e).den := by
  unfold fpval; split <;> simp

theorem fpval_toRat (m : Mantissa) (e : Exponent) : (fpval m e).toRat = floatValue m e := by
  unfold fpval floatValue Exact.toRat
  split
  · rename_i h
    have : ((e.toNat : ℤ) - 293) = ((e.toNat - 293 : ℕ) : ℤ) := by omega
    rw [this, zpow_natCast]
    push_cast
    simp
  · rename_i h
    have : ((e.toNat : ℤ) - 293) = -((293 - e.toNat : ℕ) : ℤ) := by omega
    rw [this, zpow_neg, zpow_natCast]
    push_cast
    rw [div_eq_mul_inv]

theorem Exact.add_toRat {a b : Exact} (ha : 0 < a.den) (hb : 0 < b.den) : (a.add b).toRat = a.toRat + b.toRat := by
  have : (a.den : ℚ) ≠ 0 := by positivity
  have : (b.den : ℚ) ≠ 0 := by positivity
  unfold Exact.add Exact.toRat
  push_cast
  field_simp

theorem Exact.neg_toRat (a : Exact) : a.neg.toRat = -a.toRat := by
  unfold Exact.neg Exact.toRat
  push_cast
  ring

theorem Exact.mul_toRat (a b : Exact) : (a.mul b).toRat = a.toRat * b.toRat := by
  unfold Exact.mul Exact.toRat
  push_cast
  rw [div_mul_div_comm]

theorem Exact.div_toRat {a b : Exact} (ha : 0 < a.den) (hb : 0 < b.den) (hn : b.num ≠ 0) :
    (a.div b).toRat = a.toRat / b.toRat := by
  have h1 : (a.den : ℚ) ≠ 0 := by positivity
  have h2 : (b.den : ℚ) ≠ 0 := by positivity
  have h3 : (b.num : ℚ) ≠ 0 := by exact_mod_cast hn
  unfold Exact.div Exact.toRat
  push_cast
  rw [Nat.cast_natAbs, Int.cast_abs]
  rcases lt_or_gt_of_ne hn with h | h
  · rw [Int.sign_eq_neg_one_of_neg h, abs_of_neg (show (b.num : ℚ) < 0 by exact_mod_cast h)]
    push_cast
    field_simp
  · rw [Int.sign_eq_one_of_pos h, abs_of_pos (show (0 : ℚ) < b.num by exact_mod_cast h)]
    push_cast
    field_simp

theorem Exact.scale_den_pos {a : Exact} (ha : 0 < a.den) (k : Int) : 0 < (a.scale k).den := by
  unfold Exact.scale; positivity

theorem Exact.scale_toRat {a : Exact} (ha : 0 < a.den) (k : Int) : (a.scale k).toRat = a.toRat * 2 ^ k := by
  have h1 : (a.den : ℚ) ≠ 0 := by positivity
  have e : (2 : ℚ) ^ k = 2 ^ k.toNat / 2 ^ (-k).toNat := by
    rw [← zpow_natCast, ← zpow_natCast, ← zpow_sub₀ (by norm_num)]
    congr 1
    omega
  unfold Exact.scale Exact.toRat
  rw [e]
  push_cast
  rw [div_mul_div_comm]

theorem Exact.floor_toRat (a : Exact) : a.floor = ⌊a.toRat⌋ := by
  unfold Exact.floor Exact.toRat
  exact (Rat.floor_intCast_div_natCast a.num a.den).symm

/-- The mantissa that `pack` rounds to. -/
theorem roundedMantissa_eq {v : Exact} (hv : 0 < v.den) (e : Int) :
    roundedMantissa v e .round = ⌊v.toRat / 2 ^ (e - 293) + 1 / 2⌋ := by
  have hs := Exact.scale_den_pos hv (293 - e)
  unfold roundedMantissa
  simp only
  rw [Exact.floor_toRat, Exact.add_toRat hs (by norm_num), Exact.scale_toRat hv]
  have : (2 : ℚ) ^ (293 - e) = (2 ^ (e - 293))⁻¹ := by rw [← zpow_neg]; congr 1; ring
  rw [this, ← div_eq_mul_inv]
  simp [Exact.toRat]

/-- The exponent that `pack` chooses makes a normal fraction. -/
theorem normalExponent_fraction {v : Exact} (hv : 0 < v.den) (hn : v.num ≠ 0) :
    NormalFraction (v.toRat / 2 ^ (normalExponent v - 256)) := by
  have hd : (0 : ℚ) < v.den := by exact_mod_cast hv
  obtain ⟨k, hk⟩ : ∃ k : ℤ, k = (v.num.natAbs.log2 : ℤ) - (v.den.log2 : ℤ) := ⟨_, rfl⟩
  have hp : (0 : ℚ) < 2 ^ k := by positivity
  obtain ⟨g, hg⟩ : ∃ g : ℚ, g = v.toRat * 2 ^ (-k) := ⟨_, rfl⟩
  -- the size of the scaled number
  have habs : 1 / 2 < |g| ∧ |g| < 2 := by
    have n1 := Nat.log2_self_le (n := v.num.natAbs) (by omega)
    have n2 := Nat.lt_log2_self (n := v.num.natAbs)
    have d1 := Nat.log2_self_le (n := v.den) (by omega)
    have d2 := Nat.lt_log2_self (n := v.den)
    generalize v.num.natAbs.log2 = ln at *
    generalize v.den.log2 = ld at *
    have e : |g| = ((v.num.natAbs : ℕ) : ℚ) * 2 ^ ld / (v.den * 2 ^ ln) := by
      rw [hg, abs_mul, abs_of_pos (show (0 : ℚ) < 2 ^ (-k) by positivity), Exact.toRat, abs_div, abs_of_pos hd, hk,
        show -((ln : ℤ) - ld) = (ld : ℤ) - ln by ring, zpow_sub₀ (by norm_num), zpow_natCast, zpow_natCast,
        div_mul_div_comm, Nat.cast_natAbs, Int.cast_abs]
    have q1 : ((2 : ℚ) ^ ln) ≤ v.num.natAbs := by exact_mod_cast n1
    have q2 : (v.num.natAbs : ℚ) < 2 * 2 ^ ln := by rw [pow_succ] at n2; rw [mul_comm]; exact_mod_cast n2
    have q3 : ((2 : ℚ) ^ ld) ≤ v.den := by exact_mod_cast d1
    have q4 : (v.den : ℚ) < 2 * 2 ^ ld := by rw [pow_succ] at d2; rw [mul_comm]; exact_mod_cast d2
    have p1 : (0 : ℚ) < 2 ^ ln := by positivity
    have p2 : (0 : ℚ) < 2 ^ ld := by positivity
    rw [e]
    constructor
    · rw [lt_div_iff₀ (by positivity)]; nlinarith
    · rw [div_lt_iff₀ (by positivity)]; nlinarith
  have hfrac : (v.scale (-k)).fractional = true ↔ (g < 0 ∧ -1 ≤ g) ∨ (0 < g ∧ g < 1) := by
    have hs := Exact.scale_den_pos hv (-k)
    have hsd : (0 : ℚ) < (v.scale (-k)).den := by exact_mod_cast hs
    have hr := Exact.scale_toRat hv (-k)
    rw [← hg, Exact.toRat, div_eq_iff hsd.ne'] at hr
    have hn' : (v.scale (-k)).num ≠ 0 := by
      unfold Exact.scale; exact mul_ne_zero hn (by positivity)
    unfold Exact.fractional
    generalize v.scale (-k) = w at *
    split
    · rename_i h
      have hneg : (w.num : ℚ) < 0 := by exact_mod_cast h
      have hg0 : g < 0 := by by_contra hc; nlinarith
      rw [decide_eq_true_iff]
      constructor
      · intro h1
        have h1' : -(w.den : ℚ) ≤ w.num := by exact_mod_cast h1
        left; exact ⟨hg0, by by_contra hc; nlinarith⟩
      · rintro (⟨_, h1⟩ | ⟨h1, _⟩)
        · have : -(w.den : ℚ) ≤ w.num := by nlinarith
          exact_mod_cast this
        · linarith
    · rename_i h
      have hpos : (0 : ℚ) < w.num := by
        have : 0 < w.num := by omega
        exact_mod_cast this
      have hg0 : 0 < g := by by_contra hc; nlinarith
      rw [decide_eq_true_iff]
      constructor
      · intro h1
        have h1' : (w.num : ℚ) < w.den := by exact_mod_cast h1
        right; exact ⟨hg0, by by_contra hc; nlinarith⟩
      · rintro (⟨h1, _⟩ | ⟨_, h1⟩)
        · linarith
        · have : (w.num : ℚ) < w.den := by nlinarith
          exact_mod_cast this
  have hvg : ∀ j : ℤ, v.toRat / 2 ^ (k + j) = g / 2 ^ j := by
    intro j
    rw [hg, zpow_add₀ (by norm_num), zpow_neg]
    field_simp
  unfold normalExponent
  simp only
  rw [← hk]
  unfold NormalFraction
  split
  · rename_i h
    rw [show k + 256 - 256 = k + 0 by ring, hvg 0, zpow_zero, div_one]
    rcases hfrac.mp h with ⟨h1, h2⟩ | ⟨h1, h2⟩
    · rw [abs_of_neg h1] at habs; right; exact ⟨h2, by linarith⟩
    · rw [abs_of_pos h1] at habs; left; exact ⟨by linarith, h2⟩
  · rename_i h
    rw [show k + 257 - 256 = k + 1 by ring, hvg 1, zpow_one]
    rcases lt_trichotomy g 0 with h1 | h1 | h1
    · have : g < -1 := by
        by_contra hc; exact h (hfrac.mpr (.inl ⟨h1, by linarith⟩))
      rw [abs_of_neg h1] at habs; right; constructor <;> linarith
    · rw [h1] at habs; norm_num at habs
    · have : 1 ≤ g := by
        by_contra hc; exact h (hfrac.mpr (.inr ⟨h1, by linarith⟩))
      rw [abs_of_pos h1] at habs; left; constructor <;> linarith

/-- The renormalised mantissa and exponent: the same number, normalised. -/
theorem renormalise_spec {f : ℚ} (hf : NormalFraction f) (e : Int) :
    let r := renormalise ⌊f * 2 ^ 37 + 1 / 2⌋ e
    NormalFraction (r.1 / 2 ^ 37) ∧ (r.1 : ℚ) * 2 ^ r.2 = ⌊f * 2 ^ 37 + 1 / 2⌋ * 2 ^ e := by
  obtain ⟨mi, hm⟩ : ∃ mi : ℤ, mi = ⌊f * 2 ^ 37 + 1 / 2⌋ := ⟨_, rfl⟩
  have h1 : (mi : ℚ) ≤ f * 2 ^ 37 + 1 / 2 := hm ▸ Int.floor_le _
  have h2 : f * 2 ^ 37 + 1 / 2 < mi + 1 := hm ▸ Int.lt_floor_add_one _
  rw [← hm]
  have hb : (2 ^ 36 ≤ mi ∧ mi ≤ 2 ^ 37) ∨ (-2 ^ 37 ≤ mi ∧ mi ≤ -2 ^ 36) := by
    rcases hf with ⟨a, b⟩ | ⟨a, b⟩
    · left
      have c1 : (2 ^ 36 - 1 : ℚ) < mi := by linarith
      have c2 : (mi : ℚ) < 2 ^ 37 + 1 := by linarith
      have d1 : (2 ^ 36 - 1 : ℤ) < mi := by exact_mod_cast c1
      have d2 : mi < (2 ^ 37 + 1 : ℤ) := by exact_mod_cast c2
      constructor <;> linarith
    · right
      have c1 : (-2 ^ 37 - 1 : ℚ) < mi := by linarith
      have c2 : (mi : ℚ) < -2 ^ 36 + 1 := by linarith
      have d1 : (-2 ^ 37 - 1 : ℤ) < mi := by exact_mod_cast c1
      have d2 : mi < (-2 ^ 36 + 1 : ℤ) := by exact_mod_cast c2
      constructor <;> linarith
  clear h1 h2 hm hf
  unfold renormalise NormalFraction
  simp only
  split
  · rename_i h
    subst h
    refine ⟨by left; norm_num, ?_⟩
    rw [zpow_add₀ (by norm_num)]
    push_cast
    ring
  · split
    · rename_i h
      subst h
      refine ⟨by right; norm_num, ?_⟩
      rw [zpow_sub₀ (by norm_num)]
      push_cast
      ring
    · rename_i n1 n2
      refine ⟨?_, rfl⟩
      rcases hb with ⟨a, b⟩ | ⟨a, b⟩
      · left
        have a' : (2 ^ 36 : ℚ) ≤ mi := by exact_mod_cast a
        have b' : (mi : ℚ) < 2 ^ 37 := by exact_mod_cast lt_of_le_of_ne b n1
        constructor
        · rw [le_div_iff₀ (by positivity)]; linarith
        · rw [div_lt_iff₀ (by positivity)]; linarith
      · right
        have a' : (-2 ^ 37 : ℚ) ≤ mi := by exact_mod_cast a
        have b' : (mi : ℚ) < -2 ^ 36 := by exact_mod_cast lt_of_le_of_ne b n2
        constructor
        · rw [le_div_iff₀ (by positivity)]; linarith
        · rw [div_lt_iff₀ (by positivity)]; linarith

/-- What the shared tail answers: the exact number, rounded. -/
theorem pack_rounded {v : Exact} (hv : 0 < v.den) : Rounded v.toRat (pack v .round) := by
  unfold pack
  by_cases hn : v.num = 0
  · rw [if_pos hn]
    exact .inl ⟨by simp [Exact.toRat, hn], rfl⟩
  · rw [if_neg hn]
    have hf := normalExponent_fraction hv hn
    obtain ⟨e, he⟩ : ∃ e, e = normalExponent v := ⟨_, rfl⟩
    rw [← he] at hf ⊢
    have hm : roundedMantissa v e .round = ⌊v.toRat / 2 ^ (e - 256) * 2 ^ 37 + 1 / 2⌋ := by
      rw [roundedMantissa_eq hv, show e - 256 = (e - 293) + 37 by ring, zpow_add₀ (by norm_num)]
      congr 2
      field_simp
    obtain ⟨h1, h2⟩ := renormalise_spec hf e
    rw [← hm] at h1 h2
    refine .inr ⟨e, (renormalise (roundedMantissa v e .round) e).2, (renormalise (roundedMantissa v e .round) e).1, hf, h1,
      ?_, rfl⟩
    rw [h2, roundedMantissa_eq hv]

end Sys2Proof.Machine
end

