-- ==== Sys2Proof/Laws/Shift.lean ====
section
/-! SUPPORT. The shift function in closed form: what any number of its steps comes to, and where it overflows
(42_char_shift_misc.md R221). -/

namespace Sys2Proof.Machine

/-- A shift of one place or more is a step and the shift that is left. -/
theorem shift_succ {w : Nat} (dir : ShiftDir) (mode : ShiftMode) (n : Nat) (v : BitVec w) :
    shift dir mode (n + 1) v = ((shift dir mode n (shiftStep dir mode v)).1,
      shiftStepOverflows dir mode v || (shift dir mode n (shiftStep dir mode v)).2) := rfl

/-- One step of a logical or arithmetic left shift. -/
theorem shiftStep_left {w : Nat} {mode : ShiftMode} (hm : mode ≠ .circular) (v : BitVec w) :
    shiftStep .left mode v = v <<< 1 := by
  cases mode <;> simp_all [shiftStep, leftFill]

/-- A logical or arithmetic left shift. -/
theorem shift_left_value {w : Nat} {mode : ShiftMode} (hm : mode ≠ .circular) (n : Nat) (v : BitVec w) :
    (shift .left mode n v).1 = v <<< n := by
  induction n generalizing v with
  | zero => simp [shift]
  | succ n ih => rw [shift_succ, shiftStep_left hm, ih, ← BitVec.shiftLeft_add, Nat.add_comm]

/-- One step of a circular left shift. -/
theorem shiftStep_left_circular {w : Nat} (hw : 1 < w) (v : BitVec w) :
    shiftStep .left .circular v = v.rotateLeft 1 := by
  apply BitVec.eq_of_getLsbD_eq
  intro i hi
  have h1 : 1 % w = 1 := Nat.mod_eq_of_lt hw
  simp only [shiftStep, leftFill, BitVec.getLsbD_or, BitVec.getLsbD_shiftLeft, BitVec.getLsbD_setWidth,
    BitVec.getLsbD_rotateLeft, h1, BitVec.msb_eq_getLsbD_last, hi, decide_true, Bool.true_and]
  by_cases h : i < 1
  · obtain rfl : i = 0 := by omega
    simp
  · have : (BitVec.ofBool (v.getLsbD (w - 1))).getLsbD i = false := BitVec.getLsbD_of_ge _ _ (by omega)
    simp [h, this]

/-- One step of a circular right shift. -/
theorem shiftStep_right_circular {w : Nat} (hw : 1 < w) (v : BitVec w) :
    shiftStep .right .circular v = v.rotateRight 1 := by
  apply BitVec.eq_of_getLsbD_eq
  intro i hi
  have h1 : 1 % w = 1 := Nat.mod_eq_of_lt hw
  simp only [shiftStep, rightFill, BitVec.getLsbD_or, BitVec.getLsbD_shiftLeft, BitVec.getLsbD_setWidth,
    BitVec.getLsbD_ushiftRight, BitVec.getLsbD_rotateRight, h1, hi, decide_true, Bool.true_and]
  by_cases h : i < w - 1
  · simp [h, Nat.add_comm]
  · obtain rfl : i = w - 1 := by omega
    have h3 : v.getLsbD (1 + (w - 1)) = false := BitVec.getLsbD_of_ge _ _ (by omega)
    have h4 : 0 < w := by omega
    simp [h3, h4]

/-- A rotation by one place and then by more. -/
theorem rotateLeft_succ {w : Nat} (hw : 1 < w) (n : Nat) (v : BitVec w) :
    (v.rotateLeft 1).rotateLeft n = v.rotateLeft (n + 1) := by
  apply BitVec.eq_of_getMsbD_eq
  intro i hi
  have h1 : 1 % w = 1 := Nat.mod_eq_of_lt hw
  have hm : (n + i) % w < w := Nat.mod_lt _ (by omega)
  simp only [BitVec.getMsbD_rotateLeft, hi, decide_true, Bool.true_and, hm]
  congr 1
  rw [Nat.add_mod_mod]; congr 1; omega

/-- A rotation by one place and then by more. -/
theorem rotateRight_succ {w : Nat} (hw : 1 < w) (n : Nat) (v : BitVec w) :
    (v.rotateRight 1).rotateRight n = v.rotateRight (n + 1) := by
  have key : ∀ (u : BitVec w) (k i : Nat), i < w → (u.rotateRight k).getLsbD i = u.getLsbD ((i + k) % w) := by
    intro u k i hi
    rw [BitVec.getLsbD_rotateRight]
    have hk : k % w < w := Nat.mod_lt _ (by omega)
    rw [Nat.add_mod, Nat.mod_eq_of_lt hi]
    by_cases h : i < w - k % w
    · rw [decide_eq_true h, cond_true, Nat.mod_eq_of_lt (show i + k % w < w by omega), Nat.add_comm]
    · rw [decide_eq_false h, cond_false]
      have : (i + k % w) % w = i - (w - k % w) := by
        rw [Nat.mod_eq_sub_mod (by omega), Nat.mod_eq_of_lt (by omega)]; omega
      rw [this]; simp [hi]
  apply BitVec.eq_of_getLsbD_eq
  intro i hi
  have hm : (i + n) % w < w := Nat.mod_lt _ (by omega)
  rw [key _ _ _ hi, key _ _ _ hm, key _ _ _ hi, Nat.mod_add_mod, Nat.add_assoc]

/-- A circular left shift is a rotation. -/
theorem shift_left_circular {w : Nat} (hw : 1 < w) (n : Nat) (v : BitVec w) :
    (shift .left .circular n v).1 = v.rotateLeft n := by
  induction n generalizing v with
  | zero =>
    apply BitVec.eq_of_getMsbD_eq
    intro i hi
    simp [shift, BitVec.getMsbD_rotateLeft, hi, Nat.mod_eq_of_lt hi]
  | succ n ih => rw [shift_succ, shiftStep_left_circular hw, ih, rotateLeft_succ hw]

/-- A circular right shift is a rotation. -/
theorem shift_right_circular {w : Nat} (hw : 1 < w) (n : Nat) (v : BitVec w) :
    (shift .right .circular n v).1 = v.rotateRight n := by
  induction n generalizing v with
  | zero =>
    apply BitVec.eq_of_getLsbD_eq
    intro i hi
    simp [shift, hi]
  | succ n ih => rw [shift_succ, shiftStep_right_circular hw, ih, rotateRight_succ hw]

/-- A logical right shift. -/
theorem shift_right_logical {w : Nat} (n : Nat) (v : BitVec w) : (shift .right .logical n v).1 = v >>> n := by
  induction n generalizing v with
  | zero => simp [shift]
  | succ n ih =>
    have : shiftStep .right .logical v = v >>> 1 := by simp [shiftStep, rightFill]
    rw [shift_succ, this, ih, ← BitVec.shiftRight_add, Nat.add_comm]

/-- An arithmetic right shift. -/
theorem shift_right_arithmetic {w : Nat} (hw : 0 < w) (n : Nat) (v : BitVec w) :
    (shift .right .arithmetic n v).1 = v.sshiftRight n := by
  induction n generalizing v with
  | zero => simp [shift]
  | succ n ih =>
    have h1 : shiftStep .right .arithmetic v = v.sshiftRight 1 := by
      apply BitVec.eq_of_getLsbD_eq
      intro i hi
      simp only [shiftStep, rightFill, BitVec.getLsbD_or, BitVec.getLsbD_shiftLeft, BitVec.getLsbD_setWidth,
        BitVec.getLsbD_ushiftRight, BitVec.getLsbD_sshiftRight, hi, decide_true, Bool.true_and]
      by_cases h : i < w - 1
      · have h' : 1 + i < w := by omega
        have h'' : ¬w ≤ i := by omega
        simp [h, h', h'']
      · obtain rfl : i = w - 1 := by omega
        have h' : ¬1 + (w - 1) < w := by omega
        have h'' : ¬w ≤ w - 1 := by omega
        have h3 : v.getLsbD (1 + (w - 1)) = false := BitVec.getLsbD_of_ge _ _ (by omega)
        simp [h', h'', h3, hw]
    rw [shift_succ, h1, ih, ← BitVec.sshiftRight_add, Nat.add_comm]

/-- Only an arithmetic left shift overflows. -/
theorem shift_no_overflow {w : Nat} {dir : ShiftDir} {mode : ShiftMode} (h : ¬(dir = .left ∧ mode = .arithmetic))
    (n : Nat) (v : BitVec w) : (shift dir mode n v).2 = false := by
  induction n generalizing v with
  | zero => rfl
  | succ n ih =>
    rw [shift_succ, ih]
    cases dir <;> cases mode <;> simp_all [shiftStepOverflows]

/-- An arithmetic left shift overflows exactly where some bit that comes to the sign position differs from the sign. -/
theorem shift_overflow {w : Nat} (n : Nat) (v : BitVec w) :
    (shift .left .arithmetic n v).2 = signChanges v n := by
  have bits : ∀ (u : BitVec w) (j : Nat), (u <<< 1).getMsbD j = u.getMsbD (j + 1) := by
    intro u j
    rw [BitVec.getMsbD_shiftLeft, Nat.add_comm]
  have sign : ∀ u : BitVec w, u.msb = u.getMsbD 0 := fun u => rfl
  have unfolded : ∀ (u : BitVec w) (k : Nat), signChanges u k = true ↔ ∃ j, j ≤ k ∧ u.getMsbD j ≠ u.getMsbD 0 := by
    intro u k
    unfold signChanges
    simp [sign]
  induction n generalizing v with
  | zero => simp [shift, signChanges, sign]
  | succ n ih =>
    rw [shift_succ, ih, Bool.eq_iff_iff]
    simp only [Bool.or_eq_true, unfolded, shiftStepOverflows, shiftStep_left (show ShiftMode.arithmetic ≠ .circular by decide),
      bits, sign, bne_iff_ne]
    constructor
    · rintro (h | ⟨j, h1, h2⟩)
      · exact ⟨1, by omega, h⟩
      · by_cases h0 : v.getMsbD 1 = v.getMsbD 0
        · exact ⟨j + 1, by omega, by rw [← h0]; exact h2⟩
        · exact ⟨1, by omega, h0⟩
    · rintro ⟨j, h1, h2⟩
      by_cases h0 : v.getMsbD (0 + 1) = v.getMsbD 0
      · cases j with
        | zero => exact absurd rfl h2
        | succ j => exact .inr ⟨j, by omega, by rw [h0]; exact h2⟩
      · exact .inl h0

end Sys2Proof.Machine
end

