-- ==== Sys2Proof/Tests/Slice0.lean ====
section
/-! SUPPORT. The model's own tests: the checks of WellFormed, the decoding of every row from a word written out from its
encoding, one step of every instruction on the values of 95_test_vectors.md, reset, and for every statement with hypotheses a
state and operands that meet them. -/

namespace Sys2Proof.Tests

open Sys2Proof.Machine

/-! ### Helpers -/

/-- Memory with these words, in canonical form. -/
def memoryOf (cells : List Cell) : Memory := cells.foldl (fun mem c => mem.write c.1 c.2) []

/-- The default start of a test vector (95_test_vectors.md): user mode, PC = 0100, with these registers and words. -/
def user (regs : List (RegIx × Word)) (cells : List Cell) : State :=
  regs.foldl (fun s r => s.setReg r.1 r.2)
    { State.resetWith defaultConfig (memoryOf cells) with executive := false, loading := false, pc := 0o100 }

/-- The same start in executive mode. -/
def executive (regs : List (RegIx × Word)) (cells : List Cell) : State := { user regs cells with executive := true }

/-- What is answered is a next state with this property. -/
def answers (r : Result) (p : State → Bool) : Bool :=
  match r with
  | .next t => p t
  | .fault _ => false
  | .refused _ => false

/-- One step answers a next state with this property. -/
def goes (s : State) (p : State → Bool) : Bool := answers (step s) p

/-- One step is refused for this reason. -/
def stops (s : State) (r : Refusal) : Bool :=
  match step s with
  | .next _ => false
  | .fault _ => false
  | .refused q => decide (q = r)

/-- These words decode to these instructions, with the default codes. -/
def decodes (words : List (Nat × Instr)) : Bool :=
  words.all fun e => match decode defaultCodes (BitVec.ofNat 24 e.1) with
    | .ok i => decide (i = e.2)
    | .error _ => false

/-- These words match no row, and are answered by these names. -/
def reserved (words : List (Nat × Reserved)) : Bool :=
  words.all fun e => match decode defaultCodes (BitVec.ofNat 24 e.1) with
    | .ok _ => false
    | .error r => decide (r = e.2)

/-! ### Well-formedness -/

theorem test_search_code_below_refused : (Instr.search 0o147 1 0 0).wf = false := by decide
theorem test_search_code_above_refused : (Instr.search 0o166 1 0 0).wf = false := by decide
theorem test_search_codes_accepted : (Instr.search 0o150 1 0 0).wf = true ∧ (Instr.search 0o165 1 0 0).wf = true := by decide
theorem test_plain_accepted : (Instr.adx 7 3 0o7777).wf = true := by decide

/-! ### Decoding -/

/-- The function codes 000 to 007 (30_encoding.md R100): X, F, M, N from the top bit down. -/
theorem test_decode_codes_00 : decodes
    [ (0b001_0000000_01_011111011001, .ldx 1 1 0b011111011001),
      (0b100_0000001_10_101001110101, .adx 4 2 0b101001110101),
      (0b111_0000010_11_110100010001, .ngx 7 3 0b110100010001),
      (0b010_0000011_00_111110101101, .sbx 2 0 0b111110101101),
      (0b101_0000100_01_001001001001, .ldxc 5 1 0b001001001001),
      (0b000_0000101_10_010011100101, .adxc 0 2 0b010011100101),
      (0b011_0000110_11_011110000001, .ngxc 3 3 0b011110000001),
      (0b110_0000111_00_101000011101, .sbxc 6 0 0b101000011101) ] := by decide

/-- The function codes 010 to 017 (30_encoding.md R100): X, F, M, N from the top bit down. -/
theorem test_decode_codes_01 : decodes
    [ (0b001_0001000_01_110010111001, .sto 1 1 0b110010111001),
      (0b100_0001001_10_111101010101, .ads 4 2 0b111101010101),
      (0b111_0001010_11_000111110001, .ngs 7 3 0b000111110001),
      (0b010_0001011_00_010010001101, .sbs 2 0 0b010010001101),
      (0b101_0001100_01_011100101001, .stoc 5 1 0b011100101001),
      (0b000_0001101_10_100111000101, .adsc 0 2 0b100111000101),
      (0b011_0001110_11_110001100001, .ngsc 3 3 0b110001100001),
      (0b110_0001111_00_111011111101, .sbsc 6 0 0b111011111101) ] := by decide

/-- The function codes 020 to 027 (30_encoding.md R100): X, F, M, N from the top bit down. -/
theorem test_decode_codes_02 : decodes
    [ (0b001_0010000_01_000110011001, .andx 1 1 0b000110011001),
      (0b100_0010001_10_010000110101, .orx 4 2 0b010000110101),
      (0b111_0010010_11_011011010001, .erx 7 3 0b011011010001),
      (0b010_0010011_00_100101101101, .obey 2 0 0b100101101101),
      (0b101_0010100_01_110000001001, .ldch 5 1 0b110000001001),
      (0b000_0010101_10_111010100101, .ldex 0 2 0b111010100101),
      (0b011_0010110_11_000101000001, .txu 3 3 0b000101000001),
      (0b110_0010111_00_001111011101, .txl 6 0 0b001111011101) ] := by decide

/-- The function codes 030 to 037 (30_encoding.md R100): X, F, M, N from the top bit down. -/
theorem test_decode_codes_03 : decodes
    [ (0b001_0011000_01_011001111001, .ands 1 1 0b011001111001),
      (0b100_0011001_10_100100010101, .ors 4 2 0b100100010101),
      (0b111_0011010_11_101110110001, .ers 7 3 0b101110110001),
      (0b010_0011011_00_111001001101, .stoz 2 0 0b111001001101),
      (0b101_0011100_01_000011101001, .dch 5 1 0b000011101001),
      (0b000_0011101_10_001110000101, .dex 0 2 0b001110000101),
      (0b011_0011110_11_011000100001, .dsa 3 3 0b011000100001),
      (0b110_0011111_00_100010111101, .dla 6 0 0b100010111101) ] := by decide

/-- The function codes 040 to 047 (30_encoding.md R100): X, F, M, N from the top bit down. -/
theorem test_decode_codes_04 : decodes
    [ (0b001_0100000_01_101101011001, .mpy 1 1 0b101101011001),
      (0b100_0100001_10_110111110101, .mpr 4 2 0b110111110101),
      (0b111_0100010_11_000010010001, .mpa 7 3 0b000010010001),
      (0b010_0100011_00_001100101101, .cdb 2 0 0b001100101101),
      (0b101_0100100_01_010111001001, .dvd 5 1 0b010111001001),
      (0b000_0100101_10_100001100101, .dvr 0 2 0b100001100101),
      (0b011_0100110_11_101100000001, .dvs 3 3 0b101100000001),
      (0b110_0100111_00_110110011101, .cbd 6 0 0b110110011101) ] := by decide

/-- The branches on a register (format B, 30_encoding.md R92, R100): X, F6, N15 from the top bit down. -/
theorem test_decode_branches : decodes
    [ (0b001_010100_101100010110100, .bze 1 0b101100010110100),
      (0b100_010101_110110110011001, .bnz 4 0b110110110011001),
      (0b111_010110_000001001111110, .bpz 7 0b000001001111110),
      (0b010_010111_001011101100011, .bng 2 0b001011101100011),
      (0b101_011000_010110001001000, .bux 5 0b010110001001000),
      (0b000_011001_100000100101101, .bdx 0 0b100000100101101),
      (0b011_011010_101011000010010, .bchx 3 0b101011000010010),
      (0b110_011011_110101011110111, .bct 6 0b110101011110111),
      (0b001_011100_111111111011100, .call 1 0b111111111011100),
      (0b100_011101_001010011000001, .exit 4 0b001010011000001) ] := by decide

/-- The flag branches, X the condition (45_branch.md R342): X, F6, N15 from the top bit down. -/
theorem test_decode_flag_branches : decodes
    [ (0b000_011110_010100110100110, .brn 0b010100110100110),
      (0b001_011110_011111010001011, .bvs 0b011111010001011),
      (0b010_011110_101001101110000, .bvsr 0b101001101110000),
      (0b011_011110_110100001010101, .bvc 0b110100001010101),
      (0b100_011110_111110100111010, .bvcr 0b111110100111010),
      (0b101_011110_001001000011111, .bcs 0b001001000011111),
      (0b110_011110_010011100000100, .bcc 0b010011100000100),
      (0b111_011110_011101111101001, .bvci 0b011101111101001) ] := by decide

/-- The floating branches, X the condition (45_branch.md R351): X, F6, N15 from the top bit down. -/
theorem test_decode_float_branches : decodes
    [ (0b000_011111_101000011001110, .bfp0 0b101000011001110),
      (0b001_011111_110010110110011, .bfp1 0b110010110110011),
      (0b010_011111_111101010011000, .bfp2 0b111101010011000),
      (0b011_011111_000111101111101, .bfp3 0b000111101111101),
      (0b100_011111_010010001100010, .bfp4 0b010010001100010),
      (0b101_011111_011100101000111, .bfp5 0b011100101000111) ] := by decide

/-- The function codes 100 to 107 (30_encoding.md R100): X, F, M, N from the top bit down. -/
theorem test_decode_codes_10 : decodes
    [ (0b001_1000000_01_111011011001, .ldn 1 1 0b111011011001),
      (0b100_1000001_10_000101110101, .adn 4 2 0b000101110101),
      (0b111_1000010_11_010000010001, .ngn 7 3 0b010000010001),
      (0b010_1000011_00_011010101101, .sbn 2 0 0b011010101101),
      (0b101_1000100_01_100101001001, .ldnc 5 1 0b100101001001),
      (0b000_1000101_10_101111100101, .adnc 0 2 0b101111100101),
      (0b011_1000110_11_111010000001, .ngnc 3 3 0b111010000001),
      (0b110_1000111_00_000100011101, .sbnc 6 0 0b000100011101) ] := by decide

/-- The shifts, submode in bits 11:10 (30_encoding.md R102): X, F, M, N from the top bit down. -/
theorem test_decode_shifts : decodes
    [ (0b001_1001000_01_001110110111, .slc 1 1 0b1110110111),
      (0b100_1001000_10_010110110110, .sll 4 2 0b0110110110),
      (0b111_1001000_11_101110110101, .sla 7 3 0b1110110101),
      (0b010_1001001_00_000110110100, .slcd 2 0 0b0110110100),
      (0b101_1001001_01_011110110011, .slld 5 1 0b1110110011),
      (0b000_1001001_10_100110110010, .slad 0 2 0b0110110010),
      (0b011_1001010_11_001110110001, .src 3 3 0b1110110001),
      (0b110_1001010_00_010110110000, .srl 6 0 0b0110110000),
      (0b001_1001010_01_101110101111, .sra 1 1 0b1110101111),
      (0b100_1001011_10_000110101110, .srcd 4 2 0b0110101110),
      (0b111_1001011_11_011110101101, .srld 7 3 0b1110101101),
      (0b010_1001011_00_100110101100, .srad 2 0 0b0110101100) ] := by decide

/-- The function codes 110 to 117 (30_encoding.md R100): X, F, M, N from the top bit down. -/
theorem test_decode_codes_11 : decodes
    [ (0b101_1001100_01_001100001001, .norm 5 1 0b001100001001),
      (0b000_1001101_10_010110100101, .normd 0 2 0b010110100101),
      (0b011_1001110_11_100001000001, .mvch 3 3 0b100001000001),
      (0b110_1001111_00_101011011101, .smo 6 0 0b101011011101) ] := by decide

/-- The function codes 120 to 127 (30_encoding.md R100): X, F, M, N from the top bit down. -/
theorem test_decode_codes_12 : decodes
    [ (0b001_1010000_01_110101111001, .andn 1 1 0b110101111001),
      (0b100_1010001_10_000000010101, .orn 4 2 0b000000010101),
      (0b111_1010010_11_001010110001, .ern 7 3 0b001010110001),
      (0b010_1010011_00_010101001101, .null 2 0 0b010101001101),
      (0b101_1010100_01_011111101001, .ldct 5 1 0b011111101001),
      (0b000_1010101_10_101010000101, .mode 0 2 0b101010000101),
      (0b011_1010110_11_110100100001, .move 3 3 0b110100100001),
      (0b110_1010111_00_111110111101, .sum 6 0 0b111110111101) ] := by decide

/-- The function codes 130 to 137 (30_encoding.md R100): X, F, M, N from the top bit down. -/
theorem test_decode_codes_13 : decodes
    [ (0b001_1011000_01_001001011001, .float 1 1 0b001001011001),
      (0b100_1011001_10_010011110101, .fix 4 2 0b010011110101),
      (0b111_1011010_11_011110010001, .fad 7 3 0b011110010001),
      (0b010_1011011_00_101000101101, .fsb 2 0 0b101000101101),
      (0b101_1011100_01_110011001001, .fmpy 5 1 0b110011001001),
      (0b000_1011101_10_111101100101, .fdvd 0 2 0b111101100101),
      (0b011_1011110_11_001000000001, .lfp 3 3 0b001000000001),
      (0b110_1011111_00_010010011101, .sfp 6 0 0b010010011101) ] := by decide

/-- The executive orders at their default codes (46_executive.md R370, R382): X, F, M, N from the top bit down. -/
theorem test_decode_executive : decodes
    [ (0b001_1100000_01_011100111001, .rsr 1 1 0b011100111001),
      (0b100_1100001_10_100111010101, .wsr 4 2 0b100111010101),
      (0b111_1100010_11_110001110001, .exx 7 3 0b110001110001),
      (0b010_1100011_00_111100001101, .ldl 2 0 0b111100001101),
      (0b101_1100100_01_000110101001, .ldm 5 1 0b000110101001),
      (0b000_1100101_10_010001000101, .tdl 0 2 0b010001000101),
      (0b011_1100110_11_011011100001, .peri 3 3 0b011011100001),
      (0b110_1110110_00_100101111101, .xferIn 6 0 0b100101111101),
      (0b001_1110111_01_110000011001, .xferOut 1 1 0b110000011001),
      (0b100_1101000_10_111010110101, .search 0b1101000 4 2 0b111010110101),
      (0b100_1110101_10_111010110101, .search 0b1110101 4 2 0b111010110101) ] := by decide
/-- The words that match no row (30_encoding.md R104): a shift with submode 3, floating conditions 6 and 7, the codes that no
parameter and no search list names. -/
theorem test_decode_reserved : reserved
    [ (0b001_1001000_10_110000000001, .shiftSubmode3 0o110 1 2 0b0000000001),
      (0b111_1001011_00_111111111111, .shiftSubmode3 0o113 7 0 0b1111111111),
      (0b110_011111_000000010000000, .floatCondition 6 0b000000010000000),
      (0b111_011111_111111111111111, .floatCondition 7 0b111111111111111),
      (0b001_1100111_00_000000000000, .unassignedExec 0o147 1 0 0),
      (0b001_1111000_00_000000000000, .unassignedExec 0o170 1 0 0),
      (0b001_1111111_11_000000000001, .unassignedExec 0o177 1 3 1) ] := by decide

/-- A row's word as the opcode table numbers its bits: `LDX` with every operand bit 0, and with more bits given. -/
theorem test_decode_table_word : decodeTableWord 24 0 = some (.ldx 0 0 0) ∧
    decodeTableWord 24 0o16400000 = some (.search 0o150 1 0 0) ∧ decodeTableWord 24 0o14406001 = none := by decide

/-! ### One step of each instruction -/

/-- V56, LDX 1 0200: 20_memory.md R68. -/
theorem test_ldx :
    goes { user [] [(0o1100, 0o10000200), (0o1200, 0o4321)] with rd := 0o1000, rl := 0o2000 } fun t =>
      t.reg 1 == 0o4321 && t.pc == 0o101 := by decide

/-- V57, LDX 1 01000: 20_memory.md R68; 40_dispatch.md R136. -/
theorem test_ldx_again :
    goes { user [(1, 0o7)] [(0o1100, 0o10001000)] with rd := 0o1000, rl := 0o2000 } fun t =>
      t.pc == 0o101 && t.sr64 == 0o40000000 := by decide

/-- V1, ADX 1 0200: R161, R165. -/
theorem test_adx :
    goes (user [(1, 0o20000000)] [(0o100, 0o10040200), (0o200, 0o20000000)]) fun t =>
      t.reg 1 == 0o40000000 && t.pc == 0o101 && t.v := by decide

/-- V2, ADX 1 0200: R161, R165. -/
theorem test_adx_again :
    goes (user [(1, 0o77777777)] [(0o100, 0o10040200), (0o200, 0o1)]) fun t =>
      t.reg 1 == 0 && t.pc == 0o101 && t.c := by decide

/-- V11, NGX 1 0200: R166. -/
theorem test_ngx :
    goes (user [] [(0o100, 0o10100200), (0o200, 0o1)]) fun t =>
      t.reg 1 == 0o77777777 && t.pc == 0o101 && t.c := by decide

/-- V12, NGX 1 0200: R166. -/
theorem test_ngx_again :
    goes (user [] [(0o100, 0o10100200), (0o200, 0o40000000)]) fun t =>
      t.reg 1 == 0o40000000 && t.pc == 0o101 && t.v && t.c := by decide

/-- V7, SBX 1 0200: R161, R167. -/
theorem test_sbx :
    goes (user [(1, 0o3)] [(0o100, 0o10140200), (0o200, 0o5)]) fun t =>
      t.reg 1 == 0o77777776 && t.pc == 0o101 && t.c := by decide

/-- V8, SBX 1 0200: R161, R167. -/
theorem test_sbx_again :
    goes (user [(1, 0o40000000)] [(0o100, 0o10140200), (0o200, 0o1)]) fun t =>
      t.reg 1 == 0o37777777 && t.pc == 0o101 && t.v := by decide

/-- V14, LDXC 1 0200: R168. -/
theorem test_ldxc :
    goes { user [] [(0o100, 0o10200200), (0o200, 0o77777777)] with c := true } fun t =>
      t.pc == 0o101 && t.reg 1 == 0 && t.c := by decide

/-- V15, ADXC 1 0200: R169. -/
theorem test_adxc :
    goes { user [(1, 0o10)] [(0o100, 0o10240200), (0o200, 0o20)] with c := true } fun t =>
      t.reg 1 == 0o31 && t.pc == 0o101 && !t.c := by decide

/-- V16, NGXC 1 0200: R170. -/
theorem test_ngxc :
    goes { user [] [(0o100, 0o10300200), (0o200, 0o5)] with c := true } fun t =>
      t.reg 1 == 0o77777772 && t.pc == 0o101 := by decide

/-- V17, SBXC 1 0200: R171. -/
theorem test_sbxc :
    goes { user [(1, 0o5)] [(0o100, 0o10340200), (0o200, 0o3)] with c := true } fun t =>
      t.reg 1 == 0o1 && t.pc == 0o101 && !t.c := by decide

/-- V18, SBXC 1 0200: R171. -/
theorem test_sbxc_again :
    goes { user [(1, 0o3)] [(0o100, 0o10340200), (0o200, 0o3)] with c := true } fun t =>
      t.reg 1 == 0o77777777 && t.pc == 0o101 := by decide

/-- V19, STO 1 0200: R172. -/
theorem test_sto :
    goes { user [(1, 0o1234)] [(0o100, 0o10400200)] with c := true } fun t =>
      t.pc == 0o101 && t.mem.read 0o200 == 0o1234 := by decide

/-- V55, STO 1 3: 20_memory.md R68. -/
theorem test_sto_again :
    goes (executive [(1, 0o55)] [(0o100, 0o10400003)]) fun t =>
      t.pc == 0o101 && t.mem.read 0o3 == 0o55 := by decide

/-- V20, ADS 1 0200: R173. -/
theorem test_ads :
    goes (user [(1, 0o2)] [(0o100, 0o10440200), (0o200, 0o77777777)]) fun t =>
      t.pc == 0o101 && t.c && t.mem.read 0o200 == 0o1 := by decide

/-- V21, NGS 1 0200: R174. -/
theorem test_ngs :
    goes (user [(1, 0o2)] [(0o100, 0o10500200)]) fun t =>
      t.pc == 0o101 && t.c && t.mem.read 0o200 == 0o77777776 := by decide

/-- V22, SBS 1 0200: R175. -/
theorem test_sbs :
    goes (user [(1, 0o2)] [(0o100, 0o10540200), (0o200, 0o7)]) fun t =>
      t.pc == 0o101 && t.mem.read 0o200 == 0o5 := by decide

/-- V23, STOC 1 0200: R176. -/
theorem test_stoc :
    goes { user [(1, 0o2)] [(0o100, 0o10600200)] with c := true } fun t =>
      t.pc == 0o101 && !t.c && t.mem.read 0o200 == 0o3 := by decide

/-- V24, ADSC 1 0200: R177. -/
theorem test_adsc :
    goes { user [(1, 0o2)] [(0o100, 0o10640200), (0o200, 0o3)] with c := true } fun t =>
      t.pc == 0o101 && !t.c && t.mem.read 0o200 == 0o6 := by decide

/-- V25, NGSC 1 0200: R178. -/
theorem test_ngsc :
    goes { user [(1, 0o2)] [(0o100, 0o10700200)] with c := true } fun t =>
      t.pc == 0o101 && t.mem.read 0o200 == 0o77777775 := by decide

/-- V26, SBSC 1 0200: R179. -/
theorem test_sbsc :
    goes { user [(1, 0o2)] [(0o100, 0o10740200), (0o200, 0o7)] with c := true } fun t =>
      t.pc == 0o101 && !t.c && t.mem.read 0o200 == 0o4 := by decide

/-- V36, ANDX 1 0200: R188. -/
theorem test_andx :
    goes { user [(1, 0o12345670)] [(0o100, 0o11000200), (0o200, 0o77770000)] with c := true } fun t =>
      t.reg 1 == 0o12340000 && t.pc == 0o101 && !t.c := by decide

/-- V37, ORX 1 0200: R189. -/
theorem test_orx :
    goes (user [(1, 0o12345670)] [(0o100, 0o11040200), (0o200, 0o7)]) fun t =>
      t.reg 1 == 0o12345677 && t.pc == 0o101 := by decide

/-- V38, ERX 1 0200: R190. -/
theorem test_erx :
    goes (user [(1, 0o12345670)] [(0o100, 0o11100200), (0o200, 0o77777777)]) fun t =>
      t.reg 1 == 0o65432107 && t.pc == 0o101 := by decide

/-- V73, LDCH 1 0100(2): R212. -/
theorem test_ldch :
    goes (user [(2, 0o20000100)] [(0o100, 0o11220100), (0o200, 0o12345670)]) fun t =>
      t.reg 1 == 0o34 && t.pc == 0o101 := by decide

/-- V78, LDEX 1 0200: R214. -/
theorem test_ldex :
    goes (user [] [(0o100, 0o11240200), (0o200, 0o12345670)]) fun t =>
      t.reg 1 == 0o670 && t.pc == 0o101 := by decide

/-- V47, TXU 1 0200: R198. -/
theorem test_txu :
    goes { user [(1, 0o5)] [(0o100, 0o11300200), (0o200, 0o5)] with c := true } fun t =>
      t.pc == 0o101 && !t.c := by decide

/-- V48, TXU 1 0200: R198. -/
theorem test_txu_again :
    goes (user [(1, 0o5)] [(0o100, 0o11300200), (0o200, 0o6)]) fun t =>
      t.pc == 0o101 && t.c := by decide

/-- V49, TXL 1 0200: R199. -/
theorem test_txl :
    goes (user [(1, 0o77777777)] [(0o100, 0o11340200), (0o200, 0)]) fun t =>
      t.pc == 0o101 && t.c := by decide

/-- V51, TXL 1 0200: R199. -/
theorem test_txl_again :
    goes { user [(1, 0o5)] [(0o100, 0o11340200), (0o200, 0o5)] with c := true } fun t =>
      t.pc == 0o101 := by decide

/-- V40, ANDS 1 0200: R191. -/
theorem test_ands :
    goes (user [(1, 0o77)] [(0o100, 0o11400200), (0o200, 0o12345670)]) fun t =>
      t.pc == 0o101 && t.mem.read 0o200 == 0o70 := by decide

/-- V41, ORS 1 0200: R192. -/
theorem test_ors :
    goes (user [(1, 0o77)] [(0o100, 0o11440200), (0o200, 0o12345600)]) fun t =>
      t.pc == 0o101 && t.mem.read 0o200 == 0o12345677 := by decide

/-- V42, ERS 1 0200: R193. -/
theorem test_ers :
    goes (user [(1, 0o77)] [(0o100, 0o11500200), (0o200, 0o12345670)]) fun t =>
      t.pc == 0o101 && t.mem.read 0o200 == 0o12345607 := by decide

/-- V46, STOZ 0 0200: R197. -/
theorem test_stoz :
    goes { user [] [(0o100, 0o1540200), (0o200, 0o12345670)] with c := true } fun t =>
      t.pc == 0o101 && t.mem.read 0o200 == 0 := by decide

/-- V76, DCH 1 0(2): R213. -/
theorem test_dch :
    goes (user [(1, 0o77), (2, 0o40000200)] [(0o100, 0o11620000), (0o200, 0o12345670)]) fun t =>
      t.pc == 0o101 && t.mem.read 0o200 == 0o12347770 := by decide

/-- V79, DEX 1 0200: R215. -/
theorem test_dex :
    goes (user [(1, 0o77777123)] [(0o100, 0o11640200), (0o200, 0o12345670)]) fun t =>
      t.pc == 0o101 && t.mem.read 0o200 == 0o12345123 := by decide

/-- V80, DSA 1 0200: R216. -/
theorem test_dsa :
    goes (user [(1, 0o7777)] [(0o100, 0o11700200), (0o200, 0o12345670)]) fun t =>
      t.pc == 0o101 && t.mem.read 0o200 == 0o12347777 := by decide

/-- V81, DLA 1 0200: R217. -/
theorem test_dla :
    goes (user [(1, 0o77777)] [(0o100, 0o11740200), (0o200, 0o12345670)]) fun t =>
      t.pc == 0o101 && t.mem.read 0o200 == 0o12377777 := by decide

/-- V120, MPY 1 0200: R260, R262. -/
theorem test_mpy :
    goes (user [(1, 0o3), (2, 0o777)] [(0o100, 0o12000200), (0o200, 0o77777773)]) fun t =>
      t.reg 1 == 0o77777777 && t.reg 2 == 0o37777761 && t.pc == 0o101 := by decide

/-- V123, MPY 7 0200: R262. -/
theorem test_mpy_again :
    goes (user [(7, 0o1000)] [(0o100, 0o72000200), (0o200, 0o1000000)]) fun t =>
      t.reg 7 == 0o20 && t.pc == 0o101 := by decide

/-- V125, MPR 1 0200: R263. -/
theorem test_mpr :
    goes (user [(1, 0o20000000)] [(0o100, 0o12040200), (0o200, 0o20000000)]) fun t =>
      t.reg 1 == 0o10000000 && t.reg 2 == 0o20000000 && t.pc == 0o101 := by decide

/-- V127, MPA 1 0200: R264. -/
theorem test_mpa :
    goes (user [(1, 0), (2, 0o77777777)] [(0o100, 0o12100200), (0o200, 0o5)]) fun t =>
      t.reg 1 == 0o77777777 && t.reg 2 == 0o37777777 && t.pc == 0o101 := by decide

/-- V105, CDB 1 0200: R239. -/
theorem test_cdb :
    goes { user [(2, 0o14)] [(0o100, 0o12140200), (0o200, 0o5000000)] with c := true } fun t =>
      t.reg 2 == 0o175 && t.pc == 0o101 && !t.c := by decide

/-- V107, CDB 1 0200: R239. -/
theorem test_cdb_again :
    goes (user [(1, 0o10000000), (2, 0)] [(0o100, 0o12140200), (0o200, 0)]) fun t =>
      t.reg 1 == 0o20000000 && t.pc == 0o101 && t.v := by decide

/-- V129, DVD 1 0200: R260, R266. -/
theorem test_dvd :
    goes (user [(1, 0o77777777), (2, 0o37777634)] [(0o100, 0o12200200), (0o200, 0o7)]) fun t =>
      t.reg 1 == 0o77777776 && t.reg 2 == 0o77777762 && t.pc == 0o101 := by decide

/-- V132, DVD 1 0200: R269. -/
theorem test_dvd_again :
    goes { user [(1, 0), (2, 0)] [(0o100, 0o12200200), (0o200, 0)] with c := true } fun t =>
      t.pc == 0o101 && t.v && !t.c := by decide

/-- V134, DVR 1 0200: R267. -/
theorem test_dvr :
    goes (user [(1, 0), (2, 0o7)] [(0o100, 0o12240200), (0o200, 0o2)]) fun t =>
      t.reg 1 == 0o77777777 && t.reg 2 == 0o4 && t.pc == 0o101 := by decide

/-- V135, DVR 1 0200: R267. -/
theorem test_dvr_again :
    goes (user [(1, 0o77777777), (2, 0o37777771)] [(0o100, 0o12240200), (0o200, 0o2)]) fun t =>
      t.reg 1 == 0o1 && t.reg 2 == 0o77777774 && t.pc == 0o101 := by decide

/-- V136, DVS 1 0200: R268. -/
theorem test_dvs :
    goes (user [(1, 0o1234), (2, 0o144)] [(0o100, 0o12300200), (0o200, 0o77777771)]) fun t =>
      t.reg 1 == 0o2 && t.reg 2 == 0o77777762 && t.pc == 0o101 := by decide

/-- V137, DVS 1 0200: R268, R269. -/
theorem test_dvs_again :
    goes (user [(2, 0o40000000)] [(0o100, 0o12300200), (0o200, 0o77777777)]) fun t =>
      t.pc == 0o101 && t.v := by decide

/-- V109, CBD 1 0(2): R240. -/
theorem test_cbd :
    goes { user [(1, 0o1000000), (2, 0o20000200)] [(0o100, 0o12360000), (0o200, 0o77777777)] with mode := 0o20 } fun t =>
      t.reg 1 == 0o12000000 && t.pc == 0o101 && t.mem.read 0o200 == 0o77207777 := by decide

/-- V110, CBD 1 0200: R240. -/
theorem test_cbd_again :
    goes { user [(1, 0o37777777)] [(0o100, 0o12340200)] with mode := 0o20 } fun t =>
      t.reg 1 == 0o37777766 && t.pc == 0o101 && t.mode == 0 && t.mem.read 0o200 == 0o11000000 := by decide

/-- V159, BZE 1 0200: R331. -/
theorem test_bze :
    goes (user [(1, 0)] [(0o100, 0o12400200)]) fun t =>
      t.pc == 0o200 := by decide

/-- V160, BZE 1 0200: R331. -/
theorem test_bze_again :
    goes (user [(1, 0o40000000)] [(0o100, 0o12400200)]) fun t =>
      t.pc == 0o101 := by decide

/-- V161, BNZ 1 0200: R332. -/
theorem test_bnz :
    goes (user [(1, 0o1)] [(0o100, 0o12500200)]) fun t =>
      t.pc == 0o200 := by decide

/-- V162, BPZ 1 0200: R333. -/
theorem test_bpz :
    goes (user [(1, 0)] [(0o100, 0o12600200)]) fun t =>
      t.pc == 0o200 := by decide

/-- V163, BNG 1 0200: R334. -/
theorem test_bng :
    goes (user [(1, 0o40000000)] [(0o100, 0o12700200)]) fun t =>
      t.pc == 0o200 := by decide

/-- V164, BNG 1 0200: R334. -/
theorem test_bng_again :
    goes (user [(1, 0o37777777)] [(0o100, 0o12700200)]) fun t =>
      t.pc == 0o101 := by decide

/-- V165, BUX 1 0200: R336. -/
theorem test_bux :
    goes (user [(1, 0o300100)] [(0o100, 0o13000200)]) fun t =>
      t.reg 1 == 0o200101 && t.pc == 0o200 := by decide

/-- V167, BUX 1 0200: R335, R336. -/
theorem test_bux_again :
    goes (user [(1, 0o77777)] [(0o100, 0o13000200)]) fun t =>
      t.reg 1 == 0o77700000 && t.pc == 0o200 := by decide

/-- V168, BDX 1 0200: R337. -/
theorem test_bdx :
    goes (user [(1, 0o200100)] [(0o100, 0o13100200)]) fun t =>
      t.reg 1 == 0o100102 && t.pc == 0o200 := by decide

/-- V169, BCHX 1 0200: R338. -/
theorem test_bchx :
    goes (user [(1, 0o60200100)] [(0o100, 0o13200200)]) fun t =>
      t.reg 1 == 0o100101 && t.pc == 0o200 := by decide

/-- V171, BCT 1 0200: R339. -/
theorem test_bct :
    goes (user [(1, 0o100000)] [(0o100, 0o13300200)]) fun t =>
      t.reg 1 == 0 && t.pc == 0o101 := by decide

/-- V172, BCT 1 0200: R339. -/
theorem test_bct_again :
    goes (user [(1, 0o1000123)] [(0o100, 0o13300200)]) fun t =>
      t.reg 1 == 0o700123 && t.pc == 0o200 := by decide

/-- V174, CALL 1 0300: R340. -/
theorem test_call :
    goes { user [] [(0o100, 0o13400300)] with v := true } fun t =>
      t.reg 1 == 0o40000101 && t.pc == 0o300 && !t.v := by decide

/-- V175, CALL 1 0300 (ZS, AM22): R340. -/
theorem test_call_again :
    goes { user [] [(0o1234567, 0o13400300)] with v := true, mode := 0o24, pc := 0o1234567, cfg := { defaultConfig with memSize := 0o20000000 } } fun t =>
      t.reg 1 == 0o61234570 && t.pc == 0o300 && !t.v := by decide

/-- V69, EXIT 1 1 (EJM): R129; 45_branch.md R341. -/
theorem test_exit :
    goes { user [(1, 0o300)] [(0o100, 0o13500001)] with mode := 0o1 } fun t =>
      t.pc == 0o301 := by decide

/-- V177, EXIT 1 1: R341. -/
theorem test_exit_again :
    goes { user [(1, 0o20000101)] [(0o100, 0o13500001)] with v := true } fun t =>
      t.pc == 0o102 && !t.v && t.mode == 0o20 := by decide

/-- V178, BRN 0200: R343. -/
theorem test_brn :
    goes (user [] [(0o100, 0o3600200)]) fun t =>
      t.pc == 0o200 := by decide

/-- V68, BRN 077776 (EJM): R129. -/
theorem test_brn_again :
    goes { user [] [(0o100, 0o3677776)] with mode := 0o1 } fun t =>
      t.pc == 0o76 := by decide

/-- V179, BVS 0200: R344. -/
theorem test_bvs :
    goes { user [] [(0o100, 0o13600200)] with v := true } fun t =>
      t.pc == 0o200 := by decide

/-- V180, BVSR 0200: R345. -/
theorem test_bvsr :
    goes { user [] [(0o100, 0o23600200)] with v := true } fun t =>
      t.pc == 0o200 && !t.v := by decide

/-- V182, BVC 0200: R346. -/
theorem test_bvc :
    goes (user [] [(0o100, 0o33600200)]) fun t =>
      t.pc == 0o200 := by decide

/-- V183, BVCR 0200: R347. -/
theorem test_bvcr :
    goes { user [] [(0o100, 0o43600200)] with v := true } fun t =>
      t.pc == 0o101 && !t.v := by decide

/-- V184, BCS 0200: R348. -/
theorem test_bcs :
    goes { user [] [(0o100, 0o53600200)] with c := true } fun t =>
      t.pc == 0o200 := by decide

/-- V185, BCC 0200: R349. -/
theorem test_bcc :
    goes { user [] [(0o100, 0o63600200)] with c := true } fun t =>
      t.pc == 0o101 := by decide

/-- V186, BVCI 0200: R350. -/
theorem test_bvci :
    goes (user [] [(0o100, 0o73600200)]) fun t =>
      t.pc == 0o200 && t.v := by decide

/-- V187, BVCI 0200: R350. -/
theorem test_bvci_again :
    goes { user [] [(0o100, 0o73600200)] with v := true } fun t =>
      t.pc == 0o101 && !t.v := by decide

/-- V188, BFP 0 0200: R351. -/
theorem test_bfp0 :
    goes (user [] [(0o100, 0o3700200)]) fun t =>
      t.pc == 0o200 := by decide

/-- V189, BFP 1 0200: R351. -/
theorem test_bfp1 :
    goes { user [] [(0o100, 0o13700200)] with am := 0o2000000000000, ae := 0o400 } fun t =>
      t.pc == 0o200 := by decide

/-- V190, BFP 2 0200: R351. -/
theorem test_bfp2 :
    goes { user [] [(0o100, 0o23700200)] with am := 0o2000000000000, ae := 0o400 } fun t =>
      t.pc == 0o101 := by decide

/-- V191, BFP 3 0200: R351. -/
theorem test_bfp3 :
    goes { user [] [(0o100, 0o33700200)] with am := 0o2000000000000, ae := 0o400 } fun t =>
      t.pc == 0o200 := by decide

/-- V192, BFP 4 0200: R351, R352. -/
theorem test_bfp4 :
    goes { user [] [(0o100, 0o43700200)] with fov := true } fun t =>
      t.pc == 0o200 && !t.fov := by decide

/-- V193, BFP 5 0200: R351. -/
theorem test_bfp5 :
    goes { user [] [(0o100, 0o53700200)] with fov := true } fun t =>
      t.pc == 0o101 := by decide

/-- V27, LDN 1 07777: R180. -/
theorem test_ldn :
    goes (user [(1, 0o77777777)] [(0o100, 0o14007777)]) fun t =>
      t.reg 1 == 0o7777 && t.pc == 0o101 := by decide

/-- V62, LDN 1 017 (held in x5): 20_memory.md R61; 40_dispatch.md R125. -/
theorem test_ldn_again :
    goes { executive [(5, 0o14000017)] [] with pc := 0o5 } fun t =>
      t.reg 1 == 0o17 && t.pc == 0o6 := by decide

/-- V28, ADN 1 0100(2): R181. -/
theorem test_adn :
    goes (user [(1, 0o1), (2, 0o1)] [(0o100, 0o14060100)]) fun t =>
      t.reg 1 == 0o102 && t.pc == 0o101 := by decide

/-- V29, ADN 1 1(2): R181; 40_dispatch.md R128. -/
theorem test_adn_again :
    goes (user [(2, 0o77777)] [(0o100, 0o14060001)]) fun t =>
      t.pc == 0o101 := by decide

/-- V30, NGN 1 1: R182. -/
theorem test_ngn :
    goes (user [] [(0o100, 0o14100001)]) fun t =>
      t.reg 1 == 0o77777777 && t.pc == 0o101 && t.c := by decide

/-- V31, SBN 1 1: R183. -/
theorem test_sbn :
    goes (user [] [(0o100, 0o14140001)]) fun t =>
      t.reg 1 == 0o77777777 && t.pc == 0o101 && t.c := by decide

/-- V32, LDNC 1 5: R184. -/
theorem test_ldnc :
    goes { user [] [(0o100, 0o14200005)] with c := true } fun t =>
      t.reg 1 == 0o6 && t.pc == 0o101 && !t.c := by decide

/-- V33, ADNC 1 5: R185. -/
theorem test_adnc :
    goes { user [(1, 0o1)] [(0o100, 0o14240005)] with c := true } fun t =>
      t.reg 1 == 0o7 && t.pc == 0o101 && !t.c := by decide

/-- V34, NGNC 1 5: R186. -/
theorem test_ngnc :
    goes { user [] [(0o100, 0o14300005)] with c := true } fun t =>
      t.reg 1 == 0o77777772 && t.pc == 0o101 := by decide

/-- V35, SBNC 1 5: R187. -/
theorem test_sbnc :
    goes { user [(1, 0o5)] [(0o100, 0o14340005)] with c := true } fun t =>
      t.reg 1 == 0o77777777 && t.pc == 0o101 := by decide

/-- V82, SLC 1 4: R225. -/
theorem test_slc :
    goes (user [(1, 0o12345670)] [(0o100, 0o14400004)]) fun t =>
      t.reg 1 == 0o47135602 && t.pc == 0o101 := by decide

/-- V84, SLL 1 3: R226. -/
theorem test_sll :
    goes (user [(1, 0o12345670)] [(0o100, 0o14402003)]) fun t =>
      t.reg 1 == 0o23456700 && t.pc == 0o101 := by decide

/-- V86, SLA 1 1: R227. -/
theorem test_sla :
    goes (user [(1, 0o20000001)] [(0o100, 0o14404001)]) fun t =>
      t.reg 1 == 0o40000002 && t.pc == 0o101 && t.v := by decide

/-- V88, SLA 1 2: R227. -/
theorem test_sla_again :
    goes (user [(1, 0o60000000)] [(0o100, 0o14404002)]) fun t =>
      t.reg 1 == 0 && t.pc == 0o101 && t.v := by decide

/-- V95, SLCD 1 3: R222, R231. -/
theorem test_slcd :
    goes (user [(1, 0o70000000), (2, 0o1)] [(0o100, 0o14440003)]) fun t =>
      t.reg 1 == 0 && t.reg 2 == 0o17 && t.pc == 0o101 := by decide

/-- V96, SLLD 1 1: R222, R232. -/
theorem test_slld :
    goes (user [(1, 0o1), (2, 0o40000000)] [(0o100, 0o14442001)]) fun t =>
      t.reg 1 == 0o3 && t.reg 2 == 0 && t.pc == 0o101 := by decide

/-- V97, SLAD 1 1: R233. -/
theorem test_slad :
    goes (user [(1, 0o20000000)] [(0o100, 0o14444001)]) fun t =>
      t.reg 1 == 0o40000000 && t.pc == 0o101 && t.v := by decide

/-- V90, SRC 1 3: R228. -/
theorem test_src :
    goes (user [(1, 0o12345670)] [(0o100, 0o14500003)]) fun t =>
      t.reg 1 == 0o1234567 && t.pc == 0o101 := by decide

/-- V91, SRL 1 3: R229. -/
theorem test_srl :
    goes (user [(1, 0o40000000)] [(0o100, 0o14502003)]) fun t =>
      t.reg 1 == 0o4000000 && t.pc == 0o101 := by decide

/-- V92, SRA 1 3: R230. -/
theorem test_sra :
    goes (user [(1, 0o40000000)] [(0o100, 0o14504003)]) fun t =>
      t.reg 1 == 0o74000000 && t.pc == 0o101 := by decide

/-- V94, SRA 1 4(2): R220, R230. -/
theorem test_sra_again :
    goes (user [(1, 0o77777700), (2, 0o2)] [(0o100, 0o14524004)]) fun t =>
      t.reg 1 == 0o77777777 && t.pc == 0o101 := by decide

/-- V98, SRCD 1 1: R234. -/
theorem test_srcd :
    goes (user [(1, 0), (2, 0o1)] [(0o100, 0o14540001)]) fun t =>
      t.reg 1 == 0o40000000 && t.reg 2 == 0 && t.pc == 0o101 := by decide

/-- V99, SRLD 1 24: R235. -/
theorem test_srld :
    goes (user [(1, 0o12345670), (2, 0o1)] [(0o100, 0o14542030)]) fun t =>
      t.reg 1 == 0 && t.reg 2 == 0o12345670 && t.pc == 0o101 := by decide

/-- V100, SRAD 1 24: R236. -/
theorem test_srad :
    goes (user [(1, 0o40000000), (2, 0)] [(0o100, 0o14544030)]) fun t =>
      t.reg 1 == 0o77777777 && t.reg 2 == 0o40000000 && t.pc == 0o101 := by decide

/-- V101, SRAD 7 1: R222, R236. -/
theorem test_srad_again :
    goes (user [(7, 0o40000001), (0, 0)] [(0o100, 0o74544001)]) fun t =>
      t.reg 0 == 0o40000000 && t.reg 7 == 0o60000000 && t.pc == 0o101 := by decide

/-- V119, NORM 1 0: R245. -/
theorem test_norm :
    stops (user [] [(0o100, 0o14600000)]) .notSpecified := by decide

/-- V111, MVCH 1 2: R241. -/
theorem test_mvch :
    goes (user [(1, 0o200), (2, 0o40000300)] [(0o100, 0o14700002), (0o200, 0o1020304)]) fun t =>
      t.reg 1 == 0o40000200 && t.reg 2 == 0o301 && t.pc == 0o101 && t.mem.read 0o300 == 0o102 := by decide

/-- V112, MVCH 1 3: R211, R241. -/
theorem test_mvch_again :
    goes (user [(1, 0o60000200), (2, 0o300)] [(0o100, 0o14700003), (0o200, 0o1020304), (0o201, 0o5060700)]) fun t =>
      t.reg 1 == 0o40000201 && t.reg 2 == 0o60000300 && t.pc == 0o101 && t.mem.read 0o300 == 0o4050600 := by decide

/-- V43, ANDN 1 0707: R194. -/
theorem test_andn :
    goes (user [(1, 0o77777777)] [(0o100, 0o15000707)]) fun t =>
      t.reg 1 == 0o707 && t.pc == 0o101 := by decide

/-- V44, ORN 1 07000: R195. -/
theorem test_orn :
    goes (user [(1, 0o40000000)] [(0o100, 0o15047000)]) fun t =>
      t.reg 1 == 0o40007000 && t.pc == 0o101 := by decide

/-- V45, ERN 1 07777: R196. -/
theorem test_ern :
    goes (user [(1, 0o77777777)] [(0o100, 0o15107777)]) fun t =>
      t.reg 1 == 0o77770000 && t.pc == 0o101 := by decide

/-- V52, NULL: R200. -/
theorem test_null :
    goes { user [(1, 0o5)] [(0o100, 0o5140000)] with c := true, v := true } fun t =>
      t.pc == 0o101 := by decide

/-- V118, LDCT 1 07777: R244. -/
theorem test_ldct :
    goes (user [] [(0o100, 0o15207777)]) fun t =>
      t.reg 1 == 0o77700000 && t.pc == 0o101 := by decide

/-- V103, MODE 0 1: R237. -/
theorem test_mode :
    goes (user [] [(0o100, 0o5240001)]) fun t =>
      t.pc == 0o101 && t.mode == 0o20 := by decide

/-- V104, MODE 0 0: R237. -/
theorem test_mode_again :
    goes { user [] [(0o100, 0o5240000)] with mode := 0o24 } fun t =>
      t.pc == 0o101 && t.mode == 0o4 := by decide

/-- V113, MOVE 1 2: R242. -/
theorem test_move :
    goes (user [(1, 0o200), (2, 0o300)] [(0o100, 0o15300002), (0o200, 0o5), (0o201, 0o6)]) fun t =>
      t.pc == 0o101 && t.mem.read 0o300 == 0o5 && t.mem.read 0o301 == 0o6 := by decide

/-- V114, MOVE 1 3: R242. -/
theorem test_move_again :
    goes (user [(1, 0o200), (2, 0o201)] [(0o100, 0o15300003), (0o200, 0o5), (0o201, 0o6)]) fun t =>
      t.pc == 0o101 && t.mem.read 0o201 == 0o5 && t.mem.read 0o202 == 0o5 && t.mem.read 0o203 == 0o5 := by decide

/-- V116, SUM 1 2: R243. -/
theorem test_sum :
    goes (user [(2, 0o200)] [(0o100, 0o15340002), (0o200, 0o77777777), (0o201, 0o2)]) fun t =>
      t.reg 1 == 0o1 && t.pc == 0o101 := by decide

/-- V152, FLOAT 0 0200: R306. -/
theorem test_float :
    goes (user [] [(0o100, 0o5400200), (0o200, 0o77777777), (0o201, 0o37777777)]) fun t =>
      t.pc == 0o101 && floatWord0 t.am == 0o40000000 && floatWord1 t.am t.ae == 0o400 := by decide

/-- V153, FLOAT 0 0200: R306. -/
theorem test_float_again :
    goes (user [] [(0o100, 0o5400200), (0o200, 0o37777777), (0o201, 0o37777777)]) fun t =>
      t.pc == 0o101 && floatWord0 t.am == 0o20000000 && floatWord1 t.am t.ae == 0o457 := by decide

/-- V155, FIX 0 0200: R307. -/
theorem test_fix :
    goes { user [] [(0o100, 0o5440200)] with am := 0o2600000000000, ae := 0o402 } fun t =>
      t.pc == 0o101 && t.mem.read 0o200 == 0o77777777 && t.mem.read 0o201 == 0o37777775 := by decide

/-- V156, FIX 0 0200: R307. -/
theorem test_fix_again :
    goes { user [] [(0o100, 0o5440200)] with am := 0o1000000000000, ae := 0o460 } fun t =>
      t.pc == 0o101 && t.v := by decide

/-- V142, FAD 0 0200: R296. -/
theorem test_fad :
    goes { user [] [(0o100, 0o5500200), (0o200, 0o20000000), (0o201, 0o402)] with am := 0o1000000000000, ae := 0o401 } fun t =>
      t.pc == 0o101 && floatWord0 t.am == 0o30000000 && floatWord1 t.am t.ae == 0o402 := by decide

/-- V143, FAD 0 0200: R291, R296. -/
theorem test_fad_again :
    goes { user [] [(0o100, 0o5500200), (0o200, 0o50000000), (0o201, 0o402)] with am := 0o1400000000000, ae := 0o402 } fun t =>
      t.pc == 0o101 && floatWord0 t.am == 0 && floatWord1 t.am t.ae == 0 := by decide

/-- V145, FSB 0 0200: R297. -/
theorem test_fsb :
    goes { user [] [(0o100, 0o5540200), (0o200, 0o30000000), (0o201, 0o402)] with am := 0o1000000000000, ae := 0o401 } fun t =>
      t.pc == 0o101 && floatWord0 t.am == 0o40000000 && floatWord1 t.am t.ae == 0o401 := by decide

/-- V146, FMPY 0 0200: R299. -/
theorem test_fmpy :
    goes { user [] [(0o100, 0o5600200), (0o200, 0o40000000), (0o201, 0o400)] with am := 0o1400000000000, ae := 0o402 } fun t =>
      t.pc == 0o101 && floatWord0 t.am == 0o50000000 && floatWord1 t.am t.ae == 0o402 := by decide

/-- V149, FDVD 0 0200: R301. -/
theorem test_fdvd :
    goes { user [] [(0o100, 0o5640200), (0o200, 0o30000000), (0o201, 0o402)] with am := 0o1000000000000, ae := 0o401 } fun t =>
      t.pc == 0o101 && floatWord0 t.am == 0o25252525 && floatWord1 t.am t.ae == 0o12525377 := by decide

/-- V150, FDVD 0 0200: R303. -/
theorem test_fdvd_again :
    goes { user [] [(0o100, 0o5640200)] with am := 0o1000000000000, ae := 0o401 } fun t =>
      t.pc == 0o101 && t.fov && floatWord0 t.am == 0o37777777 && floatWord1 t.am t.ae == 0o37777777 := by decide

/-- V140, LFP 0 0200: R304. -/
theorem test_lfp :
    goes (user [] [(0o100, 0o5700200), (0o200, 0o30000000), (0o201, 0o402)]) fun t =>
      t.pc == 0o101 && floatWord0 t.am == 0o30000000 && floatWord1 t.am t.ae == 0o402 := by decide

/-- V141, SFP 0 0200: R305. -/
theorem test_sfp :
    goes { user [] [(0o100, 0o5740200)] with am := 0o1252525252525, ae := 0o377 } fun t =>
      t.pc == 0o101 && t.mem.read 0o200 == 0o25252525 && t.mem.read 0o201 == 0o12525377 := by decide

/-- V198, RSR 1 64: R373. -/
theorem test_rsr :
    goes { executive [] [(0o100, 0o16000100)] with sr64 := 0o40000000 } fun t =>
      t.reg 1 == 0o40000000 && t.pc == 0o101 := by decide

/-- V211, RSR 1 64 (user mode): R371; 60_exceptions.md R414. -/
theorem test_rsr_again :
    goes { user [(1, 0o11)] [(0o1100, 0o16000100)] with rd := 0o1000, v := true, c := true } fun t =>
      t.pc == 0o21 && !t.v && !t.c && t.executive && t.mem.read 0o1001 == 0o11 && t.mem.read 0o1010 == 0o60000101 := by decide

/-- V201, WSR 1 64: R374. -/
theorem test_wsr :
    goes { executive [(1, 0)] [(0o100, 0o16040100)] with sr64 := 0o77777777 } fun t =>
      t.pc == 0o101 && t.sr64 == 0 := by decide

/-- V212, EXX: R420; 46_executive.md R378. -/
theorem test_exx :
    goes { executive [] [(0o100, 0o6100000), (0o1001, 0o11), (0o1007, 0o77), (0o1010, 0o60000300), (0o1011, 0o41), (0o1012, 0o40000000), (0o1013, 0o400)] with rd := 0o1000, rl := 0o2000 } fun t =>
      t.reg 1 == 0o11 && t.reg 7 == 0o77 && t.pc == 0o300 && t.v && t.c && t.mode == 0o1 && !t.executive && t.fov && floatWord0 t.am == 0o40000000 && floatWord1 t.am t.ae == 0o400 := by decide

/-- V202, LDL 1 0: R375. -/
theorem test_ldl :
    goes (executive [(1, 0o77001000), (2, 0o2000)] [(0o100, 0o16140000)]) fun t =>
      t.pc == 0o101 && t.rd == 0o17001000 && t.rl == 0o2000 := by decide

/-- V203, LDM 1 0: R376. -/
theorem test_ldm :
    goes (executive [(1, 0o77)] [(0o100, 0o16200000)]) fun t =>
      t.pc == 0o101 && t.mode == 0o37 := by decide

/-- V204, LDM 1 0 (HAS_AM22 = 0): R376; 10_state.md R29. -/
theorem test_ldm_again :
    goes { executive [(1, 0o37)] [(0o100, 0o16200000)] with cfg := { defaultConfig with hasAm22 := false } } fun t =>
      t.pc == 0o101 && t.mode == 0o32 := by decide

/-- V205, TDL 1 0: R377. -/
theorem test_tdl :
    goes { executive [(1, 0o1500)] [(0o100, 0o16240000)] with rd := 0o1000, rl := 0o2000, c := true } fun t =>
      t.pc == 0o101 && !t.c := by decide

/-- V206, TDL 1 0: R377. -/
theorem test_tdl_again :
    goes { executive [(1, 0o2000)] [(0o100, 0o16240000)] with rd := 0o1000, rl := 0o2000 } fun t =>
      t.pc == 0o101 && t.c := by decide

/-- V208, XFER_IN 1 0: R381. -/
theorem test_xfer_in :
    stops (executive [] [(0o100, 0o17300000)]) .transferUnspecified := by decide

/-- V209, (0150, search list): R382. -/
theorem test_search :
    goes (executive [(1, 0o5)] [(0o100, 0o16400000)]) fun t =>
      t.pc == 0o101 := by decide

/-- V102: R220. -/
theorem test_shift_submode_3 :
    stops (user [(1, 0o1)] [(0o100, 0o14406001)]) .shiftSubmode3 := by decide

/-- V194: R351. -/
theorem test_bfp_condition_6 :
    stops (user [] [(0o100, 0o63700200)]) .floatCondition := by decide

/-- V210: R383. -/
theorem test_unassigned_code :
    stops (executive [] [(0o100, 0o16340000)]) .unassignedExec := by decide

/-- V70: R123; 60_exceptions.md R411, R412, R417. -/
theorem test_hardware_entry :
    goes { user [(1, 0o77)] [(0o100, 0o14000005)] with sr65 := 0o1, v := true, c := true, mode := 0o20 } fun t =>
      t.pc == 0o20 && !t.v && !t.c && t.mode == 0 && t.executive && t.sr65 == 0 && t.mem.read 0o1 == 0o77 && t.mem.read 0o10 == 0o60000100 && t.mem.read 0o11 == 0o20 := by decide

/-- V64, the OBEY alone: the word takes the place of the instruction, PC does not advance: 40_dispatch.md R133. -/
theorem test_obey :
    goes (user [] [(0o100, 0o1140300), (0o300, 0o14040005)]) fun t =>
      t.pc == 0o100 && t.ia == 0o100 && t.obeyed == some 0o14040005 := by decide

/-- V64, the obeyed word: 40_dispatch.md R133. -/
theorem test_obeyed_word :
    goes { user [] [] with ia := 0o100, obeyed := some 0o14040005 } fun t =>
      t.reg 1 == 5 && t.pc == 0o101 && t.obeyed == none := by decide

/-- V63, the SMO: 40_dispatch.md R132. -/
theorem test_smo :
    goes (user [] [(0o100, 0o4740200), (0o200, 5)]) fun t => t.pip && t.pipVal == 5 && t.pc == 0o101 := by decide

/-- V63, the pre-modified order: 40_dispatch.md R130. -/
theorem test_pre_modified :
    goes { user [(1, 3)] [(0o100, 0o20010100), (0o110, 0o777)] with pip := true, pipVal := 5 } fun t =>
      t.reg 2 == 0o777 && !t.pip && t.pc == 0o101 := by decide

/-- NORMD is refused, as NORM is: 42_char_shift_misc.md R245. -/
theorem test_normd : stops (user [] [(0o100, 0o14640000)]) .notSpecified := by decide

/-- V207, with the answer left open: PERI takes one answer and moves on: 46_executive.md R379. -/
theorem test_peri : goes (executive [] [(0o100, 0o16300005)]) fun t => t.draws == 1 && t.pc == 0o101 := by decide

/-- A special register of the collaborator's: one answer is taken: 46_executive.md R373. -/
theorem test_rsr_other : goes (executive [] [(0o100, 0o16000003)]) fun t => t.draws == 1 && t.pc == 0o101 := by decide

/-- XFER_OUT in executive mode: 46_executive.md R381. -/
theorem test_xfer_out : stops (executive [] [(0o100, 0o17340000)]) .transferUnspecified := by decide

/-- V222 and V223: the Loading spin, and its end: 70_reset_and_hazards.md R452. -/
theorem test_loading_spins : goes State.reset fun t => decide (t = State.reset) := by decide
theorem test_loading_ends : goes { State.reset with sr65 := 1 } fun t => t.pc == 0o20 && !t.loading := by decide

/-- A word placed after reset runs in the very next step (log 10). -/
theorem test_placed_word_runs : goes (State.reset.withFetchWord 24 0o14000005) fun t => t.reg 1 == 5 && t.pc == 0o21 := by
  decide

/-- The default parameters meet their constraints (93_implementation_defined.md A.1). -/
theorem test_default_config_wf : defaultConfig.wf := by decide

/-! ### The hypotheses of the statements can be met -/

/-- A user-mode state with a register and a word to work on. -/
def sample : State := user [(1, 5)] [(0o100, 0o10040200), (0o200, 7), (0o201, 9)]

theorem test_witness_DecodeOfEncode : defaultCodes.wf ∧ (Instr.search 0o165 7 3 0o7777).wf = true := by decide

theorem test_witness_EncodeOfDecode : decode defaultCodes 0o10040200 = .ok (.adx 1 0 0o200) := by decide

theorem test_witness_StepRunsDecodedWord :
    sample.Running ∧ sample.pending = false ∧ memRead sample (sample.pc &&& sample.amask) false = some 0o10040200 ∧
      decode sample.cfg.codes 0o10040200 = .ok (.adx 1 0 0o200) := ⟨⟨rfl, rfl, rfl, rfl, rfl⟩, by decide⟩

theorem test_witness_StepRunsDecodedWord_reserved :
    let s := user [] [(0o100, 0o14406001)]
    s.Running ∧ s.pending = false ∧ memRead s (s.pc &&& s.amask) false = some 0o14406001 ∧
      decode s.cfg.codes 0o14406001 = .error (.shiftSubmode3 0o110 1 0 1) := ⟨⟨rfl, rfl, rfl, rfl, rfl⟩, by decide⟩

theorem test_witness_StepRunsDecodedWord_obeyed :
    let s := { sample with obeyed := some 0o14040005 }
    s.obeyed = some 0o14040005 ∧ decode s.cfg.codes 0o14040005 = .ok (.adn 1 0 5) := by decide

theorem test_witness_PlacedInstructionRuns :
    State.reset.mem.wf ∧ State.reset.cfg.codes.wf ∧ (Instr.adx 1 0 0o200).wf = true ∧
      access State.reset.readyToFetch (State.reset.readyToFetch.pc &&& State.reset.readyToFetch.amask) false ≠
        .violation := by decide

theorem test_witness_LoadingSpins :
    ∀ s ∈ [State.reset, { State.reset with sr65 := 1 }], s.obeyed = none ∧ s.turns = [] ∧ s.stopped = false ∧
      s.stopRequested = false ∧ s.loading = true ∧ s.pending = decide (s.sr65 = 1) := by decide

theorem test_witness_HostStopEndsTheRun :
    let s := { sample with stopRequested := true }
    s.obeyed = none ∧ s.turns = [] ∧ s.stopped = false ∧ s.stopRequested = true := by decide

/-- One word written twice, the last installed word, and an address past it. -/
theorem test_witness_EnvironmentTurns :
    let writes : List Cell := [(0o200, 1), (0o77777, 4), (0o200, 2), (0o100000, 3)]
    sample.mem.wf ∧ sample.obeyed = none ∧ sample.cfg.memSize = 0o100000 ∧ writes.reverse.lookup 0o200 = some 2 ∧
      writes.reverse.lookup 0o77777 = some 4 ∧
      goes { sample with turns := [.device writes 0 0] } fun t =>
        t.mem.read 0o200 == 2 && t.mem.read 0o77777 == 4 && t.mem.read 0o100000 == 0 && t.mem.read 0o201 == 9 := by
  decide

theorem test_witness_ResetValues : sample.obeyed = none := by decide

/-- Addresses 7 and 8 at the end of the window, a limit met exactly, and a size met exactly. -/
theorem test_witness_AddressingUnit :
    let s := { sample with rd := 0o1000, rl := 0o2000 }
    access s 7 true = .reg 7 ∧ access s 8 true = .mem 0o1010 ∧ access s 0o777 true = .mem 0o1777 ∧
      access s 0o1000 true = .violation ∧ access { s with executive := true } 7 true = .mem 7 ∧
      access { s with executive := true } 7 false = .reg 7 ∧
      access { s with executive := true, mode := 4 } 0o100000 true = .violation ∧
      access { s with executive := true, mode := 4 } 0o77777 true = .mem 0o77777 := by decide

theorem test_witness_ReadAfterWrite :
    sample.mem.wf ∧ ∃ t, memWrite sample 0o200 3 true = some t := ⟨by decide, _, rfl⟩

/-- The operand word of the transfers, the adders, the logic, the tests, the character orders, SMO and OBEY. -/
theorem test_witness_readable_operand :
    sample.mem.wf ∧ memRead sample (sample.operandAddress 0 0o200) true = some 7 := by decide

theorem test_witness_DecimalToBinary :
    let s := user [(1, 5)] [(0o200, 0o11000000), (0o201, 0o12000000)]
    memRead s (s.operandAddress 0 0o200) true = some 0o11000000 ∧ laneValue 0o11000000 (s.laneNumber 0) = 9 ∧
      memRead s (s.operandAddress 0 0o201) true = some 0o12000000 ∧ laneValue 0o12000000 (s.laneNumber 0) = 10 := by
  decide

/-- The digit is zero, with and without zero suppression, and nine. -/
theorem test_witness_BinaryToDecimal :
    ∀ s ∈ [user [(1, 1)] [(0o200, 7)], { user [(1, 1)] [(0o200, 7)] with mode := 0o20 },
        user [(1, 0o37777777)] [(0o200, 7)]],
      s.mem.wf ∧ memRead s (s.operandAddress 0 0o200) true = some 7 := by decide

theorem test_witness_MoveCopiesWords :
    let s := user [(1, 0o200), (2, 0o300)] []
    let src := fun j : Nat => s.maskAddr (s.reg 1 + BitVec.ofNat 24 j)
    let dst := fun j : Nat => s.maskAddr (s.reg 2 + BitVec.ofNat 24 j)
    s.mem.wf ∧ (s.operandAddress 0 2).toNat % 512 = 2 ∧
      (∀ j, j < 2 → (memRead s (src j) true).isSome = true ∧ (memRead s (dst j) true).isSome = true ∧
        access s (dst j) true ≠ .reg 1 ∧ access s (dst j) true ≠ .reg 2) ∧
      ∀ i, i < 2 → ∀ j, j < 2 → access s (src i) true ≠ access s (dst j) true := by decide

/-- One word above, in user mode, and in executive mode across the end of the active width. -/
theorem test_witness_MoveCopiesWords_overlap :
    ∀ s ∈ [user [(1, 0o200), (2, 0o201)] [], executive [(1, 0o77776), (2, 0o77777)] []],
      let src := fun j : Nat => s.maskAddr (s.reg 1 + BitVec.ofNat 24 j)
      let dst := fun j : Nat => s.maskAddr (s.reg 2 + BitVec.ofNat 24 j)
      s.mem.wf ∧ (s.operandAddress 0 3).toNat % 512 = 3 ∧ s.reg 2 = s.reg 1 + 1 ∧
        ∀ j, j < 3 → (memRead s (src j) true).isSome = true ∧ (memRead s (dst j) true).isSome = true ∧
          access s (dst j) true ≠ .reg 1 ∧ access s (dst j) true ≠ .reg 2 := by decide

theorem test_witness_MoveCharactersCopies :
    let s := user [(1, 0o60000200), (2, 0o300)] [(0o200, 0o1020304), (0o201, 0o5060700)]
    s.mem.wf ∧ (s.operandAddress 0 2).toNat % 256 = 2 ∧
      ([0o200, 0o201, 0o300].all fun a => (memRead s a true).isSome) = true ∧
      access s 0o200 true ≠ access s 0o300 true ∧ access s 0o201 true ≠ access s 0o300 true := by
  decide

theorem test_witness_SumOfWords :
    let s := user [(2, 0o200)] [(0o200, 1), (0o201, 2)]
    (s.operandAddress 0 2).toNat % 512 = 2 ∧
      ∀ j, j < 2 → memRead s (s.maskAddr (s.reg 2 + BitVec.ofNat 24 j)) true = some (BitVec.ofNat 24 (j + 1)) := by
  decide

theorem test_witness_MultiplyOrders :
    sample.cfg.hasMd = true ∧ memRead sample (sample.operandAddress 0 0o200) true = some 7 := by decide

/-- -100 by 7 truncated, 7 by 2 to the nearest, and -100 by 7 in single length. -/
theorem test_witness_DivideOrders :
    (user [(1, 0o77777777), (2, 0o37777634)] []).doubleLength 1 = -14 * (7 : Word).toInt + -2 ∧
      TruncatedRemainder (-100) 7 (-2) ∧ (user [(2, 7)] []).doubleLength 1 = 4 * (2 : Word).toInt + -1 ∧
      NearestRemainder 7 2 (-1) ∧ ((user [(2, 0o77777634)] []).reg 2).toInt = -14 * (7 : Word).toInt + -2 ∧
      mdEdge sample.cfg .dvd 0 0 0 = false := by
  unfold TruncatedRemainder NearestRemainder; decide

/-- A zero divisor; quotients of 2^23 and of -2^23 - 1, the first that no word holds. -/
theorem test_witness_DivideFailure :
    (0 : Word).toInt = 0 ∧ (user [(1, 1)] []).doubleLength 1 = 2 ^ 23 * (1 : Word).toInt + 0 ∧
      TruncatedRemainder (2 ^ 23) 1 0 ∧ NearestRemainder (2 ^ 23) 1 0 ∧
      (user [(1, 0o77777776), (2, 0o37777777)] []).doubleLength 1 = (-2 ^ 23 - 1) * (1 : Word).toInt + 0 ∧
      ((user [(2, 0o40000000)] []).reg 2).toInt = 2 ^ 23 * (0o77777777 : Word).toInt + 0 := by
  unfold TruncatedRemainder NearestRemainder; decide

theorem test_witness_DivideInvertsMultiply :
    let s := user [(1, 3)] [(0o200, 7)]
    s.cfg.hasMd = true ∧ s.cfg.mdEdge = .reference ∧ memRead s (s.operandAddress 0 0o200) true = some 7 ∧
      (7 : Word).toInt ≠ 0 ∧ ¬((s.reg 1).toInt = -2 ^ 23 ∧ (7 : Word).toInt = -2 ^ 23) ∧
      answers (exec (.mpy 1 0 0o200) s) fun t => memRead t (t.operandAddress 0 0o200) true == some 7 := by decide

/-- The pair of words of the floating operands, at the first address and at the next. -/
theorem test_witness_readable_pair :
    sample.mem.wf ∧ sample.cfg.hasFp = true ∧ memRead sample (sample.operandAddress 0 0o200) true = some 7 ∧
      memRead sample (sample.nextAddr (sample.operandAddress 0 0o200)) true = some 9 := by decide

/-- A divisor of mantissa 0 with an exponent that is not 0. -/
theorem test_witness_FloatArithmetic_zero_divisor :
    let s := user [] [(0o201, 0o377)]
    s.cfg.hasFp = true ∧ memRead s (s.operandAddress 0 0o200) true = some 0 ∧
      memRead s (s.nextAddr (s.operandAddress 0 0o200)) true = some 0o377 ∧ (0o377 : Word).toNat / 2 ^ 9 % 2 ^ 14 = 0 := by
  decide

/-- A normalised mantissa; exponents that differ by 38 and by 39, either way. -/
theorem test_witness_ReferenceTailKeepsNormalised :
    (0o1400000000000 : Mantissa).getLsbD 37 ≠ (0o1400000000000 : Mantissa).getLsbD 36 ∧ (0o1400000000000 : Mantissa) ≠ 0 ∧
      (300 : Exponent).toNat ≤ (262 : Exponent).toNat + 38 ∧ (262 : Exponent).toNat + 38 < (301 : Exponent).toNat := by
  decide

/-- The largest magnitudes a mantissa holds, and 12 as a normalised number. -/
theorem test_witness_FixAndFloatAreInverse :
    (0 : Word).getLsbD 23 = false ∧ ((0o37777 : Word).toInt * 2 ^ 23 + (0 : Word).toNat).natAbs ≤ 2 ^ 37 ∧
      ((0o77740000 : Word).toInt * 2 ^ 23 + (0 : Word).toNat).natAbs ≤ 2 ^ 37 ∧
      (0o1400000000000 : Mantissa).getLsbD 37 ≠ (0o1400000000000 : Mantissa).getLsbD 36 ∧
      (fpval 0o1400000000000 0o404).num = 12 * (fpval 0o1400000000000 0o404).den := by decide

/-- The count reaches 0, wraps from 0, and is refused in 22-bit mode; a taken branch under TRACE. -/
theorem test_witness_CountingBranches :
    let count := fun s : State => ((s.reg 1).toNat / 2 ^ 15 + 511) % 512
    let last := user [(1, 0o100100)] []
    let wraps := user [(1, 0o77777)] []
    let wide := { last with mode := 4 }
    let traced := { wraps with mode := 8 }
    (last.am22 = false ∧ count last = 0) ∧ (wraps.am22 = false ∧ count wraps = 511 ∧ wraps.trace = false) ∧
      wide.am22 = true ∧ (traced.am22 = false ∧ count traced ≠ 0 ∧ traced.executive = false ∧ traced.trace = true) := by
  decide

/-- A traced user program, an executive one, and an untraced one (CallAndExit, TestingBranches, FloatBranches). -/
theorem test_witness_branch_trace :
    ({ sample with mode := 8 }.executive = false ∧ { sample with mode := 8 }.trace = true) ∧
      ({ sample with mode := 8, executive := true }.executive = true) ∧ sample.trace = false ∧
      sample.cfg.hasFp = true := by decide

theorem test_witness_CallExitRoundTrip :
    sample.trace = false ∧ answers (exec (.call 1 0o300) sample) fun t =>
      t.reg 1 == 1 && t.am22 == sample.am22 && !t.pip && !t.trace := by decide

/-- The numbers 64 and 65 and their neighbours. -/
theorem test_witness_ExecutiveOrders :
    (executive [] []).executive = true ∧ ((executive [] []).operandAddress 0 63).toNat = 63 ∧
      ((executive [] []).operandAddress 0 64).toNat = 64 ∧ ((executive [] []).operandAddress 0 65).toNat = 65 ∧
      ((executive [] []).operandAddress 0 66).toNat = 66 := by decide

/-- A save area that just fits, and one that just does not (the last word is at RD + 11). -/
theorem test_witness_save_area :
    let s := user [] []
    s.mem.wf ∧ s.cfg.wf ∧ State.SaveAreaFits { s with rd := 0o77764 } ∧ ¬State.SaveAreaFits { s with rd := 0o77765 } := by
  simp only [saveAreaFits_iff]; decide

/-- An executive state whose save area fits, and one whose does not (ExitExecutive). -/
theorem test_witness_ExitExecutive :
    State.SaveAreaFits { executive [] [] with rd := 0o77764 } ∧
      ¬State.SaveAreaFits { executive [] [] with rd := 0o77765 } ∧ (executive [] []).executive = true := by
  simp only [saveAreaFits_iff]; decide

theorem test_witness_PrivilegedOrdersEnter :
    sample.mem.wf ∧ sample.cfg.wf ∧ sample.executive = false ∧ sample.SaveAreaFits ∧
      ¬State.SaveAreaFits { sample with rd := 0o77765 } := by
  simp only [saveAreaFits_iff]; decide

/-- A machine without the multiply/divide unit and one without the floating unit, whose save area fits and does not. -/
theorem test_witness_AbsentOptions :
    ∀ s ∈ [{ sample with cfg := { defaultConfig with hasMd := false } },
        { sample with cfg := { defaultConfig with hasFp := false } }],
      s.mem.wf ∧ s.cfg.wf ∧ s.executive = false ∧ s.SaveAreaFits ∧ ¬State.SaveAreaFits { s with rd := 0o77765 } ∧
        (s.cfg.hasMd && s.cfg.hasFp) = false := by
  simp only [saveAreaFits_iff]; decide

theorem test_witness_HardwareEntry :
    let s := { sample with sr65 := 1 }
    s.Running ∧ s.mem.wf ∧ s.cfg.wf ∧ s.executive = false ∧ s.pip = false ∧ s.sr65 ≠ 0 ∧ s.SaveAreaFits ∧
      ¬State.SaveAreaFits { s with rd := 0o77765 } := by
  refine ⟨⟨rfl, rfl, rfl, rfl, rfl⟩, ?_⟩; simp only [saveAreaFits_iff]; decide

theorem test_witness_EntryThenReturnRestores :
    let s := { sample with rd := 0o1000, v := true, fov := true, mode := 0o20 }
    s.mem.wf ∧ s.cfg.wf ∧ s.executive = false ∧ s.SaveAreaFits ∧ s.cfg.hasAm22 = true ∧
      answers (enterTrap 0o20 s) fun t => t.executive := by
  simp only [saveAreaFits_iff]; decide

/-- The first word violates; the second does and the first does not; in either mode. -/
theorem test_witness_OperandViolationAborts :
    ∀ s ∈ [{ sample with rd := 0o1000, rl := 0o1200 }, { executive [] [] with cfg := { defaultConfig with memSize := 0o200 } }],
      s.mem.wf ∧ s.cfg.hasFp = true ∧ s.cfg.hasMd = true ∧ memRead s (s.operandAddress 0 0o200) true = none ∧
        (memRead s (s.operandAddress 0 0o177) true).isSome = true ∧
        memRead s (s.nextAddr (s.operandAddress 0 0o177)) true = none := by decide

/-- The first word of a block violates. -/
theorem test_witness_OperandViolationAborts_first :
    let s := { user [(1, 0o200), (2, 0o300)] [] with rd := 0o1000, rl := 0o1200 }
    memRead s (s.maskAddr (s.reg 1 + BitVec.ofNat 24 0)) true = none ∧
      memRead s (s.maskAddr (s.reg 2 + BitVec.ofNat 24 0)) true = none ∧
      memRead s (BitVec.ofNat 22 ((4 * ((s.reg 1).toNat % 2 ^ 15) + (s.reg 1).toNat / 2 ^ 22 + 0) % 2 ^ 17 / 4)) true = none := by
  decide

/-- A MOVE of two words and an MVCH of two characters, of which the first is moved and the second violates. -/
theorem test_witness_OperandViolationAborts_later :
    let s := { user [(1, 0o60000100), (2, 0o60000177)] [] with rd := 0o1000, rl := 0o1200 }
    (s.operandAddress 0 1).toNat % 512 = 1 ∧ (s.operandAddress 0 1).toNat % 256 = 1 ∧ (s.operandAddress 0 2).toNat = 2 ∧
      (answers (exec (.move 1 0 1) s) fun u =>
        memRead u (u.maskAddr (u.reg 2 + BitVec.ofNat 24 1)) true == none) ∧
      (answers (exec (.mvch 1 0 1) s) fun u => u.sr64 == 0) ∧
      memRead s (BitVec.ofNat 22 ((4 * ((s.reg 2).toNat % 2 ^ 15) + (s.reg 2).toNat / 2 ^ 22 + 1) % 2 ^ 17 / 4)) true = none ∧
      access s (BitVec.ofNat 22 ((4 * ((s.reg 2).toNat % 2 ^ 15) + (s.reg 2).toNat / 2 ^ 22 + 0) % 2 ^ 17 / 4)) true ≠
        .reg 1 := by decide

/-- With a pre-modification pending. -/
theorem test_witness_FetchViolationEnters_pip :
    let s := { sample with rd := 0o1000, rl := 0o1100, pip := true, sr65 := 1 }
    s.Running ∧ s.mem.wf ∧ s.cfg.wf ∧ memRead s (s.pc &&& s.amask) false = none ∧ s.executive = false ∧ s.pip = true ∧
      s.SaveAreaFits := by
  refine ⟨⟨rfl, rfl, rfl, rfl, rfl⟩, ?_⟩; simp only [saveAreaFits_iff]; decide

theorem test_witness_FetchViolationEnters :
    let s := { sample with rd := 0o1000, rl := 0o1100 }
    s.Running ∧ s.mem.wf ∧ s.cfg.wf ∧ memRead s (s.pc &&& s.amask) false = none ∧ s.executive = false ∧
      s.pending = false ∧ s.SaveAreaFits ∧ ¬State.SaveAreaFits { s with rd := 0o77765 } ∧
      memRead { s with rd := 0o77765 } (s.pc &&& s.amask) false = none := by
  refine ⟨⟨rfl, rfl, rfl, rfl, rfl⟩, ?_⟩; simp only [saveAreaFits_iff]; decide

theorem test_witness_FetchViolationEnters_executive :
    let s := { executive [] [] with cfg := { defaultConfig with memSize := 0o100, bootVector := 0o20 } }
    s.Running ∧ s.mem.wf ∧ s.cfg.wf ∧ memRead s (s.pc &&& s.amask) false = none ∧ s.executive = true :=
  ⟨⟨rfl, rfl, rfl, rfl, rfl⟩, by decide⟩

theorem test_witness_RefusedInstructions :
    sample.cfg.hasFp = true ∧ (1 : RegIx) ≠ 0 ∧ (executive [] []).executive = true := by decide

theorem test_witness_ResetMeetsInvariant :
    defaultConfig.wf ∧ Memory.wf (memoryOf [(0o20, 1)]) ∧ Memory.within (memoryOf [(0o20, 1)]) defaultConfig.memSize := by
  decide

theorem test_witness_StepKeepsInvariant : sample.Inv ∧ goes sample fun t => t.pc == 0o101 :=
  ⟨⟨by decide, by decide, by decide, by decide, by decide, by decide, by decide⟩, by decide⟩

/-- EXX leaves executive mode; a privileged order enters it. -/
theorem test_witness_ModeTransitions :
    (Instr.exx 0 0 0).wf = true ∧ defaultConfig.codes.wf ∧
      (answers (exec (.exx 0 0 0) (executive [] [])) fun t => !t.executive) ∧
      answers (exec (.rsr 1 0 0o100) sample) fun t => t.executive := by decide

theorem test_witness_UserCannotTouchPrivilegedState :
    sample.executive = false ∧ sample.turns = [] ∧ goes sample fun t => !t.executive := by decide

/-- A step that stores within the window, and one that enters executive mode. -/
theorem test_witness_UserStoresWithinLimits :
    let s := { user [(1, 5)] [(0o1100, 0o10400200)] with rd := 0o1000, rl := 0o2000 }
    s.mem.wf ∧ s.executive = false ∧ s.turns = [] ∧ s.rl ≠ 0 ∧ s.rl.toNat ≤ 2 ^ (if s.am22 then 22 else 15) ∧
      (goes s fun t => t.mem.read 0o1200 == 5) ∧ goes { s with sr65 := 1 } fun t => t.executive := by decide

theorem test_witness_UserSeesOnlyItsWindow :
    let s := { user [(1, 5)] [(0o1100, 0o10400200)] with rd := 0o1000, rl := 0o2000 }
    let u := s.writePhysical 0o2000 7
    s.mem.wf ∧ u.mem.wf ∧ s.rl ≠ 0 ∧ s.rl.toNat ≤ 2 ^ 15 ∧ AgreeWithin s.rd.toNat s.rl.toNat s u ∧ s ≠ u := by
  refine ⟨by decide, by decide, by decide, by decide, ⟨rfl, fun p h1 h2 => ?_⟩, by decide⟩
  exact Memory.read_write_other (by decide) (by simp at h2 ⊢; omega) 7

/-- An instruction that keeps the mode, one for each clause: V cleared, V set, C, ZS and FOV changed, PIP left. -/
theorem test_witness_FlagWriters :
    (answers (exec (.bvsr 0) { sample with v := true }) fun t => !t.executive && !t.v) ∧
      (answers (exec (.bvci 0) sample) fun t => !t.executive && t.v) ∧
      (answers (exec (.txu 1 0 0o200) sample) fun t => !t.executive && t.c != sample.c) ∧
      (answers (exec (.mode 1 0 1) sample) fun t => !t.executive && t.zs != sample.zs) ∧
      (answers (exec (.bfp4 0) { sample with fov := true }) fun t => !t.executive && !t.fov) ∧
      answers (exec (.smo 1 0 0o200) sample) fun t => !t.executive && t.pip := by decide

theorem test_witness_OnlyStoringOrdersStore :
    answers (exec (.sto 1 0 0o200) sample) fun t => t.executive == sample.executive && t.mem != sample.mem := by decide

end Sys2Proof.Tests
end

section
/-! Proofs of the family 10_state, first part: every instruction is a chain of primitive writes, of which it may make those
that its permit names; or it makes a voluntary entry, or it is the executive return. Facts about what instructions leave
unchanged are inductions over the chain. -/

namespace Sys2Proof

/-- The flags an instruction may write (the summary of flag writers, 10_state.md R45): V cleared, V set, C, ZS, the whole mode
byte, FOV, and a pre-modification left pending. -/
structure Permit where
  clearsV : Bool := false
  setsV : Bool := false
  carry : Bool := false
  zs : Bool := false
  modeByte : Bool := false
  fov : Bool := false
  premodify : Bool := false

/-- What stands before an instruction's meaning: nothing, the presence of an option (40_dispatch.md R134), or executive mode
(46_executive.md R371). -/
inductive Gate where
  | none
  | mulDiv
  | floating
  | executive

/-- The gate is shut to a user program on a machine with these parameters. -/
def Gate.Shut (g : Gate) (k : Config) : Prop :=
  match g with
  | .none => False
  | .mulDiv => k.hasMd = false
  | .floating => k.hasFp = false
  | .executive => True

/-- The gate of each instruction. -/
def Instr.gate (i : Instr) : Gate :=
  match i with
  | .mpy .. | .mpr .. | .mpa .. | .dvd .. | .dvr .. | .dvs .. => .mulDiv
  | .bfp0 .. | .bfp1 .. | .bfp2 .. | .bfp3 .. | .bfp4 .. | .bfp5 .. => .floating
  | .float .. | .fix .. | .fad .. | .fsb .. | .fmpy .. | .fdvd .. | .lfp .. | .sfp .. => .floating
  | .rsr .. | .wsr .. | .exx .. | .ldl .. | .ldm .. | .tdl .. | .peri .. => .executive
  | .xferIn .. | .xferOut .. | .search .. => .executive
  | _ => .none

/-- The permit of each instruction (10_state.md R45). -/
def Instr.permit (i : Instr) : Permit :=
  match i with
  | .adx .. | .ngx .. | .sbx .. | .ldxc .. | .adxc .. | .ngxc .. | .sbxc .. => { setsV := true, carry := true }
  | .ads .. | .ngs .. | .sbs .. | .stoc .. | .adsc .. | .ngsc .. | .sbsc .. => { setsV := true, carry := true }
  | .adn .. | .ngn .. | .sbn .. | .ldnc .. | .adnc .. | .ngnc .. | .sbnc .. => { setsV := true, carry := true }
  | .mpy .. | .mpr .. | .mpa .. | .cdb .. | .dvd .. | .dvr .. | .dvs .. => { setsV := true, carry := true }
  | .andx .. | .orx .. | .erx .. | .txu .. | .txl .. | .ands .. | .ors .. | .ers .. => { carry := true }
  | .andn .. | .orn .. | .ern .. | .tdl .. => { carry := true }
  | .sla .. | .slad .. | .fix .. => { setsV := true }
  | .bvsr .. | .bvcr .. | .call .. => { clearsV := true }
  | .bvci .. => { clearsV := true, setsV := true }
  | .exit .. => { clearsV := true, setsV := true, zs := true }
  | .mode .. | .cbd .. => { zs := true }
  | .ldm .. => { modeByte := true }
  | .bfp4 .. | .fad .. | .fsb .. | .fmpy .. | .fdvd .. => { fov := true }
  | .smo .. => { premodify := true }
  | _ => {}

end Sys2Proof

namespace Sys2Proof.Machine

/-! ### The primitive writes -/

/-- A chain of primitive writes leads from `s` to the state: each is a write that some instruction makes, to a flag only where
the permit names the flag, to privileged state only in executive mode, to memory only at an installed word, and to PC only
within the active width. -/
inductive Writes (p : Permit) (s : State) : State → Prop
  | refl : Writes p s s
  | setReg {t : State} (h : Writes p s t) (i : RegIx) (w : Word) : Writes p s (t.setReg i w)
  | store {t : State} (h : Writes p s t) {a : Nat} (w : Word) (ha : a < t.cfg.memSize) : Writes p s (t.writePhysical a w)
  | setAcc {t : State} (h : Writes p s t) (m : Mantissa) (e : Exponent) : Writes p s (t.setAcc m e)
  | jump {t : State} (h : Writes p s t) {a : Addr} (ha : a &&& t.amask = a) : Writes p s { t with pc := a }
  | raise {t : State} (h : Writes p s t) (n : Fin 24) (hu : t.executive = false) :
      Writes p s { t with sr64 := t.sr64 ||| bitWord n }
  | putV {t : State} (h : Writes p s t) (b : Bool) (hp : (if b then p.setsV else p.clearsV) = true) :
      Writes p s { t with v := b }
  | setC {t : State} (h : Writes p s t) (b : Bool) (hp : p.carry = true) : Writes p s (t.setC b)
  | setZs {t : State} (h : Writes p s t) (b : Bool) (hp : p.zs = true) : Writes p s (t.setZs b)
  | setFov {t : State} (h : Writes p s t) (b : Bool) (hp : p.fov = true) : Writes p s { t with fov := b }
  | premodify {t : State} (h : Writes p s t) (w : Word) (hp : p.premodify = true) :
      Writes p s { t with pip := true, pipVal := w }
  | obey {t : State} (h : Writes p s t) (w : Word) : Writes p s { t with obeyed := some w }
  | loadMode {t : State} (h : Writes p s t) (b : BitVec 5) (hp : p.modeByte = true) (he : t.executive = true) :
      Writes p s { t with mode := forceMode t.cfg b }
  | loadLimits {t : State} (h : Writes p s t) (d l : Addr) (he : t.executive = true) : Writes p s { t with rd := d, rl := l }
  | loadStatus {t : State} (h : Writes p s t) (a b : Word) (he : t.executive = true) :
      Writes p s { t with sr64 := a, sr65 := b }
  | draw {t : State} (h : Writes p s t) (n : Nat) (he : t.executive = true) : Writes p s { t with draws := n }

section
variable {p : Permit} {s t u : State}

/-! ### What a chain of writes keeps -/

/-- No write of an instruction changes the configuration, the mode of the processor or its sub-states. -/
theorem Writes.frame (h : Writes p s t) :
    t.cfg = s.cfg ∧ t.executive = s.executive ∧ t.loading = s.loading ∧ t.stopped = s.stopped := by
  induction h with
  | refl => exact ⟨rfl, rfl, rfl, rfl⟩
  | _ => assumption

/-- Memory stays canonical and installed. -/
theorem Writes.memory (h : Writes p s t) (hm : s.mem.wf ∧ s.mem.within s.cfg.memSize) :
    t.mem.wf ∧ t.mem.within t.cfg.memSize := by
  induction h with
  | refl => exact hm
  | store _ w ha ih => exact ⟨Memory.wf_write _ _ _ ih.1, Memory.within_write ih.2 ha⟩
  | _ => assumption

/-- A mode byte as written has AM22 and EJM at 0 without the extension (10_state.md R29). -/
theorem forceMode_narrow {k : Config} (hk : k.hasAm22 = false) (b : BitVec 5) :
    (forceMode k b).getLsbD 2 = false ∧ (forceMode k b).getLsbD 0 = false := by
  simp [forceMode, hk]

/-- AM22 and EJM stay 0 without the extension. -/
theorem Writes.narrow (h : Writes p s t) (hn : s.cfg.hasAm22 = false → s.am22 = false ∧ s.ejm = false) :
    t.cfg.hasAm22 = false → t.am22 = false ∧ t.ejm = false := by
  induction h with
  | refl => exact hn
  | setZs _ b _ ih => simpa using ih
  | loadMode _ b _ _ _ => exact fun hk => forceMode_narrow hk b
  | _ => assumption

/-- Only a write of the whole mode byte changes the active width. -/
theorem Writes.amask_eq (h : Writes p s t) (hp : p.modeByte = false) : t.amask = s.amask := by
  induction h with
  | refl => rfl
  | setZs _ b _ ih => simpa using ih
  | loadMode _ _ hm => simp [hp] at hm
  | _ => assumption

/-- A user program's PC stays within the active width (10_state.md R24). -/
theorem Writes.userPc (h : Writes p s t) (hu : s.executive = false → s.pc &&& s.amask = s.pc) :
    t.executive = false → t.pc &&& t.amask = t.pc := by
  induction h with
  | refl => exact hu
  | jump _ ha => exact fun _ => ha
  | setZs _ b _ ih => simpa using ih
  | loadMode _ _ _ he => exact fun hx => absurd (he.symm.trans hx) (by decide)
  | _ => assumption

/-- V is cleared only with the permit to clear it. -/
theorem Writes.clearsV (h : Writes p s t) (hs : s.v = true) (ht : t.v = false) : p.clearsV = true := by
  induction h with
  | refl => simp [hs] at ht
  | putV _ b hp => cases ht; exact hp
  | _ => rename_i ih; exact ih ht

/-- V is set only with the permit to set it. -/
theorem Writes.setsV (h : Writes p s t) (hs : s.v = false) (ht : t.v = true) : p.setsV = true := by
  induction h with
  | refl => simp [hs] at ht
  | putV _ b hp => cases ht; exact hp
  | _ => rename_i ih; exact ih ht

/-- C changes only with the permit to write it. -/
theorem Writes.carry (h : Writes p s t) (ht : t.c ≠ s.c) : p.carry = true := by
  induction h with
  | refl => exact absurd rfl ht
  | setC _ _ hp => exact hp
  | _ => rename_i ih; exact ih ht

/-- ZS changes only with the permit to write it or the mode byte. -/
theorem Writes.zs (h : Writes p s t) (ht : t.zs ≠ s.zs) : p.zs = true ∨ p.modeByte = true := by
  induction h with
  | refl => exact absurd rfl ht
  | setZs _ _ hp => exact .inl hp
  | loadMode _ _ hp => exact .inr hp
  | _ => rename_i ih; exact ih ht

/-- FOV changes only with the permit to write it. -/
theorem Writes.fov (h : Writes p s t) (ht : t.fov ≠ s.fov) : p.fov = true := by
  induction h with
  | refl => exact absurd rfl ht
  | setFov _ _ hp => exact hp
  | _ => rename_i ih; exact ih ht

/-- A pre-modification comes to be pending only with the permit to leave one. -/
theorem Writes.pip (h : Writes p s t) (hs : s.pip = false) (ht : t.pip = true) : p.premodify = true := by
  induction h with
  | refl => simp [hs] at ht
  | premodify _ _ hp => exact hp
  | _ => rename_i ih; exact ih ht

/-! ### The model's own updates as chains -/

theorem Writes.setVIf (h : Writes p s t) (b : Bool) (hp : p.setsV = true) : Writes p s (t.setVIf b) := by
  cases b with
  | false => exact h
  | true =>
    have hv : Writes p s { t with v := true } := h.putV true hp
    show Writes p s (State.overflowEvent { t with v := true })
    unfold State.overflowEvent
    split
    · rename_i he
      simp only [Bool.and_eq_true, Bool.not_eq_true'] at he
      exact hv.raise _ he.2
    · exact hv

theorem Writes.adderFlags (h : Writes p s t) (r : Sum) (hv : p.setsV = true) (hc : p.carry = true) :
    Writes p s (t.adderFlags r) := (h.setC r.carry hc).setVIf r.overflow hv

theorem Writes.writeDoubleLength (h : Writes p s t) (x : RegIx) (d : Int) : Writes p s (t.writeDoubleLength x d) :=
  (h.setReg x _).setReg (x + 1) _

theorem Writes.memWrite {a : Addr} {w : Word} {o : Bool} (h : Writes p s t) (hw : memWrite t a w o = some u) :
    Writes p s u := by
  rcases memWrite_cases hw with ⟨i, _, rfl⟩ | ⟨q, hq, rfl⟩
  · exact h.setReg i w
  · exact h.store w (access_mem_lt hq)

/-- An address cut to the active width is within it. -/
theorem and_amask_idem (s : State) (a : Addr) : (a &&& s.amask) &&& s.amask = a &&& s.amask := by
  rw [BitVec.and_assoc, BitVec.and_self]

/-- The advance past the instruction word, once PIP is consumed, is a write of PC. -/
theorem Writes.advance : Writes p s.consumePip s.advance := Writes.refl.jump (and_amask_idem s _)

/-! ### What an order may write

One rule per shared operation: its continuation is asked for from a state that a chain has reached. -/

/-- Where the result is a next state, a chain of writes leads to it. -/
def WritesOnly (p : Permit) (s : State) (r : Result) : Prop := ∀ t, r = .next t → Writes p s t

theorem writesOnly_next (h : Writes p s t) : WritesOnly p s (.next t) := fun _ he => by cases he; exact h

theorem writesOnly_refused (r : Refusal) : WritesOnly p s (.refused r) := fun _ he => by cases he

theorem writesOnly_abort (h : Writes p s t) : WritesOnly p s (abort t) := fun _ he => by
  obtain ⟨hu, rfl⟩ := abort_next he
  exact h.raise _ hu

theorem writesOnly_storeThen {ea : Addr} {w : Word} {k : State → Result} (h : Writes p s t)
    (hk : ∀ u, Writes p s u → WritesOnly p s (k u)) : WritesOnly p s (storeThen ea w t k) := fun _ he => by
  rcases storeThen_next he with ⟨v, hv, he⟩ | ⟨_, he⟩
  · exact hk v (h.memWrite hv) _ he
  · exact writesOnly_abort h _ he

section
variable {m : ModIx} {n : BitVec 12}

theorem writesOnly_withWord {k : State → Word → Result}
    (hk : ∀ t w, Writes p s.consumePip t → WritesOnly p s.consumePip (k t w)) :
    WritesOnly p s.consumePip (withWord m n s k) := fun _ he => by
  rcases withWord_next he with ⟨w, _, he⟩ | ⟨_, he⟩
  · exact hk _ w .advance _ he
  · exact writesOnly_abort .advance _ he

theorem writesOnly_withPair {k : State → Word → Word → Result}
    (hk : ∀ t w₀ w₁, Writes p s.consumePip t → WritesOnly p s.consumePip (k t w₀ w₁)) :
    WritesOnly p s.consumePip (withPair m n s k) := fun _ he => by
  rcases withPair_next he with ⟨w₀, w₁, _, _, he⟩ | he
  · exact hk _ w₀ w₁ .advance _ he
  · exact writesOnly_abort .advance _ he

theorem writesOnly_storeWord {value : State → Word} {finish : State → State}
    (hf : ∀ u, Writes p s.consumePip u → Writes p s.consumePip (finish u)) :
    WritesOnly p s.consumePip (storeWord m n s value finish) :=
  writesOnly_storeThen .advance fun u hu => writesOnly_next (hf u hu)

theorem writesOnly_updateWord {value : State → Word → Word} {finish : State → Word → State → State}
    (hf : ∀ t w u, Writes p s.consumePip u → Writes p s.consumePip (finish t w u)) :
    WritesOnly p s.consumePip (updateWord m n s value finish) :=
  writesOnly_withWord fun t w ht => writesOnly_storeThen ht fun u hu => writesOnly_next (hf t w u hu)

theorem writesOnly_storePair {w₀ w₁ : Word} {finish : State → State}
    (hf : ∀ u, Writes p s.consumePip u → Writes p s.consumePip (finish u)) :
    WritesOnly p s.consumePip (storePair m n s w₀ w₁ finish) :=
  writesOnly_storeThen .advance fun _ ht => writesOnly_storeThen ht fun u hu => writesOnly_next (hf u hu)

end

theorem writesOnly_takeIf {c : Bool} {a : Addr} (h : Writes p s t) (ha : a &&& t.amask = a) :
    WritesOnly p s (takeIf c a t) := fun _ he => by
  cases c with
  | false => exact writesOnly_next h _ he
  | true =>
    obtain ⟨_, rfl⟩ := take_next he
    exact h.jump ha

/-! ### Families of orders

Each needs the permit for the flags it writes; the permit is otherwise free. -/

section
variable {x : RegIx} {m : ModIx} {n : BitVec 12} {d : BitVec 15}

theorem adderFromWord_writes {f : State → Word → Sum} (hv : p.setsV = true) (hc : p.carry = true) :
    WritesOnly p s.consumePip (adderFromWord x m n s f) :=
  writesOnly_withWord fun t w ht => writesOnly_next ((ht.setReg x (f t w).value).adderFlags _ hv hc)

theorem adderFromLiteral_writes {f : State → Word → Sum} (hv : p.setsV = true) (hc : p.carry = true) :
    WritesOnly p s.consumePip (adderFromLiteral x m n s f) :=
  writesOnly_next ((Writes.advance.setReg x _).adderFlags _ hv hc)

theorem adderUpdate_writes {f : State → Word → Sum} (hv : p.setsV = true) (hc : p.carry = true) :
    WritesOnly p s.consumePip (adderUpdate m n s f) :=
  writesOnly_updateWord fun _ _ _ hu => hu.adderFlags _ hv hc

theorem adderStore_writes {f : State → Sum} (hv : p.setsV = true) (hc : p.carry = true) :
    WritesOnly p s.consumePip (adderStore m n s f) :=
  writesOnly_storeWord fun _ hu => hu.adderFlags _ hv hc

theorem logicFromWord_writes {f : Word → Word → Word} (hc : p.carry = true) :
    WritesOnly p s.consumePip (logicFromWord x m n s f) :=
  writesOnly_withWord fun _ _ ht => writesOnly_next ((ht.setReg x _).setC false hc)

theorem logicUpdate_writes {f : Word → Word → Word} (hc : p.carry = true) :
    WritesOnly p s.consumePip (logicUpdate x m n s f) :=
  writesOnly_updateWord fun _ _ _ hu => hu.setC false hc

theorem logicFromLiteral_writes {f : Word → Word → Word} (hc : p.carry = true) :
    WritesOnly p s.consumePip (logicFromLiteral x m n s f) :=
  writesOnly_next ((Writes.advance.setReg x _).setC false hc)

theorem execCdb_writes (hv : p.setsV = true) (hc : p.carry = true) :
    WritesOnly p s.consumePip (execCdb x m n s) :=
  writesOnly_withWord fun t w ht => by
    by_cases hd : 9 < (charOf w (s.lane m)).toNat
    · simp only [hd, if_true]
      exact writesOnly_next (ht.setC true hc)
    · simp only [hd, if_false]
      exact writesOnly_next (((ht.setVIf _ hv).writeDoubleLength x _).setC false hc)

theorem execCbd_writes (hz : p.zs = true) : WritesOnly p s.consumePip (execCbd x m n s) :=
  writesOnly_updateWord fun t _ u hu => by
    by_cases hd : t.tenfold x / 2 ^ 23 = 0
    · simp only [hd, if_true]
      exact hu.setReg x _
    · simp only [hd, if_false]
      exact (hu.setReg x _).setZs false hz

/-- Only an arithmetic left shift notes an overflow. -/
theorem Writes.shiftOverflow {w c : Nat} {dir : ShiftDir} {mode : ShiftMode} {v : BitVec w} (h : Writes p s t)
    (hv : dir = .left ∧ mode = .arithmetic → p.setsV = true) : Writes p s (t.setVIf (shift dir mode c v).2) := by
  by_cases ha : dir = .left ∧ mode = .arithmetic
  · exact h.setVIf _ (hv ha)
  · rw [shift_no_overflow ha]
    exact h

theorem shiftSingle_writes {dir : ShiftDir} {mode : ShiftMode} {c : BitVec 10}
    (hv : dir = .left ∧ mode = .arithmetic → p.setsV = true) :
    WritesOnly p s.consumePip (shiftSingle dir mode x m c s) :=
  writesOnly_next ((Writes.advance.setReg x _).shiftOverflow hv)

theorem shiftDouble_writes {dir : ShiftDir} {mode : ShiftMode} {c : BitVec 10}
    (hv : dir = .left ∧ mode = .arithmetic → p.setsV = true) :
    WritesOnly p s.consumePip (shiftDouble dir mode x m c s) :=
  writesOnly_next (((Writes.advance.setReg x _).setReg (x + 1) _).shiftOverflow hv)

theorem Writes.divideFail {op : MdOp} {w : Word} (h : Writes p s t) (hv : p.setsV = true) (hc : p.carry = true) :
    Writes p s (divideFail op x w t) :=
  (((h.setReg x _).setReg (x + 1) _).setVIf true hv).setC false hc

/-! ### Blocks -/

theorem moveChars_writes : ∀ (k : Nat) (q r : Word) (t : State), Writes p s t → WritesOnly p s (moveChars x k q r t)
  | 0, _, _, _, ht => writesOnly_next ((ht.setReg x _).setReg (x + 1) _)
  | k + 1, q, r, t, ht => by
    unfold moveChars
    split
    · exact writesOnly_abort ht
    · split
      · exact writesOnly_abort ht
      · exact writesOnly_storeThen ht fun u hu => moveChars_writes k _ _ u hu

theorem moveWords_writes : ∀ (k i : Nat) (t : State), Writes p s t → WritesOnly p s (moveWords x k i t)
  | 0, _, _, ht => writesOnly_next ht
  | k + 1, i, t, ht => by
    unfold moveWords
    split
    · exact writesOnly_abort ht
    · exact writesOnly_storeThen ht fun u hu => moveWords_writes k (i + 1) u hu

theorem execSum_writes : WritesOnly p s.consumePip (execSum x m n s) := by
  unfold execSum
  split
  · exact writesOnly_abort .advance
  · exact writesOnly_next (Writes.advance.setReg x _)

/-! ### Branches -/

theorem branchOnReg_writes {test : Word → Bool} : WritesOnly p s.consumePip (branchOnReg x d s test) :=
  writesOnly_takeIf .advance (and_amask_idem s _)

theorem countAndBranch_writes {f : Word → Word} {count : Word → Bool} :
    WritesOnly p s.consumePip (countAndBranch x d s f count) := by
  unfold countAndBranch
  split
  · exact writesOnly_refused _
  · exact writesOnly_takeIf (Writes.advance.setReg x _) (and_amask_idem s _)

theorem branchOnFlag_writes {test : State → Bool} {after : State → State} (hp : p.modeByte = false)
    (ha : Writes p s.consumePip (after s.advance)) : WritesOnly p s.consumePip (branchOnFlag d s test after) :=
  writesOnly_takeIf ha (by rw [ha.amask_eq hp]; exact and_amask_idem s _)

theorem execCall_writes (hp : p.clearsV = true) : WritesOnly p s.consumePip (execCall x d s) :=
  writesOnly_takeIf (c := true) ((Writes.advance.setReg x s.advance.linkWord).putV false hp) (and_amask_idem s _)

theorem execExit_writes (hs : p.setsV = true) (hc : p.clearsV = true) (hz : p.zs = true) :
    WritesOnly p s.consumePip (execExit x d s) := by
  have hv : ∀ b : Bool, (if b then p.setsV else p.clearsV) = true := fun b => by cases b <;> assumption
  refine writesOnly_takeIf (c := true) ((Writes.advance.putV _ (hv _)).setZs _ hz) ?_
  rw [State.setZs_amask]
  exact and_amask_idem s _

/-! ### OBEY and SMO -/

theorem execObey_writes : WritesOnly p s.consumePip (execObey x m n s) := by
  unfold execObey
  split
  · exact writesOnly_abort .refl
  · exact writesOnly_next (Writes.refl.obey _)

theorem execSmo_writes (hp : p.premodify = true) : WritesOnly p s.consumePip (execSmo x m n s) :=
  writesOnly_withWord fun _ w ht => writesOnly_next (ht.premodify w hp)

end
end

/-! ### How an instruction completes -/

/-- An instruction completes in one of three ways: by a chain of writes, PIP consumed, that its permit allows; where its gate is
shut to a user program, by a voluntary entry (60_exceptions.md R414); or, EXX alone, by the executive return (46_executive.md
R378). -/
inductive Completes (i : Instr) (s t : State) : Prop
  | writes (h : Writes i.permit s.consumePip t)
  | entry (he : s.executive = false) (hg : i.gate.Shut s.cfg) (h : voluntaryEntry s.advance = .next t)
  | exits (hi : ∃ x m n, i = .exx x m n) (he : s.executive = true) (h : restore s.advance = .next t)

section
variable {i : Instr} {s t : State} {x : RegIx} {m : ModIx} {n : BitVec 12} {d : BitVec 15}

theorem completes_of_withOption {present : Bool} {k : Result} (hg : present = false → i.gate.Shut s.cfg)
    (hk : WritesOnly i.permit s.consumePip k) (h : withOption present s.advance k = .next t) : Completes i s t := by
  rcases withOption_next h with ⟨_, h⟩ | ⟨hp, he, h⟩
  · exact .writes (hk t h)
  · exact .entry he (hg hp) h

theorem completes_of_mulDivOrder {k : State → Word → Result} (hg : i.gate = .mulDiv)
    (hk : ∀ t w, Writes i.permit s.consumePip t → WritesOnly i.permit s.consumePip (k t w))
    (h : mulDivOrder m n s k = .next t) : Completes i s t :=
  completes_of_withOption (fun hp => by rw [hg]; exact hp) (writesOnly_withWord hk) h

theorem completes_of_multiplyOrder {op : MdOp} {f : State → Word → Int} (hg : i.gate = .mulDiv)
    (hv : i.permit.setsV = true) (hc : i.permit.carry = true) (h : multiplyOrder op x m n s f = .next t) :
    Completes i s t :=
  completes_of_mulDivOrder hg
    (fun _ _ ht => writesOnly_next (((ht.setVIf _ hv).writeDoubleLength x _).setC false hc)) h

theorem completes_of_divideOrder {op : MdOp} {a : State → Int} {q : Int → Int → Int} (hg : i.gate = .mulDiv)
    (hv : i.permit.setsV = true) (hc : i.permit.carry = true) (h : divideOrder op x m n s a q = .next t) :
    Completes i s t := by
  refine completes_of_mulDivOrder hg (fun u w hu => ?_) h
  dsimp only
  split
  · exact writesOnly_next (hu.divideFail hv hc)
  · exact writesOnly_next (((hu.setReg x _).setReg (x + 1) _).setC false hc)

theorem completes_of_floatOrder {k : Result} (hg : i.gate = .floating)
    (hk : WritesOnly i.permit s.consumePip k) (h : floatOrder x s k = .next t) : Completes i s t := by
  refine completes_of_withOption (fun hp => by rw [hg]; exact hp) ?_ h
  split
  · exact hk
  · exact writesOnly_refused _

theorem completes_of_floatArith {f : Mantissa → Exponent → Mantissa → Exponent → FpResult} (hg : i.gate = .floating)
    (hf : i.permit.fov = true) (h : floatArith x m n s f = .next t) : Completes i s t :=
  completes_of_floatOrder hg
    (writesOnly_withPair fun _ _ _ ht => writesOnly_next ((ht.setAcc _ _).setFov _ hf)) h

theorem completes_of_floatBranchOn {test : State → Bool} {after : State → State} (hg : i.gate = .floating)
    (hp : i.permit.modeByte = false) (ha : Writes i.permit s.consumePip (after s.advance))
    (h : floatBranchOn d s test after = .next t) : Completes i s t :=
  completes_of_withOption (fun hp => by rw [hg]; exact hp) (branchOnFlag_writes hp ha) h

theorem completes_of_privileged {k : Result} (hg : i.gate = .executive)
    (hk : s.executive = true → WritesOnly i.permit s.consumePip k) (h : privileged s.advance k = .next t) :
    Completes i s t := by
  rcases privileged_next h with ⟨he, h⟩ | ⟨he, h⟩
  · exact .writes (hk he t h)
  · exact .entry he (by rw [hg]; trivial) h

theorem execRsr_completes (h : execRsr x m n s = .next t) : Completes (.rsr x m n) s t := by
  refine completes_of_privileged rfl (fun he => ?_) h
  split
  · exact writesOnly_next (Writes.advance.setReg x _)
  · split
    · exact writesOnly_next (Writes.advance.setReg x _)
    · exact writesOnly_next ((Writes.advance.setReg x _).draw _ he)

theorem execWsr_completes (h : execWsr x m n s = .next t) : Completes (.wsr x m n) s t := by
  refine completes_of_privileged rfl (fun he => ?_) h
  split
  · exact writesOnly_next (Writes.advance.loadStatus _ s.advance.sr65 he)
  · split
    · exact writesOnly_next (Writes.advance.loadStatus s.advance.sr64 _ he)
    · exact writesOnly_next .advance

theorem execExx_completes (h : execExx x m n s = .next t) : Completes (.exx x m n) s t := by
  rcases privileged_next h with ⟨he, h⟩ | ⟨he, h⟩
  · exact .exits ⟨x, m, n, rfl⟩ he h
  · exact .entry he trivial h

/-- What each instruction can do, said once. -/
theorem exec_completes (h : exec i s = .next t) : Completes i s t := by
  unfold exec at h
  cases i with
  | ldx x m n | ldch x m n | ldex x m n =>
    exact .writes (writesOnly_withWord (fun _ _ ht => writesOnly_next (ht.setReg x _)) t h)
  | adx x m n | ngx x m n | sbx x m n | ldxc x m n | adxc x m n | ngxc x m n | sbxc x m n =>
    exact .writes (adderFromWord_writes rfl rfl t h)
  | ads x m n | sbs x m n | adsc x m n | sbsc x m n => exact .writes (adderUpdate_writes rfl rfl t h)
  | ngs x m n | stoc x m n | ngsc x m n => exact .writes (adderStore_writes rfl rfl t h)
  | adn x m n | ngn x m n | sbn x m n | ldnc x m n | adnc x m n | ngnc x m n | sbnc x m n =>
    exact .writes (adderFromLiteral_writes rfl rfl t h)
  | sto x m n | stoz x m n => exact .writes (writesOnly_storeWord (fun _ hu => hu) t h)
  | dch x m n | dex x m n | dsa x m n | dla x m n => exact .writes (writesOnly_updateWord (fun _ _ _ hu => hu) t h)
  | andx x m n | orx x m n | erx x m n => exact .writes (logicFromWord_writes rfl t h)
  | ands x m n | ors x m n | ers x m n => exact .writes (logicUpdate_writes rfl t h)
  | andn x m n | orn x m n | ern x m n => exact .writes (logicFromLiteral_writes rfl t h)
  | txu x m n | txl x m n =>
    exact .writes (writesOnly_withWord (fun _ _ ht => writesOnly_next (ht.setC _ rfl)) t h)
  | ldn x m n | ldct x m n => exact .writes (writesOnly_next (Writes.advance.setReg x _) t h)
  | null x m n => exact .writes (writesOnly_next .advance t h)
  | mode x m n => exact .writes (writesOnly_next (Writes.advance.setZs _ rfl) t h)
  | cdb x m n => exact .writes (execCdb_writes rfl rfl t h)
  | cbd x m n => exact .writes (execCbd_writes rfl t h)
  | obey x m n => exact .writes (execObey_writes t h)
  | smo x m n => exact .writes (execSmo_writes rfl t h)
  | mpy x m n | mpr x m n | mpa x m n => exact completes_of_multiplyOrder rfl rfl rfl h
  | dvd x m n | dvr x m n | dvs x m n => exact completes_of_divideOrder rfl rfl rfl h
  | bze x n | bnz x n | bpz x n | bng x n => exact .writes (branchOnReg_writes t h)
  | bux x n | bdx x n | bchx x n | bct x n => exact .writes (countAndBranch_writes t h)
  | call x n => exact .writes (execCall_writes rfl t h)
  | exit x n => exact .writes (execExit_writes rfl rfl rfl t h)
  | brn n | bvs n | bvc n | bcs n | bcc n => exact .writes (branchOnFlag_writes rfl .advance t h)
  | bvsr n | bvcr n => exact .writes (branchOnFlag_writes rfl (Writes.advance.putV false rfl) t h)
  | bvci n =>
    have hv : (if !s.advance.v then (Instr.bvci n).permit.setsV else (Instr.bvci n).permit.clearsV) = true := by
      cases s.advance.v <;> rfl
    exact .writes (branchOnFlag_writes rfl (Writes.advance.putV _ hv) t h)
  | bfp0 n | bfp1 n | bfp2 n | bfp3 n | bfp5 n => exact completes_of_floatBranchOn rfl rfl .advance h
  | bfp4 n => exact completes_of_floatBranchOn rfl rfl (Writes.advance.setFov false rfl) h
  | sla x m n => exact .writes (shiftSingle_writes (fun _ => rfl) t h)
  | slad x m n => exact .writes (shiftDouble_writes (fun _ => rfl) t h)
  | slc x m n | sll x m n | src x m n | srl x m n | sra x m n => exact .writes (shiftSingle_writes (by simp) t h)
  | slcd x m n | slld x m n | srcd x m n | srld x m n | srad x m n =>
    exact .writes (shiftDouble_writes (by simp) t h)
  | norm x m n | normd x m n => exact .writes (writesOnly_refused _ t h)
  | mvch x m n => exact .writes (moveChars_writes _ _ _ _ .advance t h)
  | move x m n => exact .writes (moveWords_writes _ _ _ .advance t h)
  | sum x m n => exact .writes (execSum_writes t h)
  | fad x m n | fsb x m n | fmpy x m n | fdvd x m n => exact completes_of_floatArith rfl rfl h
  | lfp x m n | float x m n =>
    exact completes_of_floatOrder rfl
      (writesOnly_withPair fun _ _ _ ht => writesOnly_next (ht.setAcc _ _)) h
  | sfp x m n => exact completes_of_floatOrder rfl (writesOnly_storePair fun _ hu => hu) h
  | fix x m n => exact completes_of_floatOrder rfl (writesOnly_storePair fun _ hu => hu.setVIf _ rfl) h
  | rsr x m n => exact execRsr_completes h
  | wsr x m n => exact execWsr_completes h
  | exx x m n => exact execExx_completes h
  | ldl x m n =>
    exact completes_of_privileged rfl (fun he => writesOnly_next (Writes.advance.loadLimits _ _ he)) h
  | ldm x m n =>
    exact completes_of_privileged rfl (fun he => writesOnly_next (Writes.advance.loadMode _ rfl he)) h
  | tdl x m n => exact completes_of_privileged rfl (fun _ => writesOnly_next (Writes.advance.setC _ rfl)) h
  | peri x m n =>
    exact completes_of_privileged rfl (fun he => writesOnly_next ((Writes.advance.setReg x _).draw _ he)) h
  | xferIn x m n | xferOut x m n => exact completes_of_privileged rfl (fun _ => writesOnly_refused _) h
  | search f x m n => exact completes_of_privileged rfl (fun _ => writesOnly_next .advance) h

end
end Sys2Proof.Machine
end

section
/-! Proofs of the family 10_state, second part: what the permits and gates of the instructions mean for their function codes,
and with it who writes the flags (10_state.md R45) and who changes the mode of the processor (R28). -/

namespace Sys2Proof

/-- The function code of an instruction is the field F of its word. -/
theorem functionCode_eq (i : Instr) (k : ExecCodes) : i.functionCode k = (fieldF (encode k i)).toNat :=
  (fieldF_toNat _).symm

@[simp] theorem fieldF_formatA (x : RegIx) (f : BitVec 7) (m : ModIx) (n : BitVec 12) :
    fieldF (formatA x f m n) = f := (fields_formatA x f m n).2.1

theorem fieldF_formatB (x : RegIx) (g : BitVec 6) (d : BitVec 15) :
    (fieldF (formatB x g d)).toNat = g.toNat * 2 + d.toNat / 2 ^ 14 := (fields_formatB x g d).2.2.2

section
variable {i : Instr} {k : ExecCodes}

/-! ### What a permit says of the instruction -/

theorem orders_of_clearsV (h : i.permit.clearsV = true) :
    (∃ n, i = .bvsr n ∨ i = .bvcr n ∨ i = .bvci n) ∨ (∃ x n, i = .call x n ∨ i = .exit x n) := by
  cases i <;> simp [Instr.permit] at h ⊢

theorem orders_of_setsV (h : i.permit.setsV = true) :
    let f := i.functionCode k
    (∃ n, i = .bvci n) ∨ (∃ x n, i = .exit x n) ∨ (f % 8 ≠ 0 ∧ (f < 0o20 ∨ (0o100 ≤ f ∧ f < 0o110))) ∨
      (0o40 ≤ f ∧ f ≤ 0o46) ∨ f = 0o131 ∨ (∃ x m c, i = .sla x m c ∨ i = .slad x m c) := by
  cases i <;> simp [Instr.permit, functionCode_eq, encode] at h ⊢

theorem orders_of_carry (h : i.permit.carry = true) :
    let f := i.functionCode k
    (f % 8 ≠ 0 ∧ (f < 0o20 ∨ (0o100 ≤ f ∧ f < 0o110))) ∨ (0o20 ≤ f ∧ f ≤ 0o22) ∨ (0o26 ≤ f ∧ f ≤ 0o32) ∨
      (0o40 ≤ f ∧ f ≤ 0o46) ∨ (0o120 ≤ f ∧ f ≤ 0o122) ∨ (∃ x m n, i = .tdl x m n) := by
  cases i <;> simp [Instr.permit, functionCode_eq, encode] at h ⊢

theorem orders_of_zs (h : i.permit.zs = true ∨ i.permit.modeByte = true) :
    (∃ x n, i = .exit x n) ∨ ∃ x m n, i = .mode x m n ∨ i = .cbd x m n ∨ i = .ldm x m n := by
  cases i <;> simp [Instr.permit] at h ⊢

theorem orders_of_fov (h : i.permit.fov = true) :
    (∃ n, i = .bfp4 n) ∨ (0o132 ≤ i.functionCode k ∧ i.functionCode k ≤ 0o135) := by
  cases i <;> simp [Instr.permit, functionCode_eq, encode] at h ⊢

theorem order_of_premodify (h : i.permit.premodify = true) : ∃ x m n, i = .smo x m n := by
  cases i <;> simp [Instr.permit] at h ⊢

/-! ### What a gate says of the function code -/

theorem functionCode_of_mulDiv (h : i.gate = .mulDiv) :
    0o40 ≤ i.functionCode k ∧ i.functionCode k ≤ 0o46 ∧ i.functionCode k ≠ 0o43 := by
  cases i <;> simp [Instr.gate, functionCode_eq, encode] at h ⊢

theorem functionCode_of_floating (h : i.gate = .floating) :
    let f := i.functionCode k
    f = 0o76 ∨ f = 0o77 ∨ (0o130 ≤ f ∧ f ≤ 0o137) := by
  have branch : ∀ (x : RegIx) (d : BitVec 15), (fieldF (formatB x 0o37#6 d)).toNat = 0o76 ∨
      (fieldF (formatB x 0o37#6 d)).toNat = 0o77 := fun x d => by
    have := d.isLt
    rw [fieldF_formatB]
    simp
    omega
  cases i with
  | bfp0 d | bfp1 d | bfp2 d | bfp3 d | bfp4 d | bfp5 d =>
    simp only [functionCode_eq, encode]
    exact (branch _ d).imp_right .inl
  | _ => simp [Instr.gate, functionCode_eq, encode] at h ⊢

theorem functionCode_of_executive (hi : i.wf = true) (hk : k.wf) (h : i.gate = .executive) : 0o140 ≤ i.functionCode k := by
  have code : ∀ f ∈ k.toList, 0o140 ≤ f.toNat := fun f hf => by
    rcases hk.2 f hf with ⟨hf, _⟩ | ⟨hf, _⟩ <;> omega
  rw [functionCode_eq]
  cases i with
  | rsr x m n | wsr x m n | exx x m n | ldl x m n | ldm x m n | tdl x m n | peri x m n | xferIn x m n | xferOut x m n =>
    simp only [encode, fieldF_formatA]
    exact code _ (by simp [ExecCodes.toList])
  | search f x m n =>
    simp only [encode, fieldF_formatA]
    have hf : searchCode f := by simpa [Instr.wf] using hi
    exact hf.1.trans' (by decide)
  | _ => cases h

/-- An instruction whose gate is shut is of the executive group or of an absent option. -/
theorem functionCode_of_shut {c : Config} (hi : i.wf = true) (hk : c.codes.wf) (h : i.gate.Shut c) :
    let f := i.functionCode c.codes
    0o140 ≤ f ∨ (c.hasMd = false ∧ 0o40 ≤ f ∧ f ≤ 0o46 ∧ f ≠ 0o43) ∨
      (c.hasFp = false ∧ (f = 0o76 ∨ f = 0o77 ∨ (0o130 ≤ f ∧ f ≤ 0o137))) := by
  cases hg : i.gate with
  | none => rw [hg] at h; exact h.elim
  | mulDiv => rw [hg] at h; exact .inr (.inl ⟨h, functionCode_of_mulDiv hg⟩)
  | floating => rw [hg] at h; exact .inr (.inr ⟨h, functionCode_of_floating hg⟩)
  | executive => exact .inl (functionCode_of_executive hi hk hg)

end
end Sys2Proof

namespace Sys2Proof.Machine

section
variable {i : Instr} {s t : State}

/-- An entry leaves the machine executive, at the vector, with the mode byte and the status words 0. -/
theorem voluntaryEntry_leaves {u : State} (h : voluntaryEntry u = .next t) :
    t.executive = true ∧ t.pc = u.cfg.vecVol ∧ t.mode = 0 ∧ t.sr64 = 0 ∧ t.sr65 = 0 := by
  obtain ⟨_, rfl⟩ := enterTrap_next h
  exact ⟨rfl, rfl, rfl, rfl, rfl⟩

/-- The executive return leaves the machine in user mode. -/
theorem restore_leaves_user {u : State} (h : restore u = .next t) : t.executive = false := by
  obtain ⟨_, rfl⟩ := restore_next h
  rfl

/-- An instruction that keeps the mode of the processor is a chain of writes: the entry and the return both change it. -/
theorem writes_of_same_mode (h : exec i s = .next t) (he : t.executive = s.executive) :
    Writes i.permit s.consumePip t := by
  cases exec_completes h with
  | writes h => exact h
  | entry hu _ h => rw [(voluntaryEntry_leaves h).1, hu] at he; cases he
  | exits _ hx h => rw [restore_leaves_user h, hx] at he; cases he

end

/-- Settles O59: an instruction that keeps the mode is a chain of the writes its permit allows, and the permits are those of
the summary of flag writers. -/
theorem flagWriters : Obligations.FlagWriters := by
  intro i s t h he
  have hw := writes_of_same_mode h he
  exact ⟨fun hs ht => orders_of_clearsV (hw.clearsV hs ht), fun hs ht => orders_of_setsV (hw.setsV hs ht),
    fun hc => orders_of_carry (hw.carry hc), fun hz => orders_of_zs (hw.zs hz), fun hf => orders_of_fov (hw.fov hf),
    fun hp => order_of_premodify (hw.pip rfl hp)⟩

/-- Settles O55: a chain of writes keeps the mode, an entry is made from user mode and only at a shut gate, and the executive
return is that of EXX. -/
theorem modeTransitions : Obligations.ModeTransitions := by
  intro i s t hi hk h f
  cases exec_completes h with
  | writes hw =>
    obtain ⟨_, he, _, _⟩ := hw.frame
    have same : t.executive = s.executive := he
    rw [same]
    exact ⟨fun hs hn => absurd (hs.symm.trans hn) (by decide), fun hn hs => absurd (hs.symm.trans hn) (by decide)⟩
  | entry hu hg h =>
    obtain ⟨_, hpc, hmode, h64, h65⟩ := voluntaryEntry_leaves h
    exact ⟨fun hs => absurd (hs.symm.trans hu) (by decide), fun _ _ => ⟨hpc, hmode, h64, h65, functionCode_of_shut hi hk hg⟩⟩
  | exits hx he h => exact ⟨fun _ _ => hx, fun hn => absurd (he.symm.trans hn) (by decide)⟩

end Sys2Proof.Machine
end

section
/-! Proofs of the family 10_state, third part: reset, the turns of the environment and the start of a cycle, and the invariant
and the configuration over every step (10_state.md R24, R29, R43, R44). -/

namespace Sys2Proof.Machine

/-! ### Reset -/

/-- The registers after a reset are those of the table of reset values, whatever the environment's turns and draws. -/
theorem resetWith_registers {u : State} {k : Config} {mem : Memory} {turns : List Turn} {draws : Nat}
    (hu : u = { State.resetWith k mem with turns := turns, draws := draws }) :
    (∀ i, u.reg i = 0) ∧ u.pc = 0 ∧ u.ia = 0 ∧ u.v = false ∧ u.c = false ∧ u.executive = true ∧
      u.rd = 0 ∧ u.rl = 0 ∧ u.am = 0 ∧ u.ae = 0 ∧ u.fov = false ∧ u.sr64 = 0 ∧ u.sr65 = 0 ∧
      u.pip = false ∧ u.pipVal = 0 ∧ u.loading = true ∧ u.stopped = false ∧
      (u.cfg.hasAm22 = true → u.mode = u.cfg.initialMode) := by
  subst hu
  refine ⟨fun i => ?_, rfl, rfl, rfl, rfl, rfl, rfl, rfl, rfl, rfl, rfl, rfl, rfl, rfl, rfl, rfl, rfl, fun hk => ?_⟩
  · exact Vector.getElem_replicate i.isLt
  · exact if_pos hk

/-- Settles O10: a reset turn answers the later reset, whose registers are those of `State.resetWith`. -/
theorem resetValues : Obligations.ResetValues := by
  intro s rest ho
  refine ⟨State.laterReset { s with turns := rest }, ?_, rfl, rfl, ?_⟩
  · simp only [step, stepStart, ho, turnStart]
  · intro u hu
    rcases List.mem_pair.mp hu with rfl | rfl
    · exact resetWith_registers rfl
    · exact resetWith_registers (k := defaultConfig) (mem := []) (turns := []) (draws := 0) rfl

/-- The invariant holds after a reset with any well-formed parameters and any memory of installed words. -/
theorem resetWith_inv {k : Config} {mem : Memory} (hk : k.wf) (hm : mem.wf) (hi : mem.within k.memSize) :
    (State.resetWith k mem).Inv where
  config := hk
  memory := hm
  installed := hi
  narrow := fun hn => forceMode_narrow hn _
  userPc := fun he => by cases he
  spin := fun _ => rfl
  idle := fun _ => rfl

/-- The default parameters meet their constraints (log 2). -/
theorem defaultConfig_wf : defaultConfig.wf := by decide

/-- Settles O52: both reset states are those of `State.resetWith`. -/
theorem resetMeetsInvariant : Obligations.ResetMeetsInvariant :=
  ⟨resetWith_inv defaultConfig_wf ⟨List.Pairwise.nil, by simp⟩ (by simp), fun _ _ hk hm hi => resetWith_inv hk hm hi⟩

/-! ### The invariant over what instructions do -/

section
variable {p : Permit} {s t u : State}

/-- A chain of writes keeps the invariant of a running processor. -/
theorem Writes.inv (h : Writes p s t) (hi : s.Inv) (hl : s.loading = false) (hs : s.stopped = false) : t.Inv := by
  obtain ⟨hcfg, _, hload, hstop⟩ := h.frame
  obtain ⟨hmem, hin⟩ := h.memory ⟨hi.memory, hi.installed⟩
  exact
    { config := hcfg ▸ hi.config
      memory := hmem
      installed := hin
      narrow := h.narrow hi.narrow
      userPc := h.userPc hi.userPc
      spin := fun ht => by rw [hload, hl] at ht; cases ht
      idle := fun ht => by rw [hload, hl, hstop, hs] at ht; simp at ht }

/-- PIP consumed, the invariant is as before. -/
theorem inv_consumePip (hi : s.Inv) : s.consumePip.Inv :=
  ⟨hi.config, hi.memory, hi.installed, hi.narrow, hi.userPc, hi.spin, hi.idle⟩

/-- Words written at installed addresses keep memory canonical and installed. -/
theorem foldl_write_installed {size : Nat} : ∀ (l : List Cell) (m : Memory), (∀ c ∈ l, c.1 < size) →
    m.wf ∧ m.within size → (l.foldl (fun mem c => mem.write c.1 c.2) m).wf ∧
      Memory.within (l.foldl (fun mem c => mem.write c.1 c.2) m) size
  | [], _, _, hm => hm
  | c :: l, _, hl, hm =>
    foldl_write_installed l _ (fun d hd => hl d (List.mem_cons_of_mem _ hd))
      ⟨Memory.wf_write _ _ _ hm.1, Memory.within_write hm.2 (hl c List.mem_cons_self)⟩

/-- An installed save area is saved to installed words. -/
theorem save_installed (hs : s.saveAreaInstalled = true) (hm : s.mem.wf ∧ s.mem.within s.cfg.memSize) :
    s.save.mem.wf ∧ s.save.mem.within s.cfg.memSize := by
  have words : ∀ c ∈ s.saveWords.map (fun e => (s.saveAddr e.1, e.2)), c.1 < s.cfg.memSize := fun c hc => by
    obtain ⟨e, he, rfl⟩ := List.mem_map.mp hc
    have ho : e.1 ∈ s.cfg.saveOffsets := List.mem_map_of_mem (f := Prod.fst) he
    simpa using List.all_eq_true.mp hs e.1 ho
  have hf := foldl_write_installed _ s.mem words hm
  rw [List.foldl_map] at hf
  exact hf

/-- An entry keeps the invariant: it leaves an executive state. -/
theorem enterTrap_inv {a : Addr} (h : enterTrap a s = .next t) (hi : s.Inv) : t.Inv := by
  obtain ⟨hs, _⟩ := enterTrap_next h
  obtain ⟨hmem, hin⟩ := save_installed hs ⟨hi.memory, hi.installed⟩
  rw [enterTrap_eq a (saveAreaFits_iff.mpr hs)] at h
  generalize s.save.mem = mem at h hmem hin
  cases h
  exact
    { config := hi.config
      memory := hmem
      installed := hin
      narrow := fun _ => ⟨BitVec.getLsbD_zero, BitVec.getLsbD_zero⟩
      userPc := fun he => by cases he
      spin := fun _ => rfl
      idle := hi.idle }

/-- The executive return of a running processor keeps the invariant: it forces the mode byte and masks PC. -/
theorem restore_inv (h : restore s = .next t) (hi : s.Inv) (hl : s.loading = false) : t.Inv := by
  obtain ⟨_, rfl⟩ := restore_next h
  exact
    { config := hi.config
      memory := hi.memory
      installed := hi.installed
      narrow := fun hn => forceMode_narrow hn _
      userPc := fun _ => and_amask_idem _ _
      spin := fun ht => absurd (hl.symm.trans ht) (by decide)
      idle := hi.idle }

/-! ### A word executed -/

/-- What running a word can come to: a chain of writes, a voluntary entry, or the executive return. -/
theorem runWord_next {w : Word} (h : runWord w s = .next t) :
    (∃ p, Writes p s.consumePip t) ∨ voluntaryEntry s.advance = .next t ∨ restore s.advance = .next t := by
  unfold runWord at h
  cases hd : decode s.cfg.codes w with
  | ok i =>
    rw [hd] at h
    cases exec_completes h with
    | writes h => exact .inl ⟨_, h⟩
    | entry _ _ h => exact .inr (.inl h)
    | exits _ _ h => exact .inr (.inr h)
  | error r =>
    rw [hd] at h
    cases r with
    | shiftSubmode3 => cases h
    | floatCondition =>
      rcases withOption_next h with ⟨_, h⟩ | ⟨_, _, h⟩
      · cases h
      · exact .inr (.inl h)
    | unassignedExec =>
      rcases privileged_next h with ⟨_, h⟩ | ⟨_, h⟩
      · cases h
      · exact .inr (.inl h)

theorem runWord_cfg {w : Word} (h : runWord w s = .next t) : t.cfg = s.cfg := by
  rcases runWord_next h with ⟨p, h⟩ | h | h
  · exact h.frame.1
  · obtain ⟨_, rfl⟩ := enterTrap_next h
    rfl
  · obtain ⟨_, rfl⟩ := restore_next h
    rfl

theorem runWord_inv {w : Word} (h : runWord w s = .next t) (hi : s.Inv) (hl : s.loading = false)
    (hs : s.stopped = false) : t.Inv := by
  have hc : s.consumePip.Inv := inv_consumePip hi
  have ha : s.advance.Inv := (Writes.advance (p := {})).inv hc hl hs
  rcases runWord_next h with ⟨p, h⟩ | h | h
  · exact h.inv hc hl hs
  · exact enterTrap_inv h ha
  · exact restore_inv h ha hl

/-! ### The start of a step -/

/-- What the start of a step comes to is safe: the configuration is as before, and from a state that meets the invariant it
ends in one that does, or has a word executed in one, by a processor that neither spins nor is stopped. -/
def CycleStart.Safe (s : State) : CycleStart → Prop
  | .finished r => ∀ t, r = .next t → t.cfg = s.cfg ∧ (s.Inv → t.Inv)
  | .execute _ u => u.cfg = s.cfg ∧ (s.Inv → u.Inv ∧ u.loading = false ∧ u.stopped = false)

theorem safe_next (hc : t.cfg = s.cfg) (hi : s.Inv → t.Inv) : (CycleStart.finished (.next t)).Safe s :=
  fun _ he => by cases he; exact ⟨hc, hi⟩

theorem deviceWrites_memory (k : Nat) : ∀ (l : List Cell) (m : Memory), m.wf ∧ m.within k →
    (l.foldl (fun mem c => if c.1 < k then mem.write c.1 c.2 else mem) m).wf ∧
      Memory.within (l.foldl (fun mem c => if c.1 < k then mem.write c.1 c.2 else mem) m) k
  | [], _, hm => hm
  | c :: l, m, hm => by
    refine deviceWrites_memory k l _ ?_
    dsimp only
    split
    · rename_i hc
      exact ⟨Memory.wf_write _ _ _ hm.1, Memory.within_write hm.2 hc⟩
    · exact hm

theorem deviceTurn_inv (hi : s.Inv) (l : List Cell) (a b : Word) : (s.deviceTurn l a b).Inv := by
  obtain ⟨hmem, hin⟩ := deviceWrites_memory s.cfg.memSize l s.mem ⟨hi.memory, hi.installed⟩
  exact ⟨hi.config, hmem, hin, hi.narrow, hi.userPc, hi.spin, hi.idle⟩

/-- The end of the Loading spin leaves an executive processor. -/
theorem endLoading_inv (hi : s.Inv) (hl : s.loading = true) : s.endLoading.Inv :=
  { config := hi.config
    memory := hi.memory
    installed := hi.installed
    narrow := hi.narrow
    userPc := fun he => absurd ((hi.spin hl).symm.trans he) (by decide)
    spin := fun ht => by cases ht
    idle := fun _ => hi.idle (.inl hl) }

/-- A fetch, by a processor that neither spins nor is stopped. -/
theorem fetch_safe (hl : s.loading = false) (hs : s.stopped = false) : (fetch s).Safe s := by
  have hf : s.Inv → State.Inv { s with ia := s.pc &&& s.amask } := fun hi =>
    ⟨hi.config, hi.memory, hi.installed, hi.narrow, hi.userPc, hi.spin, hi.idle⟩
  unfold fetch
  dsimp only
  split
  · intro t ht
    obtain ⟨hu, rfl⟩ := abort_next ht
    exact ⟨rfl, fun hi => (Writes.refl (p := {}).raise _ hu).inv (inv_consumePip (hf hi)) hl hs⟩
  · exact ⟨rfl, fun hi => ⟨hf hi, hl, hs⟩⟩

theorem loadingCycle_safe (hl : s.loading = true) : (CycleStart.finished (loadingCycle s)).Safe s := by
  refine safe_next ?_ ?_
  · split <;> rfl
  · intro hi
    split
    · exact endLoading_inv hi hl
    · exact hi

theorem cycleStart_safe (ho : s.obeyed = none) : (cycleStart s).Safe s := by
  unfold cycleStart
  split
  · exact fun _ ht => by cases ht
  · rename_i hs
    split
    · exact safe_next rfl fun hi =>
        ⟨hi.config, hi.memory, hi.installed, hi.narrow, hi.userPc, hi.spin, fun _ => ho⟩
    · split
      · rename_i hl
        exact loadingCycle_safe hl
      · rename_i hl
        split
        · intro t ht
          refine ⟨?_, enterTrap_inv ht⟩
          obtain ⟨_, rfl⟩ := enterTrap_next ht
          rfl
        · exact fetch_safe (by simpa using hl) (by simpa using hs)

/-- The turns still to come are no part of the invariant. -/
theorem inv_turns (hi : s.Inv) (rest : List Turn) : State.Inv { s with turns := rest } :=
  ⟨hi.config, hi.memory, hi.installed, hi.narrow, hi.userPc, hi.spin, hi.idle⟩

/-- A later reset meets the invariant, as a reset does. -/
theorem laterReset_inv (hi : s.Inv) : s.laterReset.Inv :=
  have hr := resetWith_inv hi.config hi.memory hi.installed
  ⟨hr.config, hr.memory, hr.installed, hr.narrow, hr.userPc, hr.spin, hr.idle⟩

theorem turnStart_safe (ho : s.obeyed = none) : (turnStart s).Safe s := by
  unfold turnStart
  split
  · exact cycleStart_safe ho
  · rename_i rest _
    have hc := cycleStart_safe (s := { s with turns := rest }) ho
    revert hc
    cases cycleStart { s with turns := rest } with
    | finished r => exact fun hc t ht => ⟨(hc t ht).1, fun hi => (hc t ht).2 (inv_turns hi rest)⟩
    | execute w u => exact fun hc => ⟨hc.1, fun hi => hc.2 (inv_turns hi rest)⟩
  · exact safe_next rfl fun hi => deviceTurn_inv (inv_turns hi _) _ _ _
  · exact safe_next rfl fun hi =>
      ⟨hi.config, hi.memory, hi.installed, hi.narrow, hi.userPc, hi.spin, hi.idle⟩
  · exact safe_next rfl fun hi =>
      ⟨hi.config, hi.memory, hi.installed, hi.narrow, hi.userPc, hi.spin, hi.idle⟩
  · exact safe_next rfl fun hi => laterReset_inv (inv_turns hi _)

/-- No obeyed word waits in Loading or in a stopped processor, so that one obeyed is executed by a running one. -/
theorem stepStart_safe (s : State) : (stepStart s).Safe s := by
  unfold stepStart
  split
  · rename_i w hw
    refine ⟨rfl, fun hi => ?_⟩
    have running : s.loading = false ∧ s.stopped = false := by
      refine ⟨Bool.eq_false_iff.mpr fun hl => ?_, Bool.eq_false_iff.mpr fun hs => ?_⟩
      · rw [hi.idle (.inl hl)] at hw; cases hw
      · rw [hi.idle (.inr hs)] at hw; cases hw
    exact ⟨⟨hi.config, hi.memory, hi.installed, hi.narrow, hi.userPc, hi.spin, fun _ => rfl⟩, running⟩
  · exact turnStart_safe (by assumption)

/-- What a step can come to: the start of it ends it, or a word is executed. -/
theorem step_next (h : step s = .next t) :
    stepStart s = .finished (.next t) ∨ ∃ w u, stepStart s = .execute w u ∧ runWord w u = .next t := by
  unfold step at h
  cases hs : stepStart s with
  | finished r => rw [hs] at h; exact .inl (congrArg _ h)
  | execute w u => rw [hs] at h; exact .inr ⟨w, u, rfl, h⟩

end

/-- Settles O53: the start of a step keeps the invariant, and so does the word executed after it, by induction over the chain of
writes it makes. -/
theorem stepKeepsInvariant : Obligations.StepKeepsInvariant := by
  intro s t hi h
  have safe := stepStart_safe s
  rcases step_next h with hs | ⟨w, u, hs, h⟩
  · rw [hs] at safe
    exact (safe t rfl).2 hi
  · rw [hs] at safe
    obtain ⟨hu, hl, hstop⟩ := safe.2 hi
    exact runWord_inv h hu hl hstop

/-- Settles O54: neither the start of a step nor the word executed after it writes the configuration. -/
theorem configurationIsImmutable : Obligations.ConfigurationIsImmutable := by
  intro s t h
  have safe := stepStart_safe s
  rcases step_next h with hs | ⟨w, u, hs, h⟩
  · rw [hs] at safe
    exact (safe t rfl).1
  · rw [hs] at safe
    exact (runWord_cfg h).trans safe.1

end Sys2Proof.Machine
end

section
/-! Proofs of the family 20_memory, first part: a user program and its window (20_memory.md R63, R75). A step is run from two
states whose memories agree within RD to RL - 1. By one rule per shared operation the two runs end alike, agree within the
window again, and write nothing outside it but the save area of an entry: the stores and the reads of a user program stay
in its window by the same argument. -/

namespace Sys2Proof.Machine

/-! ### Where an access of a confined program goes -/

/-- The unit's decision in one line: the window, the limits, the size (20_memory.md R61 to R64). -/
theorem access_eq (s : State) (a : Addr) (o : Bool) : access s a o =
    if inWindow s a o then .reg (a.setWidth 3)
    else if outsideLimits s (relocate s a o) then .violation
    else if relocate s a o % 2 ^ s.width < s.cfg.memSize then .mem (relocate s a o % 2 ^ s.width)
    else .violation := by
  unfold access physical
  dsimp only
  by_cases hl : outsideLimits s (relocate s a o) = true
  · simp only [hl, if_true]
  · by_cases hp : relocate s a o % 2 ^ s.width < s.cfg.memSize
    · simp only [hl, hp, if_true, if_false, Bool.false_eq_true]
    · simp only [hl, hp, if_false, Bool.false_eq_true]

/-- A user program with a non-zero limit within the active width. -/
structure State.Confined (s : State) : Prop where
  user : s.executive = false
  limit : s.rl ≠ 0
  width : s.rl.toNat ≤ 2 ^ s.width

/-- An address lies in the words from RD to RL - 1. -/
def State.InLimits (s : State) (p : Nat) : Prop := s.rd.toNat ≤ p ∧ p < s.rl.toNat

/-- The limit check comes before the width mask (20_memory.md R63, R64), and a limit within the width makes the mask idle: a
confined program reaches memory within its limits only. -/
theorem State.Confined.access_mem {s : State} (hs : s.Confined) {a : Addr} {o : Bool} {p : Nat}
    (h : access s a o = .mem p) : s.InLimits p := by
  rw [access_eq] at h
  split at h
  · cases h
  · split at h
    · cases h
    · rename_i hl
      split at h
      · have inside : s.rd.toNat ≤ relocate s a o ∧ relocate s a o < s.rl.toNat := by
          have hrl : s.rl ≠ 0#22 := hs.limit
          simpa [outsideLimits, hs.user, hrl] using hl
        have idle : relocate s a o % 2 ^ s.width = relocate s a o :=
          Nat.mod_eq_of_lt (inside.2.trans_le hs.width)
        cases h
        rw [idle]
        exact inside
      · cases h

/-! ### Twin states -/

/-- The state with another memory. -/
def State.withMem (s : State) (mem : Memory) : State := { s with mem := mem }

/-- What the addressing unit looks at beside the address. -/
def State.unitView (s : State) : Config × Bool × Bool × Bool × Addr × Addr :=
  (s.cfg, s.executive, s.datum, s.am22, s.rd, s.rl)

/-- Accesses go where they go in any state of the same view. -/
theorem access_of_unitView {s t : State} (h : t.unitView = s.unitView) (a : Addr) (o : Bool) :
    access t a o = access s a o := by
  simp only [State.unitView, Prod.mk.injEq] at h
  obtain ⟨hc, he, hd, hw, hr, hl⟩ := h
  exact access_congr hc he hd hw hr hl a o

/-- Two runs of a program that began in `s` have come to `t` and to `t` with the memory `m`: the addressing unit is set as at the
beginning, the memories agree within the limits, and outside them the first is as at the beginning. -/
structure Twins (s t : State) (m : Memory) : Prop where
  view : t.unitView = s.unitView
  wf : t.mem.wf ∧ m.wf
  inside : ∀ p, s.InLimits p → m.read p = t.mem.read p
  outside : ∀ p, ¬s.InLimits p → t.mem.read p = s.mem.read p

/-- Two runs of a program that began in `s` end alike: in twin states, in the same entry from twin states, or in the same
stop. -/
inductive Alike (s : State) : Result → Result → Prop
  | next {t : State} {m : Memory} (h : Twins s t m) : Alike s (.next t) (.next (t.withMem m))
  | entry {t : State} {m : Memory} (h : Twins s t m) (vector : Addr) :
      Alike s (enterTrap vector t) (enterTrap vector (t.withMem m))
  | fault (r : Fault) : Alike s (.fault r) (.fault r)
  | refused (r : Refusal) : Alike s (.refused r) (.refused r)

section
variable {s t u : State} {mem : Memory}

/-- Registers and flags may change alike: the twins are those of any state with the same view and memory. -/
theorem Twins.of_eq (h : Twins s t mem) (hv : u.unitView = t.unitView) (hm : u.mem = t.mem) : Twins s u mem :=
  ⟨hv.trans h.view, hm ▸ h.wf, hm ▸ h.inside, hm ▸ h.outside⟩

theorem Twins.user (h : Twins s t mem) (hs : s.Confined) : t.executive = false :=
  (congrArg (fun v => v.2.1) h.view).trans hs.user

theorem Twins.cfg (h : Twins s t mem) : t.cfg = s.cfg := congrArg Prod.fst h.view

theorem Twins.rd (h : Twins s t mem) : t.rd = s.rd := congrArg (fun v => v.2.2.2.2.1) h.view

/-- Twins read the same. -/
theorem Twins.memRead (h : Twins s t mem) (hs : s.Confined) (a : Addr) (o : Bool) :
    memRead (t.withMem mem) a o = memRead t a o := by
  have hacc : access (t.withMem mem) a o = access t a o := rfl
  rw [memRead_eq, memRead_eq, hacc]
  cases hx : access t a o with
  | reg i => rfl
  | mem p =>
    rw [access_of_unitView h.view] at hx
    exact congrArg some (h.inside p (hs.access_mem hx))
  | violation => rfl

/-- A word within the limits written in both memories leaves twins. -/
theorem Twins.writePhysical (h : Twins s t mem) {p : Nat} (hp : s.InLimits p) (v : Word) :
    Twins s (t.writePhysical p v) (mem.write p v) where
  view := h.view
  wf := ⟨Memory.wf_write _ _ _ h.wf.1, Memory.wf_write _ _ _ h.wf.2⟩
  inside := fun q hq => by
    rw [State.writePhysical_mem, Memory.read_write _ _ _ _ h.wf.1, Memory.read_write _ _ _ _ h.wf.2, h.inside q hq]
  outside := fun q hq => by
    have hne : q ≠ p := fun e => hq (e ▸ hp)
    rw [State.writePhysical_mem, Memory.read_write_other h.wf.1 hne, h.outside q hq]

/-- A write violates in both twins or leaves twins. -/
theorem Twins.memWrite (h : Twins s t mem) (hs : s.Confined) (a : Addr) (v : Word) (o : Bool) :
    (memWrite t a v o = none ∧ memWrite (t.withMem mem) a v o = none) ∨
    ∃ u mem', memWrite t a v o = some u ∧ memWrite (t.withMem mem) a v o = some (u.withMem mem') ∧ Twins s u mem' := by
  have hacc : access (t.withMem mem) a o = access t a o := rfl
  rw [memWrite_eq, memWrite_eq, hacc]
  cases hx : access t a o with
  | reg i => exact .inr ⟨_, mem, rfl, rfl, h.of_eq rfl rfl⟩
  | mem p =>
    rw [access_of_unitView h.view] at hx
    exact .inr ⟨_, _, rfl, rfl, h.writePhysical (hs.access_mem hx) v⟩
  | violation => exact .inl ⟨rfl, rfl⟩

/-! ### What alike ends mean -/

/-- Words written in two canonical memories: where the memories agreed they agree. -/
theorem foldl_write_agree {p : Nat} : ∀ (l : List Cell) (m₁ m₂ : Memory), m₁.wf → m₂.wf → m₂.read p = m₁.read p →
    (l.foldl (fun mem c => mem.write c.1 c.2) m₂).read p = (l.foldl (fun mem c => mem.write c.1 c.2) m₁).read p
  | [], _, _, _, _, h => h
  | c :: l, m₁, m₂, h₁, h₂, h => by
    refine foldl_write_agree l _ _ (Memory.wf_write _ _ _ h₁) (Memory.wf_write _ _ _ h₂) ?_
    rw [Memory.read_write _ _ _ _ h₁, Memory.read_write _ _ _ _ h₂, h]

/-- The words the save writes, by physical address. -/
theorem save_mem_eq (s : State) :
    s.save.mem = (s.saveWords.map fun e => (s.saveAddr e.1, e.2)).foldl (fun mem c => mem.write c.1 c.2) s.mem := by
  rw [List.foldl_map]; rfl

/-- The save keeps every word outside the save area. -/
theorem save_mem_other (hm : s.mem.wf) {p : Nat} (hp : ∀ o ∈ s.cfg.saveOffsets, p ≠ s.saveAddr o) :
    s.save.mem.read p = s.mem.read p := by
  rw [save_mem_eq]
  refine (foldl_write_other _ s.mem hm).2 p fun c hc => ?_
  obtain ⟨e, he, rfl⟩ := List.mem_map.mp hc
  exact hp e.1 (List.mem_map_of_mem (f := Prod.fst) he)

/-- An entry whose save area is not installed is a fault (60_exceptions.md R441). -/
theorem enterTrap_fault (vector : Addr) (hf : ¬s.SaveAreaFits) : enterTrap vector s = .fault .saveArea := by
  unfold enterTrap
  rw [if_neg fun hi => hf (saveAreaFits_iff.mpr hi)]

/-- The saves of twins agree within the limits. -/
theorem Twins.save_inside (h : Twins s t mem) {p : Nat} (hp : s.InLimits p) :
    (t.withMem mem).save.mem.read p = t.save.mem.read p := by
  rw [save_mem_eq, save_mem_eq]
  exact foldl_write_agree _ _ _ h.wf.1 h.wf.2 (h.inside p hp)

/-- The first of two runs that end alike has left every word outside the limits, but for the save area of an entry. -/
theorem Alike.stores {r₁ r₂ : Result} (h : Alike s r₁ r₂) (ht : r₁ = .next t) {p : Nat} (hp : ¬s.InLimits p)
    (hsave : t.executive = true → ∀ o ∈ s.cfg.saveOffsets, p ≠ s.saveAddr o) : t.mem.read p = s.mem.read p := by
  cases h with
  | next h => cases ht; exact h.outside p hp
  | @entry u _ h vector =>
    obtain ⟨_, rfl⟩ := enterTrap_next ht
    have haddr : ∀ o, u.saveAddr o = s.saveAddr o := fun o => by rw [saveAddr_eq, saveAddr_eq, h.rd]
    have hother : u.save.mem.read p = u.mem.read p :=
      save_mem_other h.wf.1 fun o ho => haddr o ▸ hsave rfl o (h.cfg ▸ ho)
    exact hother.trans (h.outside p hp)
  | fault r => cases ht
  | refused r => cases ht

/-- Two runs that end alike have learnt the same: they stop for one reason, or agree within the limits. -/
def EndsAgree (lo hi : Nat) (r₁ r₂ : Result) : Prop :=
  match r₁, r₂ with
  | .next t₁, .next t₂ => AgreeWithin lo hi t₁ t₂
  | .fault a, .fault b => a = b
  | .refused a, .refused b => a = b
  | _, _ => False

theorem Alike.endsAgree {r₁ r₂ : Result} (h : Alike s r₁ r₂) : EndsAgree s.rd.toNat s.rl.toNat r₁ r₂ := by
  cases h with
  | next h => exact ⟨rfl, fun p hlo hhi => h.inside p ⟨hlo, hhi⟩⟩
  | @entry u m h vector =>
    by_cases hf : u.SaveAreaFits
    · have hi : ∀ p, s.InLimits p → (u.withMem m).save.mem.read p = u.save.mem.read p := fun p => h.save_inside
      rw [enterTrap_eq vector hf, enterTrap_eq (s := u.withMem m) vector hf]
      generalize u.save.mem = m₁ at hi ⊢
      generalize (u.withMem m).save.mem = m₂ at hi ⊢
      exact ⟨rfl, fun p hlo hhi => hi p ⟨hlo, hhi⟩⟩
    · rw [enterTrap_fault vector hf, enterTrap_fault (s := u.withMem m) vector hf]
      rfl
  | fault r => rfl
  | refused r => rfl

end
end Sys2Proof.Machine
end

section
/-! Proofs of the family 20_memory, second part: every instruction, run from twin states, ends alike; and so does every step of a
user program (20_memory.md R63, R75; 60_exceptions.md R412, R423). -/

namespace Sys2Proof.Machine

/-! ### Shared operations of twins

One rule per shared operation. Its second run is written with a continuation of its own, `k'`, which is `k` up to the memory of
the state it was made in. -/

section
variable {s t u : State} {mem : Memory}

/-- A step of both runs that changes neither memory nor the view ends alike. -/
theorem Alike.of_eq (h : Twins s t mem) (hv : u.unitView = t.unitView) (hm : u.mem = t.mem) :
    Alike s (.next u) (.next (u.withMem mem)) := .next (h.of_eq hv hm)

theorem Twins.advance (h : Twins s t mem) : Twins s t.advance mem := h.of_eq rfl rfl

theorem Twins.setReg (h : Twins s t mem) (i : RegIx) (w : Word) : Twins s (t.setReg i w) mem := h.of_eq rfl rfl

theorem Twins.setC (h : Twins s t mem) (b : Bool) : Twins s (t.setC b) mem := h.of_eq rfl rfl

theorem Twins.setZs (h : Twins s t mem) (b : Bool) : Twins s (t.setZs b) mem :=
  h.of_eq (by simp only [State.unitView, State.setZs_datum, State.setZs_am22]; rfl) rfl

theorem Twins.setVIf (h : Twins s t mem) (b : Bool) : Twins s (t.setVIf b) mem :=
  h.of_eq (by simp [State.unitView]) (State.setVIf_mem t b)

/-- Noting an overflow does not look at memory. -/
theorem setVIf_withMem (b : Bool) : (t.withMem mem).setVIf b = (t.setVIf b).withMem mem := by
  cases b with
  | false => rfl
  | true =>
    show State.overflowEvent _ = State.withMem (State.overflowEvent _) mem
    unfold State.overflowEvent
    have same : ((t.withMem mem).cfg.ovfTrapEnabled && !(t.withMem mem).executive) =
      (t.cfg.ovfTrapEnabled && !t.executive) := rfl
    dsimp only
    rw [same]
    split <;> rfl

theorem alike_setVIf (h : Twins s t mem) (b : Bool) : Alike s (.next (t.setVIf b)) (.next ((t.withMem mem).setVIf b)) := by
  rw [setVIf_withMem]
  exact .next (h.setVIf b)

theorem alike_setVIf_setC (h : Twins s t mem) (b c : Bool) :
    Alike s (.next ((t.setVIf b).setC c)) (.next (((t.withMem mem).setVIf b).setC c)) := by
  rw [setVIf_withMem]
  exact .next ((h.setVIf b).setC c)

theorem alike_abort (hs : s.Confined) (h : Twins s t mem) : Alike s (abort t) (abort (t.withMem mem)) := by
  have hu : (t.withMem mem).executive = false := h.user hs
  unfold abort
  rw [h.user hs, hu]
  exact .next (h.of_eq rfl rfl)

theorem alike_storeThen {ea : Addr} {w : Word} {k k' : State → Result} (hs : s.Confined) (h : Twins s t mem)
    (hk : ∀ u m, Twins s u m → Alike s (k u) (k' (u.withMem m))) :
    Alike s (storeThen ea w t k) (storeThen ea w (t.withMem mem) k') := by
  unfold storeThen State.writeOperand
  rcases h.memWrite hs ea w true with ⟨h₁, h₂⟩ | ⟨u, m, h₁, h₂, hu⟩
  · rw [h₁, h₂]
    exact alike_abort hs h
  · rw [h₁, h₂]
    exact hk u m hu

section
variable {m : ModIx} {n : BitVec 12}

theorem alike_withWord {k k' : State → Word → Result} (hs : s.Confined) (h : Twins s t mem)
    (hk : ∀ u w, Twins s u mem → Alike s (k u w) (k' (u.withMem mem) w)) :
    Alike s (withWord m n t k) (withWord m n (t.withMem mem) k') := by
  have hea : (t.withMem mem).operandAddress m n = t.operandAddress m n := rfl
  rw [withWord_eq, withWord_eq, hea, h.memRead hs]
  cases memRead t (t.operandAddress m n) true with
  | none => exact alike_abort hs h.advance
  | some w => exact hk _ w h.advance

theorem alike_withPair {k k' : State → Word → Word → Result} (hs : s.Confined) (h : Twins s t mem)
    (hk : ∀ u w₀ w₁, Twins s u mem → Alike s (k u w₀ w₁) (k' (u.withMem mem) w₀ w₁)) :
    Alike s (withPair m n t k) (withPair m n (t.withMem mem) k') :=
  alike_withWord hs h fun u w₀ hu => by
    have hread : (u.withMem mem).readOperand ((u.withMem mem).nextAddr ((t.withMem mem).operandAddress m n)) =
      u.readOperand (u.nextAddr (t.operandAddress m n)) := hu.memRead hs _ true
    rw [hread]
    cases u.readOperand (u.nextAddr (t.operandAddress m n)) with
    | none => exact alike_abort hs hu
    | some w₁ => exact hk u w₀ w₁ hu

theorem alike_storeWord {value : State → Word} {finish finish' : State → State} (hs : s.Confined) (h : Twins s t mem)
    (hval : value (t.withMem mem).advance = value t.advance)
    (hk : ∀ u m, Twins s u m → Alike s (.next (finish u)) (.next (finish' (u.withMem m)))) :
    Alike s (storeWord m n t value finish) (storeWord m n (t.withMem mem) value finish') := by
  unfold storeWord
  rw [hval]
  exact alike_storeThen hs h.advance hk

theorem alike_updateWord {value value' : State → Word → Word} {finish finish' : State → Word → State → State}
    (hs : s.Confined) (h : Twins s t mem) (hval : ∀ u w, value' (u.withMem mem) w = value u w)
    (hk : ∀ t w u m, Twins s u m → Alike s (.next (finish t w u)) (.next (finish' (t.withMem mem) w (u.withMem m)))) :
    Alike s (updateWord m n t value finish) (updateWord m n (t.withMem mem) value' finish') :=
  alike_withWord hs h fun u w hu => by
    rw [hval]
    exact alike_storeThen hs hu (hk u w)

theorem alike_storePair {w₀ w₁ : Word} {finish finish' : State → State} (hs : s.Confined) (h : Twins s t mem)
    (hk : ∀ u m, Twins s u m → Alike s (.next (finish u)) (.next (finish' (u.withMem m)))) :
    Alike s (storePair m n t w₀ w₁ finish) (storePair m n (t.withMem mem) w₀ w₁ finish') :=
  alike_storeThen hs h.advance fun _ _ hu => alike_storeThen hs hu hk

end

theorem alike_withOption {present : Bool} {k k' : Result} (hs : s.Confined) (h : Twins s t mem) (hk : Alike s k k') :
    Alike s (withOption present t k) (withOption present (t.withMem mem) k') := by
  have hu : (t.withMem mem).executive = false := h.user hs
  unfold withOption
  cases present with
  | true => exact hk
  | false =>
    rw [h.user hs, hu]
    exact .entry h t.cfg.vecVol

/-- An order of the executive group is an entry of a user program. -/
theorem alike_privileged {k k' : Result} (hs : s.Confined) (h : Twins s t mem) :
    Alike s (privileged t k) (privileged (t.withMem mem) k') := by
  have hu : (t.withMem mem).executive = false := h.user hs
  unfold privileged
  rw [h.user hs, hu]
  exact .entry h t.cfg.vecVol

theorem alike_takeIf {c : Bool} {a : Addr} (h : Twins s t mem) :
    Alike s (takeIf c a t) (takeIf c a (t.withMem mem)) := by
  have same : (t.withMem mem).branchTraced = t.branchTraced := rfl
  unfold takeIf take
  rw [same]
  cases c with
  | false => exact .next h
  | true =>
    cases t.branchTraced with
    | true => exact .refused _
    | false => exact .next (h.of_eq rfl rfl)

/-! ### Families of orders of twins -/

section
variable {x : RegIx} {m : ModIx} {n : BitVec 12} {d : BitVec 15}

theorem adderFromWord_alike {f : State → Word → Sum} (hs : s.Confined) (h : Twins s t mem)
    (hf : ∀ u w, f (u.withMem mem) w = f u w) :
    Alike s (adderFromWord x m n t f) (adderFromWord x m n (t.withMem mem) f) :=
  alike_withWord hs h fun u w hu => by
    rw [hf]
    exact alike_setVIf ((hu.setReg x _).setC _) _

theorem adderFromLiteral_alike {f : State → Word → Sum} (h : Twins s t mem)
    (hf : ∀ u w, f (u.withMem mem) w = f u w) :
    Alike s (adderFromLiteral x m n t f) (adderFromLiteral x m n (t.withMem mem) f) := by
  have hsum : f (t.withMem mem).advance ((t.withMem mem).literal m n) = f t.advance (t.literal m n) := hf t.advance _
  unfold adderFromLiteral withLiteral
  dsimp only
  rw [hsum]
  exact alike_setVIf ((h.advance.setReg x _).setC _) _

theorem adderUpdate_alike {f : State → Word → Sum} (hs : s.Confined) (h : Twins s t mem)
    (hf : ∀ u w, f (u.withMem mem) w = f u w) :
    Alike s (adderUpdate m n t f) (adderUpdate m n (t.withMem mem) f) :=
  alike_updateWord hs h (fun u w => congrArg Sum.value (hf u w)) fun t w u m' hu => by
    rw [hf]
    exact alike_setVIf (hu.setC _) _

theorem adderStore_alike {f : State → Sum} (hs : s.Confined) (h : Twins s t mem)
    (hf : ∀ u, f (u.withMem mem) = f u) :
    Alike s (adderStore m n t f) (adderStore m n (t.withMem mem) f) := by
  have hsum : f (t.withMem mem).advance = f t.advance := hf t.advance
  unfold adderStore
  rw [hsum]
  exact alike_storeWord hs h (congrArg Sum.value hsum) fun u m' hu => alike_setVIf (hu.setC _) _

theorem logicFromWord_alike {f : Word → Word → Word} (hs : s.Confined) (h : Twins s t mem) :
    Alike s (logicFromWord x m n t f) (logicFromWord x m n (t.withMem mem) f) :=
  alike_withWord hs h fun _ _ hu => .next ((hu.setReg x _).setC false)

theorem logicUpdate_alike {f : Word → Word → Word} (hs : s.Confined) (h : Twins s t mem) :
    Alike s (logicUpdate x m n t f) (logicUpdate x m n (t.withMem mem) f) :=
  alike_updateWord hs h (fun _ _ => rfl) fun _ _ _ _ hu => .next (hu.setC false)

theorem execCdb_alike (hs : s.Confined) (h : Twins s t mem) :
    Alike s (execCdb x m n t) (execCdb x m n (t.withMem mem)) :=
  alike_withWord hs h fun u w hu => by
    have hlane : (t.withMem mem).lane m = t.lane m := rfl
    dsimp only
    rw [hlane]
    split
    · exact .next (hu.setC true)
    · rw [setVIf_withMem]
      exact Alike.of_eq (hu.setVIf _) rfl rfl

theorem execCbd_alike (hs : s.Confined) (h : Twins s t mem) :
    Alike s (execCbd x m n t) (execCbd x m n (t.withMem mem)) :=
  alike_updateWord hs h (fun _ _ => rfl) fun t w u m' hu => by
    have hten : (t.withMem mem).tenfold x = t.tenfold x := rfl
    dsimp only
    rw [hten]
    split
    · exact .next (hu.setReg x _)
    · exact .next ((hu.setReg x _).setZs false)

theorem multiplyOrder_alike {op : MdOp} {f f' : State → Word → Int} (hs : s.Confined) (h : Twins s t mem)
    (hf : ∀ u w, f' (u.withMem mem) w = f u w) :
    Alike s (multiplyOrder op x m n t f) (multiplyOrder op x m n (t.withMem mem) f') :=
  alike_withOption hs h.advance <| alike_withWord hs h fun u w hu => by
    dsimp only
    rw [hf, setVIf_withMem]
    exact Alike.of_eq (hu.setVIf _) rfl rfl

theorem divideFail_alike {op : MdOp} {w : Word} (h : Twins s t mem) :
    Alike s (.next (divideFail op x w t)) (.next (divideFail op x w (t.withMem mem))) :=
  alike_setVIf_setC ((h.setReg x _).setReg (x + 1) _) true false

theorem divideOrder_alike {op : MdOp} {a a' : State → Int} {q : Int → Int → Int} (hs : s.Confined) (h : Twins s t mem)
    (ha : ∀ u, a' (u.withMem mem) = a u) :
    Alike s (divideOrder op x m n t a q) (divideOrder op x m n (t.withMem mem) a' q) :=
  alike_withOption hs h.advance <| alike_withWord hs h fun u w hu => by
    have hedge : mdEdge (u.withMem mem).cfg op ((u.withMem mem).reg x) ((u.withMem mem).reg (x + 1)) w =
      mdEdge u.cfg op (u.reg x) (u.reg (x + 1)) w := rfl
    dsimp only
    rw [ha, hedge]
    split
    · exact divideFail_alike hu
    · exact .next (((hu.setReg x _).setReg (x + 1) _).setC false)

theorem shiftSingle_alike {dir : ShiftDir} {mode : ShiftMode} {c : BitVec 10} (h : Twins s t mem) :
    Alike s (shiftSingle dir mode x m c t) (shiftSingle dir mode x m c (t.withMem mem)) :=
  alike_setVIf (h.advance.setReg x _) _

theorem shiftDouble_alike {dir : ShiftDir} {mode : ShiftMode} {c : BitVec 10} (h : Twins s t mem) :
    Alike s (shiftDouble dir mode x m c t) (shiftDouble dir mode x m c (t.withMem mem)) :=
  alike_setVIf ((h.advance.setReg x _).setReg (x + 1) _) _

theorem moveChars_alike (hs : s.Confined) : ∀ (k : Nat) (p q : Word) (t : State) (mem : Memory), Twins s t mem →
    Alike s (moveChars x k p q t) (moveChars x k p q (t.withMem mem))
  | 0, p, q, t, mem, h => .next ((h.setReg x p).setReg (x + 1) q)
  | k + 1, p, q, t, mem, h => by
    have hp : (t.withMem mem).readOperand ((t.withMem mem).maskAddr p) = t.readOperand (t.maskAddr p) :=
      h.memRead hs _ true
    have hq : (t.withMem mem).readOperand ((t.withMem mem).maskAddr q) = t.readOperand (t.maskAddr q) :=
      h.memRead hs _ true
    unfold moveChars
    rw [hp, hq]
    cases t.readOperand (t.maskAddr p) with
    | none => exact alike_abort hs h
    | some ws =>
      cases t.readOperand (t.maskAddr q) with
      | none => exact alike_abort hs h
      | some wd => exact alike_storeThen hs h fun u m' hu => moveChars_alike hs k _ _ u m' hu

theorem moveWords_alike (hs : s.Confined) : ∀ (k i : Nat) (t : State) (mem : Memory), Twins s t mem →
    Alike s (moveWords x k i t) (moveWords x k i (t.withMem mem))
  | 0, _, _, _, h => .next h
  | k + 1, i, t, mem, h => by
    have hr : (t.withMem mem).readOperand ((t.withMem mem).maskAddr ((t.withMem mem).reg x + BitVec.ofNat 24 i)) =
      t.readOperand (t.maskAddr (t.reg x + BitVec.ofNat 24 i)) := h.memRead hs _ true
    unfold moveWords
    rw [hr]
    cases t.readOperand (t.maskAddr (t.reg x + BitVec.ofNat 24 i)) with
    | none => exact alike_abort hs h
    | some w => exact alike_storeThen hs h fun u m' hu => moveWords_alike hs k (i + 1) u m' hu

theorem Twins.sumWords (hs : s.Confined) (h : Twins s t mem) (base : Word) : ∀ (k i : Nat) (acc : Word),
    sumWords (t.withMem mem) base k i acc = sumWords t base k i acc
  | 0, _, _ => rfl
  | k + 1, i, acc => by
    have hr : (t.withMem mem).readOperand ((t.withMem mem).maskAddr (base + BitVec.ofNat 24 i)) =
      t.readOperand (t.maskAddr (base + BitVec.ofNat 24 i)) := h.memRead hs _ true
    unfold Machine.sumWords
    rw [hr]
    cases t.readOperand (t.maskAddr (base + BitVec.ofNat 24 i)) with
    | none => rfl
    | some w => exact h.sumWords hs base k (i + 1) (acc + w)

theorem execSum_alike (hs : s.Confined) (h : Twins s t mem) :
    Alike s (execSum x m n t) (execSum x m n (t.withMem mem)) := by
  have hsum : Machine.sumWords (t.withMem mem).advance ((t.withMem mem).advance.reg (x + 1))
      (wordCount ((t.withMem mem).operandAddress m n)) 0 0 =
    Machine.sumWords t.advance (t.advance.reg (x + 1)) (wordCount (t.operandAddress m n)) 0 0 :=
    h.advance.sumWords hs _ _ 0 0
  unfold execSum
  rw [hsum]
  cases Machine.sumWords t.advance (t.advance.reg (x + 1)) (wordCount (t.operandAddress m n)) 0 0 with
  | none => exact alike_abort hs h.advance
  | some w => exact .next (h.advance.setReg x w)

theorem countAndBranch_alike {f : Word → Word} {count : Word → Bool} (h : Twins s t mem) :
    Alike s (countAndBranch x d t f count) (countAndBranch x d (t.withMem mem) f count) := by
  have same : (t.withMem mem).am22 = t.am22 := rfl
  unfold countAndBranch
  rw [same]
  split
  · exact .refused _
  · exact alike_takeIf (h.advance.setReg x _)

theorem execObey_alike (hs : s.Confined) (h : Twins s t mem) :
    Alike s (execObey x m n t) (execObey x m n (t.withMem mem)) := by
  have hr : (t.withMem mem).consumePip.readOperand ((t.withMem mem).operandAddress m n) =
    t.consumePip.readOperand (t.operandAddress m n) := h.memRead hs _ true
  have hc : Twins s t.consumePip mem := h.of_eq rfl rfl
  unfold execObey
  rw [hr]
  cases t.consumePip.readOperand (t.operandAddress m n) with
  | none => exact alike_abort hs hc
  | some w => exact .next (hc.of_eq rfl rfl)

theorem floatOrder_alike {k k' : Result} (hs : s.Confined) (h : Twins s t mem) (hk : Alike s k k') :
    Alike s (floatOrder x t k) (floatOrder x (t.withMem mem) k') := by
  refine alike_withOption hs h.advance ?_
  split
  · exact hk
  · exact .refused _

end

/-- Every instruction run from twins ends alike. -/
theorem exec_alike (hs : s.Confined) (h : Twins s t mem) (i : Instr) : Alike s (exec i t) (exec i (t.withMem mem)) := by
  unfold exec
  cases i with
  | ldx x m n | ldch x m n | ldex x m n => exact alike_withWord hs h fun _ w hu => .next (hu.setReg x _)
  | adx x m n | ngx x m n | sbx x m n | ldxc x m n | adxc x m n | ngxc x m n | sbxc x m n =>
    exact adderFromWord_alike hs h fun _ _ => rfl
  | ads x m n | sbs x m n | adsc x m n | sbsc x m n => exact adderUpdate_alike hs h fun _ _ => rfl
  | ngs x m n | stoc x m n | ngsc x m n => exact adderStore_alike hs h fun _ => rfl
  | adn x m n | ngn x m n | sbn x m n | ldnc x m n | adnc x m n | ngnc x m n | sbnc x m n =>
    exact adderFromLiteral_alike h fun _ _ => rfl
  | sto x m n | stoz x m n => exact alike_storeWord hs h rfl fun _ _ hu => .next hu
  | dch x m n | dex x m n | dsa x m n | dla x m n =>
    exact alike_updateWord hs h (fun _ _ => rfl) fun _ _ _ _ hu => .next hu
  | andx x m n | orx x m n | erx x m n => exact logicFromWord_alike hs h
  | ands x m n | ors x m n | ers x m n => exact logicUpdate_alike hs h
  | andn x m n | orn x m n | ern x m n => exact .next ((h.advance.setReg x _).setC false)
  | txu x m n | txl x m n => exact alike_withWord hs h fun _ _ hu => .next (hu.setC _)
  | ldn x m n | ldct x m n => exact .next (h.advance.setReg x _)
  | null x m n => exact .next h.advance
  | mode x m n => exact .next (h.advance.setZs _)
  | cdb x m n => exact execCdb_alike hs h
  | cbd x m n => exact execCbd_alike hs h
  | obey x m n => exact execObey_alike hs h
  | smo x m n => exact alike_withWord hs h fun _ _ hu => .of_eq hu rfl rfl
  | mpy x m n | mpr x m n | mpa x m n => exact multiplyOrder_alike hs h fun _ _ => rfl
  | dvd x m n | dvr x m n | dvs x m n => exact divideOrder_alike hs h fun _ => rfl
  | bze x n | bnz x n | bpz x n | bng x n => exact alike_takeIf h.advance
  | bux x n | bdx x n | bchx x n | bct x n => exact countAndBranch_alike h
  | call x n => exact alike_takeIf (c := true) ((h.advance.setReg x t.advance.linkWord).of_eq rfl rfl)
  | exit x n =>
    exact alike_takeIf (c := true) (mem := mem)
      (Twins.setZs (t := { t.advance with v := (t.advance.reg x).getLsbD 23 }) (h.advance.of_eq rfl rfl) _)
  | brn n => exact alike_takeIf (c := true) h.advance
  | bvs n | bvc n | bcs n | bcc n => exact alike_takeIf h.advance
  | bvsr n | bvcr n | bvci n => exact alike_takeIf (h.advance.of_eq rfl rfl)
  | bfp0 n | bfp1 n | bfp2 n | bfp3 n | bfp5 n => exact alike_withOption hs h.advance (alike_takeIf h.advance)
  | bfp4 n => exact alike_withOption hs h.advance (alike_takeIf (h.advance.of_eq rfl rfl))
  | sla x m n | slc x m n | sll x m n | src x m n | srl x m n | sra x m n => exact shiftSingle_alike h
  | slad x m n | slcd x m n | slld x m n | srcd x m n | srld x m n | srad x m n => exact shiftDouble_alike h
  | norm x m n | normd x m n => exact .refused _
  | mvch x m n => exact moveChars_alike hs _ _ _ _ _ h.advance
  | move x m n => exact moveWords_alike hs _ _ _ _ h.advance
  | sum x m n => exact execSum_alike hs h
  | fad x m n | fsb x m n | fmpy x m n | fdvd x m n =>
    exact floatOrder_alike hs h (alike_withPair hs h fun _ _ _ hu => .of_eq hu rfl rfl)
  | lfp x m n | float x m n =>
    exact floatOrder_alike hs h (alike_withPair hs h fun _ _ _ hu => .of_eq hu rfl rfl)
  | sfp x m n => exact floatOrder_alike hs h (alike_storePair hs h fun _ _ hu => .next hu)
  | fix x m n => exact floatOrder_alike hs h (alike_storePair hs h fun _ _ hu => alike_setVIf hu _)
  | rsr x m n | wsr x m n | exx x m n | ldl x m n | ldm x m n | tdl x m n | peri x m n | xferIn x m n | xferOut x m n =>
    exact alike_privileged hs h.advance
  | search f x m n => exact alike_privileged hs h.advance

/-! ### A step of twins -/

theorem execReserved_alike (hs : s.Confined) (h : Twins s t mem) (r : Reserved) :
    Alike s (execReserved r t) (execReserved r (t.withMem mem)) := by
  cases r with
  | shiftSubmode3 f x m n => exact .refused _
  | floatCondition x n => exact alike_withOption hs h.advance (.refused _)
  | unassignedExec f x m n => exact alike_privileged hs h.advance

theorem runWord_alike (hs : s.Confined) (h : Twins s t mem) (w : Word) :
    Alike s (runWord w t) (runWord w (t.withMem mem)) := by
  have same : (t.withMem mem).cfg = t.cfg := rfl
  unfold runWord
  rw [same]
  cases decode t.cfg.codes w with
  | ok i => exact exec_alike hs h i
  | error r => exact execReserved_alike hs h r

/-- What the start of a step comes to, carried on to the end of the step. -/
def CycleStart.result : CycleStart → Result
  | .finished r => r
  | .execute w t => runWord w t

theorem step_eq_result (s : State) : step s = (stepStart s).result := by
  unfold step
  cases stepStart s <;> rfl

/-- An obeyed word is executed at once (40_dispatch.md R133). -/
theorem stepStart_obeyed {w : Word} (ho : s.obeyed = some w) : stepStart s = .execute w { s with obeyed := none } := by
  unfold stepStart
  rw [ho]

/-- With no obeyed word and no turn waiting, the processor takes a cycle. -/
theorem stepStart_cycle (ho : s.obeyed = none) (ht : s.turns = []) : stepStart s = cycleStart s := by
  unfold stepStart turnStart
  rw [ho, ht]

/-- The state in which the next instruction word is fetched (40_dispatch.md R125). -/
def State.fetching (s : State) : State := { s with ia := s.pc &&& s.amask }

theorem fetch_eq (s : State) : fetch s =
    match memRead s.fetching s.fetching.ia false with
    | none => .finished (abort s.fetching.consumePip)
    | some w => .execute w s.fetching := rfl

theorem fetch_alike (hs : s.Confined) (h : Twins s t mem) : Alike s (fetch t).result (fetch (t.withMem mem)).result := by
  have hf : Twins s t.fetching mem := h.of_eq rfl rfl
  have hr : memRead (t.withMem mem).fetching (t.withMem mem).fetching.ia false = memRead t.fetching t.fetching.ia false :=
    hf.memRead hs _ false
  rw [fetch_eq, fetch_eq, hr]
  cases memRead t.fetching t.fetching.ia false with
  | none => exact alike_abort hs (hf.of_eq rfl rfl)
  | some w => exact runWord_alike hs hf w

theorem loadingCycle_alike (h : Twins s t mem) : Alike s (loadingCycle t) (loadingCycle (t.withMem mem)) := by
  have same : (t.withMem mem).pending = t.pending := rfl
  unfold loadingCycle
  rw [same]
  cases t.pending with
  | false => exact .next h
  | true => exact .of_eq h rfl rfl

theorem cycleStart_alike (hs : s.Confined) (h : Twins s t mem) :
    Alike s (cycleStart t).result (cycleStart (t.withMem mem)).result := by
  have same : (t.withMem mem).stopped = t.stopped ∧ (t.withMem mem).stopRequested = t.stopRequested ∧
      (t.withMem mem).loading = t.loading ∧ (t.withMem mem).executive = t.executive ∧ (t.withMem mem).pip = t.pip ∧
      (t.withMem mem).pending = t.pending := ⟨rfl, rfl, rfl, rfl, rfl, rfl⟩
  obtain ⟨h₁, h₂, h₃, h₄, h₅, h₆⟩ := same
  unfold cycleStart
  rw [h₁, h₂, h₃, h₄, h₅, h₆]
  split
  · exact .fault _
  · split
    · exact .of_eq h rfl rfl
    · split
      · exact loadingCycle_alike h
      · split
        · exact .entry h t.cfg.vecHw
        · exact fetch_alike hs h

/-- A step of a user program, no turn of the environment waiting, ends alike from states that agree within the limits. -/
theorem step_alike (hs : s.Confined) (ht : s.turns = []) (h : Twins s s mem) :
    Alike s (step s) (step (s.withMem mem)) := by
  rw [step_eq_result, step_eq_result]
  cases ho : s.obeyed with
  | some w =>
    rw [stepStart_obeyed ho, stepStart_obeyed (s := s.withMem mem) ho]
    have hc : Twins s { s with obeyed := none } mem := h.of_eq rfl rfl
    exact runWord_alike hs hc w
  | none =>
    rw [stepStart_cycle ho ht, stepStart_cycle (s := s.withMem mem) ho ht]
    exact cycleStart_alike hs h

end

/-- Settles O57: the step is run beside itself, and what the first of two runs that end alike has stored is within the limits or
in the save area. -/
theorem userStoresWithinLimits : Obligations.UserStoresWithinLimits := by
  intro s t hm he ht hl hw h p hp hsave
  have hs : s.Confined := ⟨he, hl, hw⟩
  have twins : Twins s s s.mem := ⟨rfl, ⟨hm, hm⟩, fun _ _ => rfl, fun _ _ => rfl⟩
  refine (step_alike hs ht twins).stores h (fun hin => ?_) fun hx o ho => ?_
  · rcases hp with hp | hp
    · exact absurd hin.1 (by omega)
    · exact absurd hin.2 (by omega)
  · rw [saveAddr_eq]
    exact hsave hx o ho

/-- Settles O58: two states that agree within the limits are twins, and their steps end alike. -/
theorem userSeesOnlyItsWindow : Obligations.UserSeesOnlyItsWindow := by
  intro s₁ s₂ h₁ h₂ he ht hl hw hagree
  obtain ⟨hrest, hmem⟩ := hagree
  have hs : s₁.Confined := ⟨he, hl, hw⟩
  have same : s₂ = s₁.withMem s₂.mem := congrArg (State.withMem · s₂.mem) (a₁ := s₂.withMem s₁.mem) hrest
  have twins : Twins s₁ s₁ s₂.mem := ⟨rfl, ⟨h₁, h₂⟩, fun p hp => hmem p hp.1 hp.2, fun _ _ => rfl⟩
  have ends := (step_alike hs ht twins).endsAgree
  rw [← same] at ends
  exact ends

end Sys2Proof.Machine
end

section
/-! Proofs of the family 20_memory, third part: the addressing unit step by step (20_memory.md R61 to R64), a word written and
read back (R68), and a fetch that violates (R65; 40_dispatch.md R125, R136). -/

namespace Sys2Proof.Machine

section
variable {s t : State} {a : Addr} {o : Bool}

/-! ### The unit's decisions as propositions -/

theorem inWindow_iff : inWindow s a o = true ↔ a.toNat < 8 ∧ (s.executive = false ∨ o = false) := by
  simp [inWindow]

theorem relocate_eq (s : State) (a : Addr) (o : Bool) :
    relocate s a o = if s.executive = false ∨ (s.datum = true ∧ o = true) then s.rd.toNat + a.toNat else a.toNat := by
  simp [relocate]

theorem outsideLimits_iff {p : Nat} :
    outsideLimits s p = true ↔ s.executive = false ∧ s.rl ≠ 0 ∧ (p < s.rd.toNat ∨ s.rl.toNat ≤ p) := by
  simp only [outsideLimits, Bool.and_eq_true, Bool.not_eq_true', Bool.or_eq_true, decide_eq_true_eq, and_assoc]

/-! ### What an access comes to, by where it goes -/

theorem unit_reg {i : RegIx} (h : access s a o = .reg i) (v : Word) :
    memRead s a o = some (s.reg i) ∧ memWrite s a v o = some (s.setReg i v) := by
  rw [memRead_eq, memWrite_eq, h]
  exact ⟨rfl, rfl⟩

theorem unit_mem {p : Nat} (h : access s a o = .mem p) (v : Word) :
    memRead s a o = some (s.mem.read p) ∧ memWrite s a v o = some (s.writePhysical p v) := by
  rw [memRead_eq, memWrite_eq, h]
  exact ⟨rfl, rfl⟩

theorem unit_violation (h : access s a o = .violation) (v : Word) :
    memRead s a o = none ∧ memWrite s a v o = none := by
  rw [memRead_eq, memWrite_eq, h]
  exact ⟨rfl, rfl⟩

/-- After a write every access goes where it went. -/
theorem access_memWrite {v : Word} (h : memWrite s a v o = some t) (b : Addr) (q : Bool) : access t b q = access s b q := by
  rcases memWrite_cases h with ⟨_, _, rfl⟩ | ⟨_, _, rfl⟩
  · exact State.setReg_access ..
  · exact State.writePhysical_access ..

theorem memWrite_wf {v : Word} (h : memWrite s a v o = some t) (hm : s.mem.wf) : t.mem.wf := by
  rcases memWrite_cases h with ⟨_, _, rfl⟩ | ⟨_, _, rfl⟩
  · exact hm
  · exact Memory.wf_write _ _ _ hm

theorem memRead_memWrite_same {v : Word} (h : memWrite s a v o = some t) (hm : s.mem.wf) : memRead t a o = some v := by
  rw [memRead_eq, access_memWrite h]
  rcases memWrite_cases h with ⟨i, hx, rfl⟩ | ⟨p, hx, rfl⟩
  · rw [hx]
    exact congrArg some (State.reg_setReg_same s i v)
  · rw [hx]
    exact congrArg some (Memory.read_write_same hm p v)

/-- An access that goes elsewhere reads as before a write. -/
theorem memRead_memWrite_other {v : Word} (h : memWrite s a v o = some t) (hm : s.mem.wf) {b : Addr} {q : Bool}
    (hne : access s b q ≠ access s a o) : memRead t b q = memRead s b q := by
  rw [memRead_eq, memRead_eq, access_memWrite h]
  rcases memWrite_cases h with ⟨i, hx, rfl⟩ | ⟨p, hx, rfl⟩
  · cases hb : access s b q with
    | reg j =>
      have hj : j ≠ i := fun e => hne (by rw [hb, hx, e])
      simp [State.reg_setReg, hj]
    | mem r => rfl
    | violation => rfl
  · cases hb : access s b q with
    | reg j => rfl
    | mem r =>
      have hr : r ≠ p := fun e => hne (by rw [hb, hx, e])
      exact congrArg some (Memory.read_write_other hm hr v)
    | violation => rfl

end

/-- Settles O12: the statement's chain of conditions is the unit's decision, taken case by case. -/
theorem addressingUnit : Obligations.AddressingUnit := by
  intro s a o v relocated p w
  have hp : p = relocate s a o := (relocate_eq s a o).symm
  have hw : w = s.width := rfl
  have hacc := access_eq s a o
  rw [hp, hw]
  split
  · rename_i h
    rw [if_pos (inWindow_iff.mpr h)] at hacc
    exact unit_reg hacc v
  · rename_i h
    rw [if_neg (mt inWindow_iff.mp h)] at hacc
    split
    · rename_i hl
      rw [if_pos (outsideLimits_iff.mpr hl)] at hacc
      exact ⟨.inl hl.1, unit_violation hacc v⟩
    · rename_i hl
      rw [if_neg (mt outsideLimits_iff.mp hl)] at hacc
      split
      · rename_i hs
        rw [if_neg (Nat.not_lt.mpr hs)] at hacc
        exact unit_violation hacc v
      · rename_i hs
        rw [if_pos (Nat.lt_of_not_le hs)] at hacc
        exact unit_mem hacc v

/-- Settles O13: a write changes the register or the word where the access goes. -/
theorem readAfterWrite : Obligations.ReadAfterWrite := by
  intro s t a o v hm h
  exact ⟨memRead_memWrite_same h hm, fun b q hne => memRead_memWrite_other h hm hne, memWrite_frame h, memWrite_wf h hm⟩

/-! ### A fetch that violates -/

section
variable {s : State}

/-- The step of a running processor in user mode with no entry due, or in executive mode, begins with the fetch. -/
theorem step_fetch (hr : s.Running) (hd : (!s.executive && !s.pip && s.pending) = false) : step s = (fetch s).result := by
  rw [step_eq_result, stepStart_cycle hr.obeyed hr.turns]
  unfold cycleStart
  simp only [hr.stopped, hr.stopRequested, hr.loading, hd, Bool.false_eq_true, if_false]

/-- The step of a running processor with an entry due is the entry (40_dispatch.md R123). -/
theorem step_hardwareEntry (hr : s.Running) (hd : (!s.executive && !s.pip && s.pending) = true) :
    step s = hardwareEntry s := by
  rw [step_eq_result, stepStart_cycle hr.obeyed hr.turns]
  unfold cycleStart
  simp only [hr.stopped, hr.stopRequested, hr.loading, hd, Bool.false_eq_true, if_false, if_true, CycleStart.result]

/-- A status word with a bit set is not 0. -/
theorem or_bitWord_ne_zero (w : Word) (n : Fin 24) : w ||| bitWord n ≠ 0 := fun h => by
  have hbit := congrArg (BitVec.getLsbD · n) h
  simp [bitWord] at hbit

/-- Whatever violates leaves a condition pending. -/
theorem flagViolation_pending (s : State) : s.flagViolation.pending = true := by
  have h : s.flagViolation.sr64 ≠ 0 := or_bitWord_ne_zero _ _
  simp only [State.pending, h, ne_eq, not_false_eq_true, decide_true, Bool.true_or]

/-- A fetch that violates aborts the cycle. -/
theorem fetch_violates (h : memRead s (s.pc &&& s.amask) false = none) :
    (fetch s).result = abort s.fetching.consumePip := by
  have hf : memRead s.fetching s.fetching.ia false = none := h
  rw [fetch_eq, hf]
  rfl

end

/-- Settles O50: the fetch aborts, which leaves the violation bit pending and PIP clear, so that the next cycle is the hardware
entry. -/
theorem fetchViolationEnters : Obligations.FetchViolationEnters := by
  intro s hr hm hc hv t
  refine ⟨fun he => ?_, fun he hd => ?_⟩
  · rw [step_fetch hr (by simp [he]), fetch_violates hv]
    unfold abort
    exact if_pos he
  · have hdue : (!s.executive && !s.pip && s.pending) = false := by
      rcases hd with hd | hd <;> simp [hd]
    have entry : step t = enterTrap t.cfg.vecHw t := by
      have hpend : t.pending = true := flagViolation_pending s.fetching.consumePip
      have hu : t.executive = false := he
      have hpip : t.pip = false := rfl
      exact step_hardwareEntry ⟨hr.obeyed, hr.turns, hr.stopped, hr.stopRequested, hr.loading⟩ (by rw [hpend, hu, hpip]; rfl)
    refine ⟨?_, fun hf => ?_, fun hf => ?_⟩
    · rw [step_fetch hr hdue, fetch_violates hv]
      unfold abort
      exact if_neg (by rw [show s.fetching.consumePip.executive = false from he]; decide)
    · obtain ⟨u, hu, hent, _⟩ := enterTrap_entered t t.cfg.vecHw hm hc hf
      exact ⟨u, entry.trans hu, hent⟩
    · exact entry.trans (enterTrap_fault t.cfg.vecHw hf)

end Sys2Proof.Machine
end

section
/-! Proofs of the family 20_memory, fourth part: what an order leaves whose access violates (20_memory.md R65; 40_dispatch.md
R136): the orders of one word or two, then the blocks, cut at the word or character that violates. -/

namespace Sys2Proof.Machine

/-! ### The state after an abort -/

/-- A state `u` that an order begun in `s` has come to, with the violation bit set and no pre-modification pending. -/
def State.violatedFrom (s u : State) : State :=
  { u with sr64 := u.sr64 ||| bitWord s.cfg.sr64MemViol, pip := false }

/-- How an order begun in `s` ends where an access violates in `u` (40_dispatch.md R136; 60_exceptions.md R441). -/
def abortedFrom (s u : State) : Result :=
  if s.executive then .fault .execViolation else .next { s.violatedFrom u with pc := s.nextAddr s.ia }

/-- The state `u` is the advanced `s`, but for registers and memory: an order has stored, and written nothing else. -/
def OnlyStored (s u : State) : Prop := { u with regs := s.regs, mem := s.mem } = s.advance

section
variable {s t u : State} {x : RegIx} {m : ModIx} {n : BitVec 12}

/-- Such a state, written out. -/
theorem OnlyStored.eq (h : OnlyStored s u) : u = { s.advance with regs := u.regs, mem := u.mem } :=
  congrArg (fun v : State => { v with regs := u.regs, mem := u.mem }) h

theorem OnlyStored.abort (h : OnlyStored s u) : abort u = abortedFrom s u := by
  have hu := h.eq
  generalize u.regs = regs at hu
  generalize u.mem = mem at hu
  subst hu
  rfl

/-- An abort that leaves a state leaves it as a second one would. -/
theorem OnlyStored.aborted_again (h : OnlyStored s u) (ht : Machine.abort u = .next t) :
    s.executive = false ∧ s.violatedFrom t = t ∧ t.pc = s.nextAddr s.ia := by
  obtain ⟨he, rfl⟩ := abort_next ht
  have hu := h.eq
  generalize u.regs = regs at hu
  generalize u.mem = mem at hu
  subst hu
  refine ⟨he, ?_, rfl⟩
  unfold State.violatedFrom State.flagViolation
  dsimp only [State.advance, State.consumePip]
  rw [BitVec.or_assoc, BitVec.or_self]

theorem OnlyStored.executive (h : OnlyStored s u) : u.executive = s.executive := by rw [h.eq]; rfl

theorem OnlyStored.memRead_none (h : OnlyStored s u) {a : Addr} (hv : memRead s a true = none) :
    memRead u a true = none := by
  rw [memRead_eq_none] at hv ⊢
  rw [access_frame (s := s) (congrArg (fun v : State => { v with pc := s.pc, pip := s.pip }) h), hv]

theorem OnlyStored.nextAddr (h : OnlyStored s u) (a : Addr) : u.nextAddr a = s.nextAddr a := by rw [h.eq]; rfl

/-! ### Orders of one operand word -/

/-- The orders that access one operand word and need no option. -/
def wordOrders (x : RegIx) (m : ModIx) (n : BitVec 12) : List Instr :=
  [.ldx x m n, .adx x m n, .ngx x m n, .sbx x m n, .ldxc x m n, .adxc x m n, .ngxc x m n,
    .sbxc x m n, .sto x m n, .ads x m n, .ngs x m n, .sbs x m n, .stoc x m n, .adsc x m n, .ngsc x m n, .sbsc x m n,
    .andx x m n, .orx x m n, .erx x m n, .ands x m n, .ors x m n, .ers x m n, .stoz x m n, .txu x m n, .txl x m n,
    .ldch x m n, .dch x m n, .ldex x m n, .dex x m n, .dsa x m n, .dla x m n, .cdb x m n, .cbd x m n, .smo x m n]

/-- The orders of the multiply/divide unit. -/
def mulDivOrders (x : RegIx) (m : ModIx) (n : BitVec 12) : List Instr :=
  [.mpy x m n, .mpr x m n, .mpa x m n, .dvd x m n, .dvr x m n, .dvs x m n]

/-- The floating orders that write the accumulator. -/
def loadingOrders (m : ModIx) (n : BitVec 12) : List Instr :=
  [.float 0 m n, .fad 0 m n, .fsb 0 m n, .fmpy 0 m n, .fdvd 0 m n, .lfp 0 m n]

theorem wordOrders_violate (h : memRead s (s.operandAddress m n) true = none) :
    ∀ i ∈ wordOrders x m n, exec i s = abortedFrom s s := by
  -- One fact per family: a word read, written or updated, by a transfer, by the adder (a) or by the logical unit (l).
  have r : ∀ k, withWord m n s k = abortedFrom s s := withWord_none h
  have w : ∀ value finish, storeWord m n s value finish = abortedFrom s s := fun _ _ =>
    storeThen_none (s := s.advance) h _
  have u : ∀ value finish, updateWord m n s value finish = abortedFrom s s := fun _ _ => r _
  have ar : ∀ f, adderFromWord x m n s f = abortedFrom s s := fun _ => r _
  have aw : ∀ f, adderStore m n s f = abortedFrom s s := fun _ => w _ _
  have au : ∀ f, adderUpdate m n s f = abortedFrom s s := fun _ => u _ _
  have lr : ∀ f, logicFromWord x m n s f = abortedFrom s s := fun _ => r _
  have lu : ∀ f, logicUpdate x m n s f = abortedFrom s s := fun _ => u _ _
  simp only [wordOrders, exec, List.forall_mem_cons, List.not_mem_nil, false_imp_iff, implies_true, and_true]
  exact ⟨r _, ar _, ar _, ar _, ar _, ar _, ar _, ar _, w _ _, au _, aw _, au _, aw _, au _, aw _, au _, lr _, lr _, lr _,
    lu _, lu _, lu _, w _ _, r _, r _, r _, u _ _, r _, u _ _, u _ _, u _ _, r _, u _ _, r _⟩

theorem mulDivOrders_violate (hp : s.cfg.hasMd = true) (h : memRead s (s.operandAddress m n) true = none) :
    ∀ i ∈ mulDivOrders x m n, exec i s = abortedFrom s s := by
  have r : ∀ k, mulDivOrder m n s k = abortedFrom s s := fun k =>
    (withOption_present hp _).trans (withWord_none h k)
  simp only [mulDivOrders, exec, List.forall_mem_cons, List.not_mem_nil, false_imp_iff, implies_true, and_true]
  exact ⟨r _, r _, r _, r _, r _, r _⟩

theorem execObey_violates (h : memRead s (s.operandAddress m n) true = none) :
    exec (.obey x m n) s = if s.executive then .fault .execViolation else .next (s.violatedFrom s) := by
  have hr : s.consumePip.readOperand (s.operandAddress m n) = none := h
  show execObey x m n s = _
  unfold execObey
  rw [hr]
  rfl

/-! ### Orders of a pair of words -/

theorem floatOrder_present (hp : s.cfg.hasFp = true) (k : Result) : floatOrder 0 s k = k :=
  withOption_present hp _

/-- A loading order ends as its reading of the pair does. -/
theorem loadingOrders_of_withPair {r : Result} (hp : s.cfg.hasFp = true) (h : ∀ k, withPair m n s k = r) :
    ∀ i ∈ loadingOrders m n, exec i s = r := by
  have p : ∀ k, floatOrder 0 s (withPair m n s k) = r := fun k => (floatOrder_present hp _).trans (h k)
  simp only [loadingOrders, exec, List.forall_mem_cons, List.not_mem_nil, false_imp_iff, implies_true, and_true]
  exact ⟨p _, p _, p _, p _, p _, p _⟩

theorem exec_sfp (hp : s.cfg.hasFp = true) :
    exec (.sfp 0 m n) s = storePair m n s (floatWord0 s.am) (floatWord1 s.am s.ae) fun u => u :=
  floatOrder_present hp _

theorem exec_fix (hp : s.cfg.hasFp = true) :
    exec (.fix 0 m n) s = storePair m n s (fpFix s.cfg s.am s.ae).hi (fpFix s.cfg s.am s.ae).lo fun u =>
      u.setVIf (fpFix s.cfg s.am s.ae).overflow :=
  floatOrder_present hp _

/-- The floating orders. -/
def floatOrders (m : ModIx) (n : BitVec 12) : List Instr :=
  [.float 0 m n, .fix 0 m n, .fad 0 m n, .fsb 0 m n, .fmpy 0 m n, .fdvd 0 m n, .lfp 0 m n, .sfp 0 m n]

/-- Where reading a pair and storing one end alike, so does every floating order. -/
theorem floatOrders_of_pair {r : Result} (hp : s.cfg.hasFp = true) (hl : ∀ k, withPair m n s k = r)
    (hs : ∀ w₀ w₁ finish, storePair m n s w₀ w₁ finish = r) : ∀ i ∈ floatOrders m n, exec i s = r := by
  have p : ∀ k, floatOrder 0 s (withPair m n s k) = r := fun k => (floatOrder_present hp _).trans (hl k)
  simp only [floatOrders, exec, List.forall_mem_cons, List.not_mem_nil, false_imp_iff, implies_true, and_true]
  exact ⟨p _, (exec_fix hp).trans (hs _ _ _), p _, p _, p _, p _, p _, (exec_sfp hp).trans (hs _ _ _)⟩

theorem floatOrders_violate (hp : s.cfg.hasFp = true) (h : memRead s (s.operandAddress m n) true = none) :
    ∀ i ∈ floatOrders m n, exec i s = abortedFrom s s :=
  floatOrders_of_pair hp (fun _ => withWord_none h _) fun _ _ _ => storeThen_none (s := s.advance) h _

theorem withPair_second_violates (h0 : (memRead s (s.operandAddress m n) true).isSome = true)
    (h1 : memRead s (s.nextAddr (s.operandAddress m n)) true = none) (k : State → Word → Word → Result) :
    withPair m n s k = abortedFrom s s := by
  obtain ⟨w, hw⟩ := Option.isSome_iff_exists.mp h0
  have hr : s.advance.readOperand (s.advance.nextAddr (s.operandAddress m n)) = none := h1
  unfold withPair
  rw [withWord_some hw, hr]
  rfl

/-- A pair of words stored, the second of which violates: the first stays stored (44_float.md R305). -/
theorem storePair_second_violates (hm : s.mem.wf) (h0 : (memRead s (s.operandAddress m n) true).isSome = true)
    (h1 : memRead s (s.nextAddr (s.operandAddress m n)) true = none) (w₀ w₁ : Word) (finish : State → State) :
    ∃ u, storePair m n s w₀ w₁ finish = abortedFrom s u ∧ Stores s u (s.operandAddress m n) w₀ ∧ OnlyStored s u := by
  obtain ⟨u, hu, hs, hf, _⟩ := memWrite_stores (s := s.advance) (ea := s.operandAddress m n) hm h0 w₀
  have hf : OnlyStored s u := hf
  refine ⟨u, ?_, hs, hf⟩
  unfold storePair
  rw [storeThen_some hu, hf.nextAddr, storeThen_none (hf.memRead_none h1), hf.abort]

/-- In user mode such an order ends with the first word stored, the violation bit set, PC moved on, and all else as before. -/
theorem storePair_second_violates_user (hm : s.mem.wf) (h0 : (memRead s (s.operandAddress m n) true).isSome = true)
    (h1 : memRead s (s.nextAddr (s.operandAddress m n)) true = none) (he : s.executive = false) (w₀ w₁ : Word)
    (finish : State → State) :
    ∃ t, storePair m n s w₀ w₁ finish = .next t ∧ Stores s t (s.operandAddress m n) w₀ ∧ MovesOn s t ∧
      t.sr64 = (s.violatedFrom s).sr64 ∧
      { t with regs := s.regs, mem := s.mem, sr64 := s.sr64, pc := s.pc, pip := s.pip } = s := by
  obtain ⟨u, hu, hs, hf⟩ := storePair_second_violates hm h0 h1 w₀ w₁ finish
  refine ⟨_, hu.trans (if_neg (by rw [he]; decide)), hs, ⟨rfl, rfl⟩, ?_, ?_⟩
  · rw [hf.eq]; rfl
  · rw [hf.eq]; rfl

/-! ### Blocks of words -/

theorem wordCount_eq (a : Addr) : wordCount a = if a.toNat % 512 = 0 then 512 else a.toNat % 512 := by
  unfold wordCount
  rw [toNat_field]
  simp

theorem execSum_violates {k : Nat} (hk : k < wordCount (s.operandAddress m n))
    (h : memRead s (s.maskAddr (s.reg (x + 1) + BitVec.ofNat 24 k)) true = none) :
    exec (.sum x m n) s = abortedFrom s s := by
  have hs : sumWords s.advance (s.advance.reg (x + 1)) (wordCount (s.operandAddress m n)) 0 0 = none :=
    (sumWords_eq_none _ _ _ _ _).mpr ⟨k, hk, by rw [Nat.zero_add]; exact h⟩
  show execSum x m n s = _
  unfold execSum
  rw [hs]
  rfl

/-- Word `i` of a MOVE cannot be read at its source or at its destination. -/
def moveViolates (x : RegIx) (u : State) (i : Nat) : Prop :=
  memRead u (u.maskAddr (u.reg x + BitVec.ofNat 24 i)) true = none ∨
    memRead u (u.maskAddr (u.reg (x + 1) + BitVec.ofNat 24 i)) true = none

theorem moveWords_violates {i : Nat} (h : moveViolates x s i) (r : Nat) : moveWords x (r + 1) i s = abort s := by
  unfold moveWords State.readOperand
  cases hr : memRead s (s.maskAddr (s.reg x + BitVec.ofNat 24 i)) true with
  | none => rfl
  | some w =>
    rcases h with h | h
    · rw [hr] at h; cases h
    · exact storeThen_none h _

/-- A MOVE that violates at word `k` leaves what the move of the first `k` words leaves. -/
theorem moveWords_violates_at {k : Nat} (hu : moveWords x k 0 s.advance = .next u) (hv : moveViolates x u k) (r : Nat) :
    moveWords x (k + (r + 1)) 0 s.advance = abortedFrom s u := by
  obtain ⟨mid, hf, ⟨h₁, h₂⟩ | h⟩ := moveWords_add x k 0 s.advance
  · cases h₁.symm.trans hu
    have hf : OnlyStored s u := hf
    rw [h₂, Nat.zero_add, moveWords_violates hv, hf.abort]
  · have hf : OnlyStored s mid := hf
    have ha : abort mid = .next u := (h 0).1.symm.trans hu
    obtain ⟨he, hs, hpc⟩ := hf.aborted_again ha
    rw [(h (r + 1)).1, ha, abortedFrom, he, hs, ← hpc]
    rfl

theorem execMove_violates_at {k : Nat} (hk : k < wordCount (s.operandAddress m n))
    (hu : moveWords x k 0 s.advance = .next u) (hv : moveViolates x u k) :
    exec (.move x m n) s = abortedFrom s u := by
  obtain ⟨r, hr⟩ := Nat.exists_eq_add_of_lt hk
  show moveWords x (wordCount (s.operandAddress m n)) 0 s.advance = _
  rw [hr]
  exact moveWords_violates_at hu hv r

/-! ### Character pointers as numbers -/

/-- The number of the character a pointer points to, within an address space of `w` bits (42_char_shift_misc.md R211). -/
def charIndex (w : Nat) (p : Word) : Nat := 4 * (p.toNat % 2 ^ w) + p.toNat / 2 ^ 22

/-- The address width of a character pointer. -/
def pointerWidth (wide : Bool) : Nat := if wide then 22 else 15

theorem pointerLane_toNat (p : Word) : (pointerLane p).toNat = p.toNat / 2 ^ 22 := by
  unfold pointerLane
  rw [toNat_field]
  have := p.isLt
  omega

/-- A pointer by its lane and the bits below it. -/
theorem pointer_toNat (p : Word) : p.toNat = (pointerLane p).toNat * 2 ^ 22 + p.toNat % 2 ^ 22 := by
  rw [pointerLane_toNat]
  omega

theorem charInc_toNat (wide : Bool) (p : Word) : (charInc wide p).toNat =
    if (pointerLane p).toNat < 3 then ((pointerLane p).toNat + 1) * 2 ^ 22 + p.toNat % 2 ^ 22
    else if wide then (p.toNat % 2 ^ 22 + 1) % 2 ^ 22
    else p.toNat / 2 ^ 15 % 2 ^ 7 * 2 ^ 15 + (p.toNat % 2 ^ 15 + 1) % 2 ^ 15 := by
  have one (w : Nat) : (1 : BitVec (w + 1)).toNat = 1 := by simp
  have low (w : Nat) : (p.extractLsb' 0 w).toNat = p.toNat % 2 ^ w := by rw [toNat_field, pow_zero, Nat.div_one]
  unfold charInc
  split
  · rename_i hl
    refine (toNat_append _ _).trans ?_
    rw [BitVec.toNat_add, one, low]
    generalize (pointerLane p).toNat = l at hl ⊢
    omega
  · split
    · refine (toNat_append _ _).trans ?_
      rw [BitVec.toNat_add, one, low]
      simp
    · refine (toNat_append _ _).trans ?_
      rw [toNat_append, BitVec.toNat_add, one, low, toNat_field]
      simp

/-- `char_inc` steps to the next character of the address space. -/
theorem charIndex_charInc (wide : Bool) (p : Word) :
    charIndex (pointerWidth wide) (charInc wide p) = (charIndex (pointerWidth wide) p + 1) % 2 ^ (pointerWidth wide + 2) := by
  have hp := pointer_toNat p
  have hl := (pointerLane p).isLt
  unfold charIndex
  rw [charInc_toNat]
  generalize (pointerLane p).toNat = l at hp hl ⊢
  generalize p.toNat = v at hp ⊢
  have lanes : l = 0 ∨ l = 1 ∨ l = 2 ∨ l = 3 := by omega
  cases wide with
  | true =>
    simp only [pointerWidth, if_true]
    rcases lanes with rfl | rfl | rfl | rfl <;> split <;> omega
  | false =>
    simp only [pointerWidth, if_false, Bool.false_eq_true]
    rcases lanes with rfl | rfl | rfl | rfl <;> split <;> omega

/-- The address of the character a pointer points to. -/
theorem charIndex_div (w : Nat) (p : Word) : charIndex w p / 4 = p.toNat % 2 ^ w := by
  have hl := (pointerLane p).isLt
  rw [pointerLane_toNat] at hl
  unfold charIndex
  generalize p.toNat % 2 ^ w = a
  omega

theorem charIndex_lt (wide : Bool) (p : Word) : charIndex (pointerWidth wide) p < 2 ^ (pointerWidth wide + 2) := by
  have hd := charIndex_div (pointerWidth wide) p
  have hm : p.toNat % 2 ^ pointerWidth wide < 2 ^ pointerWidth wide := Nat.mod_lt _ (by positivity)
  rw [pow_add]
  omega

theorem charIndex_iterate (wide : Bool) (p : Word) : ∀ k : Nat,
    charIndex (pointerWidth wide) ((charInc wide)^[k] p) =
      (charIndex (pointerWidth wide) p + k) % 2 ^ (pointerWidth wide + 2)
  | 0 => (Nat.mod_eq_of_lt (charIndex_lt wide p)).symm
  | k + 1 => by
    rw [Function.iterate_succ_apply', charIndex_charInc, charIndex_iterate wide p k, Nat.mod_add_mod, Nat.add_assoc]

/-- The address of character `k` from the pointer in a register. -/
def State.charAddress (s : State) (r : RegIx) (k : Nat) : Addr :=
  BitVec.ofNat 22 ((charIndex s.width (s.reg r) + k) % 2 ^ (s.width + 2) / 4)

theorem charAddress_eq (s : State) (r : RegIx) (k : Nat) :
    s.maskAddr ((charInc s.am22)^[k] (s.reg r)) = s.charAddress r k := by
  have hw : s.width = pointerWidth s.am22 := rfl
  have hi := charIndex_iterate s.am22 (s.reg r) k
  apply BitVec.eq_of_toNat_eq
  rw [State.charAddress, hw, ← hi, charIndex_div, BitVec.toNat_ofNat, maskAddr_toNat]
  refine (Nat.mod_eq_of_lt ((Nat.mod_lt _ (by positivity)).trans_le ?_)).symm
  exact Nat.pow_le_pow_right (by decide) (by cases s.am22 <;> decide)

/-! ### Blocks of characters -/

theorem charCount_eq (a : Addr) : charCount a = if a.toNat % 256 = 0 then 256 else a.toNat % 256 := by
  unfold charCount
  rw [toNat_field]
  simp

/-- A character of an MVCH cannot be read at its source or at its destination. -/
theorem moveChars_violates {p q : Word}
    (h : memRead s (s.maskAddr p) true = none ∨ memRead s (s.maskAddr q) true = none) (r : Nat) :
    moveChars x (r + 1) p q s = abort s := by
  unfold moveChars State.readOperand
  rcases h with h | h
  · rw [h]
  · rw [h]
    cases memRead s (s.maskAddr p) true <;> rfl

/-- A write keeps every register but one it goes to. -/
theorem memWrite_reg_other {a : Addr} {v : Word} {o : Bool} {i : RegIx} (h : memWrite s a v o = some t)
    (hne : access s a o ≠ .reg i) : t.reg i = s.reg i := by
  rcases memWrite_cases h with ⟨j, hx, rfl⟩ | ⟨_, _, rfl⟩
  · rw [State.reg_setReg, if_neg fun e => hne (by rw [hx, e])]
  · rfl

/-- A write keeps the active width. -/
theorem memWrite_width {a : Addr} {v : Word} {o : Bool} (h : memWrite s a v o = some t) :
    t.am22 = s.am22 ∧ ∀ w, t.maskAddr w = s.maskAddr w := by
  rcases memWrite_cases h with ⟨_, _, rfl⟩ | ⟨_, _, rfl⟩ <;> exact ⟨rfl, fun _ => rfl⟩

/-- An MVCH cut at character `k`: in a state that differs from the first in memory, and in registers only that the first `k`
characters were stored to, it goes on with the stepped pointers or has violated. -/
theorem moveChars_cut (x : RegIx) : ∀ (k : Nat) (p q : Word) (s : State), ∃ (mid : State) (moved : Bool),
    { mid with regs := s.regs, mem := s.mem } = s ∧
    (∀ i, (∀ j, j < k → access s (s.maskAddr ((charInc s.am22)^[j] q)) true ≠ .reg i) → mid.reg i = s.reg i) ∧
    ∀ r, moveChars x (k + r) p q s =
      if moved then moveChars x r ((charInc s.am22)^[k] p) ((charInc s.am22)^[k] q) mid else abort mid
  | 0, p, q, s => ⟨s, true, rfl, fun _ _ => rfl, fun r => by rw [Nat.zero_add]; rfl⟩
  | k + 1, p, q, s => by
    have hk : ∀ r, k + 1 + r = (k + r) + 1 := fun r => by omega
    simp only [hk, moveChars]
    cases s.readOperand (s.maskAddr p) with
    | none => exact ⟨s, false, rfl, fun _ _ => rfl, fun _ => rfl⟩
    | some ws =>
      dsimp only
      cases s.readOperand (s.maskAddr q) with
      | none => exact ⟨s, false, rfl, fun _ _ => rfl, fun _ => rfl⟩
      | some wd =>
        unfold storeThen State.writeOperand
        cases hw : memWrite s (s.maskAddr q) (setChar wd (pointerLane q) (charOf ws (pointerLane p))) true with
        | none => simp only [hw]; exact ⟨s, false, rfl, fun _ _ => rfl, fun _ => rfl⟩
        | some t =>
          simp only [hw]
          obtain ⟨hwide, hmask⟩ := memWrite_width hw
          obtain ⟨mid, moved, hm, hkept, hrun⟩ := moveChars_cut x k (charInc s.am22 p) (charInc s.am22 q) t
          rw [hwide] at hkept hrun
          refine ⟨mid, moved, ?_, fun i hi => ?_, hrun⟩
          · exact (congrArg (fun u : State => { u with regs := s.regs, mem := s.mem }) hm).trans (memWrite_frame hw)
          · have hlater : mid.reg i = t.reg i := hkept i fun j hj => by
              rw [access_memWrite hw, hmask]
              exact hi (j + 1) (by omega)
            exact hlater.trans (memWrite_reg_other hw (hi 0 (by omega)))

/-- Character `k` of an MVCH begun in `s` cannot be read at its source or at its destination. -/
def charViolates (x : RegIx) (s : State) (k : Nat) : Prop :=
  memRead s (s.charAddress x k) true = none ∨ memRead s (s.charAddress (x + 1) k) true = none

/-- The whole MVCH, given its count. -/
def State.mvch (s : State) (x : RegIx) (k : Nat) : Result := moveChars x k (s.reg x) (s.reg (x + 1)) s.advance

/-- An MVCH that violates at character `k` leaves what the move of the first `k` characters leaves, but its pointers are not
written (42_char_shift_misc.md R241). -/
theorem mvch_violates_at {k : Nat} (hu : s.mvch x k = .next u) (hv : charViolates x s k) (r : Nat) :
    (s.executive = true → s.mvch x (k + (r + 1)) = .fault .execViolation) ∧
    (s.executive = false → ∃ t, s.mvch x (k + (r + 1)) = .next t ∧ { t with regs := u.regs } = s.violatedFrom u ∧
      (∀ i, i ≠ x → i ≠ x + 1 → t.reg i = u.reg i) ∧
      ∀ i, (∀ j, j < k → access s (s.charAddress (x + 1) j) true ≠ .reg i) → t.reg i = s.reg i) := by
  obtain ⟨mid, moved, hf, hkept, hrun⟩ := moveChars_cut x k (s.reg x) (s.reg (x + 1)) s.advance
  have hf : OnlyStored s mid := hf
  have hmask : ∀ w, mid.maskAddr w = s.maskAddr w := fun w => by rw [hf.eq]; rfl
  have hend : s.mvch x (k + (r + 1)) = abort mid := by
    refine (hrun (r + 1)).trans ?_
    cases moved with
    | false => rfl
    | true =>
      refine moveChars_violates (hv.imp (fun h => ?_) fun h => ?_) r
      · rw [← charAddress_eq] at h
        exact hmask _ ▸ hf.memRead_none h
      · rw [← charAddress_eq] at h
        exact hmask _ ▸ hf.memRead_none h
  have hkeep : ∀ i, (∀ j, j < k → access s (s.charAddress (x + 1) j) true ≠ .reg i) → mid.reg i = s.reg i :=
    fun i hi => hkept i fun j hj => by
      have hne := hi j hj
      rw [← charAddress_eq] at hne
      exact hne
  have habort : s.executive = false → abort mid = .next mid.flagViolation := fun he => by
    unfold abort
    rw [hf.executive, he]
    rfl
  refine ⟨fun he => ?_, fun he => ⟨mid.flagViolation, hend.trans (habort he), ?_⟩⟩
  · rw [hend, hf.abort]
    exact if_pos he
  · have hfirst : (if moved then _ else abort mid) = Host.Outcome.next u := (hrun 0).symm.trans hu
    cases moved with
    | false =>
      obtain ⟨_, hagain, _⟩ := hf.aborted_again hfirst
      cases (habort he).symm.trans hfirst
      exact ⟨hagain.symm, fun _ _ _ => rfl, hkeep⟩
    | true =>
      cases hfirst
      refine ⟨?_, fun i h₁ h₂ => ?_, hkeep⟩
      · rw [hf.eq]; rfl
      · rw [State.reg_setReg, if_neg h₂, State.reg_setReg, if_neg h₁]
        rfl

/-- An MVCH that violates at its first character. -/
theorem execMvch_violates (hv : charViolates x s 0) : exec (.mvch x m n) s = abortedFrom s s := by
  have pos : 0 < charCount (s.operandAddress m n) := by
    rw [charCount_eq]
    split <;> omega
  obtain ⟨r, hr⟩ := Nat.exists_eq_add_of_lt pos
  unfold charViolates at hv
  rw [← charAddress_eq, ← charAddress_eq] at hv
  show moveChars x (charCount (s.operandAddress m n)) _ _ s.advance = _
  rw [hr, Nat.zero_add]
  exact moveChars_violates (s := s.advance) (p := s.reg x) (q := s.reg (x + 1)) hv r

end

/-- Settles O49: an access that violates answers none, and the shared operations then abort; a block is cut at the word or
character that violates. -/
theorem operandViolationAborts : Obligations.OperandViolationAborts := by
  intro s x m n ea flagged aborted orders multiply float loading countOf wordAt moveViolatesAt w charAt charViolatesAt
  have words : wordCount ea = countOf 512 := wordCount_eq ea
  have chars : charCount ea = countOf 256 := charCount_eq ea
  refine ⟨fun hv => ⟨?_, execObey_violates hv⟩, fun k hk hv => ?_, fun hv => ?_, fun hv => execMvch_violates hv,
    ?_, ?_, fun hm hp h0 h1 => ⟨fun he => ?_, fun he => ⟨?_, ?_⟩⟩⟩
  · simp only [List.forall_mem_append]
    refine ⟨⟨wordOrders_violate hv, ?_⟩, ?_⟩
    · split
      · exact mulDivOrders_violate ‹_› hv
      · exact fun i hi => absurd hi List.not_mem_nil
    · split
      · exact floatOrders_violate ‹_› hv
      · exact fun i hi => absurd hi List.not_mem_nil
  · exact execSum_violates (words ▸ hk) hv
  · have pos : 0 < wordCount ea := by
      rw [wordCount_eq]
      split <;> omega
    exact execMove_violates_at (u := s.advance) pos rfl hv
  · intro n' u k hk hlt hu hv
    have count : wordCount (s.operandAddress m n') = k := (wordCount_eq _).trans (if_neg (by omega))
    have hu : moveWords x (wordCount (s.operandAddress m n')) 0 s.advance = .next u := hu
    rw [count] at hu
    exact execMove_violates_at (words ▸ hlt) hu hv
  · intro n' u k hk hlt hu hv
    have count : charCount (s.operandAddress m n') = k := (charCount_eq _).trans (if_neg (by omega))
    have hu : s.mvch x (charCount (s.operandAddress m n')) = .next u := hu
    rw [count] at hu
    obtain ⟨r, hr⟩ := Nat.exists_eq_add_of_lt (chars ▸ hlt : k < charCount ea)
    have run : exec (.mvch x m n) s = s.mvch x (k + (r + 1)) := congrArg (s.mvch x) hr
    obtain ⟨hexec, huser⟩ := mvch_violates_at hu hv r
    rw [run]
    refine ⟨hexec, fun he => ?_⟩
    obtain ⟨t, ht, hframe, hregs, hkept⟩ := huser he
    exact ⟨t, ht, hframe, hregs, fun i _ hi => hkept i hi⟩
  · refine floatOrders_of_pair hp (fun k => ?_) fun w₀ w₁ finish => ?_
    · exact (withPair_second_violates h0 h1 k).trans (if_pos he)
    · obtain ⟨u, hu, _⟩ := storePair_second_violates hm h0 h1 w₀ w₁ finish
      exact hu.trans (if_pos he)
  · exact loadingOrders_of_withPair hp (withPair_second_violates h0 h1)
  · have hi : floatWord0 s.am = BitVec.ofNat 24 (s.am.toNat / 2 ^ 14) := by
      apply BitVec.eq_of_toNat_eq
      rw [floatWord0, toNat_field, BitVec.toNat_ofNat]
    simp only [List.forall_mem_cons, List.not_mem_nil, false_imp_iff, implies_true, and_true]
    rw [← hi, BitVec.ofNat_toNat, BitVec.setWidth_eq, exec_sfp hp, exec_fix hp]
    exact ⟨storePair_second_violates_user hm h0 h1 he _ _ _, storePair_second_violates_user hm h0 h1 he _ _ _⟩

end Sys2Proof.Machine
end

section
/-! Proofs of the family 30_encoding: the decoder and the encoder are inverse to each other, the words of no row, and the
addresses of R95 and R99. What the decoder answers for a word is said once, table by table (`RowOf`): an instruction whose
word it is, or none where the word is reserved. The two directions from words to instructions are read off that. -/

namespace Sys2Proof

/-- Settles O1: the eight words, evaluated. -/
theorem sampleWordsDecode : Obligations.SampleWordsDecode := by
  unfold Obligations.SampleWordsDecode
  decide

/-! ### From an instruction to its word and back -/

section
variable {k : ExecCodes} {x : RegIx} {m : ModIx} {n : BitVec 12}

theorem ExecCodes.wf.not_searchCode (hk : k.wf) {f : BitVec 7} (hf : f ∈ k.toList) : ¬searchCode f := by
  rintro ⟨hl, hu⟩
  rcases hk.2 f hf with ⟨_, _⟩ | ⟨_, _⟩ <;> omega

theorem ExecCodes.wf.code_ge (hk : k.wf) {f : BitVec 7} (hf : f ∈ k.toList) : 0o140 ≤ f.toNat := by
  rcases hk.2 f hf with ⟨_, _⟩ | ⟨_, _⟩ <;> omega

theorem decodeExec_search {f : BitVec 7} (hf : searchCode f) : decodeExec k f x m n = .ok (.search f x m n) := if_pos hf

/-- The nine codes are distinct, so the decoder's chain of comparisons stops at the right one. -/
theorem decodeExec_order (hk : k.wf) :
    decodeExec k k.rsr x m n = .ok (.rsr x m n) ∧ decodeExec k k.wsr x m n = .ok (.wsr x m n) ∧
      decodeExec k k.exx x m n = .ok (.exx x m n) ∧ decodeExec k k.ldl x m n = .ok (.ldl x m n) ∧
      decodeExec k k.ldm x m n = .ok (.ldm x m n) ∧ decodeExec k k.tdl x m n = .ok (.tdl x m n) ∧
      decodeExec k k.peri x m n = .ok (.peri x m n) ∧ decodeExec k k.xferIn x m n = .ok (.xferIn x m n) ∧
      decodeExec k k.xferOut x m n = .ok (.xferOut x m n) := by
  have outside : ∀ f ∈ k.toList, ¬searchCode f := fun f => hk.not_searchCode
  have distinct : k.toList.Nodup := hk.1
  unfold decodeExec
  simp only [ExecCodes.toList, List.nodup_cons, List.mem_cons] at outside distinct
  grind

/-- A word with the code of an order of the executive group is decoded by the codes of the parameters. -/
theorem decode_order (hk : k.wf) {f : BitVec 7} (hf : f ∈ k.toList) :
    decode k (formatA x f m n) = decodeExec k f x m n := decode_formatA_exec k x f m n (hk.code_ge hf)

end

/-- Settles O2: the class of the instruction picks the decoder's table, and the row picks the entry. -/
theorem decodeOfEncode : Obligations.DecodeOfEncode := by
  intro k i hk hi
  cases i with
  | ldx x m n | adx x m n | ngx x m n | sbx x m n | ldxc x m n | adxc x m n | ngxc x m n | sbxc x m n
  | sto x m n | ads x m n | ngs x m n | sbs x m n | stoc x m n | adsc x m n | ngsc x m n | sbsc x m n
  | andx x m n | orx x m n | erx x m n | obey x m n | ldch x m n | ldex x m n | txu x m n | txl x m n
  | ands x m n | ors x m n | ers x m n | stoz x m n | dch x m n | dex x m n | dsa x m n | dla x m n
  | mpy x m n | mpr x m n | mpa x m n | cdb x m n | dvd x m n | dvr x m n | dvs x m n | cbd x m n =>
    exact decode_formatA_low k x _ m n (by decide)
  | bze x d | bnz x d | bpz x d | bng x d | bux x d | bdx x d | bchx x d | bct x d | call x d | exit x d =>
    exact decode_formatB k x _ d (by decide)
  | brn d | bvs d | bvsr d | bvc d | bvcr d | bcs d | bcc d | bvci d
  | bfp0 d | bfp1 d | bfp2 d | bfp3 d | bfp4 d | bfp5 d =>
    exact decode_formatB k _ _ d (by decide)
  | ldn x m n | adn x m n | ngn x m n | sbn x m n | ldnc x m n | adnc x m n | ngnc x m n | sbnc x m n
  | norm x m n | normd x m n | mvch x m n | smo x m n
  | andn x m n | orn x m n | ern x m n | null x m n | ldct x m n | mode x m n | move x m n | sum x m n
  | float x m n | fix x m n | fad x m n | fsb x m n | fmpy x m n | fdvd x m n | lfp x m n | sfp x m n =>
    exact decode_formatA_high k x _ m n (by decide)
  | slc x m c | sll x m c | sla x m c | slcd x m c | slld x m c | slad x m c
  | src x m c | srl x m c | sra x m c | srcd x m c | srld x m c | srad x m c =>
    exact (decode_formatA_high k x _ m _ (by decide)).trans (shiftBy_field ..)
  | search f x m n =>
    have hf : searchCode f := by simpa [Instr.wf] using hi
    exact (decode_formatA_exec k x f m n (hf.1.trans' (by decide))).trans (decodeExec_search hf)
  | rsr x m n | wsr x m n | exx x m n | ldl x m n | ldm x m n | tdl x m n | peri x m n | xferIn x m n | xferOut x m n =>
    exact (decode_order hk (by simp [ExecCodes.toList])).trans (by simp only [decodeExec_order hk])

/-! ### From a word to its instruction -/

/-- What an entry of the opcode map answers for the word `w`: an instruction whose word it is, where the word is not
reserved, and none where it is. -/
inductive RowOf (k : ExecCodes) (w : Word) (reserved : Prop) : Except Reserved Instr → Prop
  | row {i : Instr} (hn : ¬reserved) (he : encode k i = w) (hi : i.wf = true) : RowOf k w reserved (.ok i)
  | none {r : Reserved} (hr : reserved) : RowOf k w reserved (.error r)

section
variable {k : ExecCodes} {w : Word} {p q : Prop} {r : Except Reserved Instr}

theorem RowOf.of_iff (h : RowOf k w p r) (e : p ↔ q) : RowOf k w q r := propext e ▸ h

theorem RowOf.of_not (h : RowOf k w False r) (hp : ¬p) : RowOf k w p r := h.of_iff (iff_of_false id hp)

theorem RowOf.error_iff (h : RowOf k w p r) : (∃ e, r = .error e) ↔ p := by
  cases h with
  | row hn _ _ => exact iff_of_false (fun ⟨_, he⟩ => by cases he) hn
  | none hr => exact iff_of_true ⟨_, rfl⟩ hr

/-- A comparison adds its row to the rows of the comparisons after it. -/
theorem RowOf.ite {c : Prop} [Decidable c] {i : Instr} (hi : c → encode k i = w ∧ i.wf = true) (h : RowOf k w p r) :
    RowOf k w (¬c ∧ p) (if c then .ok i else r) := by
  by_cases hc : c
  · rw [if_pos hc]
    exact .row (fun hn => hn.1 hc) (hi hc).1 (hi hc).2
  · rw [if_neg hc]
    exact h.of_iff (and_iff_right hc).symm

theorem RowOf.encode_and_wf {i : Instr} (h : RowOf k w p (.ok i)) : encode k i = w ∧ i.wf = true := by
  cases h with
  | row _ he hi => exact ⟨he, hi⟩

end

section
variable (k : ExecCodes) (x : RegIx) (f : BitVec 7) (m : ModIx) (n : BitVec 12) (g : BitVec 6) (d : BitVec 15)

/-! ### A word is its fields -/

theorem formatA_fields (w : Word) : formatA (fieldX w) (fieldF w) (fieldM w) (fieldN w) = w := by
  apply BitVec.eq_of_toNat_eq
  rw [formatA_toNat, fieldX_toNat, fieldF_toNat, fieldM_toNat, fieldN_toNat]
  omega

theorem formatB_fields (w : Word) : formatB (fieldX w) (fieldF6 w) (fieldN15 w) = w := by
  apply BitVec.eq_of_toNat_eq
  rw [formatB_toNat, fieldX_toNat, fieldF6_toNat, fieldN15_toNat]
  omega

theorem append_fields (n : BitVec 12) : n.extractLsb' 10 2 ++ n.extractLsb' 0 10 = n := by
  apply BitVec.eq_of_toNat_eq
  rw [toNat_append, toNat_field, toNat_field]
  omega

/-! ### The tables, row by row -/

/-- Every function code 000-047 is a row. -/
theorem lowCodes_row {j : Nat} (hj : j < 0o50) (hf : f = BitVec.ofNat 7 j) :
    RowOf k (formatA x f m n) False (entryA lowCodes j f x m n) := by
  subst hf
  interval_cases j <;> exact .row id rfl rfl

/-- A shift's submode names the instruction, and submode 3 names none. -/
theorem shiftBy_row {a b c : RegIx → ModIx → BitVec 10 → Instr}
    (ha : ∀ t, encode k (a x m t) = formatA x f m (0#2 ++ t) ∧ (a x m t).wf = true)
    (hb : ∀ t, encode k (b x m t) = formatA x f m (1#2 ++ t) ∧ (b x m t).wf = true)
    (hc : ∀ t, encode k (c x m t) = formatA x f m (2#2 ++ t) ∧ (c x m t).wf = true) :
    RowOf k (formatA x f m n) (n.toNat / 2 ^ 10 = 3) (shiftBy f a b c x m n) := by
  rw [← append_fields n, shiftBy_field]
  generalize n.extractLsb' 10 2 = q, n.extractLsb' 0 10 = t
  have := t.isLt
  rw [toNat_append, show (q.toNat * 2 ^ 10 + t.toNat) / 2 ^ 10 = q.toNat by omega]
  fin_cases q
  · exact .row (by decide) (ha t).1 (ha t).2
  · exact .row (by decide) (hb t).1 (hb t).2
  · exact .row (by decide) (hc t).1 (hc t).2
  · exact .none rfl

/-- The function codes 0100-0137 are rows, but for the four shifts at 0110-0113 with submode 3. -/
theorem highCodes_row {j : Nat} (hj : j < 0o40) (hf : f = BitVec.ofNat 7 (0o100 + j)) :
    RowOf k (formatA x f m n) ((0o10 ≤ j ∧ j ≤ 0o13) ∧ n.toNat / 2 ^ 10 = 3) (entryA highCodes j f x m n) := by
  subst hf
  rcases (by omega : j < 0o10 ∨ (0o10 ≤ j ∧ j ≤ 0o13) ∨ 0o14 ≤ j) with hl | hs | hu
  · interval_cases j <;> exact .row (by omega) rfl rfl
  · refine RowOf.of_iff ?_ (and_iff_right hs).symm
    obtain ⟨hl, hu⟩ := hs
    interval_cases j <;> exact shiftBy_row k x _ m n (fun _ => ⟨rfl, rfl⟩) (fun _ => ⟨rfl, rfl⟩) (fun _ => ⟨rfl, rfl⟩)
  · interval_cases j <;> exact .row (by omega) rfl rfl

/-- The condition of a flag branch is one of eight. -/
theorem flagBranch_row : RowOf k (formatB x 0o36#6 d) False (flagBranch x d) := by
  fin_cases x <;> exact .row id rfl rfl

/-- The condition of a floating branch is one of six, and 6 and 7 name none. -/
theorem floatBranch_row : RowOf k (formatB x 0o37#6 d) (x.toNat = 6 ∨ x.toNat = 7) (floatBranch x d) := by
  fin_cases x
  iterate 6 exact .row (by decide) rfl rfl
  all_goals exact .none (by decide)

/-- The branch functions 024-037 are rows, but for 037 with condition 6 or 7. -/
theorem branchCodes_row {j : Nat} (hj : j < 0o14) (hg : g = BitVec.ofNat 6 (0o24 + j)) :
    RowOf k (formatB x g d) (j = 0o13 ∧ (x.toNat = 6 ∨ x.toNat = 7))
      (branchCodes.getD j floatBranch x d) := by
  subst hg
  rcases (by omega : j < 0o12 ∨ j = 0o12 ∨ j = 0o13) with hr | rfl | rfl
  · interval_cases j <;> exact .row (by omega) rfl rfl
  · exact (flagBranch_row k x d).of_iff (by simp)
  · exact (floatBranch_row k x d).of_iff (by simp)

/-- A code of the executive group is a row where it is a search-list code or one of the nine parameters. -/
theorem decodeExec_row :
    RowOf k (formatA x f m n) (¬searchCode f ∧ ∀ c ∈ k.toList, c.toNat ≠ f.toNat) (decodeExec k f x m n) := by
  have order {i : RegIx → ModIx → BitVec 12 → Instr} {c : BitVec 7} (hi : encode k (i x m n) = formatA x c m n)
      (hw : (i x m n).wf = true) (h : f = c) : encode k (i x m n) = formatA x f m n ∧ (i x m n).wf = true :=
    ⟨h ▸ hi, hw⟩
  refine RowOf.of_iff (.ite (fun h => ⟨rfl, decide_eq_true h⟩) <| .ite (order rfl rfl) <| .ite (order rfl rfl) <|
    .ite (order rfl rfl) <| .ite (order rfl rfl) <| .ite (order rfl rfl) <| .ite (order rfl rfl) <|
    .ite (order rfl rfl) <| .ite (order rfl rfl) <| .ite (order rfl rfl) <| .none trivial) ?_
  simp only [ExecCodes.toList, List.forall_mem_cons, ne_eq, BitVec.toNat_inj, eq_comm (b := f)]
  grind

end

/-! ### The decoder -/

/-- A word is reserved by its fields as numbers: a shift with submode 3, a floating branch with condition 6 or 7, or a code
of the executive group that nothing names (30_encoding.md R104). -/
def ReservedWord (k : ExecCodes) (w : Word) : Prop :=
  let x := w.toNat / 2 ^ 21
  let f := w.toNat / 2 ^ 14 % 128
  (0o110 ≤ f ∧ f ≤ 0o113 ∧ w.toNat / 2 ^ 10 % 4 = 3) ∨
    ((f = 0o76 ∨ f = 0o77) ∧ (x = 6 ∨ x = 7)) ∨
    (0o140 ≤ f ∧ ¬(0o150 ≤ f ∧ f ≤ 0o165) ∧ ∀ c ∈ k.toList, c.toNat ≠ f)

/-- The decoder answers every word by its row, or by none where the word is reserved. -/
theorem decode_row (k : ExecCodes) (w : Word) : RowOf k w (ReservedWord k w) (decode k w) := by
  have hX := fieldX_toNat w
  have hF := fieldF_toNat w
  have hN := fieldN_toNat w
  have hG := fieldF6_toNat w
  have formatA_row {p : Prop} {r} (h : RowOf k (formatA (fieldX w) (fieldF w) (fieldM w) (fieldN w)) p r) :
      RowOf k w p r := formatA_fields w ▸ h
  have formatB_row {p : Prop} {r} (h : RowOf k (formatB (fieldX w) (fieldF6 w) (fieldN15 w)) p r) :
      RowOf k w p r := formatB_fields w ▸ h
  simp only [decode, ReservedWord, ← hF, ← hX]
  split_ifs with low branch high
  · refine (formatA_row (lowCodes_row k _ _ _ _ low (by simp))).of_not ?_
    omega
  · refine (formatB_row (branchCodes_row k _ _ _ (by omega) (by bv_omega))).of_iff ?_
    exact ⟨fun h => .inr (.inl (by omega)), fun h => by omega⟩
  · refine (formatA_row (highCodes_row k _ _ _ _ (by omega) (by bv_omega))).of_iff ?_
    exact ⟨fun h => .inl (by omega), fun h => by omega⟩
  · refine (formatA_row (decodeExec_row k _ _ _ _)).of_iff ?_
    rw [or_iff_right (by omega), or_iff_right (by omega), and_iff_right (Nat.le_of_not_lt high)]

/-- Settles O3: the row of a word that decodes is an instruction whose word it is. -/
theorem encodeOfDecode : Obligations.EncodeOfDecode := by
  intro k w i h
  have row := decode_row k w
  rw [h] at row
  exact row.encode_and_wf

/-- Settles O4: the decoder answers none for the reserved words, and for no other. -/
theorem reservedWords : Obligations.ReservedWords := fun k w => (decode_row k w).error_iff

end Sys2Proof
end

section
/-! Proofs of the family 30_encoding, second part: the addresses of R95 and R99 as sums modulo `2^w`. A sum is formed in a
word of 24 bits and cut to the active width, so what the word drops is a multiple of `2^w`. -/

namespace Sys2Proof.Machine

theorem offset_toNat (s : State) : s.offset.toNat = if s.pip then s.pipVal.toNat else 0 := by
  unfold State.offset
  split <;> rfl

theorem modifier_toNat (s : State) (m : ModIx) :
    (s.modifier m).toNat = if m = 0 then 0 else (s.reg (m.setWidth 3)).toNat := by
  unfold State.modifier
  split <;> rfl

/-- A word cut to the active width, from any integer that the word holds modulo `2^24`. -/
theorem maskAddr_of_emod (s : State) {a : Word} {v : Int} (h : (a.toNat : Int) = v % 2 ^ 24) :
    ((s.maskAddr a).toNat : Int) = v % 2 ^ (if s.am22 then 22 else 15) := by
  rw [maskAddr_toNat]
  split <;> omega

theorem operandAddress_toNat (s : State) (m : ModIx) (n : BitVec 12) :
    (s.operandAddress m n).toNat =
      (n.toNat + (s.modifier m).toNat + s.offset.toNat) % 2 ^ (if s.am22 then 22 else 15) := by
  have sum := maskAddr_of_emod s (a := n.setWidth 24 + s.modifier m + s.offset)
    (v := n.toNat + (s.modifier m).toNat + s.offset.toNat) (by simp)
  exact_mod_cast sum

theorem linkDisplacement_toNat (s : State) (d : BitVec 15) :
    (s.linkDisplacement d).toNat = (d.toNat + s.offset.toNat) % 2 ^ (if s.am22 then 22 else 15) := by
  have sum := maskAddr_of_emod s (a := d.setWidth 24 + s.offset) (v := d.toNat + s.offset.toNat) (by simp)
  exact_mod_cast sum

theorem branchTarget_toNat (s : State) (d : BitVec 15) :
    ((s.branchTarget d).toNat : Int) = (if s.ejm then s.ia.toNat + d.toInt + s.offset.toNat
      else (d.toNat : Int) + s.offset.toNat) % 2 ^ (if s.am22 then 22 else 15) := by
  apply maskAddr_of_emod
  split
  · have hd : ((d.signExtend 24).toNat : Int) = d.toInt % 2 ^ 24 := by
      have := (d.signExtend 24).isLt
      rw [← BitVec.toInt_signExtend_of_le (v := 24) (by decide), BitVec.toInt_eq_toNat_cond]
      omega
    simp only [BitVec.toNat_add, BitVec.toNat_setWidth]
    omega
  · simp

/-- Settles O11: each address is a sum cut to the active width, and the offset and the modifier are what the statement
writes out. -/
theorem effectiveAddresses : Obligations.EffectiveAddresses := by
  intro s m n d off mod w
  have hoff : s.offset.toNat = off := offset_toNat s
  have hmod : (s.modifier m).toNat = mod := modifier_toNat s m
  rw [← hoff, ← hmod]
  exact ⟨operandAddress_toNat s m n, linkDisplacement_toNat s d, branchTarget_toNat s d, nextAddr_toNat s s.ia⟩

end Sys2Proof.Machine
end

section
/-! Proofs of the family 40_dispatch: the start of a step, which is a turn of the environment, the host-stop test, the Loading
spin or the fetch (40_dispatch.md R120 to R126), and the word it then runs (R132 to R134). -/

namespace Sys2Proof.Machine

/-! ### The start of a step -/

section
variable {s t : State} {w : Word} {i : Instr}

/-- A step with no obeyed word begins with the environment's next turn, or with a cycle. -/
theorem step_turnStart (ho : s.obeyed = none) : step s = (turnStart s).result := by
  rw [step_eq_result]
  unfold stepStart
  rw [ho]

/-- With no obeyed word and no turn waiting, the step is the processor's cycle. -/
theorem step_cycle (ho : s.obeyed = none) (ht : s.turns = []) : step s = (cycleStart s).result := by
  rw [step_eq_result, stepStart_cycle ho ht]

/-- A stopped processor has no further step (40_dispatch.md R121). -/
theorem cycleStart_stopped (h : s.stopped = true) : cycleStart s = .finished (.fault .stopped) := by
  unfold cycleStart
  rw [if_pos h]

/-- A stop asked for is seen before Loading, the interrupt check and the fetch (40_dispatch.md R121). -/
theorem cycleStart_stopRequested (h : s.stopped = false) (hr : s.stopRequested = true) :
    cycleStart s = .finished (.next { s with stopped := true }) := by
  unfold cycleStart
  rw [if_neg (Bool.eq_false_iff.mp h), if_pos hr]

/-- While LOADING is 1 the cycle is one of the Loading spin (40_dispatch.md R122). -/
theorem cycleStart_loading (h : s.stopped = false) (hr : s.stopRequested = false) (hl : s.loading = true) :
    cycleStart s = .finished (loadingCycle s) := by
  unfold cycleStart
  rw [if_neg (Bool.eq_false_iff.mp h), if_neg (Bool.eq_false_iff.mp hr), if_pos hl]

/-- With no stop, Loading ended and no entry due, the cycle is the fetch (40_dispatch.md R123, R125). -/
theorem cycleStart_fetch (h : s.stopped = false) (hr : s.stopRequested = false) (hl : s.loading = false)
    (hd : (!s.executive && !s.pip && s.pending) = false) : cycleStart s = fetch s := by
  unfold cycleStart
  rw [if_neg (Bool.eq_false_iff.mp h), if_neg (Bool.eq_false_iff.mp hr), if_neg (Bool.eq_false_iff.mp hl),
    if_neg (Bool.eq_false_iff.mp hd)]

/-- No entry is due in executive mode, with a pre-modification pending, or with no condition pending (40_dispatch.md R123). -/
theorem entry_not_due (h : s.executive = true ∨ s.pip = true ∨ s.pending = false) :
    (!s.executive && !s.pip && s.pending) = false := by
  rcases h with h | h | h <;> simp [h]

/-- A fetch that reads a word runs it, with its address in IA (40_dispatch.md R125, R126). -/
theorem fetch_runs (h : memRead s (s.pc &&& s.amask) false = some w) : (fetch s).result = runWord w s.fetching := by
  have hf : memRead s.fetching s.fetching.ia false = some w := h
  rw [fetch_eq, hf]
  rfl

theorem runWord_ok (h : decode s.cfg.codes w = .ok i) : runWord w s = exec i s := by
  unfold runWord
  rw [h]

theorem runWord_error {r : Reserved} (h : decode s.cfg.codes w = .error r) : runWord w s = execReserved r s := by
  unfold runWord
  rw [h]

end

/-- Settles O5: the cycle reaches the fetch, the fetch reads the word, and the word runs as it decodes; an obeyed word skips the
cycle. -/
theorem stepRunsDecodedWord : Obligations.StepRunsDecodedWord := by
  refine ⟨fun s w hr hd hw => ?_, fun s w i ho hi => ?_⟩
  · have due := entry_not_due hd
    have runs : step s = runWord w s.fetching := (step_fetch hr due).trans (fetch_runs hw)
    refine ⟨fun i hi => runs.trans (runWord_ok hi), fun r hi => runs.trans (runWord_error hi), fun i rest hi => ?_⟩
    calc step { s with turns := .processor :: rest }
        = (cycleStart { s with turns := rest }).result := step_turnStart hr.obeyed
      _ = (fetch { s with turns := rest }).result :=
        congrArg CycleStart.result (cycleStart_fetch hr.stopped hr.stopRequested hr.loading due)
      _ = runWord w (State.fetching { s with turns := rest }) := fetch_runs hw
      _ = exec i { s with turns := rest, ia := s.pc &&& s.amask } := runWord_ok hi
  · rw [step_eq_result, stepStart_obeyed ho]
    exact runWord_ok hi

/-- Settles O8: the stop is the first test of a cycle, and a stop-request turn only records the request. -/
theorem hostStopEndsTheRun : Obligations.HostStopEndsTheRun := by
  intro s ho ht hs
  refine ⟨fun hr => ?_, ?_, ?_⟩
  · rw [step_cycle ho ht, cycleStart_stopRequested hs hr]
    rfl
  · have turn : step { s with turns := [.stopRequest] } = .next { s with turns := [], stopRequested := true } :=
      step_turnStart ho
    rw [turn, ← ht]
  · have seen : cycleStart { s with stopped := true } = .finished (.fault .stopped) := cycleStart_stopped rfl
    rw [step_cycle (s := { s with stopped := true }) ho ht, seen]
    rfl

/-! ### Loading -/

/-- A machine of the host that a step leaves as it is stays so for any number of steps. -/
theorem run_of_step_eq_self {M : Host.Core} {s : M.State} (h : M.step s = .next s) : ∀ k, M.run k s = .next s
  | 0 => rfl
  | k + 1 => by
    unfold Host.Core.run
    rw [h]
    exact run_of_step_eq_self h k

/-- Settles O7: a step of the spin is `loadingCycle`, which waits where nothing is pending, and a wait repeats itself. -/
theorem loadingSpins : Obligations.LoadingSpins := by
  intro s ho ht hs hr hl
  have spin : step s = loadingCycle s := by
    rw [step_cycle ho ht, cycleStart_loading hs hr hl]
    rfl
  refine ⟨fun hp => run_of_step_eq_self ?_, fun hp => ?_⟩
  · show step s = .next s
    rw [spin, loadingCycle, if_neg (Bool.eq_false_iff.mp hp)]
  · rw [spin, loadingCycle, if_pos hp]
    rfl

/-! ### An instruction placed where it is fetched -/

section
variable {s t : State}

/-- Whether the processor is about to take a cycle does not depend on registers and memory. -/
theorem State.Running.of_frame (h : { t with regs := s.regs, mem := s.mem } = s) (hr : s.Running) : t.Running where
  obeyed := (congrArg State.obeyed h).trans hr.obeyed
  turns := (congrArg State.turns h).trans hr.turns
  stopped := (congrArg State.stopped h).trans hr.stopped
  stopRequested := (congrArg State.stopRequested h).trans hr.stopRequested
  loading := (congrArg State.loading h).trans hr.loading

/-- A state made ready to fetch is of a running processor. -/
theorem readyToFetch_running (s : State) : s.readyToFetch.Running := by
  unfold State.readyToFetch
  extract_lets t u
  have hu : u.Running := by
    show (if t.loading then t.endLoading else t).Running
    split
    · exact ⟨rfl, rfl, rfl, rfl, rfl⟩
    · rename_i hl
      exact ⟨rfl, rfl, rfl, rfl, Bool.eq_false_iff.mpr hl⟩
  split
  · exact ⟨hu.obeyed, hu.turns, hu.stopped, hu.stopRequested, hu.loading⟩
  · exact hu

/-- No entry is due in a state made ready to fetch: where one could be, nothing is pending. -/
theorem readyToFetch_no_entry (s : State) :
    s.readyToFetch.executive = true ∨ s.readyToFetch.pip = true ∨ s.readyToFetch.pending = false := by
  unfold State.readyToFetch
  extract_lets t u
  split
  · exact .inr (.inr rfl)
  · rename_i h
    cases he : u.executive with
    | true => exact .inl rfl
    | false => exact .inr (.inl (by simpa [he] using h))

/-- Making ready to fetch keeps the parameters and memory. -/
theorem readyToFetch_keeps (s : State) : s.readyToFetch.cfg = s.cfg ∧ s.readyToFetch.mem = s.mem := by
  unfold State.readyToFetch
  extract_lets t u
  have hu : u.cfg = s.cfg ∧ u.mem = s.mem := by
    show (if t.loading then t.endLoading else t).cfg = s.cfg ∧ (if t.loading then t.endLoading else t).mem = s.mem
    split <;> exact ⟨rfl, rfl⟩
  split <;> exact hu

/-- A word placed where the fetch reads is what the next cycle fetches; registers and memory aside, nothing changes. -/
theorem placeAtFetch_reads {w : Word} (hm : s.mem.wf) (h : access s (s.pc &&& s.amask) false ≠ .violation)
    (ht : t = s.placeAtFetch w) :
    memRead t (t.pc &&& t.amask) false = some w ∧ { t with regs := s.regs, mem := s.mem } = s := by
  have written : memWrite s (s.pc &&& s.amask) w false = some t := by
    rw [ht, State.placeAtFetch]
    cases hw : memWrite s (s.pc &&& s.amask) w false with
    | none => exact absurd (memRead_eq_none.mp (memWrite_eq_none.mp hw)) h
    | some u => rfl
  have frame := memWrite_frame written
  have address : t.pc &&& t.amask = s.pc &&& s.amask := by
    rw [← frame]
    rfl
  rw [address]
  exact ⟨memRead_memWrite_same written hm, frame⟩

end

/-- Settles O6: the placed word is what a running processor with no entry due fetches, and it decodes to the instruction. -/
theorem placedInstructionRuns : Obligations.PlacedInstructionRuns := by
  intro s i hm hk hi ha t
  obtain ⟨hcfg, hmem⟩ := readyToFetch_keeps s
  have word : BitVec.ofNat 24 ((encode s.cfg.codes i).toNat % 2 ^ 24) = encode s.cfg.codes i := by
    rw [Nat.mod_eq_of_lt (encode s.cfg.codes i).isLt, BitVec.ofNat_toNat, BitVec.setWidth_eq]
  have placed : t = s.readyToFetch.placeAtFetch (encode s.cfg.codes i) := congrArg s.readyToFetch.placeAtFetch word
  obtain ⟨reads, frame⟩ := placeAtFetch_reads (hmem ▸ hm) ha placed
  have running : t.Running := (readyToFetch_running s).of_frame frame
  have noEntry : t.executive = true ∨ t.pip = true ∨ t.pending = false := by
    have h := readyToFetch_no_entry s
    rwa [← frame] at h
  have decoded : decode t.cfg.codes (encode s.cfg.codes i) = .ok i := by
    have codes : t.cfg = s.cfg := (congrArg State.cfg frame).trans hcfg
    rw [codes]
    exact decodeOfEncode _ i hk hi
  exact (stepRunsDecodedWord.1 t _ running noEntry reads).1 i decoded

/-! ### SMO and OBEY -/

/-- SMO of a readable word makes it the pending pre-modification (40_dispatch.md R132). -/
theorem exec_smo {s : State} {x : RegIx} {m : ModIx} {n : BitVec 12} {w : Word}
    (h : memRead s (s.operandAddress m n) true = some w) :
    exec (.smo x m n) s = .next { s.advance with pip := true, pipVal := w } := by
  show execSmo x m n s = _
  unfold execSmo
  rw [withWord_some h]

/-- OBEY of a readable word holds it to be decoded next (40_dispatch.md R133). -/
theorem exec_obey {s : State} {x : RegIx} {m : ModIx} {n : BitVec 12} {w : Word}
    (h : memRead s (s.operandAddress m n) true = some w) :
    exec (.obey x m n) s = .next { s.consumePip with obeyed := some w } := by
  have hr : s.consumePip.readOperand (s.operandAddress m n) = some w := h
  show execObey x m n s = _
  unfold execObey
  rw [hr]

/-- Settles O42: both orders read the word at EA. -/
theorem obeyAndSupplementaryModifier : Obligations.ObeyAndSupplementaryModifier := by
  intro s x m n w h
  exact ⟨exec_smo h, exec_obey h⟩

/-! ### Orders of an absent option -/

section
variable {s : State} {i : Instr}

/-- What an order of an absent option comes to (40_dispatch.md R134). -/
def absentOption (s : State) : Result :=
  if s.executive then .refused .optionAbsent else voluntaryEntry s.advance

theorem withOption_absent {p : Bool} (hp : p = false) (k : Result) : withOption p s.advance k = absentOption s := by
  rw [hp]
  rfl

theorem exec_mulDiv_absent (hg : i.gate = .mulDiv) (hp : s.cfg.hasMd = false) : exec i s = absentOption s := by
  cases i with
  | mpy | mpr | mpa | dvd | dvr | dvs => exact withOption_absent hp _
  | _ => cases hg

theorem exec_floating_absent (hg : i.gate = .floating) (hp : s.cfg.hasFp = false) : exec i s = absentOption s := by
  cases i with
  | bfp0 | bfp1 | bfp2 | bfp3 | bfp4 | bfp5 => exact withOption_absent hp _
  | float | fix | fad | fsb | fmpy | fdvd | lfp | sfp => exact withOption_absent hp _
  | _ => cases hg

/-- An order of an absent option is refused in executive mode, and in user mode an entry from the state after it, or a fault
(60_exceptions.md R414, R440, R441). -/
theorem absentOption_answers (hm : s.mem.wf) (hc : s.cfg.wf) :
    (s.executive = true → absentOption s = .refused .optionAbsent) ∧
    (s.executive = false → s.SaveAreaFits → ∃ t, absentOption s = .next t ∧ Entered s.advance t s.cfg.vecVol) ∧
    (s.executive = false → ¬s.SaveAreaFits → absentOption s = .fault .saveArea) := by
  have user : s.executive = false → absentOption s = enterTrap s.cfg.vecVol s.advance := fun he =>
    if_neg (Bool.eq_false_iff.mp he)
  refine ⟨fun he => if_pos he, fun he hf => ?_, fun he hf => (user he).trans (enterTrap_fault s.cfg.vecVol hf)⟩
  obtain ⟨t, ht, entered, _⟩ := enterTrap_entered s.advance s.cfg.vecVol hm hc hf
  exact ⟨t, (user he).trans ht, entered⟩

end

/-- Settles O46: every order listed stands behind the gate of its option, and shut it leaves only the entry or the refusal. -/
theorem absentOptions : Obligations.AbsentOptions := by
  intro s x m n d hm hc u e he hp r hr
  have absent : r = absentOption s := by
    simp only [List.mem_cons, List.not_mem_nil, or_false] at he
    rcases he with rfl | rfl
    · obtain ⟨i, hi, rfl⟩ := List.mem_map.mp hr
      refine exec_mulDiv_absent ?_ hp
      revert i
      simp [Instr.gate]
    · rcases List.mem_cons.mp hr with rfl | hr
      · exact withOption_absent hp _
      · obtain ⟨i, hi, rfl⟩ := List.mem_map.mp hr
        refine exec_floating_absent ?_ hp
        revert i
        simp [Instr.gate]
  rw [absent]
  exact absentOption_answers hm hc

end Sys2Proof.Machine
end

section
/-! Proofs of the family 41_fixed_point, first part: the transfers, the adder and the logical unit (41_fixed_point.md R160 to
R200). An order writes its register, or stores its word and leaves the rest of the advanced state (`OnlyStored`), and then
writes its flags; what the flags say is `adder_exact`. Each statement lists the orders of one family, and each order runs as
its family does. -/

namespace Sys2Proof.Machine

section
variable {s t u : State} {x : RegIx} {m : ModIx} {n : BitVec 12} {w : Word}

/-! ### Orders that store one word -/

/-- An order that has only stored has moved on, and has kept everything but registers, memory, PC and PIP. -/
theorem OnlyStored.moves_on (h : OnlyStored s u) :
    MovesOn s u ∧ { u with regs := s.regs, mem := s.mem, pc := s.pc, pip := s.pip } = s :=
  ⟨⟨congrArg State.pc h, congrArg State.pip h⟩, congrArg (fun v : State => { v with pc := s.pc, pip := s.pip }) h⟩

/-! ### The adder's flags -/

/-- The adder's flags are C, V and the overflow event in SR64. -/
theorem adderFlags_frame (s : State) (r : Sum) :
    { s.adderFlags r with c := s.c, v := s.v, sr64 := s.sr64 } = s :=
  congrArg (fun v : State => { v with c := s.c }) (setVIf_frame (s.setC r.carry) r.overflow)

theorem Stores.adderFlags {ea : Addr} {v : Word} (h : Stores s u ea v) (r : Sum) : Stores s (u.adderFlags r) ea v := by
  simpa only [Stores, State.adderFlags_memRead, State.adderFlags_reg, State.adderFlags_mem] using h

/-- The adder's value and flags are those of the exact result, in a state that has so far only stored (41_fixed_point.md R161,
R163). -/
theorem OnlyStored.adderWrites (h : OnlyStored s u) (a b : Word) (kind : AddKind) (cuse : CarryUse) :
    let r := adder a b kind cuse s.c
    AdderWrites s (u.adderFlags r) r.value a b kind cuse := by
  intro r
  obtain ⟨value, carry, overflow⟩ := adder_exact a b kind cuse s.c
  refine ⟨value, (State.adderFlags_c u r).trans carry, ?_⟩
  have hv : u.v = s.v := by rw [h.eq]; rfl
  have h64 : u.sr64 = s.sr64 := by rw [h.eq]; rfl
  have hcfg : u.cfg = s.cfg := by rw [h.eq]; rfl
  rw [← overflow]
  exact setVIf_notes (t := u.setC r.carry) r.overflow hv h64 hcfg h.executive

/-! ### Adder orders -/

/-- What an adder order leaves whose destination is a register. -/
theorem adderToReg_leaves (x : RegIx) (a b : Word) (kind : AddKind) (cuse : CarryUse) :
    let t := s.advance.adderToReg x (adder a b kind cuse s.c)
    AdderWrites s t (t.reg x) a b kind cuse ∧ (∀ i, i ≠ x → t.reg i = s.reg i) ∧ MovesOn s t ∧
      { t with regs := s.regs, c := s.c, v := s.v, sr64 := s.sr64, pc := s.pc, pip := s.pip } = s := by
  intro t
  let r := adder a b kind cuse s.c
  let u := s.advance.setReg x r.value
  have stored : OnlyStored s u := rfl
  have regs : ∀ i, t.reg i = if i = x then r.value else s.reg i := fun i =>
    (State.adderFlags_reg u r i).trans (State.reg_setReg s.advance x i r.value)
  refine ⟨?_, fun i hi => (regs i).trans (if_neg hi), ⟨State.adderFlags_pc u r, State.adderFlags_pip u r⟩,
    congrArg (fun v : State => { v with regs := s.regs, pc := s.pc, pip := s.pip }) (adderFlags_frame u r)⟩
  rw [regs x, if_pos rfl]
  exact stored.adderWrites a b kind cuse

/-- What an adder order leaves whose destination is the word at EA. -/
theorem adderFlags_leaves {ea : Addr} {a b : Word} {kind : AddKind} {cuse : CarryUse} (stored : OnlyStored s u)
    (h : Stores s u ea (adder a b kind cuse s.c).value) :
    let r := adder a b kind cuse s.c
    let t := u.adderFlags r
    AdderWrites s t r.value a b kind cuse ∧ Stores s t ea r.value ∧ MovesOn s t ∧
      { t with regs := s.regs, mem := s.mem, c := s.c, v := s.v, sr64 := s.sr64, pc := s.pc, pip := s.pip } = s := by
  intro r t
  obtain ⟨⟨hpc, hpip⟩, hrest⟩ := stored.moves_on
  have flags : { t with c := s.c, v := s.v, sr64 := s.sr64 } = { u with c := s.c, v := s.v, sr64 := s.sr64 } :=
    congrArg (fun v : State => { v with c := s.c, v := s.v, sr64 := s.sr64 }) (adderFlags_frame u r)
  refine ⟨stored.adderWrites a b kind cuse, h.adderFlags r,
    ⟨(State.adderFlags_pc u r).trans hpc, (State.adderFlags_pip u r).trans hpip⟩, ?_⟩
  calc { t with regs := s.regs, mem := s.mem, c := s.c, v := s.v, sr64 := s.sr64, pc := s.pc, pip := s.pip }
    _ = { u with regs := s.regs, mem := s.mem, c := s.c, v := s.v, sr64 := s.sr64, pc := s.pc, pip := s.pip } :=
      congrArg (fun v : State => { v with regs := s.regs, mem := s.mem, pc := s.pc, pip := s.pip }) flags
    _ = s := congrArg (fun v : State => { v with c := s.c, v := s.v, sr64 := s.sr64 }) hrest

theorem adderFromWord_runs (h : memRead s (s.operandAddress m n) true = some w) (f : State → Word → Sum) :
    adderFromWord x m n s f = .next (s.advance.adderToReg x (f s.advance w)) := withWord_some h _

theorem adderUpdate_runs (hm : s.mem.wf) (h : memRead s (s.operandAddress m n) true = some w) (f : State → Word → Sum) :
    ∃ u, adderUpdate m n s f = .next (u.adderFlags (f s.advance w)) ∧ OnlyStored s u ∧
      Stores s u (s.operandAddress m n) (f s.advance w).value := by
  obtain ⟨u, hu, hs, hf, _⟩ := updateWord_stores hm h (fun t w => (f t w).value) fun t w u => u.adderFlags (f t w)
  exact ⟨u, hu, hf, hs⟩

theorem adderStore_runs (hm : s.mem.wf) (h : (memRead s (s.operandAddress m n) true).isSome = true) (f : State → Sum) :
    ∃ u, adderStore m n s f = .next (u.adderFlags (f s.advance)) ∧ OnlyStored s u ∧
      Stores s u (s.operandAddress m n) (f s.advance).value := by
  obtain ⟨u, hu, hs, hf, _⟩ := storeWord_stores hm h (fun t => (f t).value) fun u => u.adderFlags (f s.advance)
  exact ⟨u, hu, hf, hs⟩

end

/-- Settles O15: each order answers the advanced state with the adder's result in its register, which `adder_exact` says in
integers. -/
theorem addersToRegister : Obligations.AddersToRegister := by
  intro s x m n w e he d hd hr
  have runs : exec d.1 s = .next (s.advance.adderToReg x (adder e.2.2.1 d.2.1 e.2.2.2.1 e.2.2.2.2 s.c)) := by
    have word : ∀ f, memRead s (s.operandAddress m n) true = some w →
        adderFromWord x m n s f = .next (s.advance.adderToReg x (f s.advance w)) := fun f h => adderFromWord_runs h f
    have literal : ∀ f, True →
        adderFromLiteral x m n s f = .next (s.advance.adderToReg x (f s.advance (s.literal m n))) := fun _ _ => rfl
    revert e d
    simp only [List.forall_mem_cons, List.not_mem_nil, false_imp_iff, implies_true, and_true, exec]
    exact ⟨⟨word _, literal _⟩, ⟨word _, literal _⟩, ⟨word _, literal _⟩, ⟨word _, literal _⟩, ⟨word _, literal _⟩,
      ⟨word _, literal _⟩, ⟨word _, literal _⟩⟩
  exact ⟨_, runs, adderToReg_leaves x _ _ _ _⟩

/-- Settles O16: each order stores the adder's value and then writes its flags; ADS, SBS, ADSC and SBSC read the word they
replace. -/
theorem addersToMemory : Obligations.AddersToMemory := by
  intro s x m n w hm hr e he
  have runs : ∃ u, exec e.1 s = .next (u.adderFlags (adder e.2.1 (s.reg x) e.2.2.1 e.2.2.2 s.c)) ∧ OnlyStored s u ∧
      Stores s u (s.operandAddress m n) (adder e.2.1 (s.reg x) e.2.2.1 e.2.2.2 s.c).value := by
    have update := adderUpdate_runs hm hr
    have store := adderStore_runs hm (by rw [hr]; rfl)
    revert e
    simp only [List.forall_mem_cons, List.not_mem_nil, false_imp_iff, implies_true, and_true, exec]
    exact ⟨update _, store _, update _, store _, update _, store _, update _⟩
  obtain ⟨u, run, stored, hs⟩ := runs
  exact ⟨_, _, run, adderFlags_leaves stored hs⟩

/-! ### Logical orders -/

/-- Each bit of `r` is what `g` makes of the bits of `a` and `b`. -/
def Bitwise (g : Bool → Bool → Bool) (r a b : Word) : Prop :=
  ∀ k, k < 24 → r.getLsbD k = g (a.getLsbD k) (b.getLsbD k)

theorem bitwise_and (a b : Word) : Bitwise and (a &&& b) a b := fun _ _ => BitVec.getLsbD_and

theorem bitwise_or (a b : Word) : Bitwise or (a ||| b) a b := fun _ _ => BitVec.getLsbD_or

theorem bitwise_xor (a b : Word) : Bitwise xor (a ^^^ b) a b := fun _ _ => BitVec.getLsbD_xor

section
variable {s : State} {x : RegIx} {m : ModIx} {n : BitVec 12} {w : Word} {f : Word → Word → Word} {g : Bool → Bool → Bool}

theorem logicFromWord_runs (h : memRead s (s.operandAddress m n) true = some w) (hf : ∀ a b, Bitwise g (f a b) a b) :
    ∃ r, logicFromWord x m n s f = .next ((s.advance.setReg x r).setC false) ∧ Bitwise g r (s.reg x) w :=
  ⟨_, withWord_some h _, hf (s.reg x) w⟩

theorem logicFromLiteral_runs (hf : ∀ a b, Bitwise g (f a b) a b) :
    ∃ r, logicFromLiteral x m n s f = .next ((s.advance.setReg x r).setC false) ∧ Bitwise g r (s.reg x) (s.literal m n) :=
  ⟨_, rfl, hf (s.reg x) (s.literal m n)⟩

theorem logicUpdate_runs (hm : s.mem.wf) (h : memRead s (s.operandAddress m n) true = some w)
    (hf : ∀ a b, Bitwise g (f a b) a b) :
    ∃ u r, logicUpdate x m n s f = .next (u.setC false) ∧ Bitwise g r w (s.reg x) ∧ OnlyStored s u ∧
      Stores s u (s.operandAddress m n) r := by
  obtain ⟨u, hu, hs, hstored, _⟩ := updateWord_stores hm h (fun t w => f w (t.reg x)) fun _ _ u => u.setC false
  exact ⟨u, _, hu, hf w (s.reg x), hstored, hs⟩

end

/-- Settles O17: each order answers the advanced state with the bitwise result in X and C cleared. -/
theorem logicToRegister : Obligations.LogicToRegister := by
  intro s x m n w e he d hd hr
  have runs : ∃ r, exec d.1 s = .next ((s.advance.setReg x r).setC false) ∧ Bitwise e.2.2 r (s.reg x) d.2.1 := by
    revert e d
    simp only [List.forall_mem_cons, List.not_mem_nil, false_imp_iff, implies_true, and_true]
    exact ⟨⟨fun h => logicFromWord_runs h bitwise_and, fun _ => logicFromLiteral_runs bitwise_and⟩,
      ⟨fun h => logicFromWord_runs h bitwise_or, fun _ => logicFromLiteral_runs bitwise_or⟩,
      ⟨fun h => logicFromWord_runs h bitwise_xor, fun _ => logicFromLiteral_runs bitwise_xor⟩⟩
  obtain ⟨r, run, bits⟩ := runs
  have regs : ∀ i, ((s.advance.setReg x r).setC false).reg i = if i = x then r else s.reg i := fun i =>
    State.reg_setReg s.advance x i r
  refine ⟨_, run, ?_, rfl, fun i hi => (regs i).trans (if_neg hi), ⟨rfl, rfl⟩, rfl⟩
  rw [regs x, if_pos rfl]
  exact bits

/-- Settles O18: each order stores the bitwise result and then clears C. -/
theorem logicToMemory : Obligations.LogicToMemory := by
  intro s x m n w hm hr e he
  have runs : ∃ u r, exec e.1 s = .next (u.setC false) ∧ Bitwise e.2 r w (s.reg x) ∧ OnlyStored s u ∧
      Stores s u (s.operandAddress m n) r := by
    revert e
    simp only [List.forall_mem_cons, List.not_mem_nil, false_imp_iff, implies_true, and_true]
    exact ⟨logicUpdate_runs hm hr bitwise_and, logicUpdate_runs hm hr bitwise_or, logicUpdate_runs hm hr bitwise_xor⟩
  obtain ⟨u, r, run, bits, stored, hs⟩ := runs
  obtain ⟨moves, rest⟩ := stored.moves_on
  exact ⟨_, r, run, bits, hs, rfl, moves, congrArg (fun v : State => { v with c := s.c }) rest⟩

/-! ### Transfers and tests -/

/-- Settles O14: a load answers the advanced state with its register written, and a store the one with its word written. -/
theorem plainTransfers : Obligations.PlainTransfers := by
  intro s x m n
  have load : ∀ w, memRead s (s.operandAddress m n) true = some w → execLdx x m n s = .next (s.advance.setReg x w) :=
    fun w h => withWord_some h _
  refine ⟨load, rfl, rfl, fun hm hr e he => ?_⟩
  have runs : ∃ u, exec e.1 s = .next u ∧ Stores s u (s.operandAddress m n) e.2 ∧ OnlyStored s u := by
    have store : ∀ value, ∃ u, storeWord m n s value (fun u => u) = .next u ∧
        Stores s u (s.operandAddress m n) (value s.advance) ∧ OnlyStored s u := fun value => by
      obtain ⟨u, hu, hs, hf, _⟩ := storeWord_stores hm hr value fun u => u
      exact ⟨u, hu, hs, hf⟩
    revert e
    simp only [List.forall_mem_cons, List.not_mem_nil, false_imp_iff, implies_true, and_true, exec]
    exact ⟨store _, store _⟩
  obtain ⟨u, run, hs, stored⟩ := runs
  exact ⟨u, run, hs, stored.moves_on⟩

/-- Settles O19: both orders read the word at EA and write C, and the comparisons are those of the words' values. -/
theorem testOrders : Obligations.TestOrders := by
  intro s x m n w h
  have differ : (s.reg x ≠ w) ↔ ((s.reg x).toNat ≠ w.toNat) := not_congr BitVec.toNat_inj.symm
  have carry : s.c.toInt = if s.c then 1 else 0 := by cases s.c <;> rfl
  constructor
  · rw [← decide_eq_decide.mpr differ]
    show execTxu x m n s = _
    exact withWord_some h _
  · rw [← carry]
    show execTxl x m n s = _
    exact withWord_some h _

end Sys2Proof.Machine
end

section
/-! Proofs of the family 41_fixed_point, second part: which instructions store (41_fixed_point.md R160, R197; 42_char_shift_misc.md
R213, R215 to R217, R240 to R242; 44_float.md R305, R307). The storing orders are listed, and every other instruction is shown
to leave memory as it was, family by family. -/

namespace Sys2Proof

/-- The orders that write operands to memory: the store orders, CBD, the two block moves, FIX and SFP. -/
def Instr.stores (i : Instr) : Bool :=
  match i with
  | .sto .. | .ads .. | .ngs .. | .sbs .. | .stoc .. | .adsc .. | .ngsc .. | .sbsc .. => true
  | .ands .. | .ors .. | .ers .. | .stoz .. | .dch .. | .dex .. | .dsa .. | .dla .. => true
  | .cbd .. | .mvch .. | .move .. | .fix .. | .sfp .. => true
  | _ => false

theorem functionCode_of_stores {i : Instr} {k : ExecCodes} (h : i.stores = true) :
    let f := i.functionCode k
    (0o10 ≤ f ∧ f ≤ 0o17) ∨ (0o30 ≤ f ∧ f ≤ 0o37) ∨ f = 0o47 ∨ f = 0o116 ∨ f = 0o126 ∨ f = 0o131 ∨ f = 0o137 := by
  cases i <;> simp [Instr.stores, functionCode_eq, encode] at h ⊢

end Sys2Proof

namespace Sys2Proof.Machine

/-- A result that, where it is a next state in the mode of `s`, has the memory of `s`. A voluntary entry stores its context, and
it changes the mode. -/
def KeepsMemory (s : State) (r : Result) : Prop := ∀ t, r = .next t → t.executive = s.executive → t.mem = s.mem

section
variable {s t u : State} {x : RegIx} {m : ModIx} {n : BitVec 12} {d : BitVec 15}

/-! ### Shared operations -/

theorem keepsMemory_next (h : t.mem = s.mem) : KeepsMemory s (.next t) := fun _ ht _ => by cases ht; exact h

theorem keepsMemory_refused (r : Refusal) : KeepsMemory s (.refused r) := fun _ ht => by cases ht

theorem keepsMemory_abort (h : u.mem = s.mem) : KeepsMemory s (abort u) := fun _ ht _ => by
  obtain ⟨_, rfl⟩ := abort_next ht
  exact h

theorem keepsMemory_voluntaryEntry (h : s.executive = false) : KeepsMemory s (voluntaryEntry u) := fun _ ht he => by
  rw [(voluntaryEntry_leaves ht).1, h] at he
  cases he

theorem keepsMemory_withWord {k : State → Word → Result} (hk : ∀ w, KeepsMemory s (k s.advance w)) :
    KeepsMemory s (withWord m n s k) := fun t ht => by
  rcases withWord_next ht with ⟨w, _, ht⟩ | ⟨_, ht⟩
  · exact hk w t ht
  · exact keepsMemory_abort (u := s.advance) rfl t ht

theorem keepsMemory_withPair {k : State → Word → Word → Result} (hk : ∀ w₀ w₁, KeepsMemory s (k s.advance w₀ w₁)) :
    KeepsMemory s (withPair m n s k) := fun t ht => by
  rcases withPair_next ht with ⟨w₀, w₁, _, _, ht⟩ | ht
  · exact hk w₀ w₁ t ht
  · exact keepsMemory_abort (u := s.advance) rfl t ht

theorem keepsMemory_takeIf {c : Bool} {a : Addr} (h : u.mem = s.mem) : KeepsMemory s (takeIf c a u) := fun _ ht _ => by
  rw [takeIf_next ht]
  exact h

theorem keepsMemory_withOption {present : Bool} {k : Result} (hk : KeepsMemory s k) :
    KeepsMemory s (withOption present s.advance k) := fun t ht => by
  rcases withOption_next ht with ⟨_, ht⟩ | ⟨_, hu, ht⟩
  · exact hk t ht
  · exact keepsMemory_voluntaryEntry hu t ht

theorem keepsMemory_privileged {k : Result} (hk : KeepsMemory s k) : KeepsMemory s (privileged s.advance k) := fun t ht => by
  rcases privileged_next ht with ⟨_, ht⟩ | ⟨hu, ht⟩
  · exact hk t ht
  · exact keepsMemory_voluntaryEntry hu t ht

/-! ### Families of orders -/

theorem keepsMemory_adderToReg (x : RegIx) (r : Sum) : KeepsMemory s (.next (s.advance.adderToReg x r)) :=
  keepsMemory_next (State.adderToReg_mem s.advance x r)

theorem keepsMemory_adderFromWord {f : State → Word → Sum} : KeepsMemory s (adderFromWord x m n s f) :=
  keepsMemory_withWord fun _ => keepsMemory_adderToReg _ _

theorem keepsMemory_logicFromWord {f : Word → Word → Word} : KeepsMemory s (logicFromWord x m n s f) :=
  keepsMemory_withWord fun _ => keepsMemory_next rfl

theorem keepsMemory_cdb : KeepsMemory s (execCdb x m n s) := keepsMemory_withWord fun w => by
  dsimp only
  split
  · exact keepsMemory_next rfl
  · exact keepsMemory_next (State.setVIf_mem s.advance _)

theorem keepsMemory_multiplyOrder {op : MdOp} {f : State → Word → Int} : KeepsMemory s (multiplyOrder op x m n s f) :=
  keepsMemory_withOption (keepsMemory_withWord fun _ => keepsMemory_next (State.setVIf_mem s.advance _))

theorem keepsMemory_divideOrder {op : MdOp} {a : State → Int} {q : Int → Int → Int} :
    KeepsMemory s (divideOrder op x m n s a q) := by
  refine keepsMemory_withOption (keepsMemory_withWord fun w => ?_)
  dsimp only
  split
  · exact keepsMemory_next (State.setV_mem _)
  · exact keepsMemory_next rfl

theorem keepsMemory_branchOnFlag {test : State → Bool} {after : State → State} (h : (after s.advance).mem = s.mem) :
    KeepsMemory s (branchOnFlag d s test after) := keepsMemory_takeIf h

theorem keepsMemory_countAndBranch {f : Word → Word} {count : Word → Bool} :
    KeepsMemory s (countAndBranch x d s f count) := by
  unfold countAndBranch
  split
  · exact keepsMemory_refused _
  · exact keepsMemory_takeIf rfl

theorem keepsMemory_obey : KeepsMemory s (execObey x m n s) := by
  unfold execObey
  split
  · exact keepsMemory_abort rfl
  · exact keepsMemory_next rfl

theorem keepsMemory_sum : KeepsMemory s (execSum x m n s) := by
  unfold execSum
  split
  · exact keepsMemory_abort rfl
  · exact keepsMemory_next rfl

theorem keepsMemory_floatOrder {k : Result} (hk : KeepsMemory s k) : KeepsMemory s (floatOrder x s k) := by
  refine keepsMemory_withOption ?_
  split
  · exact hk
  · exact keepsMemory_refused _

theorem keepsMemory_rsr : KeepsMemory s (execRsr x m n s) := by
  refine keepsMemory_privileged ?_
  split_ifs <;> exact keepsMemory_next rfl

theorem keepsMemory_wsr : KeepsMemory s (execWsr x m n s) := by
  refine keepsMemory_privileged ?_
  split_ifs <;> exact keepsMemory_next rfl

theorem keepsMemory_restore (h : u.mem = s.mem) : KeepsMemory s (restore u) := fun _ ht _ => by
  obtain ⟨_, rfl⟩ := restore_next ht
  exact h

end

/-- An instruction that is no storing order keeps memory, unless it is an entry. -/
theorem exec_keepsMemory {i : Instr} {s : State} (hi : i.stores = false) : KeepsMemory s (exec i s) := by
  unfold exec
  cases i with
  | andx | orx | erx => exact keepsMemory_logicFromWord
  | ldx | ldch | ldex | txu | txl | smo =>
    refine keepsMemory_withWord fun w => ?_
    exact keepsMemory_next rfl
  | ldn | andn | orn | ern | null | ldct | mode => exact keepsMemory_next rfl
  | adx | ngx | sbx | ldxc | adxc | ngxc | sbxc => exact keepsMemory_adderFromWord
  | adn | ngn | sbn | ldnc | adnc | ngnc | sbnc => exact keepsMemory_adderToReg _ _
  | obey => exact keepsMemory_obey
  | mpy | mpr | mpa => exact keepsMemory_multiplyOrder
  | dvd | dvr | dvs => exact keepsMemory_divideOrder
  | cdb => exact keepsMemory_cdb
  | bze | bnz | bpz | bng => exact keepsMemory_takeIf rfl
  | brn | bvs | bvsr | bvc | bvcr | bcs | bcc | bvci => exact keepsMemory_branchOnFlag rfl
  | bfp0 | bfp1 | bfp2 | bfp3 | bfp4 | bfp5 => exact keepsMemory_withOption (keepsMemory_branchOnFlag rfl)
  | bux | bdx | bchx | bct => exact keepsMemory_countAndBranch
  | call | exit => exact keepsMemory_takeIf (c := true) rfl
  | slc | sll | sla | src | srl | sra => exact keepsMemory_next (State.setVIf_mem _ _)
  | slcd | slld | slad | srcd | srld | srad => exact keepsMemory_next (State.setVIf_mem _ _)
  | norm | normd => exact keepsMemory_refused _
  | sum => exact keepsMemory_sum
  | float | fad | fsb | fmpy | fdvd | lfp =>
    exact keepsMemory_floatOrder (keepsMemory_withPair fun _ _ => keepsMemory_next rfl)
  | rsr => exact keepsMemory_rsr
  | wsr => exact keepsMemory_wsr
  | exx => exact keepsMemory_privileged (keepsMemory_restore rfl)
  | ldl | ldm | tdl | peri | search => exact keepsMemory_privileged (keepsMemory_next rfl)
  | xferIn | xferOut => exact keepsMemory_privileged (keepsMemory_refused _)
  | _ => cases hi

/-- Settles O60: an instruction that changes memory and keeps the mode is no order that keeps memory, and the codes listed are
those of the storing orders. -/
theorem onlyStoringOrdersStore : Obligations.OnlyStoringOrdersStore := by
  intro i s t h he hm
  cases hi : i.stores with
  | true => exact functionCode_of_stores hi
  | false => exact absurd (exec_keepsMemory hi t h he) hm

end Sys2Proof.Machine
end

section
/-! Proofs of the family 42_char_shift_misc, first part: characters and fields, MODE and LDCT, and the decimal conversions
(42_char_shift_misc.md R210 to R217, R237 to R240, R244). An order writes a register of the advanced state, or stores one word
and leaves the rest of the advanced state; its value is then a matter of the word's fields as numbers. -/

namespace Sys2Proof.Machine

section
variable {s : State} {m : ModIx} {n : BitVec 12} {w : Word}

/-! ### Characters and fields -/

/-- The character a lane operand names, as a word. -/
theorem charOf_lane_setWidth (s : State) (m : ModIx) (w : Word) :
    (charOf w (s.lane m)).setWidth 24 = BitVec.ofNat 24 (laneValue w (s.laneNumber m)) := by
  rw [← lane_toNat, ← charOf_toNat, BitVec.ofNat_toNat]

/-- The low bits of a word, as a word. -/
theorem lowField_setWidth (k : Nat) (w : Word) :
    (w.extractLsb' 0 k).setWidth 24 = BitVec.ofNat 24 (w.toNat % 2 ^ k) := by
  have field : (w.extractLsb' 0 k).toNat = w.toNat % 2 ^ k := by rw [toNat_field, pow_zero, Nat.div_one]
  rw [← field, BitVec.ofNat_toNat]

/-- The low bits of one word in place of those of another. -/
theorem depositLow_toNat {l k : Nat} (hlk : l + k = 24) (w a : Word) :
    (w.extractLsb' k l ++ a.extractLsb' 0 k).toNat = w.toNat / 2 ^ k * 2 ^ k + a.toNat % 2 ^ k := by
  have high : w.toNat / 2 ^ k < 2 ^ l := by
    rw [Nat.div_lt_iff_lt_mul (by positivity), ← pow_add, hlk]
    exact w.isLt
  rw [toNat_append, toNat_field, toNat_field, Nat.mod_eq_of_lt high, pow_zero, Nat.div_one]

/-- An order that puts a value in place of the word at EA and writes nothing else. -/
theorem updateWord_leaves (hm : s.mem.wf) (h : memRead s (s.operandAddress m n) true = some w)
    (value : State → Word → Word) :
    ∃ t, updateWord m n s value (fun _ _ u => u) = .next t ∧ Stores s t (s.operandAddress m n) (value s.advance w) ∧
      MovesOn s t ∧ { t with regs := s.regs, mem := s.mem, pc := s.pc, pip := s.pip } = s := by
  obtain ⟨t, ht, hs, stored, _⟩ := updateWord_stores hm h value fun _ _ u => u
  have stored : OnlyStored s t := stored
  exact ⟨t, ht, hs, stored.moves_on⟩

end

/-- Settles O20: a load answers the advanced state with the field in X, and a deposit stores the word with the field replaced. -/
theorem characterAndFieldOrders : Obligations.CharacterAndFieldOrders := by
  intro s x m n w hm hr
  refine ⟨?_, ?_, fun e he => ?_⟩
  · rw [← charOf_lane_setWidth]
    show execLdch x m n s = _
    exact withWord_some hr _
  · rw [← lowField_setWidth]
    show execLdex x m n s = _
    exact withWord_some hr _
  · have deposit : ∃ value, exec e.1 s = updateWord m n s value (fun _ _ u => u) ∧ e.2 (value s.advance w) := by
      revert e
      simp only [List.forall_mem_cons, List.not_mem_nil, false_imp_iff, implies_true, and_true, exec]
      refine ⟨⟨_, rfl, fun k hk => ?_⟩, ⟨_, rfl, ?_⟩, ⟨_, rfl, ?_⟩, ⟨_, rfl, ?_⟩⟩
      · rw [setChar_lane _ _ _ _ hk, lane_toNat, toNat_field, pow_zero, Nat.div_one]
        rfl
      · exact depositLow_toNat (l := 15) (k := 9) rfl w (s.reg x)
      · exact depositLow_toNat (l := 12) (k := 12) rfl w (s.reg x)
      · exact depositLow_toNat (l := 9) (k := 15) rfl w (s.reg x)
    obtain ⟨value, run, field⟩ := deposit
    obtain ⟨t, ht, leaves⟩ := updateWord_leaves hm hr value
    exact ⟨t, _, run.trans ht, field, leaves⟩

/-! ### MODE and LDCT -/

/-- The lowest bit of an address, as a number. -/
theorem getLsbD_zero_eq_decide (a : Addr) : a.getLsbD 0 = decide (a.toNat % 2 = 1) := by
  rw [BitVec.getLsbD, Nat.testBit_zero]

/-- The count field of LDCT, as a word. -/
theorem countField_eq (a : Addr) : (a.extractLsb' 0 9 ++ 0#15 : Word) = BitVec.ofNat 24 (a.toNat % 512 * 2 ^ 15) := by
  apply BitVec.eq_of_toNat_eq
  refine (toNat_append _ _).trans ?_
  rw [toNat_field, BitVec.toNat_ofNat, BitVec.toNat_ofNat]
  omega

/-- Settles O23: MODE writes ZS alone in the advanced state, and LDCT writes X. -/
theorem modeAndLoadCount : Obligations.ModeAndLoadCount := by
  intro s x m n
  constructor
  · refine ⟨_, rfl, ?_, State.setZs_ejm s.advance _, State.setZs_datum s.advance _, State.setZs_am22 s.advance _,
      State.setZs_trace s.advance _, ⟨rfl, rfl⟩, rfl⟩
    exact (State.setZs_zs s.advance _).trans (getLsbD_zero_eq_decide _)
  · rw [← countField_eq]
    rfl

/-! ### Decimal conversion -/

section
variable {s : State} {x : RegIx} {m : ModIx} {n : BitVec 12} {w : Word}

/-- CDB of a readable word, the character as a number (42_char_shift_misc.md R239). -/
theorem exec_cdb (h : memRead s (s.operandAddress m n) true = some w) :
    exec (.cdb x m n) s =
      if 9 < laneValue w (s.laneNumber m) then .next (s.advance.setC true)
      else
        let d := s.doubleLength x * 10 + laneValue w (s.laneNumber m)
        .next (((s.advance.setVIf (overflows47 d)).writeDoubleLength x d).setC false) := by
  rw [← lane_toNat, ← charOf_toNat]
  show execCdb x m n s = _
  exact withWord_some h _

/-- A double-length integer written where an overflow has been noted, and C cleared: what it leaves of `s`. -/
theorem writeDoubleLength_leaves (s : State) (x : RegIx) (d : Int) (b : Bool) :
    let t := ((s.advance.setVIf b).writeDoubleLength x d).setC false
    t.doubleLength x = d.bmod (2 ^ 47) ∧ (t.reg (x + 1)).getLsbD 23 = false ∧ t.c = false ∧ NotesOverflow s t b ∧
      (∀ i, i ≠ x → i ≠ x + 1 → t.reg i = s.reg i) ∧ MovesOn s t ∧
      { t with regs := s.regs, c := s.c, v := s.v, sr64 := s.sr64, pc := s.pc, pip := s.pip } = s := by
  intro t
  obtain ⟨value, low, others, _⟩ := writeDoubleLength_spec (s.advance.setVIf b) x d
  have notes : NotesOverflow s (s.advance.setVIf b) b := setVIf_notes b rfl rfl rfl rfl
  refine ⟨value, low, rfl, notes, fun i h₁ h₂ => ?_, ⟨State.setVIf_pc s.advance b, State.setVIf_pip s.advance b⟩, ?_⟩
  · exact (others i h₁ h₂).trans (State.setVIf_reg s.advance b i)
  · exact congrArg (fun v : State => { v with regs := s.regs, c := s.c, pc := s.pc, pip := s.pip })
      (setVIf_frame s.advance b)

end

/-- Settles O24: CDB is its two cases, and the digit's case writes a double-length integer. -/
theorem decimalToBinary : Obligations.DecimalToBinary := by
  intro s x m n w hr ch d
  have run := exec_cdb (x := x) hr
  refine ⟨fun hch => run.trans (if_pos hch), fun hch => ⟨_, run.trans (if_neg (Nat.not_lt.mpr hch)), ?_⟩⟩
  rw [Bool.decide_or]
  exact writeDoubleLength_leaves s x d _

/-- Writing ZS leaves the other mode bits. -/
theorem setZs_mode_low (s : State) (b : Bool) : (s.setZs b).mode.extractLsb' 0 4 = s.mode.extractLsb' 0 4 := by
  have mode : (s.setZs b).mode.toNat = (BitVec.ofBool b).toNat * 2 ^ 4 + (s.mode.extractLsb' 0 4).toNat :=
    toNat_append _ _
  apply BitVec.eq_of_toNat_eq
  rw [toNat_field, mode, toNat_field]
  omega

/-- A register written, an access that does not go to it reads as before. -/
theorem memRead_setReg_other {s : State} {a : Addr} {o : Bool} {i : RegIx} {v : Word} (h : access s a o ≠ .reg i) :
    memRead (s.setReg i v) a o = memRead s a o := by
  rw [memRead_eq, memRead_eq, State.setReg_access]
  cases hx : access s a o with
  | reg j => exact congrArg some ((State.reg_setReg s i j v).trans (if_neg fun e => h (by rw [hx, e])))
  | mem p => rfl
  | violation => rfl

theorem setZs_memRead (s : State) (b : Bool) (a : Addr) (o : Bool) : memRead (s.setZs b) a o = memRead s a o := by
  have goes : access (s.setZs b) a o = access s a o :=
    access_congr (s := s) (t := s.setZs b) rfl rfl (State.setZs_datum s b) (State.setZs_am22 s b) rfl rfl a o
  rw [memRead_eq, memRead_eq, goes]
  rfl

/-- The character CBD deposits, as a number (42_char_shift_misc.md R240). -/
theorem digitChar_toNat (s : State) {d : Nat} (hd : d < 64) :
    (s.digitChar d).toNat = if s.zs = true ∧ d = 0 then s.cfg.spaceChar.toNat else d := by
  unfold State.digitChar
  simp only [Bool.and_eq_true, decide_eq_true_eq]
  split
  · rfl
  · rw [BitVec.toNat_ofNat, Nat.mod_eq_of_lt hd]

/-- What CBD writes after its character, from ten times the fraction: the fraction that is left in X, and ZS cleared where the
digit is not 0 (42_char_shift_misc.md R240). -/
def State.keepFraction (u : State) (x : RegIx) (p : Nat) : State :=
  if p / 2 ^ 23 = 0 then u.setReg x (BitVec.ofNat 24 (p % 2 ^ 23))
  else (u.setReg x (BitVec.ofNat 24 (p % 2 ^ 23))).setZs false

section
variable (u : State) (x : RegIx) (p : Nat)

theorem keepFraction_mem : (u.keepFraction x p).mem = u.mem := by
  unfold State.keepFraction
  split <;> rfl

theorem keepFraction_reg (i : RegIx) :
    (u.keepFraction x p).reg i = if i = x then BitVec.ofNat 24 (p % 2 ^ 23) else u.reg i := by
  rw [← State.reg_setReg]
  unfold State.keepFraction
  split <;> rfl

/-- ZS is kept by a digit 0 and cleared by any other. -/
theorem keepFraction_zs : (u.keepFraction x p).zs = (u.zs && decide (p / 2 ^ 23 = 0)) := by
  unfold State.keepFraction
  split
  · rename_i h
    rw [decide_eq_true h, Bool.and_true]
    rfl
  · rename_i h
    rw [decide_eq_false h, Bool.and_false]
    exact State.setZs_zs _ _

theorem keepFraction_mode_low : (u.keepFraction x p).mode.extractLsb' 0 4 = u.mode.extractLsb' 0 4 := by
  unfold State.keepFraction
  split
  · rfl
  · exact setZs_mode_low _ _

/-- Where the access is not to X, the word there is as before. -/
theorem keepFraction_memRead {a : Addr} {o : Bool} (h : access u a o ≠ .reg x) :
    memRead (u.keepFraction x p) a o = memRead u a o := by
  unfold State.keepFraction
  split
  · exact memRead_setReg_other h
  · exact (setZs_memRead _ _ a o).trans (memRead_setReg_other h)

end

/-- After a store, an order that keeps the fraction has moved on, and has written registers, memory and the mode byte alone. -/
theorem keepFraction_leaves {s u : State} (h : OnlyStored s u) (x : RegIx) (p : Nat) :
    MovesOn s (u.keepFraction x p) ∧
      { u.keepFraction x p with regs := s.regs, mem := s.mem, mode := s.mode, pc := s.pc, pip := s.pip } = s := by
  obtain ⟨moves, rest⟩ := h.moves_on
  have rest := congrArg (fun v : State => { v with mode := s.mode }) rest
  unfold State.keepFraction
  split <;> exact ⟨moves, rest⟩

/-- CBD of a readable word: it stores the character and then keeps the fraction. -/
theorem exec_cbd {s : State} {m : ModIx} {n : BitVec 12} {w : Word} (hm : s.mem.wf)
    (h : memRead s (s.operandAddress m n) true = some w) (x : RegIx) :
    ∃ u, exec (.cbd x m n) s = .next (u.keepFraction x (s.tenfold x)) ∧
      Stores s u (s.operandAddress m n) (setChar w (s.lane m) (s.digitChar (s.tenfold x / 2 ^ 23))) ∧ OnlyStored s u := by
  obtain ⟨u, run, stores, stored, _⟩ := updateWord_stores hm h
    (fun t w => setChar w (s.lane m) (t.digitChar (t.tenfold x / 2 ^ 23))) fun t _ u => u.keepFraction x (t.tenfold x)
  exact ⟨u, run, stores, stored⟩

/-- Settles O25: CBD stores the word with the character in its lane and then keeps the fraction, which is written last. -/
theorem binaryToDecimal : Obligations.BinaryToDecimal := by
  intro s x m n w hm hr p d ch
  have tenfold : s.tenfold x = p := by
    unfold State.tenfold
    rw [toNat_field, pow_zero, Nat.div_one]
  have digit : d < 64 := by omega
  obtain ⟨u, run, ⟨reads, regs, words⟩, stored⟩ := exec_cbd hm hr x
  rw [tenfold] at run reads
  have goes : access u (s.operandAddress m n) true = access s (s.operandAddress m n) true :=
    access_frame stored.moves_on.2 _ _
  have mode : u.mode = s.mode := by
    rw [stored.eq]
    rfl
  refine ⟨_, setChar w (s.lane m) (s.digitChar d), run, fun k hk => ?_, fun hx => ?_, ?_, fun i hi hx => ?_, fun q hq => ?_,
    ?_, ?_, keepFraction_leaves stored x p⟩
  · rw [setChar_lane _ _ _ _ hk, lane_toNat, digitChar_toNat s digit]
  · rw [keepFraction_memRead u x p (goes ▸ hx), reads]
  · rw [keepFraction_reg, if_pos rfl, BitVec.toNat_ofNat]
    omega
  · rw [keepFraction_reg, if_neg hi, regs i hx]
  · rw [keepFraction_mem, words q hq]
  · rw [keepFraction_zs]
    unfold State.zs
    rw [mode]
  · rw [keepFraction_mode_low, mode]

end Sys2Proof.Machine
end

section
/-! Proofs of the family 42_char_shift_misc, second part: the shifts (42_char_shift_misc.md R220 to R236). Each of the six kinds
of shift has its closed form on a bit string of any width above 1; a shift order applies it to X or to the pair. -/

namespace Sys2Proof.Machine

/-- The closed form of a shift by `c` places: the value, and whether it overflows (42_char_shift_misc.md R225 to R236). -/
def shiftForm {w : Nat} (dir : ShiftDir) (mode : ShiftMode) (v : BitVec w) (c : Nat) : BitVec w × Bool :=
  match dir, mode with
  | .left, .circular => (v.rotateLeft c, false)
  | .left, .logical => (v <<< c, false)
  | .left, .arithmetic => (v <<< c, signChanges v c)
  | .right, .circular => (v.rotateRight c, false)
  | .right, .logical => (v >>> c, false)
  | .right, .arithmetic => (v.sshiftRight c, false)

/-- The steps of R221, repeated, come to the closed form. -/
theorem shift_eq_shiftForm {w : Nat} (hw : 1 < w) (dir : ShiftDir) (mode : ShiftMode) (v : BitVec w) (c : Nat) :
    shift dir mode c v = shiftForm dir mode v c :=
  match dir, mode with
  | .left, .circular => Prod.ext (shift_left_circular hw c v) (shift_no_overflow (by decide) c v)
  | .left, .logical => Prod.ext (shift_left_value (by decide) c v) (shift_no_overflow (by decide) c v)
  | .left, .arithmetic => Prod.ext (shift_left_value (by decide) c v) (shift_overflow c v)
  | .right, .circular => Prod.ext (shift_right_circular hw c v) (shift_no_overflow (by decide) c v)
  | .right, .logical => Prod.ext (shift_right_logical c v) (shift_no_overflow (by decide) c v)
  | .right, .arithmetic => Prod.ext (shift_right_arithmetic (by omega) c v) (shift_no_overflow (by decide) c v)

section
variable {s u : State}

/-- The count of a shift does not depend on its submode, nor on the active width (42_char_shift_misc.md R220). -/
theorem shiftCount_eq (s : State) (mode : ShiftMode) (m : ModIx) (n : BitVec 10) :
    s.shiftCount mode.field m n = s.countOfShift m n := by
  have field : (mode.field ++ n : BitVec 12).toNat = mode.field.toNat * 2 ^ 10 + n.toNat := toNat_append _ _
  unfold State.shiftCount State.countOfShift
  rw [toNat_field, operandAddress_toNat, field]
  split <;> omega

/-- Noting an overflow in an order that has so far written registers alone: what it leaves of `s`. -/
theorem setVIf_leaves (hu : { u with regs := s.regs } = s.advance) (b : Bool) :
    NotesOverflow s (u.setVIf b) b ∧ MovesOn s (u.setVIf b) ∧
      { u.setVIf b with regs := s.regs, v := s.v, sr64 := s.sr64, pc := s.pc, pip := s.pip } = s := by
  have eq : u = { s.advance with regs := u.regs } := congrArg (fun t : State => { t with regs := u.regs }) hu
  generalize u.regs = regs at eq
  subst eq
  refine ⟨setVIf_notes b rfl rfl rfl rfl, ⟨State.setVIf_pc _ b, State.setVIf_pip _ b⟩, ?_⟩
  exact congrArg (fun t : State => { t with regs := s.regs, pc := s.pc, pip := s.pip })
    (setVIf_frame { s.advance with regs := regs } b)

/-- A single-length shift order: the shift of X in X, and its overflow noted. -/
theorem shiftSingle_leaves (dir : ShiftDir) (mode : ShiftMode) (s : State) (x : RegIx) (m : ModIx) (n : BitVec 10) :
    let r := shiftForm dir mode (s.reg x) (s.countOfShift m n)
    ∃ t, shiftSingle dir mode x m n s = .next t ∧ t.reg x = r.1 ∧ NotesOverflow s t r.2 ∧
      (∀ i, i ≠ x → t.reg i = s.reg i) ∧ MovesOn s t ∧
      { t with regs := s.regs, v := s.v, sr64 := s.sr64, pc := s.pc, pip := s.pip } = s := by
  intro r
  have run : shiftSingle dir mode x m n s = .next ((s.advance.setReg x r.1).setVIf r.2) := by
    unfold shiftSingle
    rw [shiftCount_eq, shift_eq_shiftForm (by decide)]
    rfl
  have regs : ∀ i, ((s.advance.setReg x r.1).setVIf r.2).reg i = if i = x then r.1 else s.reg i := fun i =>
    (State.setVIf_reg _ r.2 i).trans (State.reg_setReg s.advance x i r.1)
  obtain ⟨notes, moves, rest⟩ := setVIf_leaves (s := s) (u := s.advance.setReg x r.1) rfl r.2
  exact ⟨_, run, (regs x).trans (if_pos rfl), notes, fun i hi => (regs i).trans (if_neg hi), moves, rest⟩

/-- The registers of a state with both registers of a pair written; the second, `x + 1`, last. -/
theorem setReg_pair_reg (s : State) (x : RegIx) (v w : Word) (i : RegIx) :
    ((s.setReg x v).setReg (x + 1) w).reg i = if i = x + 1 then w else if i = x then v else s.reg i := by
  rw [State.reg_setReg, State.reg_setReg]

/-- A pair written reads back. -/
theorem setPair_pair (s : State) (x : RegIx) (d : BitVec 48) : (s.setPair x d).pair x = d := by
  have halves : (d.extractLsb' 24 24 ++ d.extractLsb' 0 24 : BitVec 48).toNat = d.toNat := by
    refine (toNat_append _ _).trans ?_
    rw [toNat_field, toNat_field]
    omega
  unfold State.pair State.setPair
  rw [setReg_pair_reg, setReg_pair_reg, if_neg (ne_add_one x), if_pos rfl, if_pos rfl]
  exact BitVec.eq_of_toNat_eq halves

/-- A double-length shift order: the shift of the pair in the pair, and its overflow noted. -/
theorem shiftDouble_leaves (dir : ShiftDir) (mode : ShiftMode) (s : State) (x : RegIx) (m : ModIx) (n : BitVec 10) :
    let r := shiftForm dir mode (s.pair x) (s.countOfShift m n)
    ∃ t, shiftDouble dir mode x m n s = .next t ∧ t.pair x = r.1 ∧ NotesOverflow s t r.2 ∧
      (∀ i, i ≠ x → i ≠ x + 1 → t.reg i = s.reg i) ∧ MovesOn s t ∧
      { t with regs := s.regs, v := s.v, sr64 := s.sr64, pc := s.pc, pip := s.pip } = s := by
  intro r
  have run : shiftDouble dir mode x m n s = .next ((s.advance.setPair x r.1).setVIf r.2) := by
    unfold shiftDouble
    rw [shiftCount_eq, shift_eq_shiftForm (by decide)]
    rfl
  obtain ⟨notes, moves, rest⟩ := setVIf_leaves (s := s) (u := s.advance.setPair x r.1) rfl r.2
  refine ⟨_, run, (State.setVIf_pair _ r.2 x).trans (setPair_pair s.advance x r.1), notes, fun i h₁ h₂ => ?_, moves, rest⟩
  rw [State.setVIf_reg, State.setPair, setReg_pair_reg, if_neg h₂, if_neg h₁]
  rfl

end

/-- Settles O21: each order is one of the six kinds of shift, of X. -/
theorem singleShifts : Obligations.SingleShifts := by
  intro s x m n v c e he
  have kind : ∃ dir mode, exec e.1 s = shiftSingle dir mode x m n s ∧ e.2 = shiftForm dir mode v c := by
    revert e
    simp only [List.forall_mem_cons, List.not_mem_nil, false_imp_iff, implies_true, and_true]
    exact ⟨⟨.left, .circular, rfl, rfl⟩, ⟨.left, .logical, rfl, rfl⟩, ⟨.left, .arithmetic, rfl, rfl⟩,
      ⟨.right, .circular, rfl, rfl⟩, ⟨.right, .logical, rfl, rfl⟩, ⟨.right, .arithmetic, rfl, rfl⟩⟩
  obtain ⟨dir, mode, run, form⟩ := kind
  rw [run, form]
  exact shiftSingle_leaves dir mode s x m n

/-- Settles O22: each order is one of the six kinds of shift, of the pair. -/
theorem doubleShifts : Obligations.DoubleShifts := by
  intro s x m n v c e he
  have kind : ∃ dir mode, exec e.1 s = shiftDouble dir mode x m n s ∧ e.2 = shiftForm dir mode v c := by
    revert e
    simp only [List.forall_mem_cons, List.not_mem_nil, false_imp_iff, implies_true, and_true]
    exact ⟨⟨.left, .circular, rfl, rfl⟩, ⟨.left, .logical, rfl, rfl⟩, ⟨.left, .arithmetic, rfl, rfl⟩,
      ⟨.right, .circular, rfl, rfl⟩, ⟨.right, .logical, rfl, rfl⟩, ⟨.right, .arithmetic, rfl, rfl⟩⟩
  obtain ⟨dir, mode, run, form⟩ := kind
  rw [run, form]
  exact shiftDouble_leaves dir mode s x m n

end Sys2Proof.Machine
end

section
/-! Proofs of the family 42_char_shift_misc, third part: the block orders (42_char_shift_misc.md R241 to R243). A block move is
a chain of stores to the words of its destination (`StoredWithin`); what it has moved after its first `k` words or characters
is an invariant of the chain, which each store carries one further. -/

namespace Sys2Proof.Machine

/-! ### Chains of stores -/

/-- The state `t` is `s` but for words stored where the accesses of the set `A` go. -/
structure StoredWithin (A : Target → Prop) (s t : State) : Prop where
  /-- Registers and memory aside, nothing has changed. -/
  frame : { t with regs := s.regs, mem := s.mem } = s
  /-- Every other register is as before. -/
  regs : ∀ i, ¬A (.reg i) → t.reg i = s.reg i
  /-- Every other word of memory is as before. -/
  words : ∀ p, ¬A (.mem p) → t.mem.read p = s.mem.read p
  /-- Memory is canonical. -/
  wf : t.mem.wf

section
variable {A : Target → Prop} {s t : State} {a b : Addr}

theorem StoredWithin.refl (hm : s.mem.wf) : StoredWithin A s s := ⟨rfl, fun _ _ => rfl, fun _ _ => rfl, hm⟩

theorem StoredWithin.eq (h : StoredWithin A s t) : t = { s with regs := t.regs, mem := t.mem } :=
  congrArg (fun u : State => { u with regs := t.regs, mem := t.mem }) h.frame

theorem StoredWithin.maskAddr (h : StoredWithin A s t) (w : Word) : t.maskAddr w = s.maskAddr w := by rw [h.eq]; rfl

theorem StoredWithin.am22 (h : StoredWithin A s t) : t.am22 = s.am22 := by rw [h.eq]; rfl

theorem StoredWithin.access_eq (h : StoredWithin A s t) (a : Addr) (o : Bool) : access t a o = access s a o := by
  rw [h.eq]; rfl

/-- A word outside the set reads as before. -/
theorem StoredWithin.reads_other (h : StoredWithin A s t) (ha : ¬A (access s a true)) :
    memRead t a true = memRead s a true := by
  rw [memRead_eq, memRead_eq, h.access_eq]
  cases hx : access s a true with
  | reg i => exact congrArg some (h.regs i (hx ▸ ha))
  | mem p => exact congrArg some (h.words p (hx ▸ ha))
  | violation => rfl

/-- What can be read before can be read after. -/
theorem StoredWithin.isSome (h : StoredWithin A s t) (hr : (memRead s a true).isSome = true) :
    (memRead t a true).isSome = true := by
  rw [memRead_isSome] at hr ⊢
  rwa [h.access_eq]

/-- One store more, to a readable word of the set: it is made, and it changes what one access reads. -/
theorem StoredWithin.store (h : StoredWithin A s t) (ha : A (access s a true))
    (hr : (memRead s a true).isSome = true) (v : Word) :
    ∃ u, memWrite t a v true = some u ∧ StoredWithin A s u ∧ memRead u a true = some v ∧
      ∀ b, access s b true ≠ access s a true → memRead u b true = memRead t b true := by
  obtain ⟨u, hu, ⟨reads, regs, words⟩, frame, wf⟩ := memWrite_stores h.wf (h.isSome hr) v
  rw [h.access_eq] at regs words
  refine ⟨u, hu, ⟨?_, fun i hi => ?_, fun p hp => ?_, wf⟩, reads, fun b hb => ?_⟩
  · exact (congrArg (fun u : State => { u with regs := s.regs, mem := s.mem }) frame).trans h.frame
  · exact (regs i fun e => hi (e ▸ ha)).trans (h.regs i hi)
  · exact (words p fun e => hp (e ▸ ha)).trans (h.words p hp)
  · exact memRead_memWrite_other hu h.wf (by rwa [h.access_eq, h.access_eq])

end

/-! ### MOVE -/

section
variable {s t u : State} {x : RegIx} {count : Nat}

/-- The address of word `j` of the block that a register points to (42_char_shift_misc.md R242). -/
def State.wordAddress (s : State) (r : RegIx) (j : Nat) : Addr := s.maskAddr (s.reg r + BitVec.ofNat 24 j)

theorem wordAddress_toNat (s : State) (r : RegIx) (j : Nat) :
    (s.wordAddress r j).toNat = ((s.reg r).toNat + j) % 2 ^ (if s.am22 then 22 else 15) := by
  unfold State.wordAddress
  rw [maskAddr_toNat, BitVec.toNat_add, BitVec.toNat_ofNat]
  split <;> omega

theorem wordAddress_lt (s : State) (r : RegIx) (j : Nat) :
    (s.wordAddress r j).toNat < 2 ^ (if s.am22 then 22 else 15) := by
  rw [wordAddress_toNat]
  exact Nat.mod_lt _ (by positivity)

/-- Different words of a block shorter than the address space have different addresses. -/
theorem wordAddress_ne (s : State) (r : RegIx) {i j : Nat} (hij : i < j) (hj : j < i + 2 ^ 15) :
    s.wordAddress r i ≠ s.wordAddress r j := by
  intro h
  have h := congrArg BitVec.toNat h
  rw [wordAddress_toNat, wordAddress_toNat] at h
  split at h <;> omega

/-- A block that begins one word above another has its words one further. -/
theorem wordAddress_succ {r q : RegIx} (h : s.reg q = s.reg r + 1) (j : Nat) : s.wordAddress q j = s.wordAddress r (j + 1) := by
  unfold State.wordAddress
  rw [h, BitVec.add_assoc, Nat.add_comm j 1, BitVec.ofNat_add]
  rfl

/-- Different words of a block are in different places. -/
theorem wordAddress_access_ne (r : RegIx) {i j : Nat} (hij : i < j) (hj : j < i + 2 ^ 15)
    (hr : (memRead s (s.wordAddress r i) true).isSome = true) :
    access s (s.wordAddress r i) true ≠ access s (s.wordAddress r j) true :=
  access_ne (wordAddress_lt s r i) (wordAddress_lt s r j) (wordAddress_ne s r hij hj) (memRead_isSome.mp hr)

/-- Where the destination words of a MOVE are. -/
def State.moveTargets (s : State) (x : RegIx) (count : Nat) (target : Target) : Prop :=
  ∃ j, j < count ∧ access s (s.wordAddress (x + 1) j) true = target

/-- A MOVE begun in `s` has given its first `k` destination words their values. -/
structure State.Moved (s : State) (x : RegIx) (count : Nat) (value : Nat → Option Word) (k : Nat) (u : State) : Prop where
  /-- It has stored to destination words alone. -/
  within : StoredWithin (s.moveTargets x count) s u
  /-- The first `k` have their values. -/
  done : ∀ j, j < k → memRead u (s.wordAddress (x + 1) j) true = value j

/-- A MOVE whose destination words can be written and are no register of its pair runs to its end, where each of its words,
whatever has been moved before it, is read with its value. -/
theorem moveWords_runs {value : Nat → Option Word} (hc : count ≤ 2 ^ 15)
    (hx : ¬s.moveTargets x count (.reg x)) (hx' : ¬s.moveTargets x count (.reg (x + 1)))
    (hd : ∀ j, j < count → (memRead s (s.wordAddress (x + 1) j) true).isSome = true)
    (hs : ∀ j, j < count → (memRead s (s.wordAddress x j) true).isSome = true)
    (hv : ∀ k u, k < count → s.Moved x count value k u → memRead u (s.wordAddress x k) true = value k) :
    ∀ n k u, k + n = count → s.Moved x count value k u →
      ∃ t, moveWords x n k u = .next t ∧ s.Moved x count value count t
  | 0, k, u, hk, hu => ⟨u, rfl, hk ▸ hu⟩
  | n + 1, k, u, hk, hu => by
    have lt : k < count := by omega
    obtain ⟨w, hw⟩ := Option.isSome_iff_exists.mp (hu.within.isSome (hs k lt))
    obtain ⟨t, ht, within, reads, others⟩ := hu.within.store ⟨k, lt, rfl⟩ (hd k lt) w
    have moved : s.Moved x count value (k + 1) t := by
      refine ⟨within, fun j hj => ?_⟩
      rcases Nat.lt_succ_iff_lt_or_eq.mp hj with hj | rfl
      · rw [others _ (wordAddress_access_ne (x + 1) hj (by omega) (hd j (by omega))), hu.done j hj]
      · rw [reads, ← hw, hv _ u lt hu]
    have source : u.maskAddr (u.reg x + BitVec.ofNat 24 k) = s.wordAddress x k := by
      rw [hu.within.maskAddr, hu.within.regs x hx]
      rfl
    have target : u.maskAddr (u.reg (x + 1) + BitVec.ofNat 24 k) = s.wordAddress (x + 1) k := by
      rw [hu.within.maskAddr, hu.within.regs (x + 1) hx']
      rfl
    obtain ⟨z, hz, last⟩ := moveWords_runs hc hx hx' hd hs hv n (k + 1) t (by omega) moved
    refine ⟨z, ?_, last⟩
    unfold moveWords State.readOperand
    rw [source, target, hw]
    exact (storeThen_some ht _).trans hz

/-- With no destination a source, each word of a MOVE is read as it stood before. -/
theorem moved_reads_source {value : Nat → Option Word} {k : Nat} (hk : k < count) (h : s.Moved x count value k u)
    (apart : ∀ i j, i < count → j < count →
      access s (s.wordAddress x i) true ≠ access s (s.wordAddress (x + 1) j) true) :
    memRead u (s.wordAddress x k) true = memRead s (s.wordAddress x k) true :=
  h.within.reads_other fun ⟨j, hj, e⟩ => apart k j hk hj e.symm

/-- With the destination one word above the source, the first word of a MOVE is read as it stood before, and each later one is the
one just written. -/
theorem moved_reads_first {k : Nat} (hc : count < 2 ^ 15) (above : s.reg (x + 1) = s.reg x + 1)
    (hs : (memRead s (s.wordAddress x 0) true).isSome = true)
    (h : s.Moved x count (fun _ => memRead s (s.wordAddress x 0) true) k u) :
    memRead u (s.wordAddress x k) true = memRead s (s.wordAddress x 0) true := by
  cases k with
  | zero =>
    refine h.within.reads_other fun ⟨j, hj, e⟩ => ?_
    rw [wordAddress_succ above] at e
    exact wordAddress_access_ne x (Nat.succ_pos j) (by omega) hs e.symm
  | succ k =>
    rw [← wordAddress_succ above]
    exact h.done k (Nat.lt_succ_self k)

end

/-- Settles O26: word `k` of the move is read with its value, as it stood where the blocks are apart, and as just written where
they overlap by all but one word. -/
theorem moveCopiesWords : Obligations.MoveCopiesWords := by
  intro s x m n hm count src dst hr e he copies
  have hcount : wordCount (s.operandAddress m n) = count := wordCount_eq _
  have small : count ≤ 512 := by
    rw [← hcount, wordCount_eq]
    split <;> omega
  have value : ∀ k u, k < count → s.advance.Moved x count (fun j => memRead s (e.2 j) true) k u →
      memRead u (s.wordAddress x k) true = memRead s (e.2 k) true := by
    simp only [List.mem_cons, List.not_mem_nil, or_false] at he
    rcases he with rfl | rfl
    · exact fun k u hk hu => moved_reads_source (s := s.advance) hk hu copies
    · exact fun k u hk hu => moved_reads_first (s := s.advance) (by omega) copies (hr 0 (by omega)).1 hu
  have start : s.advance.Moved x count (fun j => memRead s (e.2 j) true) 0 s.advance :=
    ⟨.refl hm, fun j hj => absurd hj (Nat.not_lt_zero j)⟩
  obtain ⟨t, run, ⟨frame, regs, words, _⟩, done⟩ := moveWords_runs (s := s.advance) (by omega)
    (fun ⟨j, hj, h⟩ => (hr j hj).2.2.1 h) (fun ⟨j, hj, h⟩ => (hr j hj).2.2.2 h) (fun j hj => (hr j hj).2.1)
    (fun j hj => (hr j hj).1) value count 0 s.advance (Nat.zero_add count) start
  have stored : OnlyStored s t := frame
  refine ⟨t, ?_, done, fun i hi => regs i fun ⟨j, hj, h⟩ => hi j hj h, fun p hp => words p fun ⟨j, hj, h⟩ => hp j hj h,
    stored.moves_on⟩
  rw [← hcount] at run
  exact run

/-! ### SUM -/

/-- The words of a SUM, where all can be read, added to what has been summed (42_char_shift_misc.md R243). -/
theorem sumWords_eq_some (s : State) (base : Word) (f : Nat → Word) : ∀ (n i : Nat) (acc : Word),
    (∀ j, i ≤ j → j < i + n → memRead s (s.maskAddr (base + BitVec.ofNat 24 j)) true = some (f j)) →
    sumWords s base n i acc = some (acc + BitVec.ofNat 24 ((List.range' i n).map fun j => (f j).toNat).sum)
  | 0, i, acc, _ => by simp [sumWords]
  | n + 1, i, acc, h => by
    have first : s.readOperand (s.maskAddr (base + BitVec.ofNat 24 i)) = some (f i) := h i le_rfl (by omega)
    unfold sumWords
    rw [first, List.range'_succ, List.map_cons, List.sum_cons, BitVec.ofNat_add, BitVec.ofNat_toNat, BitVec.setWidth_eq,
      ← BitVec.add_assoc]
    exact sumWords_eq_some s base f n (i + 1) (acc + f i) fun j h₁ h₂ => h j (by omega) (by omega)

/-- Settles O28: the words are summed from the first on, and X receives the sum. -/
theorem sumOfWords : Obligations.SumOfWords := by
  intro s x m n f count h
  have sum := sumWords_eq_some s.advance (s.reg (x + 1)) f count 0 0 fun j _ hj => h j (by omega)
  rw [← List.range_eq_range', zero_add] at sum
  have hcount : wordCount (s.operandAddress m n) = count := wordCount_eq _
  show execSum x m n s = _
  unfold execSum
  rw [hcount, State.advance_reg, sum]
  rfl

/-! ### Characters of the address space -/

section
variable {s t u : State} {x : RegIx} {count : Nat}

/-- The address of the word that holds character `q` of the address space. -/
def charWord (q : Nat) : Addr := BitVec.ofNat 22 (q / 4)

/-- Character `q` of the address space, or none where its word cannot be read (42_char_shift_misc.md R210). -/
def State.charAt (s : State) (q : Nat) : Option Nat := (memRead s (charWord q) true).map fun w => laneValue w (q % 4)

/-- The number of the `k`th character from the pointer in a register (42_char_shift_misc.md R211). -/
def State.charNumber (s : State) (r : RegIx) (k : Nat) : Nat := (charIndex s.width (s.reg r) + k) % 2 ^ (s.width + 2)

theorem charNumber_lt (s : State) (r : RegIx) (k : Nat) : s.charNumber r k < 2 ^ (s.width + 2) :=
  Nat.mod_lt _ (by positivity)

/-- Different characters of a block shorter than the address space have different numbers. -/
theorem charNumber_ne (s : State) (r : RegIx) {i j : Nat} (hij : i < j) (hj : j < i + 2 ^ 15) :
    s.charNumber r i ≠ s.charNumber r j := by
  unfold State.charNumber State.width
  split <;> omega

/-- The pointer to the `k`th character: its address and its lane. -/
theorem pointer_charNumber (s : State) (r : RegIx) (k : Nat) :
    s.maskAddr ((charInc s.am22)^[k] (s.reg r)) = charWord (s.charNumber r k) ∧
      (pointerLane ((charInc s.am22)^[k] (s.reg r))).toNat = s.charNumber r k % 4 := by
  refine ⟨charAddress_eq s r k, ?_⟩
  have number : charIndex s.width ((charInc s.am22)^[k] (s.reg r)) = s.charNumber r k :=
    charIndex_iterate s.am22 (s.reg r) k
  have lane := (pointerLane ((charInc s.am22)^[k] (s.reg r))).isLt
  rw [← number, charIndex, pointerLane_toNat] at *
  omega

/-- `char_inc` keeps the pointer's bits above the address and below the lane. -/
theorem charInc_middle (wide : Bool) (p : Word) : (charInc wide p).toNat % 2 ^ 22 / 2 ^ pointerWidth wide =
    p.toNat % 2 ^ 22 / 2 ^ pointerWidth wide := by
  have lane := (pointerLane p).isLt
  rw [charInc_toNat]
  generalize (pointerLane p).toNat = l at lane ⊢
  cases wide with
  | true =>
    simp only [pointerWidth, if_true]
    split <;> omega
  | false =>
    simp only [pointerWidth, if_false, Bool.false_eq_true]
    split <;> omega

theorem charInc_iterate_middle (wide : Bool) (p : Word) : ∀ k : Nat,
    ((charInc wide)^[k] p).toNat % 2 ^ 22 / 2 ^ pointerWidth wide = p.toNat % 2 ^ 22 / 2 ^ pointerWidth wide
  | 0 => rfl
  | k + 1 => by rw [Function.iterate_succ_apply', charInc_middle, charInc_iterate_middle wide p k]

theorem width_le (s : State) : s.width ≤ 22 := by
  unfold State.width
  split <;> decide

/-- A character of the address space is in a word within the active width. -/
theorem charWord_toNat {q : Nat} (hq : q < 2 ^ (s.width + 2)) :
    (charWord q).toNat = q / 4 ∧ (charWord q).toNat < 2 ^ s.width := by
  have bound : 2 ^ s.width ≤ 2 ^ 22 := Nat.pow_le_pow_right (by decide) (width_le s)
  have word : q / 4 < 2 ^ s.width := by
    rw [pow_add] at hq
    omega
  unfold charWord
  rw [BitVec.toNat_ofNat, Nat.mod_eq_of_lt (word.trans_le bound)]
  exact ⟨rfl, word⟩

/-- Words of different numbers are in different places. -/
theorem charWord_access_ne {q d : Nat} (hq : q < 2 ^ (s.width + 2)) (hd : d < 2 ^ (s.width + 2)) (hne : q / 4 ≠ d / 4)
    (hr : (memRead s (charWord d) true).isSome = true) : access s (charWord q) true ≠ access s (charWord d) true := by
  obtain ⟨hqn, hqw⟩ := charWord_toNat hq
  obtain ⟨hdn, hdw⟩ := charWord_toNat hd
  refine (access_ne (s := s) hdw hqw (fun e => hne ?_) (memRead_isSome.mp hr)).symm
  rw [← hqn, ← hdn, e]

theorem charAt_eq {q : Nat} {w : Word} (h : memRead s (charWord q) true = some w) :
    s.charAt q = some (laneValue w (q % 4)) := congrArg _ h

/-- A character stored: it is the one stored, and every other character is as before. -/
theorem charAt_store {q d : Nat} {w : Word} {lane : BitVec 2} {ch : BitVec 6} (hq : q < 2 ^ (s.width + 2))
    (hd : d < 2 ^ (s.width + 2)) (hs : (memRead s (charWord d) true).isSome = true) (hl : lane.toNat = d % 4)
    (before : memRead t (charWord d) true = some w) (after : memRead u (charWord d) true = some (setChar w lane ch))
    (others : ∀ b, access s b true ≠ access s (charWord d) true → memRead u b true = memRead t b true) :
    u.charAt q = if q = d then some ch.toNat else t.charAt q := by
  unfold State.charAt
  by_cases hw : q / 4 = d / 4
  · have word : charWord q = charWord d := congrArg (BitVec.ofNat 22) hw
    rw [word, before, after]
    simp only [Option.map_some]
    rw [setChar_lane _ _ _ _ (Nat.mod_lt q (by decide)), hl]
    by_cases hqd : q = d
    · rw [if_pos hqd, if_pos (by rw [hqd])]
    · rw [if_neg hqd, if_neg (by omega)]
  · rw [others _ (charWord_access_ne hq hd hw hs), if_neg fun e => hw (by rw [e])]

/-! ### MVCH -/

/-- Where the destination characters of an MVCH are. -/
def State.charTargets (s : State) (x : RegIx) (count : Nat) (target : Target) : Prop :=
  ∃ j, j < count ∧ access s (charWord (s.charNumber (x + 1) j)) true = target

/-- An MVCH begun in `s` has moved its first `k` characters. -/
structure State.MovedChars (s : State) (x : RegIx) (count k : Nat) (u : State) : Prop where
  /-- It has stored to the words of its destination alone. -/
  within : StoredWithin (s.charTargets x count) s u
  /-- The first `k` destination characters are those of the source. -/
  done : ∀ j, j < k → u.charAt (s.charNumber (x + 1) j) = s.charAt (s.charNumber x j)
  /-- Every other character is as before. -/
  kept : ∀ q, q < 2 ^ (s.width + 2) → (∀ j, j < k → q ≠ s.charNumber (x + 1) j) → u.charAt q = s.charAt q

/-- One character more: where a store has made the next destination character the source's and kept every other character, the
MVCH has moved it. -/
theorem State.MovedChars.step {k : Nat} (h : s.MovedChars x count k u) (hk : k < 2 ^ 15)
    (within : StoredWithin (s.charTargets x count) s t)
    (stored : ∀ q, q < 2 ^ (s.width + 2) → t.charAt q =
      if q = s.charNumber (x + 1) k then s.charAt (s.charNumber x k) else u.charAt q) :
    s.MovedChars x count (k + 1) t := by
  refine ⟨within, fun j hj => ?_, fun q hq hj => ?_⟩
  · rw [stored _ (charNumber_lt s (x + 1) j)]
    rcases Nat.lt_succ_iff_lt_or_eq.mp hj with hj | rfl
    · rw [if_neg (charNumber_ne s (x + 1) hj (by omega)), h.done j hj]
    · rw [if_pos rfl]
  · rw [stored q hq, if_neg (hj k (Nat.lt_succ_self k)), h.kept q hq fun j hjk => hj j (hjk.trans (Nat.lt_succ_self k))]

section
variable (hc : count ≤ 2 ^ 15)
  (hs : ∀ j, j < count → (memRead s (charWord (s.charNumber x j)) true).isSome = true)
  (hd : ∀ j, j < count → (memRead s (charWord (s.charNumber (x + 1) j)) true).isSome = true)
  (apart : ∀ i j, i < count → j < count →
    access s (charWord (s.charNumber x i)) true ≠ access s (charWord (s.charNumber (x + 1) j)) true)

include hc hs hd apart

/-- An MVCH runs to its end, where its characters can be read and no word of its destination is one of its source: the pointers
are held aside while the characters move, and are then written to their registers. -/
theorem moveChars_runs : ∀ n k u, k + n = count → s.MovedChars x count k u → ∃ t, s.MovedChars x count count t ∧
    moveChars x n ((charInc s.am22)^[k] (s.reg x)) ((charInc s.am22)^[k] (s.reg (x + 1))) u =
      .next ((t.setReg x ((charInc s.am22)^[count] (s.reg x))).setReg (x + 1) ((charInc s.am22)^[count] (s.reg (x + 1))))
  | 0, k, u, hk, hu => by
    obtain rfl : k = count := hk
    exact ⟨u, hu, rfl⟩
  | n + 1, k, u, hk, hu => by
    have lt : k < count := by omega
    obtain ⟨hsrc, hsrcLane⟩ := pointer_charNumber s x k
    obtain ⟨hdst, hdstLane⟩ := pointer_charNumber s (x + 1) k
    have source := hu.within.reads_other (a := charWord (s.charNumber x k)) fun ⟨j, hj, e⟩ => apart k j lt hj e.symm
    obtain ⟨ws, hws⟩ := Option.isSome_iff_exists.mp (hs k lt)
    obtain ⟨wd, hwd⟩ := Option.isSome_iff_exists.mp (hu.within.isSome (hd k lt))
    obtain ⟨t, ht, within, reads, others⟩ := hu.within.store ⟨k, lt, rfl⟩ (hd k lt)
      (setChar wd (pointerLane ((charInc s.am22)^[k] (s.reg (x + 1))))
        (charOf ws (pointerLane ((charInc s.am22)^[k] (s.reg x)))))
    have moved : s.MovedChars x count (k + 1) t := hu.step (by omega) within fun q hq => by
      rw [charAt_store hq (charNumber_lt s (x + 1) k) (hd k lt) hdstLane hwd reads others, charOf_toNat, hsrcLane,
        charAt_eq hws]
    obtain ⟨z, last, hz⟩ := moveChars_runs n (k + 1) t (by omega) moved
    refine ⟨z, last, ?_⟩
    unfold moveChars State.readOperand
    rw [hu.within.maskAddr, hu.within.maskAddr, hu.within.am22, hsrc, hdst, source, hws, hwd]
    simp only [Function.iterate_succ_apply'] at hz
    exact (storeThen_some ht _).trans hz

/-- Such an MVCH, as the instruction. -/
theorem exec_mvch {m : ModIx} {n : BitVec 12} (hm : s.mem.wf) (hcount : charCount (s.operandAddress m n) = count) :
    ∃ u, s.advance.MovedChars x count count u ∧ exec (.mvch x m n) s =
      .next ((u.setReg x ((charInc s.am22)^[count] (s.reg x))).setReg (x + 1) ((charInc s.am22)^[count] (s.reg (x + 1)))) := by
  have start : s.advance.MovedChars x count 0 s.advance :=
    ⟨.refl hm, fun j hj => absurd hj (Nat.not_lt_zero j), fun _ _ _ => rfl⟩
  obtain ⟨u, moved, run⟩ := moveChars_runs (s := s.advance) hc hs hd apart count 0 s.advance (Nat.zero_add count) start
  refine ⟨u, moved, ?_⟩
  show moveChars x (charCount (s.operandAddress m n)) _ _ s.advance = _
  rw [hcount]
  exact run

end

end

/-- Settles O27: the characters are moved while the pointers are held aside, and the pointers are written last. -/
theorem moveCharactersCopies : Obligations.MoveCharactersCopies := by
  intro s x m n hm w count start src dst word hr apart
  have hcount : charCount (s.operandAddress m n) = count := charCount_eq _
  have small : count ≤ 2 ^ 15 := by
    rw [← hcount, charCount_eq]
    split <;> omega
  obtain ⟨u, ⟨within, done, kept⟩, run⟩ := exec_mvch small (fun j hj => (hr j hj).1) (fun j hj => (hr j hj).2) apart hm
    hcount
  have stored : OnlyStored s u := within.frame
  refine ⟨_, run, fun r hr => ?_, fun q hx hx' hq old hold => ?_, fun i h₁ h₂ hi => ?_, fun p hp => ?_, stored.moves_on⟩
  · have pointer : ((u.setReg x ((charInc s.am22)^[count] (s.reg x))).setReg (x + 1)
        ((charInc s.am22)^[count] (s.reg (x + 1)))).reg r = (charInc s.am22)^[count] (s.reg r) := by
      rcases List.mem_pair.mp hr with rfl | rfl
      · rw [setReg_pair_reg, if_neg (ne_add_one r), if_pos rfl]
      · rw [setReg_pair_reg, if_pos rfl]
    rw [pointer]
    exact ⟨charIndex_iterate s.am22 (s.reg r) count, charInc_iterate_middle s.am22 (s.reg r) count⟩
  · have readable : (memRead s.advance (charWord q) true).isSome = true := Option.isSome_of_eq_some hold
    obtain ⟨new, hnew⟩ := Option.isSome_iff_exists.mp (within.isSome readable)
    have goes : access u (charWord q) true = access s (charWord q) true := within.access_eq _ _
    refine ⟨new, ?_, fun hj => ?_, fun j source hj hqj hsource => ?_⟩
    · exact (memRead_setReg_other (goes ▸ hx')).trans ((memRead_setReg_other (goes ▸ hx)).trans hnew)
    · have same : u.charAt q = s.charAt q := kept q hq hj
      rw [charAt_eq hnew, charAt_eq hold] at same
      exact Option.some.inj same
    · have copied : u.charAt (dst j) = s.charAt (src j) := done j hj
      rw [← hqj, charAt_eq hnew, charAt_eq hsource] at copied
      exact Option.some.inj copied
  · rw [setReg_pair_reg, if_neg h₂, if_neg h₁]
    exact within.regs i fun ⟨j, hj, e⟩ => hi j hj e
  · exact within.words p fun ⟨j, hj, e⟩ => hp j hj e

end Sys2Proof.Machine
end

section
/-! Proofs of the family 43_muldiv (43_muldiv.md R260 to R271). A multiply order writes its exact integer as a double-length
result. A divide order either fails or writes the quotient and the remainder, and the quotient is determined by the remainder
that R265 asks for. -/

namespace Sys2Proof.Machine

/-! ### Words and products as integers -/

theorem toInt_word_bounds (a : Word) : -2 ^ 23 ≤ a.toInt ∧ a.toInt < 2 ^ 23 := ⟨a.le_toInt, a.toInt_lt⟩

/-- The product of two words fits a double-length integer, but for the square of -2^23 (43_muldiv.md R262). -/
theorem product_fits {a b : Word} (h : ¬(a.toInt = -2 ^ 23 ∧ b.toInt = -2 ^ 23)) :
    -2 ^ 46 ≤ a.toInt * b.toInt ∧ a.toInt * b.toInt < 2 ^ 46 := by
  obtain ⟨ha, ha'⟩ := toInt_word_bounds a
  obtain ⟨hb, hb'⟩ := toInt_word_bounds b
  generalize a.toInt = a at *
  generalize b.toInt = b at *
  refine ⟨by nlinarith, ?_⟩
  by_cases ea : a = -2 ^ 23
  · have : -2 ^ 23 < b := lt_of_le_of_ne hb fun eb => h ⟨ea, eb.symm⟩
    subst ea
    omega
  · have : -2 ^ 23 < a := lt_of_le_of_ne ha fun e => ea e.symm
    nlinarith

/-- The reference edge-case table is empty (43_muldiv.md R271). -/
theorem mdEdge_reference {k : Config} (h : k.mdEdge = .reference) (op : MdOp) (x0 x1 w : Word) :
    mdEdge k op x0 x1 w = false := by
  unfold mdEdge
  rw [h]

section
variable {s : State} {x : RegIx} {m : ModIx} {n : BitVec 12} {w : Word} {op : MdOp}

/-! ### Orders of the unit -/

/-- An order of a present multiply/divide unit, its word readable. -/
theorem mulDivOrder_runs (hp : s.cfg.hasMd = true) (hr : memRead s (s.operandAddress m n) true = some w)
    (k : State → Word → Result) : mulDivOrder m n s k = k s.advance w :=
  (withOption_present hp _).trans (withWord_some hr k)

/-- A multiply order answers the advanced state with the overflow noted, the integer written and C cleared. -/
theorem multiplyOrder_runs (hp : s.cfg.hasMd = true) (hr : memRead s (s.operandAddress m n) true = some w)
    (op : MdOp) (x : RegIx) (p : State → Word → Int) :
    let overflow := overflows47 (p s.advance w) || mdEdge s.cfg op (s.reg x) (s.reg (x + 1)) w
    multiplyOrder op x m n s p =
      .next (((s.advance.setVIf overflow).writeDoubleLength x (p s.advance w)).setC false) :=
  mulDivOrder_runs hp hr _

/-- Where a divide order fails, `q` being its quotient (43_muldiv.md R265). -/
def DivideFails (s : State) (op : MdOp) (x : RegIx) (w : Word) (q : Int) : Prop :=
  w.toInt = 0 ∨ mdEdge s.cfg op (s.reg x) (s.reg (x + 1)) w = true ∨ 2 ^ 23 ≤ q ∨ q < -2 ^ 23

/-- What a divide that succeeds writes: the remainder `r` in X, the quotient `q` in X+1, C cleared (43_muldiv.md R265). -/
def State.divided (t : State) (x : RegIx) (q r : Int) : State :=
  ((t.setReg x (BitVec.ofInt 24 r)).setReg (x + 1) (BitVec.ofInt 24 q)).setC false

/-- The model's test for the failure of a divide. -/
theorem divideFails_iff (s : State) (op : MdOp) (x : RegIx) (w : Word) (q : Int) :
    (decide (w.toInt = 0) || mdEdge s.cfg op (s.reg x) (s.reg (x + 1)) w || overflows24 q) = true ↔
      DivideFails s op x w q := by
  unfold DivideFails overflows24
  simp only [Bool.or_eq_true, decide_eq_true_eq, or_assoc]

theorem divideOrder_fails (hp : s.cfg.hasMd = true) (hr : memRead s (s.operandAddress m n) true = some w)
    {dividend : State → Int} {quotient : Int → Int → Int}
    (h : DivideFails s op x w (quotient (dividend s.advance) w.toInt)) :
    divideOrder op x m n s dividend quotient = .next (divideFail op x w s.advance) :=
  (mulDivOrder_runs hp hr _).trans (if_pos ((divideFails_iff s op x w _).mpr h))

theorem divideOrder_succeeds (hp : s.cfg.hasMd = true) (hr : memRead s (s.operandAddress m n) true = some w)
    {dividend : State → Int} {quotient : Int → Int → Int}
    (h : ¬DivideFails s op x w (quotient (dividend s.advance) w.toInt)) :
    let q := quotient (dividend s.advance) w.toInt
    divideOrder op x m n s dividend quotient = .next (s.advance.divided x q (dividend s.advance - q * w.toInt)) :=
  (mulDivOrder_runs hp hr _).trans (if_neg (mt (divideFails_iff s op x w _).mp h))

/-! ### What a divide leaves -/

/-- What a failed divide leaves (43_muldiv.md R269). -/
theorem divideFail_leaves (s : State) (op : MdOp) (x : RegIx) (w : Word) :
    let t := divideFail op x w s.advance
    (t.reg x, t.reg (x + 1)) = Config.divFail op (s.reg x) (s.reg (x + 1)) w ∧ t.c = false ∧ NotesOverflow s t true ∧
      (∀ i, i ≠ x → i ≠ x + 1 → t.reg i = s.reg i) ∧ MovesOn s t ∧
      { t with regs := s.regs, c := s.c, v := s.v, sr64 := s.sr64, pc := s.pc, pip := s.pip } = s := by
  intro t
  let words := Config.divFail op (s.reg x) (s.reg (x + 1)) w
  let u := (s.advance.setReg x words.1).setReg (x + 1) words.2
  have regs : ∀ i, t.reg i = if i = x + 1 then words.2 else if i = x then words.1 else s.reg i := fun i =>
    (State.setV_reg u i).trans (setReg_pair_reg s.advance x words.1 words.2 i)
  obtain ⟨notes, moves, rest⟩ := setVIf_leaves (s := s) (u := u) rfl true
  refine ⟨?_, rfl, notes, fun i h₁ h₂ => ?_, moves, congrArg (fun v : State => { v with c := s.c }) rest⟩
  · rw [regs x, regs (x + 1), if_neg (ne_add_one x), if_pos rfl, if_pos rfl]
  · rw [regs i, if_neg h₂, if_neg h₁]

/-- What a divide leaves that succeeds with a quotient and a remainder that words hold (43_muldiv.md R265). -/
theorem divided_leaves (s : State) (x : RegIx) {q r : Int} (hq : -2 ^ 23 ≤ q ∧ q < 2 ^ 23)
    (hr : -2 ^ 23 ≤ r ∧ r < 2 ^ 23) :
    let t := s.advance.divided x q r
    (t.reg (x + 1)).toInt = q ∧ (t.reg x).toInt = r ∧ t.c = false ∧
      (∀ i, i ≠ x → i ≠ x + 1 → t.reg i = s.reg i) ∧ MovesOn s t ∧
      { t with regs := s.regs, c := s.c, pc := s.pc, pip := s.pip } = s := by
  intro t
  have regs : ∀ i, t.reg i = if i = x + 1 then BitVec.ofInt 24 q else if i = x then BitVec.ofInt 24 r else s.reg i :=
    setReg_pair_reg s.advance x _ _
  refine ⟨?_, ?_, rfl, fun i h₁ h₂ => ?_, ⟨rfl, rfl⟩, rfl⟩
  · rw [regs, if_pos rfl]
    exact BitVec.toInt_ofInt_eq_self (by decide) hq.1 hq.2
  · rw [regs, if_neg (ne_add_one x), if_pos rfl]
    exact BitVec.toInt_ofInt_eq_self (by decide) hr.1 hr.2
  · rw [regs, if_neg h₂, if_neg h₁]

end

/-! ### Quotients from their remainders -/

/-- The relation `R` of dividend, divisor and remainder has one quotient, which `quotient` computes, and its remainders are
smaller than the divisor (43_muldiv.md R265). -/
structure ComputesQuotient (quotient : Int → Int → Int) (R : Int → Int → Int → Prop) : Prop where
  /-- The quotient that goes with a remainder is the one computed. -/
  eq : ∀ {a d q r}, a = q * d + r → R a d r → quotient a d = q
  /-- A remainder is smaller than the divisor. -/
  small : ∀ {a d r}, R a d r → r.natAbs < d.natAbs

theorem tdiv_computesQuotient : ComputesQuotient Int.tdiv TruncatedRemainder where
  eq := tdiv_of_truncatedRemainder
  small h := h.1

theorem roundHalfAway_computesQuotient : ComputesQuotient roundHalfAway NearestRemainder where
  eq := roundHalfAway_of_nearestRemainder
  small := by
    rintro a d r ⟨hd, hr, _⟩
    omega

/-- A remainder by a word is a word's value, and the divisor is not 0. -/
theorem ComputesQuotient.remainder_fits {quotient : Int → Int → Int} {R : Int → Int → Int → Prop}
    (h : ComputesQuotient quotient R) {a r : Int} {w : Word} (hr : R a w.toInt r) :
    w.toInt ≠ 0 ∧ -2 ^ 23 ≤ r ∧ r < 2 ^ 23 := by
  have small := h.small hr
  obtain ⟨low, high⟩ := toInt_word_bounds w
  omega

/-- The divide orders, as the statements list them: the instruction, its name in the tables, its dividend and the remainder
it is to leave (43_muldiv.md R266 to R268). -/
def divideInstrs (s : State) (x : RegIx) (m : ModIx) (n : BitVec 12) :
    List (Instr × MdOp × Int × (Int → Int → Int → Prop)) :=
  [(Instr.dvd x m n, MdOp.dvd, s.doubleLength x, TruncatedRemainder),
    (Instr.dvr x m n, MdOp.dvr, s.doubleLength x, NearestRemainder),
    (Instr.dvs x m n, MdOp.dvs, (s.reg (x + 1)).toInt, TruncatedRemainder)]

/-- Each of them is a divide order that computes the quotient its remainder asks for. -/
theorem exec_divideInstrs (s : State) (x : RegIx) (m : ModIx) (n : BitVec 12) : ∀ e ∈ divideInstrs s x m n,
    ∃ dividend quotient, exec e.1 s = divideOrder e.2.1 x m n s dividend quotient ∧ dividend s.advance = e.2.2.1 ∧
      ComputesQuotient quotient e.2.2.2 := by
  simp only [divideInstrs, List.forall_mem_cons, List.not_mem_nil, false_imp_iff, implies_true, and_true]
  exact ⟨⟨_, _, rfl, rfl, tdiv_computesQuotient⟩, ⟨_, _, rfl, rfl, roundHalfAway_computesQuotient⟩,
    ⟨_, _, rfl, rfl, tdiv_computesQuotient⟩⟩

/-! ### The statements -/

/-- Settles O29: each order is a multiply order of its integer. -/
theorem multiplyOrders : Obligations.MultiplyOrders := by
  intro s x m n w hp hr e he
  have runs : exec e.1 s = .next (((s.advance.setVIf (overflows47 e.2.2 ||
      mdEdge s.cfg e.2.1 (s.reg x) (s.reg (x + 1)) w)).writeDoubleLength x e.2.2).setC false) := by
    have run := multiplyOrder_runs hp hr
    revert e
    simp only [List.forall_mem_cons, List.not_mem_nil, false_imp_iff, implies_true, and_true, exec]
    exact ⟨run _ _ _, run _ _ _, run _ _ _⟩
  refine ⟨_, runs, ?_⟩
  rw [Bool.decide_or]
  exact writeDoubleLength_leaves s x e.2.2 _

/-- Settles O30: the quotient is the one that goes with the remainder, so the divide does not fail, and what is left of the
dividend is the remainder. -/
theorem divideOrders : Obligations.DivideOrders := by
  intro s x m n w q r hp hr low high e he ha hR edge
  obtain ⟨dividend, quotient, run, hdividend, computes⟩ := exec_divideInstrs s x m n e he
  have hq : quotient (dividend s.advance) w.toInt = q := by rw [hdividend, computes.eq ha hR]
  obtain ⟨hd, fits⟩ := computes.remainder_fits hR
  have succeeds : ¬DivideFails s e.2.1 x w (quotient (dividend s.advance) w.toInt) := by
    rw [hq]
    rintro (zero | isEdge | range)
    · exact hd zero
    · rw [edge] at isEdge
      cases isEdge
    · omega
  have left : dividend s.advance - q * w.toInt = r := by
    rw [hdividend]
    omega
  have run := run.trans (divideOrder_succeeds hp hr succeeds)
  rw [hq, left] at run
  exact ⟨_, run, divided_leaves s x ⟨low, high⟩ fits⟩

/-- Settles O31: each of the three causes makes the divide fail; a quotient that no word holds is the one computed. -/
theorem divideFailure : Obligations.DivideFailure := by
  intro s x m n w hp hr e he cause
  obtain ⟨dividend, quotient, run, hdividend, computes⟩ := exec_divideInstrs s x m n e he
  have fails : DivideFails s e.2.1 x w (quotient (dividend s.advance) w.toInt) := by
    rcases cause with zero | edge | ⟨q, r, ha, hR, range⟩
    · exact .inl zero
    · exact .inr (.inl edge)
    · rw [hdividend, computes.eq ha hR]
      exact .inr (.inr range)
  exact ⟨_, run.trans (divideOrder_fails hp hr fails), divideFail_leaves s e.2.1 x w⟩

/-- MPY of a product that fits, under the reference edge-case table: the product itself, and V as before. -/
theorem exec_mpy_fits {s : State} {x : RegIx} {m : ModIx} {n : BitVec 12} {w : Word} (hp : s.cfg.hasMd = true)
    (href : s.cfg.mdEdge = .reference) (hr : memRead s (s.operandAddress m n) true = some w)
    (hfit : ¬((s.reg x).toInt = -2 ^ 23 ∧ w.toInt = -2 ^ 23)) :
    ∃ t, exec (.mpy x m n) s = .next t ∧ t.doubleLength x = (s.reg x).toInt * w.toInt ∧ t.v = s.v ∧ t.cfg = s.cfg := by
  obtain ⟨low, high⟩ := product_fits hfit
  have noOverflow : overflows47 ((s.reg x).toInt * w.toInt) = false := by
    unfold overflows47
    rw [decide_eq_false (by omega), decide_eq_false (by omega), Bool.or_false]
  have run : exec (.mpy x m n) s = _ := multiplyOrder_runs hp hr .mpy x _
  obtain ⟨value, _, _, ⟨hv, _⟩, _⟩ := writeDoubleLength_leaves s x ((s.reg x).toInt * w.toInt)
    (overflows47 ((s.reg x).toInt * w.toInt) || mdEdge s.cfg .mpy (s.reg x) (s.reg (x + 1)) w)
  refine ⟨_, run, value.trans (Int.bmod_eq_of_le (by omega) (by omega)), hv.trans ?_, State.setVIf_cfg s.advance _⟩
  rw [noOverflow, mdEdge_reference href, Bool.or_false, Bool.or_false]

/-- Settles O32: MPY leaves the product, which is the multiplicand times the divisor with remainder 0, and the dividend of the
DVD. -/
theorem divideInvertsMultiply : Obligations.DivideInvertsMultiply := by
  intro s t x m m' n n' w hp href hr hw hfit hmpy hr'
  obtain ⟨t', run, product, hv, cfg⟩ := exec_mpy_fits hp href hr hfit
  obtain rfl : t' = t := Host.Outcome.next.inj (run.symm.trans hmpy)
  rw [← cfg] at hp href
  have dividend : t'.doubleLength x = (s.reg x).toInt * w.toInt + 0 := by rw [product, add_zero]
  have noRemainder : TruncatedRemainder (t'.doubleLength x) w.toInt 0 := ⟨Int.natAbs_pos.mpr hw, by rw [mul_zero]⟩
  obtain ⟨low, high⟩ := toInt_word_bounds (s.reg x)
  obtain ⟨u, run', quotient, remainder, hc, _, _, rest⟩ :=
    divideOrders t' x m' n' w (s.reg x).toInt 0 hp hr' low high (.dvd x m' n', .dvd, t'.doubleLength x, TruncatedRemainder)
      List.mem_cons_self dividend noRemainder (mdEdge_reference href _ _ _ _)
  have kept : u.v = t'.v := (congrArg State.v rest :)
  exact ⟨u, run', BitVec.eq_of_toInt_eq quotient, BitVec.eq_of_toInt_eq remainder, kept.trans hv, hc⟩

end Sys2Proof.Machine
end

section
/-! Proofs of the family 44_float, first part: what the floating orders write (44_float.md R290 to R307). Each order is one of
three: it loads the accumulator from a pair of words, computes with the pair and notes overflow in FOV, or stores a pair and
notes overflow in V. -/

namespace Sys2Proof.Machine

/-! ### The two-word image as numbers -/

theorem imageMantissa_toNat (w0 w1 : Word) :
    (imageMantissa w0 w1).toNat = w0.toNat * 2 ^ 14 + w1.toNat / 2 ^ 9 % 2 ^ 14 :=
  (toNat_append _ _).trans (by rw [toNat_field])

theorem imageExponent_toNat (w1 : Word) : (imageExponent w1).toNat = w1.toNat % 2 ^ 9 :=
  (toNat_field 0 9 w1).trans (by rw [pow_zero, Nat.div_one])

theorem floatWord0_eq_ofNat (m : Mantissa) : floatWord0 m = BitVec.ofNat 24 (m.toNat / 2 ^ 14) := by
  apply BitVec.eq_of_toNat_eq
  rw [floatWord0, toNat_field, BitVec.toNat_ofNat]

theorem floatWord1_eq_ofNat (m : Mantissa) (e : Exponent) :
    floatWord1 m e = BitVec.ofNat 24 (m.toNat % 2 ^ 14 * 2 ^ 9 + e.toNat) := by
  have image : (floatWord1 m e).toNat = m.toNat % 2 ^ 14 * 2 ^ 9 + e.toNat :=
    (toNat_append _ _).trans (by rw [toNat_append, toNat_field]; simp)
  rw [← image, BitVec.ofNat_toNat, BitVec.setWidth_eq]

section
variable {s u : State} {m : ModIx} {n : BitVec 12} {w0 w1 : Word}

/-! ### How the orders run -/

/-- A floating order of a present unit that reads a readable pair of words. -/
theorem floatPair_runs (hp : s.cfg.hasFp = true) (h0 : memRead s (s.operandAddress m n) true = some w0)
    (h1 : memRead s (s.nextAddr (s.operandAddress m n)) true = some w1) (k : State → Word → Word → Result) :
    floatOrder 0 s (withPair m n s k) = k s.advance w0 w1 :=
  (floatOrder_present hp _).trans (withPair_some h0 h1 k)

/-- An overflow noted in a state that has so far only stored. -/
theorem OnlyStored.setVIf_leaves (h : OnlyStored s u) (b : Bool) :
    NotesOverflow s (u.setVIf b) b ∧ MovesOn s (u.setVIf b) ∧
      { u.setVIf b with regs := s.regs, mem := s.mem, v := s.v, sr64 := s.sr64, pc := s.pc, pip := s.pip } = s := by
  have eq := h.eq
  generalize u.regs = regs at eq
  generalize u.mem = mem at eq
  subst eq
  refine ⟨setVIf_notes b rfl rfl rfl rfl, ⟨State.setVIf_pc _ b, State.setVIf_pip _ b⟩, ?_⟩
  exact congrArg (fun t : State => { t with regs := s.regs, mem := s.mem, pc := s.pc, pip := s.pip })
    (setVIf_frame { s.advance with regs := regs, mem := mem } b)

/-- An order that stores a pair of words and notes an overflow. -/
theorem storePair_setVIf_leaves (hm : s.mem.wf) (h0 : memRead s (s.operandAddress m n) true = some w0)
    (h1 : memRead s (s.nextAddr (s.operandAddress m n)) true = some w1) (v0 v1 : Word) (b : Bool) :
    let ea := s.operandAddress m n
    let ea2 := s.nextAddr ea
    ∃ t, storePair m n s v0 v1 (fun u => u.setVIf b) = .next t ∧
      memRead t ea true = some v0 ∧ memRead t ea2 true = some v1 ∧
      (∀ i, access s ea true ≠ .reg i → access s ea2 true ≠ .reg i → t.reg i = s.reg i) ∧
      (∀ p, access s ea true ≠ .mem p → access s ea2 true ≠ .mem p → t.mem.read p = s.mem.read p) ∧
      NotesOverflow s t b ∧ MovesOn s t ∧
      { t with regs := s.regs, mem := s.mem, v := s.v, sr64 := s.sr64, pc := s.pc, pip := s.pip } = s := by
  intro ea ea2
  obtain ⟨u, run, first, second, regs, words, stored, _⟩ :=
    storePair_stores hm (by rw [h0]; rfl) (by rw [h1]; rfl) v0 v1 fun u => u.setVIf b
  have stored : OnlyStored s u := stored
  refine ⟨u.setVIf b, run, (State.setVIf_memRead u b _ _).trans first, (State.setVIf_memRead u b _ _).trans second,
    fun i hi hi2 => (State.setVIf_reg u b i).trans (regs i hi hi2), fun p hp hp2 => ?_, stored.setVIf_leaves b⟩
  rw [State.setVIf_mem]
  exact words p hp hp2

end

/-! ### The statements -/

/-- Settles O33: LFP and FLOAT write the accumulator of the advanced state; SFP and FIX store a pair of words, FIX then noting
an overflow and SFP none. -/
theorem floatTransfers : Obligations.FloatTransfers := by
  intro s m n w0 w1 hm hp ea ea2 h0 h1
  refine ⟨⟨_, floatPair_runs hp h0 h1 _, imageMantissa_toNat w0 w1, imageExponent_toNat w1, ⟨rfl, rfl⟩, rfl⟩,
    ⟨_, floatPair_runs hp h0 h1 _, rfl, ⟨rfl, rfl⟩, rfl⟩, fun e he => ?_⟩
  have runs : exec e.1 s =
      storePair m n s (BitVec.ofNat 24 e.2.1) (BitVec.ofNat 24 e.2.2.1) fun u => u.setVIf e.2.2.2 := by
    revert e
    simp only [List.forall_mem_cons, List.not_mem_nil, false_imp_iff, implies_true, and_true]
    refine ⟨?_, ?_⟩
    · rw [← floatWord0_eq_ofNat, ← floatWord1_eq_ofNat]
      exact exec_sfp hp
    · rw [BitVec.ofNat_toNat, BitVec.ofNat_toNat]
      exact exec_fix hp
  rw [runs]
  exact storePair_setVIf_leaves hm h0 h1 _ _ _

/-- A divisor of mantissa 0 overflows whatever the configured function is (44_float.md R303). -/
theorem fpDiv_zero_overflow (k : Config) (ma : Mantissa) (ea eb : Exponent) : (fpDiv k ma ea 0 eb).overflow = true := by
  unfold fpDiv
  cases k.fpDiv with
  | reference => rfl
  | unspecified => exact Bool.or_true _

/-- Settles O34: each order writes the accumulator of the advanced state with the function of its operand, and FOV. -/
theorem floatArithmetic : Obligations.FloatArithmetic := by
  intro s m n w0 w1 hp h0 h1
  refine ⟨fun e he => ?_, fun high low => ⟨_, floatPair_runs hp h0 h1 _, ?_⟩⟩
  · have runs : exec e.1 s = floatArith 0 m n s e.2 := by
      revert e
      simp only [List.forall_mem_cons, List.not_mem_nil, false_imp_iff, implies_true, and_true]
      exact ⟨rfl, rfl, rfl, rfl⟩
    exact ⟨_, imageMantissa w0 w1, imageExponent w1, runs.trans (floatPair_runs hp h0 h1 _), imageMantissa_toNat w0 w1,
      imageExponent_toNat w1, rfl, rfl, rfl, ⟨rfl, rfl⟩, rfl⟩
  · have zero : imageMantissa w0 w1 = 0 := BitVec.eq_of_toNat_eq (by rw [imageMantissa_toNat, high, low]; rfl)
    show (s.fov || (fpDiv s.cfg s.am s.ae (imageMantissa w0 w1) (imageExponent w1)).overflow) = true
    rw [zero, fpDiv_zero_overflow, Bool.or_true]

end Sys2Proof.Machine
end

section
/-! Proofs of the family 44_float, second part: the reference instances (44_float.md R290 to R309). What rounding an exact number
answers is determined by the number (`Rounded.unique`), so that the shared tail is settled by one rounding of its number: that
of a normalised number is its own bits. An integer that some number of the format holds is held by a normalised one, or is 0;
FLOAT answers that one, and FIX reads the integer back. -/

namespace Sys2Proof.Machine

/-! ### Normal fractions and their exponents -/

theorem NormalFraction.ne_zero {f : ℚ} (h : NormalFraction f) : f ≠ 0 := by
  rintro rfl
  rcases h with ⟨h, _⟩ | ⟨_, h⟩ <;> norm_num at h

/-- The exponent of a normal fraction bounds its number. -/
theorem NormalFraction.bounds {v : ℚ} {a : ℤ} (h : NormalFraction (v / 2 ^ a)) : -2 ^ a ≤ v ∧ v < 2 ^ a := by
  have pos : (0 : ℚ) < 2 ^ a := by positivity
  have wide : -1 ≤ v / 2 ^ a ∧ v / 2 ^ a < 1 := by
    rcases h with ⟨low, high⟩ | ⟨low, high⟩ <;> constructor <;> linarith
  exact ⟨by linarith [(le_div_iff₀ pos).mp wide.1], by linarith [(div_lt_iff₀ pos).mp wide.2]⟩

/-- It is the least exponent that does. -/
theorem NormalFraction.exponent_le {v : ℚ} {a b : ℤ} (h : NormalFraction (v / 2 ^ a)) (low : -2 ^ b ≤ v) (high : v < 2 ^ b) :
    a ≤ b := by
  by_contra hab
  have pos : (0 : ℚ) < 2 ^ a := by positivity
  have twice : (2 : ℚ) * 2 ^ b ≤ 2 ^ a := by
    rw [← zpow_one_add₀ (by norm_num)]
    exact zpow_le_zpow_right₀ (by norm_num) (by omega)
  rcases h with ⟨h, _⟩ | ⟨_, h⟩
  · have := (le_div_iff₀ pos).mp h
    linarith
  · have := (div_lt_iff₀ pos).mp h
    linarith

theorem NormalFraction.exponent_unique {v : ℚ} {a b : ℤ} (ha : NormalFraction (v / 2 ^ a))
    (hb : NormalFraction (v / 2 ^ b)) : a = b :=
  le_antisymm (ha.exponent_le hb.bounds.1 hb.bounds.2) (hb.exponent_le ha.bounds.1 ha.bounds.2)

/-- Rounding has one answer. -/
theorem Rounded.unique {v : ℚ} {r r' : FpResult} (h : Rounded v r) (h' : Rounded v r') : r = r' := by
  rcases h with ⟨zero, rfl⟩ | ⟨e₀, e, mi, hf, hn, value, rfl⟩
  · rcases h' with ⟨_, rfl⟩ | ⟨_, _, _, hf, _⟩
    · rfl
    · exact absurd (by rw [zero, zero_div]) hf.ne_zero
  · rcases h' with ⟨zero, _⟩ | ⟨e₀', e', mi', hf', hn', value', rfl⟩
    · exact absurd (by rw [zero, zero_div]) hf.ne_zero
    · obtain rfl : e₀ = e₀' := by have := hf.exponent_unique hf'; omega
      have same : (mi : ℚ) * 2 ^ e = mi' * 2 ^ e' := value.trans value'.symm
      have scaled (j : ℤ) (k : ℤ) : (j : ℚ) * 2 ^ k / 2 ^ (k + 37) = j / 2 ^ 37 := by
        rw [zpow_add₀ (by norm_num)]
        field_simp
      rw [← scaled mi e] at hn
      rw [← scaled mi' e', ← same] at hn'
      obtain rfl : e = e' := by have := hn.exponent_unique hn'; omega
      have : (mi : ℚ) = mi' := mul_right_cancel₀ (by positivity) same
      obtain rfl : mi = mi' := by exact_mod_cast this
      rfl

/-- The shared tail answers what its number rounds to. -/
theorem pack_eq {v : Exact} {r : FpResult} (hv : 0 < v.den) (h : Rounded v.toRat r) : pack v .round = r :=
  (pack_rounded hv).unique h

/-! ### Normalised numbers -/

theorem mantissa_toInt_bounds (m : Mantissa) : -2 ^ 37 ≤ m.toInt ∧ m.toInt < 2 ^ 37 := ⟨m.le_toInt, m.toInt_lt⟩

/-- The integers that are normal fractions as mantissas. -/
theorem normalFraction_int_iff (mi : ℤ) : NormalFraction ((mi : ℚ) / 2 ^ 37) ↔
    (2 ^ 36 ≤ mi ∧ mi < 2 ^ 37) ∨ (-2 ^ 37 ≤ mi ∧ mi < -2 ^ 36) := by
  have pos : (0 : ℚ) < 2 ^ 37 := by norm_num
  have least (q : ℚ) (k : ℤ) (hq : q * 2 ^ 37 = k) : q ≤ (mi : ℚ) / 2 ^ 37 ↔ k ≤ mi := by
    rw [le_div_iff₀ pos, hq, Int.cast_le]
  have below (q : ℚ) (k : ℤ) (hq : q * 2 ^ 37 = k) : (mi : ℚ) / 2 ^ 37 < q ↔ mi < k := by
    rw [div_lt_iff₀ pos, hq, Int.cast_lt]
  unfold NormalFraction
  rw [least (1 / 2) (2 ^ 36) (by norm_num), below 1 (2 ^ 37) (by norm_num), least (-1) (-2 ^ 37) (by norm_num),
    below (-(1 / 2)) (-2 ^ 36) (by norm_num)]

/-- The sign bit and the next bit of a mantissa differ where it is a normal fraction (44_float.md R291). -/
theorem normalised_iff (m : Mantissa) :
    m.getLsbD 37 ≠ m.getLsbD 36 ↔ NormalFraction ((m.toInt : ℚ) / 2 ^ 37) := by
  have sign : m.getLsbD 37 = decide (2 ^ 37 ≤ m.toNat) := (BitVec.msb_eq_getLsbD_last m).symm.trans m.msb_eq_decide
  have next : m.getLsbD 36 = decide (m.toNat / 2 ^ 36 % 2 = 1) := Nat.testBit_eq_decide_div_mod_eq
  have bits : m.getLsbD 37 ≠ m.getLsbD 36 ↔ 2 ^ 36 ≤ m.toNat ∧ m.toNat < 2 ^ 37 + 2 ^ 36 := by
    rw [sign, next, Ne, decide_eq_decide]
    have := m.isLt
    omega
  rw [bits, normalFraction_int_iff, BitVec.toInt_eq_toNat_cond]
  have := m.isLt
  split <;> omega

theorem floatValue_scaled (m : Mantissa) (e : Exponent) :
    floatValue m e / 2 ^ ((e.toNat : ℤ) - 256) = m.toInt / 2 ^ 37 := by
  unfold floatValue
  rw [show (e.toNat : ℤ) - 256 = (e.toNat - 293) + 37 by ring, zpow_add₀ (by norm_num)]
  field_simp

/-- A normalised number rounds to its own bits. -/
theorem rounded_floatValue {m : Mantissa} (hm : m.getLsbD 37 ≠ m.getLsbD 36) (e : Exponent) :
    Rounded (floatValue m e) ⟨m, e, false⟩ := by
  have normal := (normalised_iff m).mp hm
  refine .inr ⟨e.toNat, e.toNat, m.toInt, by rwa [floatValue_scaled], normal, ?_, ?_⟩
  · have mantissa : floatValue m e / 2 ^ ((e.toNat : ℤ) - 293) = m.toInt := mul_div_cancel_right₀ _ (by positivity)
    have half : ⌊(m.toInt : ℚ) + 1 / 2⌋ = m.toInt := by
      rw [Int.floor_intCast_add]
      norm_num
    rw [mantissa, half]
  · have range := e.isLt
    rw [if_neg (by omega), decide_eq_false (by omega), BitVec.ofInt_toInt, BitVec.ofInt_natCast, BitVec.ofNat_toNat,
      BitVec.setWidth_eq]

theorem pack_normalised {m : Mantissa} (hm : m.getLsbD 37 ≠ m.getLsbD 36) (e : Exponent) :
    pack (fpval m e) .round = ⟨m, e, false⟩ :=
  pack_eq (fpval_den_pos m e) (by rw [fpval_toRat]; exact rounded_floatValue hm e)

theorem ne_zero_of_normalised {m : Mantissa} (hm : m.getLsbD 37 ≠ m.getLsbD 36) : m ≠ 0 := by
  rintro rfl
  exact hm rfl

/-! ### The arithmetic of the reference instances -/

theorem floatValue_zero (e : Exponent) : floatValue 0 e = 0 := by
  show ((0 : ℤ) : ℚ) * _ = 0
  rw [Int.cast_zero, zero_mul]

theorem fpval_num_ne_zero {m : Mantissa} (h : m ≠ 0) (e : Exponent) : (fpval m e).num ≠ 0 := by
  have value : m.toInt ≠ 0 := fun zero => h (BitVec.eq_of_toInt_eq zero)
  unfold fpval
  split
  · exact mul_ne_zero value (by positivity)
  · exact value

/-- The shared tail rounds its number, however that is written as a rational. -/
theorem pack_rounds {v : Exact} {q : ℚ} (hv : 0 < v.den) (h : v.toRat = q) : Rounded q (pack v .round) :=
  h ▸ pack_rounded hv

section
variable {ma mb : Mantissa} {ea eb : Exponent}

theorem pack_fpval_rounded (m : Mantissa) (e : Exponent) : Rounded (floatValue m e) (pack (fpval m e) .round) :=
  pack_rounds (fpval_den_pos m e) (fpval_toRat m e)

theorem neg_fpval_toRat (m : Mantissa) (e : Exponent) : (fpval m e).neg.toRat = -floatValue m e := by
  rw [Exact.neg_toRat, fpval_toRat]

theorem pack_neg_rounded (m : Mantissa) (e : Exponent) : Rounded (-floatValue m e) (pack (fpval m e).neg .round) :=
  pack_rounds (fpval_den_pos m e) (neg_fpval_toRat m e)

/-- The exact difference of two numbers. -/
theorem sub_fpval_toRat (ma mb : Mantissa) (ea eb : Exponent) :
    ((fpval ma ea).add (fpval mb eb).neg).toRat = floatValue ma ea - floatValue mb eb := by
  rw [Exact.add_toRat (fpval_den_pos ma ea) (b := (fpval mb eb).neg) (fpval_den_pos mb eb), neg_fpval_toRat, fpval_toRat,
    sub_eq_add_neg]

theorem fpval_mul_den_pos (ma mb : Mantissa) (ea eb : Exponent) : 0 < (fpval ma ea).den * (fpval mb eb).den :=
  Nat.mul_pos (fpval_den_pos ma ea) (fpval_den_pos mb eb)

theorem fpMulRef_rounded (ma mb : Mantissa) (ea eb : Exponent) :
    Rounded (floatValue ma ea * floatValue mb eb) (fpMulRef ma ea mb eb) :=
  pack_rounds (v := (fpval ma ea).mul (fpval mb eb)) (fpval_mul_den_pos ma mb ea eb)
    (by rw [Exact.mul_toRat, fpval_toRat, fpval_toRat])

theorem fpDivRef_rounded (h : mb ≠ 0) : Rounded (floatValue ma ea / floatValue mb eb) (fpDivRef ma ea mb eb) := by
  have num := fpval_num_ne_zero h eb
  have da := fpval_den_pos ma ea
  rw [fpDivRef, if_neg h]
  exact pack_rounds (v := (fpval ma ea).div (fpval mb eb)) (Nat.mul_pos da (Int.natAbs_pos.mpr num))
    (by rw [Exact.div_toRat da (fpval_den_pos mb eb) num, fpval_toRat, fpval_toRat])

/-- Where a sum or difference is rounded from the exact one: an operand is zero, or the exponents are near (44_float.md R295). -/
def FloatNear (ma : Mantissa) (ea : Exponent) (mb : Mantissa) (eb : Exponent) : Prop :=
  ma = 0 ∨ mb = 0 ∨ (ea.toNat ≤ eb.toNat + 38 ∧ eb.toNat ≤ ea.toNat + 38)

theorem fpAddRef_rounded (near : FloatNear ma ea mb eb) :
    Rounded (floatValue ma ea + floatValue mb eb) (fpAddRef ma ea mb eb) := by
  by_cases hb : mb = 0
  · rw [fpAddRef, if_pos hb, hb, floatValue_zero, add_zero]
    exact pack_fpval_rounded ma ea
  by_cases ha : ma = 0
  · rw [fpAddRef, if_neg hb, if_pos ha, ha, floatValue_zero, zero_add]
    exact pack_fpval_rounded mb eb
  obtain ⟨hab, hba⟩ := (near.resolve_left ha).resolve_left hb
  rw [fpAddRef, if_neg hb, if_neg ha, if_neg (Nat.not_lt.mpr hab), if_neg (Nat.not_lt.mpr hba)]
  exact pack_rounds (v := (fpval ma ea).add (fpval mb eb)) (fpval_mul_den_pos ma mb ea eb)
    (by rw [Exact.add_toRat (fpval_den_pos ma ea) (fpval_den_pos mb eb), fpval_toRat, fpval_toRat])

theorem fpSubRef_rounded (near : FloatNear ma ea mb eb) :
    Rounded (floatValue ma ea - floatValue mb eb) (fpSubRef ma ea mb eb) := by
  by_cases hb : mb = 0
  · rw [fpSubRef, if_pos hb, hb, floatValue_zero, sub_zero]
    exact pack_fpval_rounded ma ea
  by_cases ha : ma = 0
  · rw [fpSubRef, if_neg hb, if_pos ha, ha, floatValue_zero, zero_sub]
    exact pack_neg_rounded mb eb
  obtain ⟨hab, hba⟩ := (near.resolve_left ha).resolve_left hb
  rw [fpSubRef, if_neg hb, if_neg ha, if_neg (Nat.not_lt.mpr hab), if_neg (Nat.not_lt.mpr hba)]
  exact pack_rounds (v := (fpval ma ea).add (fpval mb eb).neg) (fpval_mul_den_pos ma mb ea eb) (sub_fpval_toRat ma mb ea eb)

/-- Where the first exponent is far above the second, the first number stands. -/
theorem fpRef_first_stands (ha : ma ≠ 0) (hb : mb ≠ 0) (far : eb.toNat + 38 < ea.toNat) :
    fpAddRef ma ea mb eb = ⟨ma, ea, false⟩ ∧ fpSubRef ma ea mb eb = ⟨ma, ea, false⟩ := by
  rw [fpAddRef, fpSubRef, if_neg hb, if_neg ha, if_pos far, if_neg hb, if_neg ha, if_pos far]
  exact ⟨rfl, rfl⟩

/-- Where the second exponent is far above the first, the second number stands, negated in a difference. -/
theorem fpRef_second_stands (ha : ma ≠ 0) (hb : mb ≠ 0) (far : ea.toNat + 38 < eb.toNat) :
    fpAddRef ma ea mb eb = ⟨mb, eb, false⟩ ∧ Rounded (-floatValue mb eb) (fpSubRef ma ea mb eb) := by
  rw [fpAddRef, fpSubRef, if_neg hb, if_neg ha, if_neg (by omega), if_pos far, if_neg hb, if_neg ha, if_neg (by omega),
    if_pos far]
  exact ⟨rfl, pack_neg_rounded mb eb⟩

/-- A normalised number and a zero: sum and difference are the number's own bits. -/
theorem fpRef_zero_operand (hm : ma.getLsbD 37 ≠ ma.getLsbD 36) (e e' : Exponent) :
    fpAddRef ma e 0 e' = ⟨ma, e, false⟩ ∧ fpAddRef 0 e' ma e = ⟨ma, e, false⟩ ∧ fpSubRef ma e 0 e' = ⟨ma, e, false⟩ := by
  have own := pack_normalised hm e
  refine ⟨(if_pos rfl).trans own, ?_, (if_pos rfl).trans own⟩
  rw [fpAddRef, if_neg (ne_zero_of_normalised hm), if_pos rfl]
  exact own

/-- A number less itself is the canonical zero. -/
theorem fpSubRef_self (m : Mantissa) (e : Exponent) : fpSubRef m e m e = ⟨0, 0, false⟩ :=
  Rounded.unique (fpSubRef_rounded (.inr (.inr ⟨by omega, by omega⟩))) (.inl ⟨sub_self _, rfl⟩)

end

/-! ### Double-length integers as two words -/

/-- The integer of two words, bit 23 of the second ignored (44_float.md R306). -/
def wordsInt (hi lo : Word) : ℤ := hi.toInt * 2 ^ 23 + (lo.extractLsb' 0 23).toNat

theorem wordsInt_eq_mod (hi lo : Word) : wordsInt hi lo = hi.toInt * 2 ^ 23 + (lo.toNat % 2 ^ 23 : ℕ) := by
  rw [wordsInt, toNat_field, pow_zero, Nat.div_one]

theorem low_lt {lo : Word} (h : lo.getLsbD 23 = false) : lo.toNat < 2 ^ 23 :=
  Nat.not_le.mp (of_decide_eq_false ((getLsbD_23 lo).symm.trans h))

theorem wordsInt_eq {lo : Word} (hi : Word) (h : lo.getLsbD 23 = false) : wordsInt hi lo = hi.toInt * 2 ^ 23 + lo.toNat := by
  rw [wordsInt_eq_mod, Nat.mod_eq_of_lt (low_lt h)]

theorem wordsInt_bounds (hi lo : Word) : -2 ^ 46 ≤ wordsInt hi lo ∧ wordsInt hi lo < 2 ^ 46 := by
  obtain ⟨low, high⟩ := toInt_word_bounds hi
  rw [wordsInt_eq_mod]
  omega

/-- An integer has one pair of words. -/
theorem words_unique {hi lo hi' lo' : Word} (h : lo.getLsbD 23 = false) (h' : lo'.getLsbD 23 = false)
    (same : hi.toInt * 2 ^ 23 + lo.toNat = hi'.toInt * 2 ^ 23 + lo'.toNat) : hi = hi' ∧ lo = lo' := by
  have := low_lt h
  have := low_lt h'
  exact ⟨BitVec.eq_of_toInt_eq (by omega), BitVec.eq_of_toNat_eq (by omega)⟩

/-- The two words of a 47-bit string hold its integer. -/
theorem toInt_of_words (q : BitVec 47) :
    (q.extractLsb' 23 24).toInt * 2 ^ 23 + (0#1 ++ q.extractLsb' 0 23 : Word).toNat = q.toInt ∧
      (0#1 ++ q.extractLsb' 0 23 : Word).getLsbD 23 = false := by
  have low : (0#1 ++ q.extractLsb' 0 23 : Word).toNat = q.toNat % 2 ^ 23 :=
    (toNat_append _ _).trans (by rw [toNat_field, pow_zero, Nat.div_one, BitVec.toNat_zero, Nat.zero_mul, Nat.zero_add])
  have range := q.isLt
  constructor
  · rw [low, word_toInt, toNat_field, BitVec.toInt_eq_toNat_cond]
    split <;> split <;> omega
  · rw [getLsbD_23, low]
    exact decide_eq_false (by omega)

/-! ### FLOAT and FIX -/

theorem toRat_int (i : ℤ) : Exact.toRat ⟨i, 1⟩ = i := by
  unfold Exact.toRat
  rw [Nat.cast_one, div_one]

theorem renormalise_exponent_le (mi e : ℤ) : (renormalise mi e).2 ≤ e + 1 := by
  unfold renormalise
  split
  · exact le_rfl
  · split <;> omega

/-- A number below 2^254 in magnitude is not above the exponent range. -/
theorem pack_no_overflow {v : Exact} (hv : 0 < v.den) (low : -2 ^ (254 : ℤ) ≤ v.toRat) (high : v.toRat < 2 ^ (254 : ℤ)) :
    (pack v .round).overflow = false := by
  unfold pack
  split
  · rfl
  next hn =>
    have := (normalExponent_fraction hv hn).exponent_le low high
    have := renormalise_exponent_le (roundedMantissa v (normalExponent v) .round) (normalExponent v)
    dsimp only
    split
    · rfl
    · exact decide_eq_false (by omega)

theorem fpFloatRef_eq (hi lo : Word) : fpFloatRef hi lo =
    ((pack ⟨wordsInt hi lo, 1⟩ .round).mantissa, (pack ⟨wordsInt hi lo, 1⟩ .round).exponent) := rfl

theorem fpFloatRef_rounded (hi lo : Word) :
    Rounded (wordsInt hi lo) ⟨(fpFloatRef hi lo).1, (fpFloatRef hi lo).2, false⟩ := by
  obtain ⟨low, high⟩ := wordsInt_bounds hi lo
  have below : ((2 : ℤ) ^ 46 : ℚ) ≤ 2 ^ (254 : ℤ) := by norm_num
  have low : -((2 : ℤ) ^ 46 : ℚ) ≤ wordsInt hi lo := by exact_mod_cast low
  have high : (wordsInt hi lo : ℚ) < (2 : ℤ) ^ 46 := by exact_mod_cast high
  have fits : (pack ⟨wordsInt hi lo, 1⟩ .round).overflow = false :=
    pack_no_overflow Nat.one_pos (by rw [toRat_int]; linarith) (by rw [toRat_int]; linarith)
  rw [fpFloatRef_eq, ← fits]
  exact pack_rounds Nat.one_pos (toRat_int _)

/-- FIX answers the words of the integer part, modulo 2^47. -/
theorem fpFixRef_words (m : Mantissa) (e : Exponent) :
    let r := fpFixRef m e
    let i := ⌊floatValue m e⌋
    r.hi.toInt * 2 ^ 23 + r.lo.toNat = i.bmod (2 ^ 47) ∧ r.lo.getLsbD 23 = false ∧
      r.overflow = decide (2 ^ 46 ≤ i ∨ i < -2 ^ 46) := by
  have part : (fpval m e).floor = ⌊floatValue m e⌋ := by rw [Exact.floor_toRat, fpval_toRat]
  intro r i
  obtain ⟨value, low⟩ := toInt_of_words (BitVec.ofInt 47 i)
  have form : r = ⟨(BitVec.ofInt 47 i).extractLsb' 23 24, 0#1 ++ (BitVec.ofInt 47 i).extractLsb' 0 23,
      decide (2 ^ 46 ≤ i) || decide (i < -2 ^ 46)⟩ := by unfold i; rw [← part]; rfl
  rw [form, Bool.decide_or, ← BitVec.toInt_ofInt]
  exact ⟨value, low, rfl⟩

/-- FIX of an integer that two words hold answers its words. -/
theorem fpFixRef_of_integer {m : Mantissa} {e : Exponent} {i : ℤ} (h : floatValue m e = i) (low : -2 ^ 46 ≤ i)
    (high : i < 2 ^ 46) :
    let r := fpFixRef m e
    r.hi.toInt * 2 ^ 23 + r.lo.toNat = i ∧ r.lo.getLsbD 23 = false ∧ r.overflow = false := by
  intro r
  obtain ⟨value, clear, overflow⟩ := fpFixRef_words m e
  rw [h, Int.floor_intCast] at value overflow
  exact ⟨value.trans (Int.bmod_eq_of_le (by omega) (by omega)), clear, overflow.trans (decide_eq_false (by omega))⟩

/-! ### Integers as numbers of the format -/

theorem floatValue_bounds (m : Mantissa) (e : Exponent) :
    -2 ^ ((e.toNat : ℤ) - 256) ≤ floatValue m e ∧ floatValue m e < 2 ^ ((e.toNat : ℤ) - 256) := by
  have pos : (0 : ℚ) < 2 ^ ((e.toNat : ℤ) - 256) := by positivity
  have scaled := (div_eq_iff pos.ne').mp (floatValue_scaled m e)
  obtain ⟨low, high⟩ := mantissa_toInt_bounds m
  have low : -1 ≤ (m.toInt : ℚ) / 2 ^ 37 := by
    rw [le_div_iff₀ (by norm_num)]
    exact_mod_cast low
  have high : (m.toInt : ℚ) / 2 ^ 37 < 1 := by
    rw [div_lt_iff₀ (by norm_num)]
    exact_mod_cast high
  rw [scaled]
  constructor <;> nlinarith

/-- The normal fraction of an integer has an exponent above that of 1/2. -/
theorem NormalFraction.exponent_nonneg {i a : ℤ} (h : NormalFraction ((i : ℚ) / 2 ^ a)) : 0 ≤ a := by
  by_contra neg
  have less : (2 : ℚ) ^ a < 1 := zpow_lt_one_of_neg₀ (by norm_num) (by omega)
  obtain ⟨low, high⟩ := h.bounds
  have low : (-1 : ℚ) < i := by linarith
  have high : (i : ℚ) < 1 := by linarith
  norm_cast at low high
  obtain rfl : i = 0 := by omega
  exact h.ne_zero (by rw [Int.cast_zero, zero_div])

/-- An integer other than 0 that some number of the format holds is held by a normalised one. -/
theorem exists_normalised {m : Mantissa} {e : Exponent} {i : ℤ} (h : floatValue m e = i) (hi : i ≠ 0) :
    ∃ (m' : Mantissa) (e' : Exponent), m'.getLsbD 37 ≠ m'.getLsbD 36 ∧ floatValue m' e' = i := by
  obtain ⟨e₀, normal⟩ : ∃ e₀ : ℤ, NormalFraction ((i : ℚ) / 2 ^ e₀) :=
    ⟨_, toRat_int i ▸ normalExponent_fraction (v := ⟨i, 1⟩) Nat.one_pos hi⟩
  have nonneg := normal.exponent_nonneg
  -- the exponent of the normal fraction is at most that of the given number, so that its mantissa is an integer
  have le : e₀ ≤ (e.toNat : ℤ) - 256 := by
    obtain ⟨low, high⟩ := floatValue_bounds m e
    exact normal.exponent_le (h ▸ low) (h ▸ high)
  obtain ⟨k, hk⟩ : ∃ k : ℕ, (e.toNat : ℤ) - 256 = e₀ + k := ⟨((e.toNat : ℤ) - 256 - e₀).toNat, by omega⟩
  have mantissa : (i : ℚ) / 2 ^ e₀ = ((m.toInt * 2 ^ k : ℤ) : ℚ) / 2 ^ 37 := by
    have scaled := floatValue_scaled m e
    rw [h, hk, zpow_add₀ (by norm_num), zpow_natCast] at scaled
    push_cast
    field_simp at scaled ⊢
    linarith
  rw [mantissa] at normal
  have value : (BitVec.ofInt 38 (m.toInt * 2 ^ k)).toInt = m.toInt * 2 ^ k := by
    have := (normalFraction_int_iff _).mp normal
    exact BitVec.toInt_ofInt_eq_self (by decide) (by omega) (by omega)
  have exponent : ((BitVec.ofNat 9 (e₀ + 256).toNat).toNat : ℤ) = e₀ + 256 := by
    have := e.isLt
    rw [BitVec.toNat_ofNat]
    omega
  refine ⟨_, BitVec.ofNat 9 (e₀ + 256).toNat, (normalised_iff _).mpr (value ▸ normal), ?_⟩
  have scaled := floatValue_scaled (BitVec.ofInt 38 (m.toInt * 2 ^ k)) (BitVec.ofNat 9 (e₀ + 256).toNat)
  rw [value, exponent, add_sub_cancel_right, ← mantissa] at scaled
  exact (div_left_inj' (by positivity)).mp scaled

/-- An integer of magnitude at most 2^37 is one that a number of the format holds. -/
theorem exists_floatValue_of_le {i : ℤ} (hi : i.natAbs ≤ 2 ^ 37) :
    ∃ (m : Mantissa) (e : Exponent), floatValue m e = i := by
  by_cases top : i = 2 ^ 37
  · refine ⟨1, 330, ?_⟩
    rw [top]
    show ((1 : ℤ) : ℚ) * 2 ^ (37 : ℤ) = ((2 ^ 37 : ℤ) : ℚ)
    norm_num
  · refine ⟨BitVec.ofInt 38 i, 293, ?_⟩
    have value : (BitVec.ofInt 38 i).toInt = i := BitVec.toInt_ofInt_eq_self (by decide) (by omega) (by omega)
    show ((BitVec.ofInt 38 i).toInt : ℚ) * 2 ^ (0 : ℤ) = i
    rw [value, zpow_zero, mul_one]

/-- The model's test that a number is an integer. -/
theorem fpval_num_eq_iff (m : Mantissa) (e : Exponent) (i : ℤ) :
    (fpval m e).num = i * (fpval m e).den ↔ floatValue m e = i := by
  have pos : ((fpval m e).den : ℚ) ≠ 0 := by exact_mod_cast (fpval_den_pos m e).ne'
  rw [← fpval_toRat, Exact.toRat, div_eq_iff pos]
  norm_cast

/-- FLOAT of a normalised number's integer answers its own bits. -/
theorem fpFloatRef_of_normalised {m : Mantissa} {e : Exponent} {hi lo : Word} (hm : m.getLsbD 37 ≠ m.getLsbD 36)
    (h : floatValue m e = wordsInt hi lo) : fpFloatRef hi lo = (m, e) := by
  have own : pack ⟨wordsInt hi lo, 1⟩ .round = ⟨m, e, false⟩ :=
    pack_eq Nat.one_pos (by rw [toRat_int, ← h]; exact rounded_floatValue hm e)
  rw [fpFloatRef_eq, own]

theorem fpFloatRef_of_zero {hi lo : Word} (h : wordsInt hi lo = 0) : fpFloatRef hi lo = (0, 0) := by
  rw [fpFloatRef_eq, h]
  rfl

/-- FLOAT of an integer that a number of the format holds answers that integer, in normalised form. -/
theorem fpFloatRef_exact {m : Mantissa} {e : Exponent} {hi lo : Word} (h : floatValue m e = wordsInt hi lo) :
    let r := fpFloatRef hi lo
    floatValue r.1 r.2 = wordsInt hi lo ∧ (r.1.getLsbD 37 ≠ r.1.getLsbD 36 ∨ (r.1 = 0 ∧ r.2 = 0)) := by
  by_cases zero : wordsInt hi lo = 0
  · rw [fpFloatRef_of_zero zero, zero]
    exact ⟨floatValue_zero 0, .inr ⟨rfl, rfl⟩⟩
  · obtain ⟨m', e', normalised, value⟩ := exists_normalised h zero
    rw [fpFloatRef_of_normalised normalised value]
    exact ⟨value, .inl normalised⟩

/-! ### The statements -/

/-- Settles O35: every reference result is the shared tail of an exact number, and the tail rounds it. -/
theorem referenceTailKeepsNormalised : Obligations.ReferenceTailKeepsNormalised := by
  refine ⟨fun m e hm => ⟨pack_normalised hm e, fpRef_zero_operand hm e, fpSubRef_self m e⟩, fun ma mb ea eb => ?_,
    fun hi lo => ?_, fpFixRef_words⟩
  · exact ⟨fpMulRef_rounded ma mb ea eb, rfl, fpDivRef_rounded, fun near => ⟨fpAddRef_rounded near, fpSubRef_rounded near⟩,
      fpRef_first_stands, fpRef_second_stands⟩
  · have rounded := fpFloatRef_rounded hi lo
    rwa [wordsInt_eq_mod, Int.cast_add, Int.cast_mul, Int.cast_pow, Int.cast_ofNat, Int.cast_natCast] at rounded

/-- Settles O36: FLOAT answers the normalised number of the integer, FIX its words, and both are determined by it. -/
theorem fixAndFloatAreInverse : Obligations.FixAndFloatAreInverse := by
  refine ⟨fun hi lo clear small => ?_, fun m e i small integer => ?_⟩
  · rw [← wordsInt_eq hi clear] at small
    obtain ⟨m, e, held⟩ := exists_floatValue_of_le small
    obtain ⟨value, _⟩ := fpFloatRef_exact held
    obtain ⟨words, clear', overflow⟩ := fpFixRef_of_integer value (by omega) (by omega)
    obtain ⟨first, second⟩ := words_unique clear' clear (words.trans (wordsInt_eq hi clear))
    exact congr (congrArg₂ FixResult.mk first second) overflow
  · have held := (fpval_num_eq_iff m e i).mp integer
    obtain ⟨words, clear, _⟩ := fpFixRef_of_integer held (by omega) (by omega)
    rw [← wordsInt_eq _ clear] at words
    rw [← words] at held
    obtain ⟨value, normalised⟩ := fpFloatRef_exact held
    exact ⟨(fpval_num_eq_iff _ _ i).mpr (words ▸ value), normalised, fun hm => fpFloatRef_of_normalised hm held⟩

end Sys2Proof.Machine
end

section
/-! Proofs of the family 45_branch (45_branch.md R330 to R354). An order that branches writes the advanced state and then either
goes to its target or stays at the next word; what differs between the orders is the condition and what they write. -/

namespace Sys2Proof.Machine

/-! ### Conditions in numbers -/

theorem decide_eq_zero_toNat {w : Nat} (v : BitVec w) : decide (v = 0) = decide (v.toNat = 0) :=
  decide_eq_decide.mpr (by rw [← BitVec.toNat_inj]; rfl)

theorem decide_ne_zero_toNat {w : Nat} (v : BitVec w) : decide (v ≠ 0) = decide (v.toNat ≠ 0) :=
  decide_eq_decide.mpr (not_congr (decide_eq_decide.mp (decide_eq_zero_toNat v)))

theorem eq_zero_iff_toInt {w : Nat} (v : BitVec w) : v = 0 ↔ v.toInt = 0 := by
  rw [← BitVec.toInt_inj, show (0 : BitVec w).toInt = 0 from BitVec.toInt_zero]

/-- The sign bit of a bit string. -/
theorem getLsbD_sign {w : Nat} (v : BitVec (w + 1)) : v.getLsbD w = decide (v.toInt < 0) :=
  (BitVec.msb_eq_getLsbD_last v).symm.trans BitVec.msb_eq_toInt

theorem not_getLsbD_sign {w : Nat} (v : BitVec (w + 1)) : (!v.getLsbD w) = decide (0 ≤ v.toInt) := by
  rw [getLsbD_sign, ← decide_not, decide_eq_decide, not_lt]

section
variable {s t u : State} {x : RegIx} {n : BitVec 15} {a : Addr} {c : Bool}

/-! ### What TRACE does to a branch -/

theorem branchTraced_eq_false_iff : s.branchTraced = false ↔ s.executive = true ∨ s.trace = false := by
  unfold State.branchTraced
  rw [Bool.and_eq_false_iff, Bool.not_eq_false']

/-- A branch in a state `t` that the order has made of `s`, EXEC and TRACE being as in `s`: a taken one is refused under TRACE
in user mode (45_branch.md R353), and any other answers the state with PC at the target or as it was. -/
theorem takeIf_runs (he : t.executive = s.executive) (ht : t.trace = s.trace)
    (hu : { t with pc := if c then a else t.pc } = u) :
    (c = true → s.executive = false → s.trace = true → takeIf c a t = .refused .branchTrace) ∧
      (c = false ∨ s.executive = true ∨ s.trace = false → takeIf c a t = .next u) := by
  rw [← he, ← ht]
  refine ⟨fun taken user traced => takeIf_refused taken ?_, fun free => ?_⟩
  · rw [State.branchTraced, user, traced]
    rfl
  · rw [takeIf_eq (free.imp_right branchTraced_eq_false_iff.mpr), hu]

/-! ### Index-and-branch orders -/

theorem countField_toNat (w : Word) : (countField w).toNat = w.toNat / 2 ^ 15 := by
  have := w.isLt
  rw [countField, toNat_field]
  omega

theorem addressField_toNat (w : Word) : (addressField w).toNat = w.toNat % 2 ^ 15 :=
  (toNat_field 0 15 w).trans (by rw [pow_zero, Nat.div_one])

/-- A field stepped down by one, with 0 wrapping to all ones. -/
theorem sub_one_toNat {w : Nat} (v : BitVec (w + 1)) : (v - 1).toNat = (v.toNat + (2 ^ (w + 1) - 1)) % 2 ^ (w + 1) := by
  rw [BitVec.toNat_sub, show (1 : BitVec (w + 1)).toNat = 1 by simp, Nat.add_comm]

/-- Two bit strings one after the other, from their numbers. -/
theorem append_eq_ofNat {v w : Nat} (y : BitVec v) (z : BitVec w) :
    y ++ z = BitVec.ofNat (v + w) (y.toNat * 2 ^ w + z.toNat) := by
  rw [← toNat_append, BitVec.ofNat_toNat, BitVec.setWidth_eq]

/-- The count of BUX, BDX and BCT is the one they wrote. -/
theorem countField_append (k : BitVec 9) (b : BitVec 15) : countField (k ++ b) = k :=
  BitVec.extractLsb'_append_eq_left

/-- An index-and-branch order whose stepped register and count are these numbers. -/
theorem countAndBranch_eq {step : Word → Word} {count : Word → Bool} {v k : Nat}
    (hv : step (s.reg x) = BitVec.ofNat 24 v) (hk : count (step (s.reg x)) = decide (k ≠ 0)) :
    countAndBranch x n s step count = if s.am22 then .refused .counter22
      else takeIf (decide (k ≠ 0)) (s.branchTarget n) (s.advance.setReg x (BitVec.ofNat 24 v)) := by
  rw [← hk, ← hv]
  rfl

/-- BUX, BDX and BCT: the count steps down, and what they make of the address stands below it. -/
theorem countAndBranch_countField {address : Word → BitVec 15} {b : Nat} (hb : (address (s.reg x)).toNat = b) :
    let count := ((s.reg x).toNat / 2 ^ 15 + 511) % 512
    countAndBranch x n s (fun w => (countField w - 1) ++ address w) (fun w => decide (countField w ≠ 0)) =
      if s.am22 then .refused .counter22
      else takeIf (decide (count ≠ 0)) (s.branchTarget n)
        (s.advance.setReg x (BitVec.ofNat 24 (count * 2 ^ 15 + b))) := by
  intro count
  have stepped : (countField (s.reg x) - 1).toNat = count := by
    rw [sub_one_toNat, countField_toNat]
    rfl
  apply countAndBranch_eq
  · rw [append_eq_ofNat, stepped, hb]
  · rw [countField_append, decide_ne_zero_toNat, stepped]

theorem charCountField_toNat (w : Word) : (charCountField w).toNat = w.toNat / 2 ^ 15 % 128 := toNat_field 15 7 w

/-- The lane of a pointer stepped in 15-bit mode, and the address that lane 3 carries into (42_char_shift_misc.md R211). -/
theorem charInc_fields (p : Word) :
    (pointerLane (charInc false p)).toNat = (p.toNat / 2 ^ 22 + 1) % 4 ∧
      (addressField (charInc false p)).toNat =
        if p.toNat / 2 ^ 22 = 3 then (p.toNat % 2 ^ 15 + 1) % 2 ^ 15 else p.toNat % 2 ^ 15 := by
  have lane := (pointerLane p).isLt
  rw [pointerLane_toNat] at lane
  rw [pointerLane_toNat, addressField_toNat, charInc_toNat, pointerLane_toNat, if_neg Bool.false_ne_true]
  by_cases carries : p.toNat / 2 ^ 22 = 3
  · rw [if_pos carries, if_neg (by omega)]
    omega
  · rw [if_neg carries, if_pos (by omega)]
    omega

/-- The count of BCHX is the one it wrote. -/
theorem charCountField_append (l : BitVec 2) (k : BitVec 7) (b : BitVec 15) : charCountField (l ++ k ++ b) = k :=
  (BitVec.extractLsb'_append_eq_of_le (le_refl 15)).trans BitVec.extractLsb'_append_eq_right

/-- BCHX: the lane steps up, the count of characters down, and the address as the lane carries. -/
theorem execBchx_eq :
    let a := (s.reg x).toNat % 2 ^ 15
    let lane := (s.reg x).toNat / 2 ^ 22
    let chars := ((s.reg x).toNat / 2 ^ 15 % 128 + 127) % 128
    execBchx x n s = if s.am22 then .refused .counter22
      else takeIf (decide (chars ≠ 0)) (s.branchTarget n) (s.advance.setReg x (BitVec.ofNat 24
        ((lane + 1) % 4 * 2 ^ 22 + chars * 2 ^ 15 + if lane = 3 then (a + 1) % 2 ^ 15 else a))) := by
  intro a lane chars
  obtain ⟨hlane, haddress⟩ := charInc_fields (s.reg x)
  have stepped : (charCountField (s.reg x) - 1).toNat = chars := by
    rw [sub_one_toNat, charCountField_toNat]
    rfl
  apply countAndBranch_eq
  · rw [append_eq_ofNat, toNat_append, stepped, hlane, haddress, Nat.add_mul, Nat.mul_assoc]
    rfl
  · rw [charCountField_append, decide_ne_zero_toNat, stepped]

/-! ### CALL and EXIT -/

theorem linkWord_toNat (s : State) : s.linkWord.toNat = s.v.toNat * 2 ^ 23 + s.zs.toNat * 2 ^ 22 + s.pc.toNat := by
  refine (toNat_append _ _).trans ?_
  rw [toNat_append, BitVec.toNat_ofBool, BitVec.toNat_ofBool]
  omega

/-- Bit 22 of a link word, as a comparison. -/
theorem getLsbD_22 (w : Word) : w.getLsbD 22 = decide (2 ^ 22 ≤ w.toNat % 2 ^ 23) := by
  rw [BitVec.getLsbD, Nat.testBit_eq_decide_div_mod_eq, decide_eq_decide]
  omega

/-- The flags and the address of a link word, read back from its number (45_branch.md R340, R341). -/
theorem link_fields (v z : Bool) (a : Addr) :
    let link := v.toNat * 2 ^ 23 + z.toNat * 2 ^ 22 + a.toNat
    decide (2 ^ 23 ≤ link) = v ∧ decide (2 ^ 22 ≤ link % 2 ^ 23) = z ∧ link % 2 ^ 22 = a.toNat := by
  have := a.isLt
  cases v <;> cases z <;> simp only [Bool.toNat_true, Bool.toNat_false, decide_eq_true_eq, decide_eq_false_iff_not] <;>
    omega

end

/-! ### The statements -/

/-- Settles O37: each order steps its register to the word of the statement and branches on the count in it. -/
theorem countingBranches : Obligations.CountingBranches := by
  intro s x n a count lane chars e he
  have runs : exec e.1 s = if s.am22 then .refused .counter22
      else takeIf (decide (e.2.2 ≠ 0)) (s.branchTarget n) (s.advance.setReg x (BitVec.ofNat 24 e.2.1)) := by
    have low := addressField_toNat (s.reg x)
    revert e
    simp only [List.forall_mem_cons, List.not_mem_nil, false_imp_iff, implies_true, and_true]
    exact ⟨countAndBranch_countField (address := fun w => addressField w + 1) (by rw [BitVec.toNat_add, low]; rfl),
      countAndBranch_countField (address := fun w => addressField w + 2) (by rw [BitVec.toNat_add, low]; rfl),
      countAndBranch_countField low, execBchx_eq⟩
  have next : { s.advance.setReg x (BitVec.ofNat 24 e.2.1) with
      pc := if decide (e.2.2 ≠ 0) then s.branchTarget n else s.nextAddr s.ia } =
      { s.setReg x (BitVec.ofNat 24 e.2.1) with
        pc := if e.2.2 = 0 then s.nextAddr s.ia else s.branchTarget n, pip := false } := by
    simp only [decide_eq_true_eq, ite_not]
    rfl
  obtain ⟨refused, completes⟩ := takeIf_runs (s := s) (c := decide (e.2.2 ≠ 0)) (a := s.branchTarget n)
    (t := s.advance.setReg x (BitVec.ofNat 24 e.2.1)) rfl rfl next
  refine ⟨fun wide => runs.trans (if_pos wide), fun narrow taken user traced => ?_, fun narrow free => ?_⟩
  · rw [runs, narrow]
    exact refused (decide_eq_true taken) user traced
  · rw [runs, narrow]
    exact completes (free.imp_left fun zero => decide_eq_false (not_not.mpr zero))

/-- Settles O38: CALL and EXIT are branches that are always taken, and the link word is the number of the statement. -/
theorem callAndExit : Obligations.CallAndExit := by
  intro s x n
  obtain ⟨callRefused, call⟩ := takeIf_runs (s := s) (c := true) (a := s.branchTarget n)
    (t := { s.advance.setReg x s.advance.linkWord with v := false }) rfl rfl rfl
  obtain ⟨exitRefused, exit⟩ := takeIf_runs (s := s) (c := true)
    (a := s.maskAddr (s.reg x + (s.linkDisplacement n).setWidth 24))
    (t := State.setZs { s.advance with v := (s.reg x).getLsbD 23 } ((s.reg x).getLsbD 22)) rfl (State.setZs_trace _ _) rfl
  refine ⟨fun ⟨user, traced⟩ => ⟨callRefused rfl user traced, exitRefused rfl user traced⟩, fun free =>
    ⟨⟨_, call (.inr free), rfl, rfl, rfl, ?_, fun i hi => ?_, rfl⟩,
      ⟨_, exit (.inr free), ?_, getLsbD_23 _, (State.setZs_zs _ _).trans (getLsbD_22 _), setZs_mode_low _ _, rfl, rfl⟩⟩⟩
  · exact (congrArg BitVec.toNat (State.reg_setReg_same _ _ _)).trans (linkWord_toNat s.advance)
  · exact (State.reg_setReg _ _ _ _).trans (if_neg hi)
  · show (s.maskAddr _).toNat = _
    rw [maskAddr_toNat, BitVec.toNat_add, BitVec.toNat_setWidth]
    split <;> omega

/-- Settles O39: EXIT adds 0 to the link, and reads the return address and both flags back from it. -/
theorem callExitRoundTrip : Obligations.CallExitRoundTrip := by
  intro s t u x n free call link width noPip free'
  obtain ⟨⟨t', call', _, _, _, linked, _, _⟩, _⟩ := (callAndExit s x n).2 free
  obtain rfl : t = t' := Host.Outcome.next.inj (call.symm.trans call')
  obtain ⟨_, w, exit, pc, v, zs, _⟩ := (callAndExit u x 0).2 free'
  obtain ⟨hv, hzs, haddress⟩ := link_fields s.v s.zs (s.nextAddr s.ia)
  rw [link, linked] at pc v zs
  refine ⟨w, exit, BitVec.eq_of_toNat_eq ?_, v.trans hv, zs.trans hzs⟩
  have nowhere : (u.linkDisplacement 0).toNat = 0 := by
    rw [linkDisplacement_toNat, offset_toNat, noPip]
    simp
  have within : (s.nextAddr s.ia).toNat < 2 ^ s.width := by
    rw [nextAddr_toNat]
    exact Nat.mod_lt _ (by positivity)
  rw [pc, nowhere, width, Nat.add_zero]
  show _ % 2 ^ s.width = _
  rw [← Nat.mod_mod_of_dvd _ (pow_dvd_pow 2 (width_le s)), haddress]
  exact Nat.mod_eq_of_lt within

/-- Settles O40: each order tests and writes in the advanced state, and its condition is the one of the statement. -/
theorem testingBranches : Obligations.TestingBranches := by
  intro s x n e he
  have runs : exec e.1 s = takeIf e.2.1 (s.branchTarget n) { s.advance with v := e.2.2 } := by
    revert e
    simp only [List.forall_mem_cons, List.not_mem_nil, false_imp_iff, implies_true, and_true]
    rw [← decide_eq_zero_toNat, ← decide_ne_zero_toNat, ← not_getLsbD_sign, ← getLsbD_sign]
    exact ⟨rfl, rfl, rfl, rfl, rfl, rfl, rfl, rfl, rfl, rfl, rfl, rfl⟩
  rw [runs]
  exact takeIf_runs rfl rfl rfl

/-- Settles O41: with the unit present the orders are branches on a flag of the advanced state. -/
theorem floatBranches : Obligations.FloatBranches := by
  intro s n present e he
  have runs : exec e.1 s = takeIf e.2.1 (s.branchTarget n) { s.advance with fov := e.2.2 } := by
    revert e
    simp only [List.forall_mem_cons, List.not_mem_nil, false_imp_iff, implies_true, and_true]
    simp only [← not_getLsbD_sign, ← getLsbD_sign, ne_eq, ← eq_zero_iff_toInt]
    refine ⟨?_, ?_, ?_, ?_, ?_, ?_⟩ <;> exact withOption_present present _
  rw [runs]
  exact takeIf_runs rfl rfl rfl

end Sys2Proof.Machine
end

section
/-! Proofs of the family 46_executive, first part: what a user program cannot do (46_executive.md R384; 60_exceptions.md R423).
Everything a step from user mode can come to is a chain of writes or an entry, and both leave the privileged state alone. -/

namespace Sys2Proof.Machine

section
variable {p : Permit} {s t : State} {w : Word}

/-! ### What the ends of a step leave -/

/-- The privileged state of `s` is untouched in `t`: the datum and limit pointers, and where `t` is still a user program every
bit of the mode byte but ZS, SR65, and the bits that were set in SR64. -/
def LeavesPrivileged (s t : State) : Prop :=
  t.rd = s.rd ∧ t.rl = s.rl ∧
    (t.executive = false →
      t.mode.extractLsb' 0 4 = s.mode.extractLsb' 0 4 ∧ t.sr65 = s.sr65 ∧
      ∀ k, s.sr64.getLsbD k = true → t.sr64.getLsbD k = true)

theorem LeavesPrivileged.refl (s : State) : LeavesPrivileged s s :=
  ⟨rfl, rfl, fun _ => ⟨rfl, rfl, fun _ h => h⟩⟩

/-- Bits set in SR64 clear none of it. -/
theorem LeavesPrivileged.raise (h : LeavesPrivileged s t) (bits : Word) :
    LeavesPrivileged s { t with sr64 := t.sr64 ||| bits } := by
  obtain ⟨hrd, hrl, user⟩ := h
  refine ⟨hrd, hrl, fun he => ?_⟩
  obtain ⟨hmode, h65, h64⟩ := user he
  refine ⟨hmode, h65, fun k hk => ?_⟩
  rw [BitVec.getLsbD_or, h64 k hk, Bool.true_or]

/-- ZS is the one bit of the mode byte that a user program may write. -/
theorem LeavesPrivileged.setZs (h : LeavesPrivileged s t) (b : Bool) : LeavesPrivileged s (t.setZs b) := by
  obtain ⟨hrd, hrl, user⟩ := h
  exact ⟨hrd, hrl, fun he => ⟨(setZs_mode_low t b).trans (user he).1, (user he).2⟩⟩

/-- A user program's chain of writes: the writes to privileged state are for executive mode only. -/
theorem Writes.leavesPrivileged (h : Writes p s t) (hu : s.executive = false) : LeavesPrivileged s t := by
  have notExecutive {v : State} (hv : Writes p s v) : v.executive ≠ true := fun he => by
    obtain ⟨_, same, _, _⟩ := hv.frame
    rw [same, hu] at he
    cases he
  induction h with
  | refl => exact .refl s
  | raise _ n _ ih => exact ih.raise _
  | setZs _ b _ ih => exact ih.setZs b
  | loadMode hv _ _ he | loadLimits hv _ _ he | loadStatus hv _ _ he => exact absurd he (notExecutive hv)
  | _ => assumption

/-- An entry keeps the datum and limit pointers, and no user program is left to speak of. -/
theorem enterTrap_leavesPrivileged {vector : Addr} (h : enterTrap vector s = .next t) : LeavesPrivileged s t := by
  obtain ⟨_, rfl⟩ := enterTrap_next h
  exact ⟨rfl, rfl, fun he => by cases he⟩

theorem voluntaryEntry_leavesPrivileged (h : voluntaryEntry s.advance = .next t) : LeavesPrivileged s t :=
  enterTrap_leavesPrivileged (s := s.advance) h

theorem abort_leavesPrivileged (h : abort s = .next t) : LeavesPrivileged s t := by
  obtain ⟨_, rfl⟩ := abort_next h
  exact (LeavesPrivileged.refl s).raise _

/-! ### A word run by a user program -/

/-- A reserved word goes on only by a voluntary entry. -/
theorem execReserved_next {e : Reserved} (h : execReserved e s = .next t) : voluntaryEntry s.advance = .next t := by
  cases e with
  | shiftSubmode3 => cases h
  | floatCondition =>
    rcases withOption_next h with ⟨_, h⟩ | ⟨_, _, h⟩
    · cases h
    · exact h
  | unassignedExec =>
    rcases privileged_next h with ⟨_, h⟩ | ⟨_, h⟩
    · cases h
    · exact h

/-- The executive return is not among the ends of a user program's instruction: EXX is an entry there. -/
theorem exec_leavesPrivileged {i : Instr} (hu : s.executive = false) (h : exec i s = .next t) : LeavesPrivileged s t := by
  cases exec_completes h with
  | writes h => exact h.leavesPrivileged hu
  | entry _ _ h => exact voluntaryEntry_leavesPrivileged h
  | exits _ he _ => exact absurd (hu.symm.trans he) (by decide)

theorem runWord_leavesPrivileged (hu : s.executive = false) (h : runWord w s = .next t) : LeavesPrivileged s t := by
  cases hd : decode s.cfg.codes w with
  | ok i => exact exec_leavesPrivileged hu ((runWord_ok hd).symm.trans h)
  | error e => exact voluntaryEntry_leavesPrivileged (execReserved_next ((runWord_error hd).symm.trans h))

/-! ### A cycle of a user program -/

theorem fetch_leavesPrivileged (hu : s.executive = false) (h : (fetch s).result = .next t) : LeavesPrivileged s t := by
  rw [fetch_eq] at h
  cases hr : memRead s.fetching s.fetching.ia false with
  | none =>
    rw [hr] at h
    exact abort_leavesPrivileged (s := s.fetching.consumePip) h
  | some w =>
    rw [hr] at h
    exact runWord_leavesPrivileged (s := s.fetching) hu h

/-- The Loading spin writes LOADING and PC alone. -/
theorem loadingCycle_leavesPrivileged (h : loadingCycle s = .next t) : LeavesPrivileged s t := by
  obtain rfl := Host.Outcome.next.inj h
  split
  · exact .refl s
  · exact .refl s

theorem cycleStart_leavesPrivileged (hu : s.executive = false) (h : (cycleStart s).result = .next t) :
    LeavesPrivileged s t := by
  unfold cycleStart at h
  split at h
  · cases h
  · split at h
    · cases h
      exact .refl s
    · split at h
      · exact loadingCycle_leavesPrivileged h
      · split at h
        · exact enterTrap_leavesPrivileged h
        · exact fetch_leavesPrivileged hu h

end

/-- Settles O56: with no turn of the environment a step runs the obeyed word or is a cycle, and whatever it comes to leaves the
privileged state. -/
theorem userCannotTouchPrivilegedState : Obligations.UserCannotTouchPrivilegedState := by
  intro s t hu ht h
  show LeavesPrivileged s t
  rw [step_eq_result] at h
  cases ho : s.obeyed with
  | some w =>
    rw [stepStart_obeyed ho] at h
    exact runWord_leavesPrivileged (s := { s with obeyed := none }) hu h
  | none =>
    rw [stepStart_cycle ho ht] at h
    exact cycleStart_leavesPrivileged hu h

end Sys2Proof.Machine
end

section
/-! Proofs of the family 46_executive, second part: the orders of the executive group (46_executive.md R371 to R383). In
executive mode each order is its meaning, in user mode it is the voluntary entry. -/

namespace Sys2Proof.Machine

section
variable {s : State} {i : Instr}

/-! ### The guard of the group -/

theorem privileged_executive (he : s.executive = true) (k : Result) : privileged s k = k := if_pos he

theorem privileged_user (hu : s.executive = false) (k : Result) : privileged s k = voluntaryEntry s :=
  if_neg (Bool.eq_false_iff.mp hu)

/-- Every order of the group is a voluntary entry in user mode (46_executive.md R371). -/
theorem exec_executive_user (hg : i.gate = .executive) (hu : s.executive = false) :
    exec i s = voluntaryEntry s.advance := by
  cases i with
  | rsr | wsr | exx | ldl | ldm | tdl | peri | xferIn | xferOut | search =>
    exact privileged_user (s := s.advance) hu _
  | _ => cases hg

/-! ### The mode byte -/

/-- The mode byte of a word as every write of MODE leaves it: EJM and AM22 need the extension, the other bits are the word's
(10_state.md R29). -/
theorem forceMode_byte (k : Config) (w : Word) :
    let byte := forceMode k (w.extractLsb' 0 5)
    byte.getLsbD 0 = (k.hasAm22 && w.getLsbD 0) ∧ byte.getLsbD 1 = w.getLsbD 1 ∧
      byte.getLsbD 2 = (k.hasAm22 && w.getLsbD 2) ∧ byte.getLsbD 3 = w.getLsbD 3 ∧ byte.getLsbD 4 = w.getLsbD 4 := by
  unfold forceMode
  cases k.hasAm22 <;> simp

/-- The status nibble of a peripheral's answer (46_executive.md R379). -/
theorem status_nibble (w : Word) : w &&& 0xF = BitVec.ofNat 24 (w.toNat % 16) := by
  apply BitVec.eq_of_toNat_eq
  have low : (w &&& 0xF).toNat = w.toNat % 16 := (BitVec.toNat_and _ _).trans (Nat.and_two_pow_sub_one_eq_mod w.toNat 4)
  rw [low, BitVec.toNat_ofNat]
  omega

/-! ### The words of the save area -/

/-- The index registers are restored from the words at RD on (60_exceptions.md R420). -/
theorem restored_reg (s : State) (i : RegIx) : s.restored.reg i = s.mem.read ((s.rd.toNat + i.toNat) % 2 ^ 22) := by
  have offset : (BitVec.ofNat 22 i.toNat).toNat = i.toNat := by
    have := i.isLt
    rw [BitVec.toNat_ofNat]
    omega
  calc s.restored.reg i = s.savedWord (BitVec.ofNat 22 i.toNat) := Vector.getElem_ofFn i.isLt
    _ = s.mem.read ((s.rd.toNat + i.toNat) % 2 ^ 22) := by rw [State.savedWord, saveAddr_eq, offset]

/-- The restored PC is cut to the restored width, not to the width of the executive program (60_exceptions.md R420). -/
theorem restored_pc_toNat (s : State) :
    s.restored.pc.toNat = (s.savedWord s.cfg.offPc).toNat % 2 ^ (if s.restored.am22 then 22 else 15) := by
  have cut := and_amask_toNat s.restored ((s.savedWord s.cfg.offPc).extractLsb' 0 22)
  refine cut.trans ?_
  rw [toNat_field]
  split <;> omega

end

/-! ### The statements -/

/-- Settles O43: each order is its meaning in the advanced state. -/
theorem executiveOrders : Obligations.ExecutiveOrders := by
  intro s x m n f he id next
  have runs : ∀ k, privileged s.advance k = k := privileged_executive (s := s.advance) he
  refine ⟨runs _, runs _, ⟨{ s with rd := (s.reg x).setWidth 22, rl := (s.reg (x + 1)).setWidth 22 }, runs _,
      BitVec.toNat_setWidth _ _, BitVec.toNat_setWidth _ _, rfl⟩,
    ⟨{ s with mode := forceMode s.cfg ((s.reg x).extractLsb' 0 5) }, runs _, fun wide => ?_, fun narrow => ?_, rfl⟩,
    ?_, ?_, runs _⟩
  · show (forceMode s.cfg _).toNat = _
    rw [forceMode, if_pos wide, toNat_field, pow_zero, Nat.div_one]
    rfl
  · obtain ⟨_, datum, _, trace, zs⟩ := forceMode_byte s.cfg (s.reg x)
    obtain ⟨am22, ejm⟩ := forceMode_narrow narrow ((s.reg x).extractLsb' 0 5)
    exact ⟨ejm, am22, datum, trace, zs⟩
  · refine (runs _).trans ?_
    rw [← Bool.decide_or]
    rfl
  · refine (runs _).trans ?_
    rw [status_nibble]
    rfl

/-- Settles O44: EXX is the executive return from the advanced state. -/
theorem exitExecutive : Obligations.ExitExecutive := by
  intro s x m n he word
  have runs : exec (.exx x m n) s = restore s.advance := privileged_executive (s := s.advance) he _
  have saved : ∀ o, s.advance.savedWord o = word o := fun o => congrArg s.mem.read (saveAddr_eq s o)
  rw [runs]
  refine ⟨fun hf => if_neg fun hi => hf (saveAreaFits_iff.mpr hi), fun hf =>
    ⟨s.advance.restored, if_pos (saveAreaFits_iff.mp hf), rfl, restored_reg s.advance, ?_⟩⟩
  obtain ⟨ejm, datum, am22, trace, zs⟩ := forceMode_byte s.cfg (s.advance.savedWord s.cfg.offSt)
  have pc := restored_pc_toNat s.advance
  have am := imageMantissa_toNat (s.advance.savedWord s.cfg.offFa) (s.advance.savedWord (s.cfg.offFa + 1))
  have ae := imageExponent_toNat (s.advance.savedWord (s.cfg.offFa + 1))
  simp only [← saved]
  exact ⟨rfl, rfl, pc, rfl, datum, trace, zs, ejm, am22, am, ae, rfl, rfl⟩

/-- Settles O45: every order of the group, assigned or not, is the voluntary entry from the advanced state. -/
theorem privilegedOrdersEnter : Obligations.PrivilegedOrdersEnter := by
  intro s x m n f hm hc hu u orders
  have assigned : ∀ i ∈ orders, exec i s = enterTrap s.cfg.vecVol u := fun i hi => by
    refine exec_executive_user ?_ hu
    revert i
    simp [orders, Instr.gate]
  have unassigned : execReserved (.unassignedExec f x m n) s = enterTrap s.cfg.vecVol u :=
    privileged_user (s := s.advance) hu _
  refine ⟨fun hf => ?_, fun hf => ?_⟩
  · obtain ⟨t, ht, entered, _⟩ := enterTrap_entered u s.cfg.vecVol hm hc hf
    exact ⟨fun i hi => ⟨t, (assigned i hi).trans ht, entered⟩, t, unassigned.trans ht, entered⟩
  · have fault : enterTrap s.cfg.vecVol u = .fault .saveArea := enterTrap_fault s.cfg.vecVol hf
    exact ⟨fun i hi => (assigned i hi).trans fault, unassigned.trans fault⟩

end Sys2Proof.Machine
end

section
/-! Proofs of the family 60_exceptions: the turns of the environment (60_exceptions.md R433, R434), the hardware entry (R411,
R412), the executive return that undoes an entry (R425), and what the spec gives no meaning (R440). -/

namespace Sys2Proof.Machine

/-! ### A context saved and read back -/

section
variable {s t : State}

/-- The PC word holds V, C and PC (60_exceptions.md R412). -/
theorem pcWord_fields (s : State) :
    s.pcWord.getLsbD 23 = s.v ∧ s.pcWord.getLsbD 22 = s.c ∧ s.pcWord.extractLsb' 0 22 = s.pc := by
  refine ⟨?_, ?_, BitVec.extractLsb'_append_eq_right⟩ <;>
    rw [State.pcWord, BitVec.getLsbD_append, BitVec.getLsbD_append] <;> simp

/-- The status word holds FOV and the mode byte (60_exceptions.md R412). -/
theorem statusWord_fields (s : State) : s.statusWord.getLsbD 5 = s.fov ∧ s.statusWord.extractLsb' 0 5 = s.mode := by
  refine ⟨?_, BitVec.extractLsb'_append_eq_right⟩
  rw [State.statusWord, BitVec.getLsbD_append, BitVec.getLsbD_append]
  simp

/-- The two-word image of a floating number gives its mantissa and exponent back (10_state.md R35). -/
theorem image_of_floatWords (m : Mantissa) (e : Exponent) :
    imageMantissa (floatWord0 m) (floatWord1 m e) = m ∧ imageExponent (floatWord1 m e) = e := by
  refine ⟨BitVec.eq_of_toNat_eq ?_, BitVec.extractLsb'_append_eq_right⟩
  have := m.isLt
  have := e.isLt
  rw [imageMantissa_toNat, floatWord0_eq_ofNat, floatWord1_eq_ofNat, BitVec.toNat_ofNat, BitVec.toNat_ofNat]
  omega

/-- A mode byte that needs no extension, or a machine that has it: nothing is forced to 0 (10_state.md R29). -/
theorem forceMode_mode (h : s.cfg.hasAm22 = true ∨ (s.am22 = false ∧ s.ejm = false)) : forceMode s.cfg s.mode = s.mode := by
  unfold forceMode
  split
  · rfl
  · rename_i absent
    obtain ⟨am22, ejm⟩ := h.resolve_left absent
    unfold State.am22 at am22
    unfold State.ejm at ejm
    generalize s.mode = byte at am22 ejm
    revert byte
    decide

/-- The executive return from a save area that holds the context of a user program `s`, whatever the state `t` that returns. -/
theorem restored_of_saved (hu : s.executive = false) (hc : t.cfg = s.cfg) (hb : forceMode s.cfg s.mode = s.mode)
    (hw : ∀ e ∈ s.saveWords, t.savedWord e.1 = e.2) :
    t.restored = { t with
      regs := s.regs, v := s.v, c := s.c, mode := s.mode, fov := s.fov, am := s.am, ae := s.ae,
      executive := s.executive, pc := s.pc &&& s.amask } := by
  simp only [State.saveWords, List.forall_mem_cons, List.not_mem_nil, false_imp_iff, implies_true, and_true] at hw
  obtain ⟨r0, r1, r2, r3, r4, r5, r6, r7, pcw, stw, fa0, fa1⟩ := hw
  have regs : (Vector.ofFn fun i : Fin 8 => t.savedWord (BitVec.ofNat 22 i)) = s.regs := by
    apply Vector.ext
    intro i hi
    rw [Vector.getElem_ofFn]
    match i with
    | 0 => exact r0
    | 1 => exact r1
    | 2 => exact r2
    | 3 => exact r3
    | 4 => exact r4
    | 5 => exact r5
    | 6 => exact r6
    | 7 => exact r7
  obtain ⟨v, c, pc⟩ := pcWord_fields s
  obtain ⟨fov, mode⟩ := statusWord_fields s
  obtain ⟨am, ae⟩ := image_of_floatWords s.am s.ae
  unfold State.restored
  simp only [hu, hc, regs, pcw, stw, fa0, fa1, v, c, pc, fov, mode, hb, am, ae]
  rfl

/-- After an entry the save area, whose base is still RD, is installed, and its words read as the save wrote them
(60_exceptions.md R412, R441). -/
theorem enterTrap_saveArea {vector : Addr} (hm : s.mem.wf) (hn : s.cfg.saveOffsets.Nodup)
    (h : enterTrap vector s = .next t) : t.SaveAreaFits ∧ ∀ e ∈ s.saveWords, t.savedWord e.1 = e.2 := by
  obtain ⟨saved, _, _⟩ := save_mem s hm hn
  obtain ⟨installed, _⟩ := enterTrap_next h
  have fits : s.SaveAreaFits := saveAreaFits_iff.mpr installed
  rw [enterTrap_eq vector fits] at h
  generalize s.save.mem = mem at saved h
  cases h
  exact ⟨fits, saved⟩

/-- EXX in executive mode is the executive return from the advanced state (46_executive.md R378). -/
theorem exec_exx_returns {x : RegIx} {m : ModIx} {n : BitVec 12} (he : t.executive = true) (hf : t.SaveAreaFits) :
    exec (.exx x m n) t = .next t.advance.restored :=
  (privileged_executive (s := t.advance) he _).trans (if_pos (saveAreaFits_iff.mp hf))

end

/-! ### The turns of the environment -/

section
variable {m : Memory}

/-- One word of a device's turn keeps the canonical form, installed or not. -/
theorem deviceWrite_wf (hm : m.wf) (k : Nat) (c : Cell) : (if c.1 < k then m.write c.1 c.2 else m).wf := by
  split
  · exact Memory.wf_write m _ _ hm
  · exact hm

/-- One word of a device's turn, read back where it is installed. -/
theorem deviceWrite_read (hm : m.wf) (k p : Nat) (c : Cell) :
    (if c.1 < k then m.write c.1 c.2 else m).read p = if c.1 < k ∧ p = c.1 then c.2 else m.read p := by
  by_cases hc : c.1 < k
  · simp only [hc, if_true, true_and]
    exact Memory.read_write m _ _ _ hm
  · simp only [hc, if_false, false_and]

end

theorem deviceWrites_wf (k : Nat) : ∀ (l : List Cell) (m : Memory), m.wf →
    (l.foldl (fun mem c => if c.1 < k then mem.write c.1 c.2 else mem) m).wf
  | [], _, hm => hm
  | c :: l, _, hm => deviceWrites_wf k l _ (deviceWrite_wf hm k c)

/-- After a device's writes an installed word is the last one written to its address (60_exceptions.md R433). -/
theorem deviceWrites_read (k p : Nat) : ∀ (l : List Cell) (m : Memory), m.wf →
    (l.foldl (fun mem c => if c.1 < k then mem.write c.1 c.2 else mem) m).read p =
      if p < k then (l.reverse.lookup p).getD (m.read p) else m.read p
  | [], _, _ => by simp
  | c :: l, m, hm => by
    rw [List.foldl_cons, deviceWrites_read k p l _ (deviceWrite_wf hm k c), deviceWrite_read hm k p c, List.reverse_cons,
      List.lookup_append]
    by_cases hp : p = c.1
    · subst hp
      by_cases hk : c.1 < k
      · cases l.reverse.lookup c.1 <;> simp [List.lookup, hk]
      · simp [hk]
    · have hne : (p == c.1) = false := beq_eq_false_iff_ne.mpr hp
      simp [List.lookup, hp, hne]

/-- A word with one bit set, bit by bit. -/
theorem bitWord_getLsbD (n : Fin 24) (k : Nat) : (bitWord n).getLsbD k = decide (k = n) := by
  rw [bitWord, BitVec.getLsbD_twoPow, decide_eq_true n.isLt, Bool.true_and, decide_eq_decide]
  exact eq_comm

/-! ### What the spec gives no meaning -/

/-- A floating order of a present unit with X not 0 is refused (44_float.md R308). -/
theorem floatOrder_variant {s : State} {x : RegIx} (hp : s.cfg.hasFp = true) (hx : x ≠ 0) (k : Result) :
    floatOrder x s k = .refused .floatVariant :=
  (withOption_present hp _).trans (if_neg hx)

/-! ### The statements -/

/-- Settles O9: a turn that is due is the whole step. -/
theorem environmentTurns : Obligations.EnvironmentTurns := by
  intro s writes b64 b65 rest hm ho
  refine ⟨⟨State.deviceTurn { s with turns := rest } writes b64 b65, step_turnStart ho,
      fun p => deviceWrites_read s.cfg.memSize p writes s.mem hm, fun k => BitVec.getLsbD_or, fun k => ?_, rfl, rfl,
      deviceWrites_wf s.cfg.memSize writes s.mem hm⟩,
    State.timerTick { s with turns := rest }, step_turnStart ho, fun k => ?_, rfl, rfl⟩
  · exact BitVec.getLsbD_or.trans (by rw [BitVec.getLsbD_and])
  · exact BitVec.getLsbD_or.trans (by rw [bitWord_getLsbD])

/-- Settles O47: the entry is due, so that it is the whole step. (The unqualified name is the model's operation.) -/
theorem Exceptions.hardwareEntry : Obligations.HardwareEntry := by
  intro s hr hm hc hu hp cond
  have due : (!s.executive && !s.pip && s.pending) = true := by
    rw [hu, hp]
    simpa [State.pending] using cond
  have entry : step s = enterTrap s.cfg.vecHw s := step_hardwareEntry hr due
  refine ⟨fun hf => ?_, fun hf => entry.trans (enterTrap_fault s.cfg.vecHw hf)⟩
  obtain ⟨t, ht, entered, _⟩ := enterTrap_entered s s.cfg.vecHw hm hc hf
  exact ⟨t, entry.trans ht, entered⟩

/-- Settles O48: the entry saves the context where the return, in the same save area, reads it back. -/
theorem entryThenReturnRestores : Obligations.EntryThenReturnRestores := by
  intro s t vector x m n hm hc hu hf hx ht
  obtain ⟨u, entry, entered, _⟩ := enterTrap_entered s vector hm hc hf
  obtain rfl : t = u := Host.Outcome.next.inj (ht.symm.trans entry)
  obtain ⟨_, _, _, _, _, ⟨_, _, _, nodup⟩, _⟩ := hc
  obtain ⟨executive, _⟩ := entered.mode
  have cfg : t.cfg = s.cfg := (congrArg State.cfg entered.rest :)
  obtain ⟨fits, words⟩ := enterTrap_saveArea hm nodup ht
  refine ⟨t.advance.restored, exec_exx_returns executive fits, ?_⟩
  rw [restored_of_saved (t := t.advance) hu cfg (forceMode_mode hx) words]
  exact congrArg (fun w : State => { w with regs := s.regs, am := s.am, ae := s.ae, pc := s.pc &&& s.amask }) entered.rest

/-- Settles O51: each order ends at a refusal of its own, the gate before it being open. -/
theorem refusedInstructions : Obligations.RefusedInstructions := by
  intro s x m n f c d
  refine ⟨rfl, rfl, fun hp hx => ?_, fun he => ?_, rfl, fun hp => withOption_present hp _⟩
  · have refused : ∀ k, floatOrder x s k = .refused .floatVariant := floatOrder_variant hp hx
    simp only [List.forall_mem_cons, List.not_mem_nil, false_imp_iff, implies_true, and_true]
    exact ⟨refused _, refused _, refused _, refused _, refused _, refused _, refused _, refused _⟩
  · have runs : ∀ k, privileged s.advance k = k := privileged_executive (s := s.advance) he
    exact ⟨runs _, runs _, runs _⟩

end Sys2Proof.Machine
end
